-- ==== Sys2Proof/Word.lean ====
section
/-! DEFINITION. Word.lean: the word types of the Lestova 2480 model and the saturating sum of the manual's conventions. -/

namespace Sys2Proof

/-- One byte of recorder memory or of a packet. -/
abbrev Byte := BitVec 8

/-- A mark, an order number or a wrapping 32-bit counter (Manual Conventions, Marks; R58). -/
abbrev Mark := BitVec 32

/-- A 128-bit key. Byte `j` of the key is bits `8 * j + 7 .. 8 * j`. -/
abbrev Key := BitVec 128

/-- The largest value of a 32-bit field, 4,294,967,295. -/
def top32 : Nat := 4294967295

/-- A sum that saturates at 4,294,967,295 (Manual Conventions, Saturation). -/
def satAdd (a b : Nat) : Nat := min (a + b) top32

end Sys2Proof
end

