-- ==== Sys2Proof/Syntax.lean ====
section
/-! DEFINITION. Syntax.lean: the commands and events of the part, one constructor per row of spec/opcode_table.json. -/

namespace Sys2Proof

/-- What the recorder (host, demultiplexer, decoder, drivers) has written into its own memory and what the part
finds there when it next reads it: blocks of bytes in the order written, each at its first address.
Every command that reads recorder memory carries it (log 1). -/
abbrev Writes := List (Nat × List Byte)

/-- The registers a write to which is ignored (R49). -/
inductive ReadOnlyReg where
  | ident | status | attention
  deriving DecidableEq, Repr

/-- The commands and events, in the table's order. Operands: `v` a value written to a register, `w` the recorder's
writes that are visible when the part reads memory, `n` a slot, `made` and `queryMade` how many bytes of a write that
a reset cuts off were already in memory (R46, R25), `key` the key a draw prepared (R10). -/
inductive Instr where
  | fullReset (made queryMade : Nat)
  | engineReset (v : BitVec 32) (made queryMade : Nat)
  | start (v : BitVec 32) (w : Writes)
  | stop (v : BitVec 32)
  | stopDrainEnd
  | loadDivisorAndAttnEnable (v : BitVec 32)
  | sweepRequest (v : BitVec 32)
  | attentionRead
  | boardBaseLowWrite (v : BitVec 32)
  | boardBaseHighWrite (v : BitVec 32)
  | registerWriteIgnored (r : ReadOnlyReg) (v : BitVec 32)
  | sweepTimerExpiry
  | slotStep (w : Writes)
  | endOfSweepWrites (w : Writes)
  | recordOpen (w : Writes)
  | playOpen (w : Writes)
  | checkOpen (w : Writes)
  | moveOpen (w : Writes)
  | recordClose (w : Writes)
  | recordAbort (w : Writes)
  | playCheckClose (w : Writes)
  | playCheckAbort (w : Writes)
  | moveClose (w : Writes)
  | moveAbort (w : Writes)
  | faultedSlotReturn (w : Writes)
  | rule (w : Writes)
  | rotate (w : Writes)
  | flush (w : Writes)
  | unknownOrder (w : Writes)
  | fresh (w : Writes)
  | save (w : Writes)
  | load (w : Writes)
  | time (w : Writes)
  | erase (w : Writes)
  | query (w : Writes)
  | queryWriteComplete
  | unknownPartOrder (w : Writes)
  | keyDrawComplete (key : Key)
  | keyHandover
  | takeStart (n : Fin 8) (w : Writes)
  | takeComplete (n : Fin 8) (w : Writes)
  | chunkOpen (n : Fin 8)
  | holdTimerExpiry (n : Fin 8)
  | cipherGrant
  | sealingBatch
  | closingBatch
  | frameTake (n : Fin 8)
  | verifyBatch (w : Writes)
  | deliverBatch (w : Writes)
  | outputReservation (n : Fin 8)
  | resealBatch (w : Writes)
  | finalResealBatch
  | saveEntryBatch
  | saveHeaderBatch
  | loadHeaderBatch (w : Writes)
  | loadEntryBatch (w : Writes)
  | clockTick
  | slotFaultLapsed (n : Fin 8) (w : Writes)
  deriving DecidableEq, Repr

end Sys2Proof
end

