-- ==== Sys2Proof/Decode.lean ====
section
/-! DEFINITION. Decode.lean: the command a word spells. The part takes no coded commands: no row of the table gives bits. -/

namespace Sys2Proof

/-- The command that a word of `nbits` bits spells by the table's bits: no row gives any, so no word spells a command. -/
def decodeTableWord (_nbits _w : Nat) : Option Instr := none

end Sys2Proof
end

