-- ==== Sys2Proof/Machine/Bytes.lean ====
section
/-! DEFINITION. Machine/Bytes.lean: byte order. Multi-byte fields in memory are little-endian (Manual Conventions, Numbers). -/

namespace Sys2Proof.Machine

/-- The low `n` bytes of `v`, least significant first. -/
def le : Nat → Nat → List Byte
  | 0, _ => []
  | n + 1, v => BitVec.ofNat 8 v :: le n (v / 256)

/-- The number whose bytes, least significant first, are given. -/
def ofLe : List Byte → Nat
  | [] => 0
  | b :: bs => b.toNat + 256 * ofLe bs

/-- The field of `len` bytes at offset `off` of a structure, as a number. -/
def field (bs : List Byte) (off len : Nat) : Nat := ofLe ((bs.drop off).take len)

/-- The byte at offset `i`; a structure is read as zero past the bytes given. -/
def byteAt (bs : List Byte) (i : Nat) : Byte := bs.getD i 0

/-- `n` zero bytes. -/
def zeros (n : Nat) : List Byte := List.replicate n 0

/-- The 16 bytes of a 128-bit value, byte 0 first. -/
def bytes16 (k : Key) : List Byte := le 16 k.toNat

/-- The 128-bit value of up to 16 bytes, byte 0 first. -/
def pack16 (bs : List Byte) : Key := BitVec.ofNat 128 (ofLe bs)

/-- Exclusive-or of two runs of bytes, as long as the shorter. -/
def xorBytes (a b : List Byte) : List Byte := List.zipWith (· ^^^ ·) a b

/-- A flag as bit `i` of a number. -/
def flagBit (b : Bool) (i : Nat) : Nat := if b then 2 ^ i else 0

/-- The byte whose bit `i` is the `i`th flag of the list. -/
def flagsByte : List Bool → Nat
  | [] => 0
  | b :: bs => (if b then 1 else 0) + 2 * flagsByte bs

/-- A run of bytes cut into packets of 188 bytes, `count` of them. -/
def packetsOf (bs : List Byte) (count : Nat) : List (List Byte) :=
  (List.range count).map fun i => (bs.drop (188 * i)).take 188

end Sys2Proof.Machine
end

