-- ==== Sys2Proof/Machine/Aes.lean ====
section
/-! DEFINITION. Machine/Aes.lean: the AES-128 block cipher. The manual names it (00_scope, Terms and Abbreviations) and
does not define it; the tables and the rounds are those of FIPS 197 (PRESUMED, log 5). A block and a key are 16 bytes
in the order in which they stand in memory. -/

namespace Sys2Proof.Machine.Aes

/-- The substitution table of AES as one number, byte `x` at bits `8 * x + 7 .. 8 * x`. -/
def sboxTable : Nat :=
  0x75b227ebe28012079a059618c323c7041531d871f1e5a534ccf73f362693fdb7c072a49cafa2d4adf04759fa7dc982ca76abd7fe2b670130c56f6bf27b777c63 * 2 ^ 0 +
  0xd2f3ff1021dab6bcf5389d928f40a351a89f3c507f02f94585334d43fbaaefd0cf584c4a39becb6a5bb1fc20ed00d153842fe329b3d63b52a05a6e1b1a2c8309 * 2 ^ 512 +
  0x08ae7a65eaf4566ca94ed58d6d37c8e779e4959162acd3c25c2406490a3a32e0db0b5ede14b8ee4688902a22dc4f816073195d643d7ea7c41744975fec130ccd * 2 ^ 1024 +
  0x16bb54b00f2d99416842e6bf0d89a18cdf2855cee9871e9b948ed9691198f8e19e1dc186b95735610ef6034866b53e708a8bbd4b1f74dde8c6b4a61c2e2578ba * 2 ^ 1536

/-- The inverse substitution table of AES, laid out as `sboxTable` is. -/
def invSboxTable : Nat :=
  0x25d18b6d49a25b76b224d92866a12e084ec3fa420b954cee3d23c2a632947b54cbe9dec444438e3487ff2f9b8239e37cfbd7f3819ea340bf38a53630d56a0952 * 2 ^ 0 +
  0x6b8a130103bdafc1020f3fca8f1e2cd00645b3b80558e4f70ad3bc8c00abd890849d8da75746155edab9edfd5048706c92b6655dcc5ca4d41698688664f6f872 * 2 ^ 512 +
  0xf45acd78fec0db9a2079d2c64b3e56fc1bbe18aa0e62b76f89c5291d711af1476edf751ce837f9e28535ade72274ac9673e6b4f0cecff297eadc674f4111913a * 2 ^ 1024 +
  0x7d0c2155631469e126d677ba7e042b17619953833cbbebc8b0f52aae4d3be0a0ef9cc9939f7ae52d0d4ab519a97f51605fec8027591012b131c7078833a8dd1f * 2 ^ 1536

def sbox (b : Byte) : Byte := BitVec.ofNat 8 (sboxTable >>> (8 * b.toNat))

def invSbox (b : Byte) : Byte := BitVec.ofNat 8 (invSboxTable >>> (8 * b.toNat))

/-- Multiplication by 2 in the field of AES. -/
def xtime (b : Byte) : Byte := (b <<< 1) ^^^ (if b.getLsbD 7 then 0x1B else 0)

/-- The bytes of a block taken at the given positions. -/
def permute (order : List Nat) (st : List Byte) : List Byte := order.map (byteAt st)

def shiftRows (st : List Byte) : List Byte := permute [0, 5, 10, 15, 4, 9, 14, 3, 8, 13, 2, 7, 12, 1, 6, 11] st

def invShiftRows (st : List Byte) : List Byte := permute [0, 13, 10, 7, 4, 1, 14, 11, 8, 5, 2, 15, 12, 9, 6, 3] st

/-- One column multiplied by the matrix of AES. -/
def mixColumn (a b c d : Byte) : List Byte :=
  let t := a ^^^ b ^^^ c ^^^ d
  [a ^^^ t ^^^ xtime (a ^^^ b), b ^^^ t ^^^ xtime (b ^^^ c), c ^^^ t ^^^ xtime (c ^^^ d), d ^^^ t ^^^ xtime (d ^^^ a)]

/-- One column multiplied by the inverse matrix of AES. -/
def invMixColumn (a b c d : Byte) : List Byte :=
  let u := xtime (xtime (a ^^^ c))
  let v := xtime (xtime (b ^^^ d))
  mixColumn (a ^^^ u) (b ^^^ v) (c ^^^ u) (d ^^^ v)

/-- A column operation on each of a block's four columns. -/
def onColumns (f : Byte → Byte → Byte → Byte → List Byte) : List Byte → List Byte
  | a :: b :: c :: d :: rest => f a b c d ++ onColumns f rest
  | _ => []

/-- The next round key from the last one and the round constant. -/
def nextRoundKey (rcon : Byte) (k : List Byte) : List Byte :=
  let g := [sbox (byteAt k 13) ^^^ rcon, sbox (byteAt k 14), sbox (byteAt k 15), sbox (byteAt k 12)]
  let w0 := xorBytes (k.take 4) g
  let w1 := xorBytes ((k.drop 4).take 4) w0
  let w2 := xorBytes ((k.drop 8).take 4) w1
  let w3 := xorBytes ((k.drop 12).take 4) w2
  w0 ++ w1 ++ w2 ++ w3

/-- The round keys from the given one onward, one for each round constant left. -/
def roundKeys : List Byte → List Byte → List (List Byte)
  | [], k => [k]
  | rcon :: rest, k => k :: roundKeys rest (nextRoundKey rcon k)

/-- The 11 round keys of a key. -/
def schedule (key : Key) : List (List Byte) :=
  roundKeys [0x01, 0x02, 0x04, 0x08, 0x10, 0x20, 0x40, 0x80, 0x1B, 0x36] (bytes16 key)

/-- The rounds after the first key addition; the last round mixes no columns. -/
def rounds : List (List Byte) → List Byte → List Byte
  | [], st => st
  | [k], st => xorBytes (shiftRows (st.map sbox)) k
  | k :: ks, st => rounds ks (xorBytes (onColumns mixColumn (shiftRows (st.map sbox))) k)

/-- The inverse rounds, their keys in reverse order; the last key is added alone. -/
def invRounds : List (List Byte) → List Byte → List Byte
  | [], st => st
  | [k], st => xorBytes (invShiftRows st |>.map invSbox) k
  | k :: ks, st => invRounds ks (onColumns invMixColumn (xorBytes ((invShiftRows st).map invSbox) k))

/-- AES-128 encipherment of a block of 16 bytes. -/
def encipherBytes (key : Key) (block : List Byte) : List Byte :=
  match schedule key with
  | [] => block
  | k :: ks => rounds ks (xorBytes block k)

/-- AES-128 decipherment of a block of 16 bytes. -/
def decipherBytes (key : Key) (block : List Byte) : List Byte :=
  match (schedule key).reverse with
  | [] => block
  | k :: ks => invRounds ks (xorBytes block k)

/-- AES-128 encipherment of a block under a key. -/
def encipher (key block : Key) : Key := pack16 (encipherBytes key (bytes16 block))

/-- AES-128 decipherment of a block under a key. -/
def decipher (key block : Key) : Key := pack16 (decipherBytes key (bytes16 block))

end Sys2Proof.Machine.Aes
end

