-- ==== Sys2Proof/Config.lean ====
section
/-! DEFINITION. Config.lean: what manufacture fixes and what the manual leaves open, as constants with no body. -/

namespace Sys2Proof.Config

/-- The box key fused at manufacture (00_scope, Block Overview). No value is given and none can be proved (log 4). -/
opaque boxKey : Key

/-- The transfer key fused at manufacture (00_scope, Block Overview) (log 4). -/
opaque transferKey : Key

/-- The entry state that LOAD takes for a state code above 6 in an image whose check value agrees. The manual gives
codes 0 to 6 only (log 13). -/
opaque entryStateCode : Byte → Fin 7

/-- The class that LOAD takes for a class code above 3 in an image whose check value agrees (log 13). -/
opaque classCode : Byte → Fin 4

/-- The number of segments that LOAD takes for a segment count above 16 in an image whose check value agrees (log 13). -/
opaque segmentCount : Nat → Fin 17

end Sys2Proof.Config
end

