-- ==== Sys2Proof/Machine/State.lean ====
section
/-! DEFINITION. Machine/State.lean: everything the manual gives the part, as plain data, and its value after a full
reset. Recorder memory is the recorder's; it stands here because the part reads and writes it. -/

namespace Sys2Proof.Machine

/-! ## Reasons a step can stop -/

/-- Faults of a step. -/
inductive Fault where
  /-- Raised by every command with an operand of recorder writes when a block of them does not lie below 2^64, an
  address that no access over the link has (R48: the base has address bits 63 to 0). Safe: the step has no meaning. -/
  | noSuchAddress
  deriving DecidableEq, Repr

/-- Refusals of a step. -/
inductive Refusal where
  /-- Raised by exec for a command that has no meaning yet. Safe. -/
  | notModelled (mnemonic : String)
  /-- Raised by the four commands that are a write to CONTROL, when the value written does not make the request the
  command names (R50): the operand contradicts the command. Safe. -/
  | requestMismatch
  deriving DecidableEq, Repr

/-! ## Code sets (3.10, Codes) -/

/-- The part state (R49). -/
inductive PartState where
  | stopped | running | stopping
  deriving DecidableEq, Repr

/-- The start refusal shown by STATUS (R51). -/
inductive StartRefusal where
  | none | boardOutside | windowsBad
  deriving DecidableEq, Repr

/-- The state of a slot (3.10). -/
inductive SlotState where
  | idle | opening | running | stalled | closing | faulted | verifying | delivering | waiting
  deriving DecidableEq, Repr

/-- What a slot is used for. -/
inductive Mode where
  | off | record | play | check | move
  deriving DecidableEq, Repr

/-- The fault code of a slot. -/
inductive SlotFault where
  | none | window | mark | lapsed
  deriving DecidableEq, Repr

/-- The result of an order. -/
inductive Result where
  | none | done | busy | notReady | wrongState | noRoom | badOperand | window | expired | viewsUsed | cls | tokenBad
  | imageBad | imageOld | unknown
  deriving DecidableEq, Repr

/-- The outcome of a chunk frame. -/
inductive FrameOutcome where
  | none | delivered | verified | movedOut | skippedClass | outOfOrder | noMarker | wrongRecording | badLength
  | noSegment | notYet | beyondEnd | badCheck | aged | expired | moved | abandoned | lapsed
  deriving DecidableEq, Repr

/-- The state of a recording entry (1.1). -/
inductive EntryState where
  | free | live | held | moving | moved | lapsed | retired
  deriving DecidableEq, Repr

/-- The copy rule of a segment, loosest first (R18). -/
inductive RuleClass where
  | openCopy | once | noMore | never
  deriving DecidableEq, Repr

/-- The action of a watch entry (R67). -/
inductive Action where
  | notUsed | seal | index | clear | drop
  deriving DecidableEq, Repr

/-- The action of a time report (R144), `none` before the first. -/
inductive VoteAction where
  | none | kept | trimmed | voted | jumped
  deriving DecidableEq, Repr

/-- An attention cause (11.1). -/
inductive Cause where
  | fault | result | progress | lapse | absent
  deriving DecidableEq, Repr

/-- One pending flag of the Attention Unit: a cause and its source, slots 0 to 7 or the part itself as 8 (R172). -/
structure Flag where
  cause : Cause
  source : Fin 9
  deriving DecidableEq, Repr

/-! ## The Recording Table (chapter 1) -/

/-- A segment (R14). Its index is its place in the list. -/
structure Segment where
  first : Nat
  count : Nat
  key : Option Key
  cls : RuleClass
  hold : Option Nat
  firstStamp : Option Nat
  lastStamp : Option Nat
  deriving DecidableEq, Repr

/-- A rule as clamped by R9, without expiry and views: a class and, for NEVER, a hold. -/
structure ClassHold where
  cls : RuleClass
  hold : Option Nat
  deriving DecidableEq, Repr

/-- A recording entry (1.1). -/
structure Entry where
  state : EntryState
  generation : Nat
  /-- The chunk length L in packets. -/
  chunkLength : Nat
  chunkCount : Nat
  rotation : Nat
  expiry : Option Nat
  views : Option Nat
  moveMark : Nat
  interrupted : Bool
  rotationHeld : Bool
  lastViewTaken : Bool
  /-- *pending rule* with its class and hold. -/
  pendingRule : Option ClassHold
  pendingRotation : Bool
  nextKey : Option Key
  /-- The record or move binding. -/
  binding : Option (Fin 8)
  /-- The play and check bindings, no slot twice. -/
  players : List (Fin 8)
  segments : List Segment
  lapseTime : Option Nat
  deriving DecidableEq, Repr

/-- A FREE entry of the given generation, as a full reset and R1 leave it. -/
def Entry.free (generation : Nat) : Entry where
  state := .free
  generation := generation
  chunkLength := 0
  chunkCount := 0
  rotation := 0
  expiry := none
  views := none
  moveMark := 0
  interrupted := false
  rotationHeld := false
  lastViewTaken := false
  pendingRule := none
  pendingRotation := false
  nextKey := none
  binding := none
  players := []
  segments := []
  lapseTime := none

/-! ## The Chunk Cipher (chapter 2) -/

/-- A chained check under way (R34): the running value and the bytes not yet filling a block. -/
structure Chain where
  acc : Key
  tail : List Byte
  deriving DecidableEq, Repr

/-- A packet kept by the Packet Sorter, with what it carries into the carry list (R95). -/
structure Carried where
  bytes : List Byte
  /-- The stored form: sealed, or else clear. -/
  sealed : Bool
  /-- The access-point finding. -/
  access : Bool
  /-- The number of the watch entry that matched. -/
  watch : Option Nat
  deriving DecidableEq, Repr

/-- The tag of a frame as read: its fields and bytes 0 to 55 (R38, R39). -/
structure TagRead where
  seq : Nat
  seg : Nat
  count : Nat
  stamp : Nat
  bytes : List Byte
  check : List Byte
  deriving DecidableEq, Repr

/-- The work of a batch granted to a slot or to the Image Unit (R45), with all it needs to run to its end. -/
inductive Work where
  /-- Packets to be stored from position `pos` of the frame at `base` (R36). -/
  | sealing (base pos : Nat) (pkts : List Carried) (key : Key) (gen seq : Nat)
  /-- The tag, check value and padding of a frame of `count` packets at `base` (R36). -/
  | closing (base chunkLength count : Nat) (tag : List Byte) (key : Key) (chain : Chain)
  /-- A range of the frame in hand to be verified (R39). -/
  | verify
  /-- A range of `count` packets from position `pos` of the frame at `base`, to the packet window (R40). -/
  | deliver (base pos count : Nat) (key : Key) (gen seq : Nat) (expect : List Byte) (winBase winSize winPos : Nat)
  /-- A range to be converted into the output frame at `out` (R41). -/
  | reseal (base pos count : Nat) (key : Key) (gen seq : Nat) (expect : List Byte) (token : Key) (out : Nat)
  /-- The export tag, check value and padding of the output frame at `out` (R41). -/
  | finalReseal (out chunkLength count : Nat) (tag : List Byte) (token : Key) (chain : Chain)
  /-- Four entry records of a SAVE, or its header (R43). -/
  | saveEntries
  | saveHeader
  /-- The header of a LOAD, or four entry records (R44). -/
  | loadHeader
  | loadEntries
  deriving DecidableEq, Repr

/-- A requester of the arbiter: a slot, or the Image Unit as requester 8 (R45). -/
inductive Requester where
  | slot (n : Fin 8)
  | image
  deriving DecidableEq, Repr

/-- The batch in flight. `orphan` is set when its slot has been released: it completes its writes and its values are
dropped (R36, R39, R41). -/
structure Flight where
  requester : Requester
  work : Work
  orphan : Bool
  deriving DecidableEq, Repr

/-! ## Slots (chapters 3 to 6 and 9) -/

/-- An outcome entry (3.10). -/
structure OutcomeEntry where
  seq : Nat
  outcome : FrameOutcome
  pos : Nat
  packets : Nat
  remaining : Nat
  takeCount : Nat
  deriving DecidableEq, Repr

/-- An outcome entry written as zero. -/
def OutcomeEntry.zero : OutcomeEntry := ⟨0, .none, 0, 0, 0, 0⟩

/-- The engine part of a slot record (3.10), the part's own copy of what it writes there. -/
structure Engine where
  orderTaken : Mark
  result : Result
  state : SlotState
  fault : SlotFault
  /-- The bound recording field, absent for 0xFF. -/
  bound : Option (Fin 64)
  overtaken : Mark
  inStep : Bool
  /-- The absent flags of watch entries 0 to 3. -/
  absent : List Bool
  /-- Offset 272: stream take mark T or packet put mark Pp. -/
  markA : Mark
  /-- Offset 276: chunk put mark P or chunk take mark Tc. -/
  markB : Mark
  /-- Offset 280: output put mark Po. -/
  markC : Mark
  chunksDone : Mark
  packetsLost : Nat
  badPackets : Mark
  scrambled : Mark
  lastRemaining : Nat
  /-- One outcome entry for each frame position 0 to 15. -/
  outcomes : List OutcomeEntry
  deriving DecidableEq, Repr

/-- The IDLE value of the engine part (R53). -/
def Engine.idle : Engine where
  orderTaken := 0
  result := .none
  state := .idle
  fault := .none
  bound := none
  overtaken := 0
  inStep := false
  absent := [false, false, false, false]
  markA := 0
  markB := 0
  markC := 0
  chunksDone := 0
  packetsLost := 0
  badPackets := 0
  scrambled := 0
  lastRemaining := 0
  outcomes := List.replicate 16 OutcomeEntry.zero

/-- The window geometry of a slot as read at OPEN (R65, R66) with the chunk length of its entry. -/
structure Geometry where
  streamBase : Nat
  /-- W, or the packet window size of a PLAY slot. -/
  streamSize : Nat
  chunkBase : Nat
  /-- K. -/
  frames : Nat
  outBase : Nat
  /-- K_out. -/
  outFrames : Nat
  chunkLength : Nat
  deriving DecidableEq, Repr

/-- A watch entry as clamped (R67). -/
structure Watch where
  ident : Nat
  action : Action
  deriving DecidableEq, Repr

/-- A take in progress (R104): where it began, how many packets it reads, and what its first access has read. -/
structure Take where
  pos : Nat
  count : Nat
  got : List Byte
  deriving DecidableEq, Repr

/-- The open chunk of a RECORD slot with the sorter's chunk record and the cipher's state for it (R70, R93, R36). -/
structure OpenChunk where
  seq : Nat
  seg : Nat
  stamp : Nat
  /-- The reserved frame position. -/
  pos : Nat
  /-- n, the number of packets stored. -/
  stored : Nat
  key : Key
  generation : Nat
  /-- The sealing batch formed and not yet completed; empty when none is. -/
  batch : List Carried
  closeAsked : Bool
  /-- The close has taken effect; the closing batch is ready or in flight. -/
  closed : Bool
  /-- The lost count the tag reports, taken when the close takes effect (R31). -/
  lost : Nat
  points : List Nat
  overflow : Bool
  scrambledMark : Bool
  seen : List Nat
  chain : Chain
  deriving DecidableEq, Repr

/-- The frame in hand of a PLAY, CHECK or MOVE slot (R107, R152). -/
structure Frame where
  pos : Nat
  tag : Option TagRead
  /-- The key of the tag's segment, taken when the tag checks pass (R38). -/
  key : Key
  /-- Step 5 passed on an interrupted entry with q at or above N (R39). -/
  raiseDue : Bool
  /-- Ranges verified. -/
  verified : Nat
  /-- The batch check list. -/
  checks : List (List Byte)
  chain : Chain
  /-- The permit's remaining seconds, once given. -/
  permit : Option Nat
  /-- Ranges delivered or re-sealed. -/
  worked : Nat
  /-- Packets delivered. -/
  packets : Nat
  /-- The reserved output frame position. -/
  reserved : Option Nat
  outChain : Chain
  deriving DecidableEq, Repr

/-- A slot: its order latch, the engine part, and the working state of its mode. -/
structure Slot where
  latch : Mark
  eng : Engine
  mode : Mode
  geo : Geometry
  /-- The hold time in units of 100 ms (R67). -/
  holdTime : Nat
  /-- The notice level in frames (R67). -/
  notice : Nat
  /-- The others action: SEAL, or else DROP. -/
  othersSeal : Bool
  watch : List Watch
  /-- The view of offset 52: F or Tp. -/
  viewA : Mark
  /-- The view of offset 68: D or Fc. -/
  viewB : Mark
  /-- The view of offset 84: Do. -/
  viewC : Mark
  /-- The advances of the engine mark at offset 272, T or Pp, that R63 holds back (log 42). -/
  owedA : Nat
  /-- Those of the engine mark at offset 276, P or Tc. -/
  owedB : Nat
  /-- Those of the engine mark at offset 280, Po. -/
  owedC : Nat
  /-- The stream or packet window position. -/
  streamPos : Nat
  chunkPos : Nat
  outPos : Nat
  carry : List Carried
  chunk : Option OpenChunk
  take : Option Take
  lostTotal : Nat
  /-- Loss of overruns waiting for the close of the open chunk to take effect (R81 step 5). -/
  lossDue : Nat
  /-- The hold timer: the time it was last started with, absent when stopped. -/
  holdTimer : Option Nat
  /-- The sync results of the last three packets, oldest first. -/
  history : List Bool
  /-- The absence count of each watch entry. -/
  absence : List Nat
  frame : Option Frame
  token : Option Key
  closeAsked : Bool
  /-- The number of the MOVE OPEN whose result comes later, until a later order is taken (R61). -/
  openServed : Option Mark
  /-- The number of the CLOSE whose result comes later, until a later order is taken (R61). -/
  closeServed : Option Mark
  /-- The bound entry has lapsed or returned to FREE and the slot's LAPSED fault is still to come (R139). -/
  lapseDue : Bool
  deriving DecidableEq, Repr

/-- A slot without working state, with the given latch and engine part. -/
def Slot.bare (latch : Mark) (eng : Engine) : Slot where
  latch := latch
  eng := eng
  mode := .off
  geo := ⟨0, 0, 0, 0, 0, 0, 0⟩
  holdTime := 0
  notice := 0
  othersSeal := false
  watch := []
  viewA := 0
  viewB := 0
  viewC := 0
  owedA := 0
  owedB := 0
  owedC := 0
  streamPos := 0
  chunkPos := 0
  outPos := 0
  carry := []
  chunk := none
  take := none
  lostTotal := 0
  lossDue := 0
  holdTimer := none
  history := []
  absence := []
  frame := none
  token := none
  closeAsked := false
  openServed := none
  closeServed := none
  lapseDue := false

/-- A slot that enters FAULTED: carry, take, open chunk, frame in hand, token key and advances held back are dropped, the
timer stops, and no order is being served any longer. The rest of its working state is held until it returns to IDLE (R70,
R88, R93, R107, R123, R152, R163). -/
def Slot.dropWork (x : Slot) : Slot :=
  { x with
    owedA := 0
    owedB := 0
    owedC := 0
    carry := []
    chunk := none
    take := none
    lostTotal := 0
    lossDue := 0
    holdTimer := none
    frame := none
    token := none
    closeAsked := false
    openServed := none
    closeServed := none
    lapseDue := false }

/-- A slot after either reset (R53, R92, R126, R164). -/
def Slot.reset : Slot := Slot.bare 0 Engine.idle

/-! ## The board walker (chapter 3) -/

/-- Where a sweep in progress stands (R57). -/
inductive SweepAt where
  /-- The slot step of slot `n` comes next. -/
  | slot (n : Fin 8)
  /-- The order of slot `n`, numbered `number`, is being taken. -/
  | order (n : Fin 8) (number : Mark)
  /-- The part step comes next. -/
  | part
  /-- The end-of-sweep writes come next. -/
  | ending
  deriving DecidableEq, Repr

/-- The fields of the engine part of a slot record that are written one at a time (R64). -/
inductive SlotField where
  | orderTaken | result | state | fault | bound | overtaken | inStep | absent | markA | markB | markC | chunksDone
  | packetsLost | badPackets | scrambled | lastRemaining
  | outcome (pos : Nat)
  deriving DecidableEq, Repr

/-- The engine-part fields of the header that are written as they change. -/
inductive HeaderField where
  | orderTaken | result | detail | overtaken | voteAction | voteClock
  deriving DecidableEq, Repr

/-- An engine-part field of the board. -/
inductive BoardField where
  | slot (n : Fin 8) (f : SlotField)
  | header (f : HeaderField)
  deriving DecidableEq, Repr

/-- The header's engine part, the part's own copy (3.10). -/
structure Header where
  orderTaken : Mark
  result : Result
  detail : Nat
  overtaken : Mark
  voteAction : VoteAction
  voteClock : Nat
  deriving DecidableEq, Repr

/-- The header fields after a full reset. -/
def Header.reset : Header := ⟨0, .none, 0, 0, .none, 0⟩

/-- A held memory window, start and end as R53 adjusts them; its last byte is `hi`. -/
structure Window where
  lo : Nat
  hi : Nat
  writable : Bool
  deriving DecidableEq, Repr

/-- The five values of a directory entry (R69). -/
structure DirValues where
  state : EntryState
  generation : Nat
  chunkCount : Nat
  lapseTime : Option Nat
  views : Option Nat
  deriving DecidableEq, Repr

/-- A directory entry's five values as last written (absent: to be written at the next sweep) and its revision count
(R69). -/
structure DirEntry where
  shown : Option DirValues
  revision : BitVec 8
  deriving DecidableEq, Repr

/-- A QUERY in flight: its address, its record, and its order number until a later part order is taken (R25, R61). -/
structure Query where
  addr : Nat
  record : List Byte
  number : Option Mark
  deriving DecidableEq, Repr

/-- A QUERY after a later part order has been taken: its completion writes no result (R61). -/
def Query.overtaken (q : Query) : Query := { q with number := none }

/-! ## The Image Unit (chapter 10) -/

/-- The save or load in flight: its order number until a later part order is taken (R61), address, completed entry batches
and running value. -/
inductive ImageOp where
  | save (number : Option Mark) (addr : Nat) (table : Vector Entry 64) (savedTime generation : Nat) (batches : Nat) (chain : Chain)
  | load (number : Option Mark) (addr : Nat) (header : Option (List Byte)) (staging : List (List Byte)) (batches : Nat)
    (chain : Chain)
  deriving DecidableEq, Repr

/-- A save or load after a later part order has been taken: its completion writes no result (R61, R168, R170). -/
def ImageOp.overtaken : ImageOp → ImageOp
  | .save _ addr table savedTime generation batches chain => .save none addr table savedTime generation batches chain
  | .load _ addr header staging batches chain => .load none addr header staging batches chain

/-- The keys fused at manufacture. -/
structure Fused where
  boxKey : Key
  transferKey : Key
  deriving DecidableEq, Repr

/-! ## The state -/

/-- Recorder memory: the bytes that are not zero, in rising order of address (log 2). -/
abbrev Memory := List Host.Cell

/-- The state of the part, the recorder memory it works on, and the queue of commands waiting. -/
structure State where
  -- Link Port
  baseLow : BitVec 32
  baseHigh : BitVec 32
  windows : List Window
  mem : Memory
  -- Board Walker
  part : PartState
  refusal : StartRefusal
  divisor : BitVec 4
  attnEnable : Bool
  /-- The interval the sweep timer was last started with, in units of 0.5 ms; absent when stopped. -/
  sweepTimer : Option Nat
  sweepPending : Bool
  sweep : Option SweepAt
  sweepCount : Mark
  slots : Vector Slot 8
  partLatch : Mark
  header : Header
  /-- The engine-part fields marked for writing while the part is STOPPED (R64). -/
  held : List BoardField
  /-- The attention causes held with them (R173). -/
  heldCauses : List Flag
  /-- A reset has come since the last sweep: the next one writes every engine part (R64). -/
  writeAll : Bool
  /-- A full reset has come since the last sweep: the next one writes the time-vote result (R68). -/
  writeVote : Bool
  directory : Vector DirEntry 64
  -- Chunk Cipher
  lastGranted : Requester
  flight : Option Flight
  -- Recording Table
  entries : Vector Entry 64
  pool : List Key
  /-- A key draw is in flight. -/
  drawing : Bool
  /-- The waiting list for keys. -/
  waiting : List (Fin 8)
  query : Option Query
  -- Protected Clock
  clock : Nat
  tickPhase : Nat
  /-- The vote window, oldest first. -/
  votes : List Nat
  -- Image Unit
  ready : Bool
  /-- The generation cell. -/
  cell : Nat
  image : Option ImageOp
  fused : Fused
  -- Attention Unit
  /-- The pending flags, each once, highest priority first. -/
  flags : List Flag
  /-- The value the latest read of ATTENTION returned (the model's own field, log 6). -/
  attentionRead : BitVec 32
  /-- The commands waiting, first in first out (the model's own field). -/
  pending : List Instr
  deriving DecidableEq, Repr

/-- The state right after a full reset (R13, R26, R47, R48, R49, R50, R53, R68, R69, R92, R106, R126, R151, R164, R165,
R171, R176), with nothing waiting. -/
def State.reset : State where
  baseLow := 0
  baseHigh := 0
  windows := []
  mem := []
  part := .stopped
  refusal := .none
  divisor := 1
  attnEnable := false
  sweepTimer := none
  sweepPending := false
  sweep := none
  sweepCount := 0
  slots := Vector.replicate 8 Slot.reset
  partLatch := 0
  header := Header.reset
  held := []
  heldCauses := []
  writeAll := true
  writeVote := true
  directory := Vector.replicate 64 ⟨none, 0⟩
  lastGranted := .image
  flight := none
  entries := Vector.replicate 64 (Entry.free 0)
  pool := []
  drawing := true
  waiting := []
  query := none
  clock := 0
  tickPhase := 0
  votes := []
  ready := false
  cell := 0
  image := none
  fused := ⟨Config.boxKey, Config.transferKey⟩
  flags := []
  attentionRead := 0
  pending := []

end Sys2Proof.Machine
end

