-- ==== Sys2Proof/Machine/Cipher.lean ====
section
/-! DEFINITION. Machine/Cipher.lean: the keyed functions of the Chunk Cipher and the chunk frame (2.1 to 2.9, 3.10). -/

namespace Sys2Proof.Machine

/-! ## The chained check (R34) -/

/-- A chained check with nothing fed. -/
def Chain.start : Chain := ⟨0, []⟩

/-- One more byte fed: a block that fills is combined with the running value and enciphered. -/
def Chain.feedByte (key : Key) (c : Chain) (b : Byte) : Chain :=
  let tail := c.tail ++ [b]
  if tail.length = 16 then ⟨Aes.encipher key (c.acc ^^^ pack16 tail), []⟩ else ⟨c.acc, tail⟩

/-- A run of bytes fed under a check key. -/
def Chain.feed (key : Key) (c : Chain) (bs : List Byte) : Chain := bs.foldl (Chain.feedByte key) c

/-- The check value: the padding block is taken in and the first 8 bytes of the running value are the check. -/
def Chain.finish (key : Key) (c : Chain) : List Byte :=
  (bytes16 (Aes.encipher key (c.acc ^^^ pack16 (c.tail ++ (0x80 : Byte) :: zeros (15 - c.tail.length))))).take 8

/-- The chained check of a run of bytes under a check key. -/
def chainedCheck (key : Key) (bs : List Byte) : List Byte := (Chain.start.feed key bs).finish key

/-- The check key of a key: the key enciphers 16 equal bytes (R34). -/
def checkKey (key : Key) (constant : Byte) : Key := Aes.encipher key (pack16 (List.replicate 16 constant))

/-- The check key of a chunk frame, local under its content key or export under the token key. -/
def frameCheckKey (key : Key) : Key := checkKey key 0x43

/-- The check key of the table image. -/
def imageCheckKey (boxKey : Key) : Key := checkKey boxKey 0x49

/-- The check key of an export token. -/
def tokenCheckKey (transferKey : Key) : Key := checkKey transferKey 0x54

/-! ## Packets in a frame (R32, R33, R37, R40) -/

/-- The counter block of a packet position and block number (R33). -/
def counterBlock (gen seq pos block : Nat) : Key :=
  pack16 (le 2 gen ++ le 4 seq ++ le 2 pos ++ le 1 block ++ zeros 7)

/-- The 184 bytes of key stream of a packet position (R33). -/
def keyStream (key : Key) (gen seq pos : Nat) : List Byte :=
  ((List.range 12).flatMap fun b => bytes16 (Aes.encipher key (counterBlock gen seq pos b))).take 184

/-- The stored form of a received packet (R32). -/
def storePacket (key : Key) (gen seq pos : Nat) (isSealed : Bool) (p : List Byte) : List Byte :=
  if isSealed then 0xB8 :: ((p.drop 1).take 3 ++ xorBytes (p.drop 4) (keyStream key gen seq pos))
  else 0x47 :: p.drop 1

/-- A stored packet rebuilt as received; any byte 0 other than 0xB8 is the clear form (R40). -/
def openPacket (key : Key) (gen seq pos : Nat) (p : List Byte) : List Byte :=
  if byteAt p 0 = 0xB8 then 0x47 :: ((p.drop 1).take 3 ++ xorBytes (p.drop 4) (keyStream key gen seq pos))
  else 0x47 :: p.drop 1

/-- A stored packet of a local frame as stored in the export frame (R37). -/
def convertPacket (key token : Key) (gen seq pos : Nat) (p : List Byte) : List Byte :=
  if byteAt p 0 = 0xB8 then
    p.take 4 ++ xorBytes (xorBytes (p.drop 4) (keyStream key gen seq pos)) (keyStream token 0 seq pos)
  else p

/-- Packets handled one after another, the first at position `pos`. -/
def overPackets (f : Nat → List Byte → List Byte) : Nat → List (List Byte) → List Byte
  | _, [] => []
  | pos, p :: ps => f pos p ++ overPackets f (pos + 1) ps

/-- The stored bytes of carried packets from position `pos` onward (R36). -/
def storedBytes (key : Key) (gen seq : Nat) : Nat → List Carried → List Byte
  | _, [] => []
  | pos, c :: cs => storePacket key gen seq pos c.sealed c.bytes ++ storedBytes key gen seq (pos + 1) cs

/-! ## The frame and its tag (R28 to R31, R37) -/

/-- The size of a chunk frame of chunk length `len` (R28). -/
def frameSize (len : Nat) : Nat := (64 + 188 * len + 511) / 512 * 512

/-- The marker of every tag. -/
def tagMarker : List Byte := [0x4C, 0x32, 0x34, 0x38]

/-- Bytes 0 to 55 of a tag (3.10). -/
def tagBytes (format recording generation seq segment flags count stamp lost : Nat) (points : List Nat) : List Byte :=
  tagMarker ++ le 1 format ++ le 1 recording ++ le 2 generation ++ le 4 seq ++ le 1 segment ++ le 1 flags ++
  le 2 count ++ le 4 stamp ++ le 4 lost ++ le 1 points.length ++ zeros 1 ++
  (points.flatMap (le 2) ++ zeros (16 - 2 * points.length)) ++ zeros 14

/-- The flags of a tag (R30): partial, index overflow, scrambled arrivals, gap. -/
def tagFlags (chunkLength count : Nat) (overflow scrambled : Bool) (lost : Nat) : Nat :=
  flagBit (decide (count < chunkLength)) 0 + flagBit overflow 1 + flagBit scrambled 2 + flagBit (decide (0 < lost)) 3

/-- The padding of a frame of `count` packets (R28). -/
def paddingLength (chunkLength count : Nat) : Nat := frameSize chunkLength - (64 + 188 * count)

/-- Bytes 0 to 55 of the export tag of a local frame (R37). -/
def exportTagBytes (localTag : List Byte) (seq classCode : Nat) : List Byte :=
  tagMarker ++ le 1 2 ++ le 1 255 ++ le 2 0 ++ le 4 seq ++ le 1 classCode ++ (localTag.drop 13).take 12 ++ zeros 1 ++
  (localTag.drop 26).take 16 ++ zeros 14

/-- The number of ranges of a frame of `count` packets (R39). -/
def rangeCount (count : Nat) : Nat := (count + 15) / 16

/-- The number of packets of range `r` of a frame of `count` packets. -/
def rangeSize (count r : Nat) : Nat := min 16 (count - 16 * r)

/-! ## The export token (R42) -/

/-- The token key of an export token of 24 bytes, if its check agrees. -/
def openToken (transferKey : Key) (token : List Byte) : Option Key :=
  if chainedCheck (tokenCheckKey transferKey) (token.take 16) = (token.drop 16).take 8 then
    some (Aes.decipher transferKey (pack16 (token.take 16)))
  else none

/-! ## Key places of the table image (R43) -/

/-- A key wrapped for, or unwrapped from, a key place: combined with the encipherment under the box key of the counter
block of image generation, recording number and key place; the generation is laid low byte first, as the model reads R43 (log
46). -/
def wrapKey (boxKey : Key) (generation recording place : Nat) (key : Key) : Key :=
  key ^^^ Aes.encipher boxKey (pack16 (le 4 generation ++ le 1 recording ++ le 1 place ++ zeros 10))

end Sys2Proof.Machine
end

