-- ==== Sys2Proof/Machine/Flags.lean ====
section
/-! DEFINITION. Machine/Flags.lean: the attention flags and line, and the register window (3.2, 3.10, chapter 11). -/

namespace Sys2Proof.Machine

/-! ## Attention flags -/

/-- The code of a cause (11.1). -/
def Cause.code : Cause → Nat
  | .fault => 1
  | .result => 2
  | .progress => 3
  | .lapse => 4
  | .absent => 5

/-- The value a read of ATTENTION returns for a flag: cause in bits 10 to 8, source in bits 3 to 0 (R174). A smaller
value is a flag of higher priority, or of the same priority and a lower source. -/
def Flag.value (f : Flag) : Nat := 256 * f.cause.code + f.source.val

/-- The flags with one more set; a flag already set stays as it is (R172). -/
def raiseFlag (f : Flag) : List Flag → List Flag
  | [] => [f]
  | g :: gs => if f.value < g.value then f :: g :: gs else if f.value = g.value then g :: gs else g :: raiseFlag f gs

/-- The flag of a cause for a slot. -/
def slotFlag (c : Cause) (n : Fin 8) : Flag := ⟨c, ⟨n.val, by omega⟩⟩

/-- The flag of a cause for the part itself, source 8. -/
def partFlag (c : Cause) : Flag := ⟨c, 8⟩

/-- A raise taken at once (R172). -/
def State.raise (s : State) (f : Flag) : State := { s with flags := raiseFlag f s.flags }

/-- A raise that follows a board write: with the write held in STOPPED it is held too (R173). -/
def State.notify (s : State) (f : Flag) : State :=
  if s.part = .stopped then { s with heldCauses := s.heldCauses ++ [f] } else s.raise f

/-- The attention line (R175). -/
def State.attentionLine (s : State) : Bool := s.attnEnable && !s.flags.isEmpty

/-- The value a read of ATTENTION returns, 0 with no flag pending (R174). -/
def State.attentionValue (s : State) : BitVec 32 :=
  match s.flags with
  | [] => 0
  | f :: _ => BitVec.ofNat 32 f.value

/-! ## Registers -/

/-- The registers of the window (3.2). -/
inductive Register where
  | ident | control | status | sweep | attention | boardBaseLow | boardBaseHigh
  deriving DecidableEq, Repr

/-- The code of the part state in STATUS. -/
def PartState.code : PartState → Nat
  | .stopped => 0
  | .running => 1
  | .stopping => 2

/-- The code of the start refusal in STATUS. -/
def StartRefusal.code : StartRefusal → Nat
  | .none => 0
  | .boardOutside => 1
  | .windowsBad => 2

/-- The value STATUS shows (R49, 3.10). -/
def State.statusValue (s : State) : BitVec 32 :=
  BitVec.ofNat 32 (s.part.code + (if s.ready then 4 else 0) + 16 * s.refusal.code + if s.flight.isSome then 256 else 0)

/-- What a read of a register returns. Only a read of ATTENTION changes the part (R49). -/
def State.registerValue (s : State) : Register → BitVec 32
  | .ident => 0x00012480
  | .control => 0
  | .status => s.statusValue
  | .sweep => 0
  | .attention => s.attentionValue
  | .boardBaseLow => s.baseLow
  | .boardBaseHigh => s.baseHigh

/-- The request a write to CONTROL makes (R50). -/
inductive ControlRequest where
  | engineReset | stop | start | nothing
  deriving DecidableEq, Repr

/-- The one request a write to CONTROL acts on (R50). -/
def controlRequest (v : BitVec 32) : ControlRequest :=
  if v.getLsbD 2 then .engineReset else if v.getLsbD 1 then .stop else if v.getLsbD 0 then .start else .nothing

/-- DIVISOR as a write to CONTROL gives it. -/
def controlDivisor (v : BitVec 32) : BitVec 4 := v.extractLsb' 4 4

/-- ATTN ENABLE as a write to CONTROL gives it. -/
def controlAttnEnable (v : BitVec 32) : Bool := v.getLsbD 8

/-- What every write to CONTROL loads (R50). -/
def State.loadControl (s : State) (v : BitVec 32) : State :=
  { s with divisor := controlDivisor v, attnEnable := controlAttnEnable v }

/-- The sweep timer's interval in units of 0.5 ms (R55). -/
def State.sweepInterval (s : State) : Nat := s.divisor.toNat + 1

/-- The board base (R48). -/
def State.boardBase (s : State) : Nat := s.baseHigh.toNat * 2 ^ 32 + s.baseLow.toNat

end Sys2Proof.Machine
end

