-- ==== Sys2Proof/Machine/Memory.lean ====
section
/-! DEFINITION. Machine/Memory.lean: recorder memory. A byte nothing has written reads as 0 (log 2); writing 0 removes the
entry, so equal memories are equal lists. -/

namespace Sys2Proof.Machine

/-- What the byte at address `a` reads as. -/
def Memory.get (m : Memory) (a : Nat) : Byte := ((m.find? fun c => c.1 == a).map Prod.snd).getD 0

/-- The `len` bytes from address `a`. -/
def Memory.read (m : Memory) (a len : Nat) : List Byte := (List.range len).map fun i => m.get (a + i)

/-- The entries that bytes from address `a` onward give: those that are not zero. -/
def Memory.cells : Nat → List Byte → Memory
  | _, [] => []
  | a, b :: bs => if b = 0 then cells (a + 1) bs else (a, b) :: cells (a + 1) bs

/-- Memory after the bytes are written from address `a` onward. -/
def Memory.write (m : Memory) (a : Nat) (bs : List Byte) : Memory :=
  m.filter (fun c => decide (c.1 < a)) ++ (Memory.cells a bs ++ m.filter fun c => decide (a + bs.length ≤ c.1))

/-- Memory after the recorder's writes, in their order. -/
def Memory.recorder (m : Memory) (w : Writes) : Memory := w.foldl (fun m b => m.write b.1 b.2) m

/-- The canonical form: addresses strictly rising, no entry zero. -/
def Memory.wf (m : Memory) : Bool := decide (m.Pairwise fun x y => x.1 < y.1) && m.all fun c => c.2 != 0

/-- Every block of the recorder's writes lies below 2^64. -/
def writesInSpace (w : Writes) : Bool := w.all fun b => decide (b.1 + b.2.length ≤ 2 ^ 64)

end Sys2Proof.Machine
end

