-- ==== Sys2Proof/Machine/Operands.lean ====
section
/-! DEFINITION. Machine/Operands.lean: the fields of the board as the part reads them, and how they are clamped and
checked (R9, R51, R53, R63, R65, R66, R67, 3.10). -/

namespace Sys2Proof.Machine

/-! ## Access to slots and entries -/

def State.slot (s : State) (n : Fin 8) : Slot := s.slots[n]

def State.setSlot (s : State) (n : Fin 8) (x : Slot) : State := { s with slots := s.slots.set n x }

def State.modSlot (s : State) (n : Fin 8) (g : Slot → Slot) : State := s.setSlot n (g (s.slot n))

def State.entry (s : State) (e : Fin 64) : Entry := s.entries[e]

def State.setEntry (s : State) (e : Fin 64) (x : Entry) : State := { s with entries := s.entries.set e x }

def State.modEntry (s : State) (e : Fin 64) (g : Entry → Entry) : State := s.setEntry e (g (s.entry e))

/-- A recording number as an entry's place. -/
def entryIndex (r : Nat) : Option (Fin 64) := if h : r < 64 then some ⟨r, h⟩ else none

/-! ## Board fields -/

/-- The address of slot record `n` (R48). -/
def State.slotAddr (s : State) (n : Fin 8) : Nat := s.boardBase + 2048 + 512 * n.val

/-- A field of the host part of slot record `n`, as a number. -/
def State.slotField (s : State) (n : Fin 8) (off len : Nat) : Nat := ofLe (s.mem.read (s.slotAddr n + off) len)

/-- A field of the header, as a number. -/
def State.headerField (s : State) (off len : Nat) : Nat := ofLe (s.mem.read (s.boardBase + off) len)

/-- The order number in slot record `n`. -/
def State.orderNumber (s : State) (n : Fin 8) : Mark := BitVec.ofNat 32 (s.slotField n 0 4)

/-- The part order number in the header. -/
def State.partOrderNumber (s : State) : Mark := BitVec.ofNat 32 (s.headerField 96 4)

/-- The order kinds of a slot record (3.10). -/
inductive OrderKind where
  | openSlot | close | abort | rule | rotate | flush | unknown
  deriving DecidableEq, Repr

def orderKind (code : Nat) : OrderKind :=
  match code with
  | 1 => .openSlot
  | 2 => .close
  | 3 => .abort
  | 4 => .rule
  | 5 => .rotate
  | 6 => .flush
  | _ => .unknown

/-- The mode an OPEN gives; `off` also stands for an unknown code, which is answered the same way (R59). -/
def modeOf (code : Nat) : Mode :=
  match code with
  | 1 => .record
  | 2 => .play
  | 3 => .check
  | 4 => .move
  | _ => .off

/-- The part order kinds of the header (3.10). -/
inductive PartOrderKind where
  | fresh | load | save | time | erase | query | unknown
  deriving DecidableEq, Repr

def partOrderKind (code : Nat) : PartOrderKind :=
  match code with
  | 1 => .fresh
  | 2 => .load
  | 3 => .save
  | 4 => .time
  | 5 => .erase
  | 6 => .query
  | _ => .unknown

/-! ## Clamps (R9, R67) -/

def clampHold (hold : Nat) : Nat := if hold = 0 then 90 else min hold 1023

def clampClassHold (cls hold : Nat) : ClassHold :=
  match cls with
  | 0 => ⟨.openCopy, none⟩
  | 1 => ⟨.once, none⟩
  | 2 => ⟨.noMore, none⟩
  | 3 => ⟨.never, some (clampHold hold)⟩
  | _ => ⟨.never, some 90⟩

def clampViews (views : Nat) : Option Nat := if views = 0 then none else some (min views 254)

def clampExpiry (expiry : Nat) : Option Nat := if expiry = 0 ∨ expiry = top32 then none else some expiry

def clampRotation (period : Nat) : Nat := min period 65535

def clampLength (code : Nat) : Nat :=
  match code with
  | 0 => 256
  | 1 => 512
  | 2 => 1024
  | 3 => 2048
  | _ => 512

/-- The hold time in units of 100 ms. -/
def clampHoldTime (units : Nat) : Nat := if units = 0 then 5 else min units 50

/-- The notice level in frames, no more than the frame count. -/
def clampNotice (code frames : Nat) : Nat :=
  min (match code with | 0 => 1 | 1 => 4 | 2 => 8 | _ => 14) frames

/-- The others action: DROP for 1, SEAL for any other code. -/
def clampOthersSeal (code : Nat) : Bool := code != 1

def clampAction (code : Nat) : Action :=
  match code with
  | 0 => .notUsed
  | 1 => .seal
  | 2 => .index
  | 3 => .clear
  | 4 => .drop
  | _ => .seal

/-- A rule as an order gives it, clamped. -/
structure Rule where
  classHold : ClassHold
  views : Option Nat
  expiry : Option Nat
  deriving DecidableEq, Repr

/-- The rule fields of slot record `n`, clamped (R9). -/
def State.ruleFields (s : State) (n : Fin 8) : Rule where
  classHold := clampClassHold (s.slotField n 8 1) (s.slotField n 10 2)
  views := clampViews (s.slotField n 9 1)
  expiry := clampExpiry (s.slotField n 12 4)

/-- Watch entry `i` of slot record `n`, clamped. -/
def State.watchEntry (s : State) (n : Fin 8) (i : Nat) : Watch where
  ident := s.slotField n (24 + 4 * i) 2 % 8192
  action := clampAction (s.slotField n (26 + 4 * i) 1)

def State.watchList (s : State) (n : Fin 8) : List Watch := (List.range 4).map (s.watchEntry n)

/-! ## Geometry (R65, R66) -/

/-- The geometry of slot record `n`; the fields of windows that the mode does not use are not read (R65). -/
def State.readGeometry (s : State) (n : Fin 8) (mode : Mode) (chunkLength : Nat) : Geometry where
  streamBase := if mode = .record ∨ mode = .play then s.slotField n 40 8 else 0
  streamSize := if mode = .record ∨ mode = .play then s.slotField n 48 4 else 0
  chunkBase := s.slotField n 56 8
  frames := s.slotField n 64 1
  outBase := if mode = .move then s.slotField n 72 8 else 0
  outFrames := if mode = .move then s.slotField n 80 1 else 0
  chunkLength := chunkLength

def frameCountOk (k : Nat) : Bool := decide (2 ≤ k ∧ k ≤ 16)

/-- Two watch entries in use hold one identifier. -/
def watchDuplicate : List Watch → Bool
  | [] => false
  | x :: xs => (x.action != .notUsed && xs.any fun y => y.action != .notUsed && y.ident == x.ident) || watchDuplicate xs

/-- The geometry checks of an OPEN pass (R65). -/
def geometryOk (mode : Mode) (g : Geometry) (watch : List Watch) : Bool :=
  match mode with
  | .record =>
    decide (256 ≤ g.streamSize ∧ g.streamSize ≤ 65536 ∧ g.chunkLength ≤ g.streamSize) && frameCountOk g.frames &&
      !watchDuplicate watch
  | .play => decide (64 ≤ g.streamSize ∧ g.streamSize ≤ 65536) && frameCountOk g.frames
  | .check => frameCountOk g.frames
  | .move => frameCountOk g.frames && frameCountOk g.outFrames
  | .off => false

/-- All of `len` bytes from `a` lie inside one of the windows, and inside a writable one for a write (R54). -/
def covers (windows : List Window) (write : Bool) (a len : Nat) : Bool :=
  windows.any fun x => decide (x.lo ≤ a) && decide (a + len ≤ x.hi + 1) && (!write || x.writable)

/-- The windows of a slot lie inside held memory windows (R66). -/
def windowsOk (windows : List Window) (mode : Mode) (g : Geometry) : Bool :=
  let chunk := g.frames * frameSize g.chunkLength
  match mode with
  | .record => covers windows false g.streamBase (188 * g.streamSize) && covers windows true g.chunkBase chunk
  | .play => covers windows false g.chunkBase chunk && covers windows true g.streamBase (188 * g.streamSize)
  | .check => covers windows false g.chunkBase chunk
  | .move =>
    covers windows false g.chunkBase chunk && covers windows true g.outBase (g.outFrames * frameSize g.chunkLength)
  | .off => false

/-! ## Marks (R62, R63) -/

/-- The difference of two marks, read as a number from 0 to 2^32 − 1. -/
def ahead (a b : Mark) : Nat := (a - b).toNat

/-- A difference of 2^31 or more is a backward mark. -/
def backward (a b : Mark) : Bool := decide (2 ^ 31 ≤ ahead a b)

/-- An amount available, fill − take; behind a backward fill mark nothing is (R63, log 45). -/
def amount (fill take : Mark) : Nat := if backward fill take then 0 else ahead fill take

/-- Where the engine mark at offset 272 stands with the advances held back: what the slot has taken or put. -/
def Slot.placeA (x : Slot) : Mark := x.eng.markA + BitVec.ofNat 32 x.owedA

/-- The same of the engine mark at offset 276. -/
def Slot.placeB (x : Slot) : Mark := x.eng.markB + BitVec.ofNat 32 x.owedB

/-- The same of the engine mark at offset 280. -/
def Slot.placeC (x : Slot) : Mark := x.eng.markC + BitVec.ofNat 32 x.owedC

/-- Untaken packets of a RECORD slot, F − T in the view. -/
def Slot.streamAvailable (x : Slot) : Nat := amount x.viewA x.placeA

/-- Frames available to a PLAY, CHECK or MOVE slot, Fc − Tc in the view. -/
def Slot.framesAvailable (x : Slot) : Nat := amount x.viewB x.placeB

/-- Free frames of the chunk window of a RECORD slot, K − (P − D). -/
def Slot.chunkRoom (x : Slot) : Nat := x.geo.frames - ahead x.placeB x.viewB

/-- Room in the packet window, its size less Pp − Tp. -/
def Slot.packetRoom (x : Slot) : Nat := x.geo.streamSize - ahead x.placeA x.viewA

/-- Free frames of the output window, K_out − (Po − Do). -/
def Slot.outputRoom (x : Slot) : Nat := x.geo.outFrames - ahead x.placeC x.viewC

/-- How far the engine mark at offset 272 may go in the view: T to the fill mark, Pp to the packet window size ahead of Tp
(R63). -/
def Slot.reachA (x : Slot) : Nat :=
  if x.mode = .play then x.geo.streamSize - ahead x.eng.markA x.viewA else amount x.viewA x.eng.markA

/-- The same of the engine mark at offset 276: P to the frame count ahead of D, Tc to the fill mark. -/
def Slot.reachB (x : Slot) : Nat :=
  if x.mode = .record then x.geo.frames - ahead x.eng.markB x.viewB else amount x.viewB x.eng.markB

/-- The same of the engine mark at offset 280: Po to the frame count ahead of Do. -/
def Slot.reachC (x : Slot) : Nat := x.geo.outFrames - ahead x.eng.markC x.viewC

/-- The engine mark at offset 272 advanced by `k` as far as R63 lets it in the view; the rest is held back (log 42). -/
def Slot.advanceA (x : Slot) (k : Nat) : Slot :=
  let made := min (x.owedA + k) x.reachA
  { x with owedA := x.owedA + k - made, eng := { x.eng with markA := x.eng.markA + BitVec.ofNat 32 made } }

/-- The same of the engine mark at offset 276. -/
def Slot.advanceB (x : Slot) (k : Nat) : Slot :=
  let made := min (x.owedB + k) x.reachB
  { x with owedB := x.owedB + k - made, eng := { x.eng with markB := x.eng.markB + BitVec.ofNat 32 made } }

/-- The same of the engine mark at offset 280. -/
def Slot.advanceC (x : Slot) (k : Nat) : Slot :=
  let made := min (x.owedC + k) x.reachC
  { x with owedC := x.owedC + k - made, eng := { x.eng with markC := x.eng.markC + BitVec.ofNat 32 made } }

/-- The marks of the view stand wrongly to the engine's marks (R63). -/
def Slot.marksBad (x : Slot) : Bool :=
  match x.mode with
  | .record =>
    backward x.viewA x.eng.markA || backward x.eng.markB x.viewB || decide (x.geo.frames < ahead x.eng.markB x.viewB)
  | .play =>
    backward x.viewB x.eng.markB || decide (x.geo.frames < ahead x.viewB x.eng.markB) ||
      backward x.eng.markA x.viewA || decide (x.geo.streamSize < ahead x.eng.markA x.viewA)
  | .check => backward x.viewB x.eng.markB || decide (x.geo.frames < ahead x.viewB x.eng.markB)
  | .move =>
    backward x.viewB x.eng.markB || decide (x.geo.frames < ahead x.viewB x.eng.markB) ||
      backward x.eng.markC x.viewC || decide (x.geo.outFrames < ahead x.eng.markC x.viewC)
  | .off => false

/-- Slot `x` with the recorder marks of record `n` that its mode uses as its view (R62). -/
def State.readMarks (s : State) (n : Fin 8) (mode : Mode) (x : Slot) : Slot :=
  { x with
    viewA := if mode = .record ∨ mode = .play then BitVec.ofNat 32 (s.slotField n 52 4) else x.viewA
    viewB := BitVec.ofNat 32 (s.slotField n 68 4)
    viewC := if mode = .move then BitVec.ofNat 32 (s.slotField n 84 4) else x.viewC }

/-! ## Frame addresses -/

/-- The address of the frame at a position of the chunk window (R28). -/
def Slot.frameBase (x : Slot) (pos : Nat) : Nat := x.geo.chunkBase + pos * frameSize x.geo.chunkLength

/-- The address of the frame at a position of the output window (R37). -/
def Slot.outBaseAt (x : Slot) (pos : Nat) : Nat := x.geo.outBase + pos * frameSize x.geo.chunkLength

/-! ## The window list (R51, R53) -/

/-- Entry `i` of the window list, start and end adjusted to whole 8-byte units; absent when not in use. -/
def State.windowEntry (s : State) (i : Nat) : Option Window :=
  let flags := BitVec.ofNat 8 (s.headerField (24 * i + 16) 1)
  if flags.getLsbD 0 then
    some { lo := s.headerField (24 * i) 8 / 8 * 8
           hi := s.headerField (24 * i + 8) 8 / 8 * 8 + 7
           writable := flags.getLsbD 1 }
  else none

/-- The in-use entries of the window list. -/
def State.windowList (s : State) : List Window := (List.range 4).filterMap s.windowEntry

/-- No two windows of the list cover a common byte. -/
def windowsApart : List Window → Bool
  | [] => true
  | x :: xs => xs.all (fun y => decide (x.hi < y.lo ∨ y.hi < x.lo)) && windowsApart xs

/-- The judgement of a window list at START, the first failing check giving the refusal (R51). -/
def judgeWindows (ws : List Window) (base : Nat) : StartRefusal :=
  if ws.any (fun x => decide (x.hi < x.lo)) || !windowsApart ws then .windowsBad
  else if covers ws true base 6144 then .none
  else .boardOutside

end Sys2Proof.Machine
end

