-- ==== Sys2Proof/Machine/Ops.lean ====
section
/-! DEFINITION. Machine/Ops.lean: the operations that the commands share: access to recorder memory, the engine parts of
the board, results, entries and their ends, lapse, bindings and the release of slots. -/

namespace Sys2Proof.Machine

/-! ## Commands that read recorder memory -/

/-- The state with the recorder's writes in its memory. -/
def State.recorded (s : State) (w : Writes) : State := { s with mem := s.mem.recorder w }

/-- A command that reads recorder memory: the recorder's writes are in memory first (log 1), then the command has its
effect. -/
def withWrites (w : Writes) (s : State) (effect : State → State) : Host.Outcome State Fault Refusal :=
  if writesInSpace w then .next (effect (s.recorded w)) else .fault .noSuchAddress

/-! ## The check of every access (R54) -/

/-- The part's writes in order, each checked before it is made; the first refused one ends them. Answers the memory
and whether every write was made. -/
def writeAccesses (windows : List Window) : Memory → List (Nat × List Byte) → Memory × Bool
  | m, [] => (m, true)
  | m, (a, bs) :: rest =>
    if covers windows true a bs.length then writeAccesses windows (m.write a bs) rest else (m, false)

/-- The writes that pass the check, up to the first refused one, cut off after `made` bytes (R46, R25). -/
def cutAccesses (windows : List Window) : Nat → Memory → List (Nat × List Byte) → Memory
  | _, m, [] => m
  | made, m, (a, bs) :: rest =>
    if covers windows true a bs.length then cutAccesses windows (made - bs.length) (m.write a (bs.take made)) rest else m

/-! ## Codes (3.10) -/

def SlotState.code : SlotState → Nat
  | .idle => 0
  | .opening => 1
  | .running => 2
  | .stalled => 3
  | .closing => 4
  | .faulted => 5
  | .verifying => 6
  | .delivering => 7
  | .waiting => 8

def SlotFault.code : SlotFault → Nat
  | .none => 0
  | .window => 1
  | .mark => 2
  | .lapsed => 3

def Result.code : Result → Nat
  | .none => 0
  | .done => 1
  | .busy => 2
  | .notReady => 3
  | .wrongState => 4
  | .noRoom => 5
  | .badOperand => 6
  | .window => 7
  | .expired => 8
  | .viewsUsed => 9
  | .cls => 10
  | .tokenBad => 11
  | .imageBad => 12
  | .imageOld => 13
  | .unknown => 14

def FrameOutcome.code : FrameOutcome → Nat
  | .none => 0
  | .delivered => 1
  | .verified => 2
  | .movedOut => 3
  | .skippedClass => 4
  | .outOfOrder => 5
  | .noMarker => 6
  | .wrongRecording => 7
  | .badLength => 8
  | .noSegment => 9
  | .notYet => 10
  | .beyondEnd => 11
  | .badCheck => 12
  | .aged => 13
  | .expired => 14
  | .moved => 15
  | .abandoned => 16
  | .lapsed => 17

def EntryState.code : EntryState → Nat
  | .free => 0
  | .live => 1
  | .held => 2
  | .moving => 3
  | .moved => 4
  | .lapsed => 5
  | .retired => 6

def RuleClass.code : RuleClass → Nat
  | .openCopy => 0
  | .once => 1
  | .noMore => 2
  | .never => 3

def VoteAction.code : VoteAction → Nat
  | .none => 0
  | .kept => 1
  | .trimmed => 2
  | .voted => 3
  | .jumped => 4

/-! ## The engine parts of the board (3.10, R64) -/

/-- An outcome entry as it stands in memory. -/
def OutcomeEntry.image (o : OutcomeEntry) : List Byte :=
  le 4 o.seq ++ le 1 o.outcome.code ++ le 1 o.pos ++ le 2 o.packets ++ le 2 o.remaining ++ le 2 o.takeCount

def boundByte : Option (Fin 64) → Nat
  | none => 255
  | some e => e.val

/-- The offset in the slot record and the bytes of a field of the engine part. -/
def Engine.fieldAt (g : Engine) : SlotField → Nat × List Byte
  | .orderTaken => (256, le 4 g.orderTaken.toNat)
  | .result => (260, le 1 g.result.code)
  | .state => (261, le 1 g.state.code)
  | .fault => (262, le 1 g.fault.code)
  | .bound => (263, le 1 (boundByte g.bound))
  | .overtaken => (264, le 4 g.overtaken.toNat)
  | .inStep => (268, le 1 (flagBit g.inStep 0))
  | .absent => (269, le 1 (flagsByte g.absent))
  | .markA => (272, le 4 g.markA.toNat)
  | .markB => (276, le 4 g.markB.toNat)
  | .markC => (280, le 4 g.markC.toNat)
  | .chunksDone => (284, le 4 g.chunksDone.toNat)
  | .packetsLost => (288, le 4 g.packetsLost)
  | .badPackets => (292, le 4 g.badPackets.toNat)
  | .scrambled => (296, le 4 g.scrambled.toNat)
  | .lastRemaining => (300, le 2 g.lastRemaining)
  | .outcome pos => (320 + 12 * pos, (g.outcomes.getD pos OutcomeEntry.zero).image)

/-- The whole engine part, the 256 bytes from offset 256 of the slot record. -/
def Engine.image (g : Engine) : List Byte :=
  le 4 g.orderTaken.toNat ++ le 1 g.result.code ++ le 1 g.state.code ++ le 1 g.fault.code ++ le 1 (boundByte g.bound) ++
  le 4 g.overtaken.toNat ++ le 1 (flagBit g.inStep 0) ++ le 1 (flagsByte g.absent) ++ zeros 2 ++
  le 4 g.markA.toNat ++ le 4 g.markB.toNat ++ le 4 g.markC.toNat ++ le 4 g.chunksDone.toNat ++ le 4 g.packetsLost ++
  le 4 g.badPackets.toNat ++ le 4 g.scrambled.toNat ++ le 2 g.lastRemaining ++ zeros 18 ++
  g.outcomes.flatMap OutcomeEntry.image

/-- The offset in the header and the bytes of an engine-part field of the header. -/
def Header.fieldAt (h : Header) : HeaderField → Nat × List Byte
  | .orderTaken => (128, le 4 h.orderTaken.toNat)
  | .result => (132, le 1 h.result.code)
  | .detail => (136, le 4 h.detail)
  | .overtaken => (140, le 4 h.overtaken.toNat)
  | .voteAction => (157, le 1 h.voteAction.code)
  | .voteClock => (160, le 4 h.voteClock)

/-- The address and the bytes of an engine-part field of the board as it stands. -/
def State.boardAccess (s : State) : BoardField → Nat × List Byte
  | .slot n f => (s.slotAddr n + ((s.slot n).eng.fieldAt f).1, ((s.slot n).eng.fieldAt f).2)
  | .header f => (s.boardBase + (s.header.fieldAt f).1, (s.header.fieldAt f).2)

/-- A field of the board written with its value as it stands. -/
def State.writeField (s : State) (f : BoardField) : State :=
  { s with mem := s.mem.write (s.boardAccess f).1 (s.boardAccess f).2 }

/-- A changed field written, or marked for writing while the part is STOPPED (R64). -/
def State.showField (s : State) (f : BoardField) : State :=
  if s.part = .stopped then (if f ∈ s.held then s else { s with held := s.held ++ [f] }) else s.writeField f

/-- Changed fields of slot `n` written, in order. -/
def State.showSlot (s : State) (n : Fin 8) (fs : List SlotField) : State :=
  fs.foldl (fun s f => s.showField (.slot n f)) s

/-- Changed fields of the header written, in order. -/
def State.showHeader (s : State) (fs : List HeaderField) : State := fs.foldl (fun s f => s.showField (.header f)) s

/-- The engine part of slot `n` changed and the changed fields written. -/
def State.setEngine (s : State) (n : Fin 8) (g : Engine → Engine) (fs : List SlotField) : State :=
  (s.modSlot n fun x => { x with eng := g x.eng }).showSlot n fs

/-- Engine marks of slot `n` advanced, and those that change written (R63, R64). -/
def State.advance (s : State) (n : Fin 8) (f : Slot → Slot) : State :=
  let x := s.slot n
  let y := f x
  (s.setSlot n y).showSlot n ([.markA, .markB, .markC].filter fun m => y.eng.fieldAt m != x.eng.fieldAt m)

/-- The slot state as it comes to stand, written where it changes (R70, R107, R152). -/
def State.setSlotState (s : State) (n : Fin 8) (st : SlotState) : State :=
  if (s.slot n).eng.state = st then s else s.setEngine n (fun g => { g with state := st }) [.state]

/-! ## Sweeps (R57) -/

def allSlots : List (Fin 8) := [0, 1, 2, 3, 4, 5, 6, 7]

/-- The field is one of slot record `n`. -/
def inRecord (n : Fin 8) : BoardField → Bool
  | .slot m _ => m == n
  | .header _ => false

/-- The field is one of the header. -/
def inHeader : BoardField → Bool
  | .slot _ _ => false
  | .header _ => true

/-- The held writes of record `n`, or of the header, made with the values as they stand. -/
def State.writeHeld (s : State) (own : BoardField → Bool) : State :=
  (s.held.filter own).foldl State.writeField s

/-- The whole engine part of slot record `n` written (R64). -/
def State.writeRecord (s : State) (n : Fin 8) : State :=
  { s with mem := s.mem.write (s.slotAddr n + 256) (s.slot n).eng.image }

/-- The zero fields of the header's engine part: offset and size (3.10). -/
def headerZeros : List (Nat × Nat) := [(133, 3), (158, 2), (164, 860)]

/-- The zero fields of the header's engine part written as zero (R48, 3.10, log 43). -/
def State.writeHeaderZeros (s : State) : State :=
  headerZeros.foldl (fun s z => { s with mem := s.mem.write (s.boardBase + z.1) (zeros z.2) }) s

/-- The writes at the start of the first sweep after START: those held while STOPPED, slot records first, or after a
reset every engine part, and then the causes held with them (R64, R68, R173). -/
def State.flushHeld (s : State) : State :=
  let s := if s.writeAll then allSlots.foldl State.writeRecord s else allSlots.foldl (fun s n => s.writeHeld (inRecord n)) s
  let s := if s.writeAll then
      (([.orderTaken, .result, .detail, .overtaken] : List HeaderField).foldl (fun s f => s.writeField (.header f))
        s).writeHeaderZeros
    else s.writeHeld inHeader
  let s := if s.writeVote then ([.voteAction, .voteClock] : List HeaderField).foldl (fun s f => s.writeField (.header f)) s
    else s
  let s := s.heldCauses.foldl State.raise s
  { s with held := [], heldCauses := [], writeAll := false, writeVote := false }

/-- A sweep starts: held writes are made and slot 0 comes next (R57). -/
def State.beginSweep (s : State) : State := { s.flushHeld with sweep := some (.slot 0) }

/-- A sweep request: a sweep starts, or the pending request is set during one (R55, R56). -/
def State.requestSweep (s : State) : State :=
  match s.sweep with
  | none => s.beginSweep
  | some _ => { s with sweepPending := true }

/-- Where a sweep stands after slot `n`; one that STOP has reached ends there (R52). -/
def State.afterSlot (s : State) (n : Fin 8) : Option SweepAt :=
  if s.part = .running then some (if h : n.val + 1 < 8 then .slot ⟨n.val + 1, h⟩ else .part) else none

/-! ## Results (R58, R61) -/

/-- A result written for slot `n`; RESULT is raised for any but NONE. -/
def State.writeResult (s : State) (n : Fin 8) (r : Result) : State :=
  let s := s.setEngine n (fun g => { g with result := r }) [.result]
  if r = .none then s else s.notify (slotFlag .result n)

/-- Order `number` of slot `n` is taken and answered: the latch takes the number, overtaken orders are counted, and the
result is written before the order taken field. -/
def State.answer (s : State) (n : Fin 8) (number : Mark) (r : Result) : State :=
  let skipped := number - (s.slot n).latch - 1
  let s := s.modSlot n fun x => { x with latch := number, openServed := none, closeServed := none }
  let s := s.setEngine n (fun g => { g with overtaken := g.overtaken + skipped }) [.overtaken]
  let s := s.writeResult n r
  s.setEngine n (fun g => { g with orderTaken := number }) [.orderTaken]

/-- An order of slot `n` completes: DONE is written where no later order has been taken and the latch still holds its number
(R61). -/
def State.completeOrder (s : State) (n : Fin 8) (number : Option Mark) : State :=
  if number = some (s.slot n).latch then s.writeResult n .done else s

/-- A part result and its detail written; RESULT is raised for source 8 for any but NONE. -/
def State.writePartResult (s : State) (r : Result) (detail : Nat) : State :=
  let s := { s with header := { s.header with result := r, detail := detail } }.showHeader [.result, .detail]
  if r = .none then s else s.notify (partFlag .result)

/-- Part order `number` is taken and answered. -/
def State.answerPart (s : State) (number : Mark) (r : Result) (detail : Nat) : State :=
  let skipped := number - s.partLatch - 1
  let s := { s with
    partLatch := number
    header := { s.header with overtaken := s.header.overtaken + skipped }
    image := s.image.map ImageOp.overtaken
    query := s.query.map Query.overtaken }
  let s := (s.showHeader [.overtaken]).writePartResult r detail
  { s with header := { s.header with orderTaken := number } }.showHeader [.orderTaken]

/-- A part order completes: its result is written where no later part order has been taken and the latch still holds its
number (R61, R168, R170). -/
def State.completePart (s : State) (number : Option Mark) (r : Result) (detail : Nat) : State :=
  if number = some s.partLatch then s.writePartResult r detail else s

/-! ## Keys (R10, R11) -/

/-- A key draw starts whenever the pool holds fewer than 4 keys and no draw is in flight. -/
def State.startDraw (s : State) : State := { s with drawing := s.drawing || decide (s.pool.length < 4) }

/-! ## The lapse time (R134) -/

/-- The term of a segment in the hold horizon; none where it has no stamp. -/
def Segment.horizonTerm (g : Segment) : Option Nat := g.lastStamp.map fun t => satAdd t (g.hold.getD 0 * 60)

/-- The greater of two values of which either may be absent. -/
def optMax : Option Nat → Option Nat → Option Nat
  | none, b => b
  | a, none => a
  | some a, some b => some (max a b)

/-- The lesser of two values of which either may be absent. -/
def optMin : Option Nat → Option Nat → Option Nat
  | none, b => b
  | a, none => a
  | some a, some b => some (min a b)

def Entry.allNever (x : Entry) : Bool := x.segments.all fun g => g.cls == .never

/-- The hold horizon of an entry whose every segment is of class NEVER. -/
def Entry.horizon (x : Entry) : Option Nat :=
  if x.allNever then x.segments.foldl (fun h g => optMax h g.horizonTerm) none else none

/-- An entry that a lapse can reach. -/
def Entry.judged (x : Entry) : Bool := x.state == .live || x.state == .held || x.state == .moving

/-- The lapse time derived from state, expiry and segments. -/
def Entry.deriveLapse (x : Entry) : Option Nat :=
  match x.state with
  | .live => x.expiry
  | .held => optMin x.expiry x.horizon
  | .moving => optMin x.expiry x.horizon
  | _ => none

/-! ## Ends of entries (R1, R3, R4) -/

def Entry.destroyKeys (x : Entry) : Entry :=
  { x with segments := x.segments.map fun g => { g with key := none }, nextKey := none }

/-- An entry that becomes LAPSED or MOVED (R3). -/
def Entry.spent (x : Entry) (st : EntryState) : Entry :=
  { x.destroyKeys with state := st, pendingRule := none, pendingRotation := false, lapseTime := none }

/-- An entry that returns to FREE, or to RETIRED at generation 65,535 (R1). -/
def Entry.returned (x : Entry) : Entry :=
  if x.generation < 65535 then Entry.free (x.generation + 1) else { Entry.free x.generation with state := .retired }

/-- The segment list without a last segment that holds no chunk. -/
def dropEmptyLast (gs : List Segment) : List Segment :=
  match gs.getLast? with
  | some g => if g.count = 0 then gs.dropLast else gs
  | none => gs

/-- A LIVE entry that holds a chunk at the end of its recording (R4). -/
def Entry.endHeld (x : Entry) (cutOff : Bool) : Entry :=
  { x with
    state := .held
    nextKey := none
    pendingRule := none
    pendingRotation := false
    segments := dropEmptyLast x.segments
    binding := none
    interrupted := x.interrupted || cutOff }

/-- The slots bound to an entry (R5). -/
def Entry.boundSlots (x : Entry) : List (Fin 8) := x.binding.toList ++ x.players

/-- The LAPSED faults of the given slots become due (R139). -/
def State.markLapse (s : State) (ns : List (Fin 8)) : State :=
  ns.foldl (fun s n => s.modSlot n fun x => { x with lapseDue := true }) s

/-- The entry lapses: keys destroyed, bound slots due to fault, LAPSE raised for source 8 (R138, R139). -/
def State.lapse (s : State) (e : Fin 64) : State :=
  ((s.setEntry e ((s.entry e).spent .lapsed)).markLapse (s.entry e).boundSlots).raise (partFlag .lapse)

/-- The clock has reached the entry's lapse time (R136). -/
def State.lapseReached (s : State) (e : Fin 64) : Bool :=
  (s.entry e).judged && match (s.entry e).lapseTime with | none => false | some t => decide (t ≤ s.clock)

/-- The judgement of one entry (R136). -/
def State.judge (s : State) (e : Fin 64) : State := if s.lapseReached e then s.lapse e else s

/-- The lapse time of an entry derived anew and the entry judged at once (R135). -/
def State.derive (s : State) (e : Fin 64) : State :=
  (s.modEntry e fun x => { x with lapseTime := x.deriveLapse }).judge e

/-- The entries 0 to 63 in order. -/
def allEntries : List (Fin 64) := (List.range 64).filterMap entryIndex

/-- The judgement of every entry that a clock advance brings (R136). -/
def State.judgeAll (s : State) : State := allEntries.foldl State.judge s

/-- The clock advanced to a value, with the judgement that follows (R142). -/
def State.advanceClock (s : State) (c : Nat) : State := { s with clock := c }.judgeAll

/-- A PLAY slot is bound to the entry. -/
def State.playBound (s : State) (e : Fin 64) : Bool := (s.entry e).players.any fun n => (s.slot n).mode == .play

/-- The judgement of the last view (R122, R137). -/
def State.judgeLastView (s : State) (e : Fin 64) : State :=
  if (s.entry e).lastViewTaken && (s.entry e).state == .held && !s.playBound e then s.lapse e else s

/-- An entry that has become HELD: its lapse time derived and judged, then its last view. -/
def State.becameHeld (s : State) (e : Fin 64) : State := (s.derive e).judgeLastView e

/-- The entry returns to FREE or RETIRED; slots still bound to it are due to fault (R1, R123). -/
def State.freeEntry (s : State) (e : Fin 64) : State :=
  (s.setEntry e (s.entry e).returned).markLapse (s.entry e).boundSlots

/-- The recording of a LIVE entry ends (R4); an entry in another state is left as it is (R3). -/
def State.endRecording (s : State) (e : Fin 64) (cutOff : Bool) : State :=
  if (s.entry e).state = .live then
    if (s.entry e).chunkCount = 0 then s.freeEntry e
    else (s.modEntry e fun x => x.endHeld cutOff).becameHeld e
  else s

/-- A MOVING entry returns to HELD with its move mark kept (R161); an entry in another state is left as it is. -/
def State.endMove (s : State) (e : Fin 64) : State :=
  if (s.entry e).state = .moving then (s.modEntry e fun x => { x with state := .held }).becameHeld e else s

/-! ## Bindings and the release of a slot (R5) -/

/-- The entry a slot is bound to; a FAULTED slot is already released. -/
def Slot.boundEntry (x : Slot) : Option (Fin 64) :=
  if x.eng.state = .idle ∨ x.eng.state = .faulted then none else x.eng.bound

/-- Slot `n` removed from an entry's bindings. -/
def Entry.unbind (x : Entry) (n : Fin 8) : Entry :=
  { x with binding := if x.binding = some n then none else x.binding, players := x.players.filter (· ≠ n) }

/-- The batch of slot `n` in flight, if any, is orphaned: it completes and its values are dropped. -/
def State.orphan (s : State) (n : Fin 8) : State :=
  { s with flight := s.flight.map fun f => if f.requester = .slot n then { f with orphan := true } else f }

/-- Slot `n` is released: it leaves the waiting list, its bindings are cleared, and its batch is orphaned (R5). -/
def State.release (s : State) (n : Fin 8) : State :=
  let s := match (s.slot n).boundEntry with
    | none => s
    | some e => s.modEntry e fun x => x.unbind n
  { s.orphan n with waiting := s.waiting.filter (· ≠ n) }

/-- Slot `n` returns to IDLE: it is released and holds no working state. Its latch and engine part stay. -/
def State.toIdle (s : State) (n : Fin 8) : State :=
  ((s.release n).modSlot n fun x => Slot.bare x.latch x.eng).setEngine n
    (fun g => { g with state := .idle, bound := none }) [.state, .bound]

/-- The code of a fault that reaches a slot: on a RECORD slot LAPSED once its entry has lapsed, whatever comes after (R88,
log 44). -/
def Slot.faultCode (x : Slot) (f : SlotFault) : SlotFault := if x.mode = .record ∧ x.lapseDue = true then .lapsed else f

/-- Slot `n` enters FAULTED: it is released and drops its work, fault code and state are written, and FAULT is raised
(R88, R123, R163). -/
def State.toFaulted (s : State) (n : Fin 8) (f : SlotFault) : State :=
  (((s.release n).modSlot n Slot.dropWork).setEngine n
    (fun g => { g with state := .faulted, fault := (s.slot n).faultCode f }) [.fault, .state]).notify (slotFlag .fault n)

/-! ## Part conditions -/

/-- A LOAD is in flight. -/
def State.loadInFlight (s : State) : Bool :=
  match s.image with
  | some (.load ..) => true
  | _ => false

/-- Step 1 of every OPEN: READY, and no LOAD in flight (R165). -/
def State.openReady (s : State) : Bool := s.ready && !s.loadInFlight

/-- A row that is the taking of a slot order: the order at hand is taken if it is the row's, and the sweep goes on. -/
def State.takeOrder (s : State) (row : OrderKind → Mode → Slot → Bool) (effect : State → Fin 8 → Mark → State) : State :=
  match s.sweep with
  | some (.order n number) =>
    if row (orderKind (s.slotField n 4 1)) (modeOf (s.slotField n 5 1)) (s.slot n) then
      { effect s n number with sweep := s.afterSlot n }
    else s
  | _ => s

/-- A row that is the taking of a part order: at the part step, an order number other than the latch and of the row's
kind is taken, and the end-of-sweep writes come next (R57, R58, R60). -/
def State.takePartOrder (s : State) (kind : PartOrderKind) (effect : State → Mark → State) : State :=
  if s.sweep = some .part ∧ s.partOrderNumber ≠ s.partLatch ∧ partOrderKind (s.headerField 100 1) = kind then
    { effect s s.partOrderNumber with sweep := some .ending }
  else s

end Sys2Proof.Machine
end

