-- ==== Sys2Proof/Machine/Clock.lean ====
section
/-! DEFINITION. Machine/Clock.lean: the tick of the protected clock (8.2). -/

namespace Sys2Proof.Machine

/-- CLOCK_TICK: the tick phase completes a second and restarts from 0, C advances by 1, saturating, and every entry is
judged (R143, R142, R136). -/
def execClockTick (s : State) : Host.Outcome State Fault Refusal :=
  .next ({ s with tickPhase := 0 }.advanceClock (satAdd s.clock 1))

end Sys2Proof.Machine
end

