-- ==== Sys2Proof/Machine/Sorter.lean ====
section
/-! DEFINITION. Machine/Sorter.lean: the Packet Sorter (chapter 5): classification of the packets of a take, the chunk
record at placement, and absence. -/

namespace Sys2Proof.Machine

/-! ## The fields of a packet (R94) -/

def packetSync (p : List Byte) : Bool := byteAt p 0 == 0x47

def packetStart (p : List Byte) : Bool := (byteAt p 1).getLsbD 6

def packetIdent (p : List Byte) : Nat := (byteAt p 1).toNat % 32 * 256 + (byteAt p 2).toNat

/-- The scrambling control, bits 7 and 6 of byte 3. -/
def packetScrambling (p : List Byte) : Nat := (byteAt p 3).toNat / 64

/-- The adaptation field control, bits 5 and 4 of byte 3. -/
def packetAdaptation (p : List Byte) : Nat := (byteAt p 3).toNat / 16 % 4

/-- An adaptation field with a flags byte is present, and its random-access indicator is set. -/
def packetRandomAccess (p : List Byte) : Bool :=
  decide (2 ≤ packetAdaptation p) && byteAt p 4 != 0 && (byteAt p 5).getLsbD 6

/-- The access-point finding of a packet kept by an INDEX entry (R100). -/
def accessPoint (p : List Byte) : Bool := packetStart p && packetRandomAccess p

/-! ## Classification (R95 to R99) -/

/-- What classification changes as it goes: sync history, in-step flag, whether the flag has changed, though it may have
changed back (R96), the two counters' increases, and the kept packets. -/
structure Sorting where
  history : List Bool
  inStep : Bool
  stepMoved : Bool
  bad : Nat
  scrambled : Nat
  kept : List Carried
  deriving DecidableEq, Repr

/-- The in-step flag judged against the history as it now stands (R96). -/
def judgeStep (inStep : Bool) (history : List Bool) : Bool :=
  let bads := history.count false
  if inStep then decide (bads < 2) else decide (bads = 0)

/-- The watch entry in use that holds the identifier (R99). -/
def watchMatch (watch : List Watch) (ident : Nat) : Option Nat :=
  watch.findIdx? fun x => x.action != .notUsed && x.ident == ident

/-- Step 4 and step 5: the kept packet, or nothing where it is dropped (R99, R100). -/
def keepPacket (watch : List Watch) (othersSeal : Bool) (p : List Byte) : Option Carried :=
  match watchMatch watch (packetIdent p) with
  | none => if othersSeal then some ⟨p, true, false, none⟩ else none
  | some i =>
    match (watch.getD i ⟨0, .notUsed⟩).action with
    | .seal => some ⟨p, true, false, some i⟩
    | .index => some ⟨p, true, accessPoint p, some i⟩
    | .clear => some ⟨p, false, false, some i⟩
    | .drop => none
    | .notUsed => none

/-- One packet classified (R95). -/
def classify (watch : List Watch) (othersSeal : Bool) (z : Sorting) (p : List Byte) : Sorting :=
  let history := (z.history ++ [packetSync p]).drop 1
  let inStep := judgeStep z.inStep history
  let z := { z with history := history, inStep := inStep, stepMoved := z.stepMoved || inStep != z.inStep }
  if !packetSync p || !inStep then { z with bad := z.bad + 1 }
  else if packetIdent p = 0x1FFF then z
  else
    let z := if packetScrambling p = 0 then z else { z with scrambled := z.scrambled + 1 }
    { z with kept := z.kept ++ (keepPacket watch othersSeal p).toList }

/-- The packets of a take classified in stream order. -/
def classifyAll (x : Slot) (ps : List (List Byte)) : Sorting :=
  ps.foldl (classify x.watch x.othersSeal) ⟨x.history, x.eng.inStep, false, 0, 0, []⟩

/-- The sorter's part of the engine part after a take (R96, R98). -/
def Engine.sorted (g : Engine) (z : Sorting) : Engine :=
  { g with
    inStep := z.inStep
    badPackets := g.badPackets + BitVec.ofNat 32 z.bad
    scrambled := g.scrambled + BitVec.ofNat 32 z.scrambled }

/-- The fields of it that change (R93): the in-step flag where any packet of the take has changed it, be it back to what it
was, for it is then written with its latest value (R64, R96). -/
def Engine.sortedFields (g : Engine) (z : Sorting) : List SlotField :=
  (if z.stepMoved then [.inStep] else []) ++
    [.badPackets, .scrambled].filter fun f => (g.sorted z).fieldAt f != g.fieldAt f

/-- The sorter's results taken into slot `n`: kept packets join the carry list, and what changes in the engine part is
written (R93, R95, R96, R98). -/
def State.takeSorting (s : State) (n : Fin 8) (z : Sorting) : State :=
  let s := s.modSlot n fun x => { x with history := z.history, carry := x.carry ++ z.kept }
  s.setEngine n (fun g => g.sorted z) ((s.slot n).eng.sortedFields z)

/-! ## The chunk record at placement (R101, R103) -/

/-- One packet placed at a position of the open chunk. -/
def OpenChunk.place (c : OpenChunk) (pos : Nat) (k : Carried) : OpenChunk :=
  { c with
    points := if k.access && decide (c.points.length < 8) then c.points ++ [pos] else c.points
    overflow := c.overflow || (k.access && decide (8 ≤ c.points.length))
    scrambledMark := c.scrambledMark || packetScrambling k.bytes != 0
    seen := match k.watch with | none => c.seen | some i => if i ∈ c.seen then c.seen else c.seen ++ [i] }

/-- Packets placed at consecutive positions. -/
def OpenChunk.placeAll (c : OpenChunk) : Nat → List Carried → OpenChunk
  | _, [] => c
  | pos, k :: ks => (c.place pos k).placeAll (pos + 1) ks

/-- The absence counts after packets of the given watch entries are placed (R103). -/
def resetAbsence (absence : List Nat) (placed : List Carried) : List Nat :=
  (placed.filterMap Carried.watch).foldl (fun a i => a.set i 0) absence

/-- The absent flags after packets of the given watch entries are placed (R103). -/
def clearAbsent (absent : List Bool) (placed : List Carried) : List Bool :=
  (placed.filterMap Carried.watch).foldl (fun a i => a.set i false) absent

/-! ## Absence at a close (R102) -/

/-- A watch entry is watched for absence when its action is SEAL, INDEX or CLEAR (R93). -/
def watchedForAbsence (x : Watch) : Bool := x.action == .seal || x.action == .index || x.action == .clear

/-- Watch entry `i` counted for absence at the close of a chunk: its count, and whether its flag is set by this. -/
def countAbsent (watch : List Watch) (seen : List Nat) (absence : List Nat) (i : Nat) : Nat × Bool :=
  let count := absence.getD i 0
  if watchedForAbsence (watch.getD i ⟨0, .notUsed⟩) && !seen.contains i && decide (count < 3) then
    (count + 1, decide (count + 1 = 3))
  else (count, false)

/-- The chunk counted for absence: counts rise, entries that reach 3 become absent, and ABSENT is raised for them. -/
def State.countAbsence (s : State) (n : Fin 8) (seen : List Nat) : State :=
  let x := s.slot n
  let counted := (List.range 4).map (countAbsent x.watch seen x.absence)
  let s := s.modSlot n fun x => { x with absence := counted.map Prod.fst }
  if counted.any Prod.snd then
    (s.setEngine n (fun g => { g with absent := List.zipWith (fun a c => a || c.2) g.absent counted }) [.absent]).notify
      (slotFlag .absent n)
  else s

end Sys2Proof.Machine
end

