-- ==== Sys2Proof/Machine/Chunks.lean ====
section
/-! DEFINITION. Machine/Chunks.lean: the segment decision of the Recording Table and the life of a chunk on a RECORD
slot, from the take to the put and the end of the recording (1.6, chapter 4). -/

namespace Sys2Proof.Machine

/-! ## The segment decision (R15 to R19) -/

/-- A list with its last element changed. -/
def modifyLast {α : Type} (f : α → α) : List α → List α
  | [] => []
  | [a] => [f a]
  | a :: b :: rest => a :: modifyLast f (b :: rest)

/-- A rule merged into a segment, field by field towards the stricter (R18). -/
def mergeRule (rule : ClassHold) (g : Segment) : Segment :=
  let cls := if g.cls.code < rule.cls.code then rule.cls else g.cls
  { g with cls := cls, hold := if cls = .never then optMin g.hold rule.hold else none }

/-- A segment's class and hold replaced outright (R15, case 1). -/
def replaceRule (rule : ClassHold) (g : Segment) : Segment := { g with cls := rule.cls, hold := rule.hold }

/-- A rotation is wanted, `last` being the last segment (R15). -/
def Entry.rotationWanted (x : Entry) (last : Segment) : Bool :=
  (x.rotation != 0 && decide (x.rotation ≤ last.count)) || x.pendingRotation

/-- A segment appended under the next key (R16). -/
def Entry.appendSegment (x : Entry) (last : Segment) (key : Key) : Entry :=
  let rule := x.pendingRule.getD ⟨last.cls, last.hold⟩
  { x with
    segments := x.segments ++ [⟨x.chunkCount, 0, some key, rule.cls, rule.hold, none, none⟩]
    nextKey := none
    pendingRule := none
    pendingRotation := false }

/-- A pending rule merged into the last segment (R17, R19). -/
def Entry.mergePending (x : Entry) : Entry :=
  match x.pendingRule with
  | none => x
  | some rule => { x with segments := modifyLast (mergeRule rule) x.segments }

/-- The segment decision at a chunk open (R15). -/
def Entry.decideSegment (x : Entry) : Entry :=
  match x.segments.getLast? with
  | none => x
  | some last =>
    if last.count = 0 then
      let x := match x.pendingRule with
        | none => x
        | some rule => { x with segments := modifyLast (replaceRule rule) x.segments }
      { x with pendingRule := none, pendingRotation := false }
    else if !x.rotationWanted last && x.pendingRule.isNone then x
    else if x.segments.length < 16 then
      match x.nextKey with
      | some key => x.appendSegment last key
      | none => x.mergePending
    else
      { x.mergePending with
        pendingRule := none
        rotationHeld := x.rotationHeld || x.rotationWanted last
        pendingRotation := false }

/-- The refill of an absent next key that follows the decision (R12); a key given away lets a draw start (R10). -/
def State.refillNextKey (s : State) (e : Fin 64) : State :=
  match (s.entry e).nextKey, s.pool, s.waiting with
  | none, key :: pool, [] => { s.modEntry e fun x => { x with nextKey := some key } with pool := pool }.startDraw
  | _, _, _ => s

/-! ## Closing (R77, R31, R81) -/

/-- The close of the open chunk takes effect: the tag's lost count is taken, loss of an overrun that flushed the chunk is
recorded after it, the hold timer stops, and the chunk is counted for absence (log 9). -/
def State.closeTakesEffect (s : State) (n : Fin 8) : State :=
  match (s.slot n).chunk with
  | none => s
  | some c =>
    let due := (s.slot n).lossDue
    let s := s.modSlot n fun x =>
      { x with
        chunk := some { c with closeAsked := true, closed := true, lost := x.lostTotal }
        lostTotal := due
        lossDue := 0
        holdTimer := none }
    let s := if due = 0 then s
      else s.setEngine n (fun g => { g with packetsLost := satAdd g.packetsLost due }) [.packetsLost]
    s.countAbsence n c.seen

/-- A close is asked of the open chunk: it takes effect at once where no sealing batch is formed, and at that batch's
completion otherwise; a second cause changes nothing (R77). -/
def State.askClose (s : State) (n : Fin 8) : State :=
  match (s.slot n).chunk with
  | none => s
  | some c =>
    if c.closeAsked then s
    else if c.batch.isEmpty then s.closeTakesEffect n
    else s.modSlot n fun x => { x with chunk := some { c with closeAsked := true }, holdTimer := none }

/-! ## Sealing batches (R74) -/

/-- A sealing batch is formed where packets are carried, a chunk is open, no close is asked of it and none is formed. -/
def State.formBatch (s : State) (n : Fin 8) : State :=
  match (s.slot n).chunk with
  | none => s
  | some c =>
    let x := s.slot n
    if c.closeAsked || !c.batch.isEmpty || x.carry.isEmpty then s
    else
      let placed := x.carry.take (x.geo.chunkLength - c.stored)
      let absent := clearAbsent x.eng.absent placed
      let s := s.modSlot n fun x =>
        { x with
          carry := x.carry.drop (x.geo.chunkLength - c.stored)
          chunk := some { c.placeAll c.stored placed with batch := placed }
          absence := resetAbsence x.absence placed
          holdTimer := if x.eng.state = .closing then none else some x.holdTime }
      if absent = x.eng.absent then s else s.setEngine n (fun g => { g with absent := absent }) [.absent]

/-! ## The end of a recording (R83) -/

/-- The recording ends as at the completion of CLOSE: the slot is IDLE, the entry ends, DONE is written for a CLOSE being
served, PROGRESS is raised (R80, R83). -/
def State.finishRecording (s : State) (n : Fin 8) : State :=
  let x := s.slot n
  let s := s.toIdle n
  let s := match x.boundEntry with | none => s | some e => s.endRecording e false
  (s.completeOrder n x.closeServed).notify (slotFlag .progress n)

/-- The next step of a CLOSING slot that needs no grant: the close of the open chunk once its carry is placed, or the end
of the recording (R83). -/
def State.settleClosing (s : State) (n : Fin 8) : State :=
  let x := s.slot n
  if x.eng.state = .closing ∧ x.take = none ∧ x.carry = [] then
    match x.chunk with
    | none => s.finishRecording n
    | some c => if c.batch.isEmpty then s.askClose n else s
  else s

/-! ## Takes (R73, R104) -/

/-- Packets of a take that its first access reads; the rest follow from position 0 (R73). -/
def firstCount (pos count size : Nat) : Nat := min count (size - pos)

/-- The take in progress completes: its second access, if it wraps, is made, T advances as far as R63 lets it, and the packets
are classified.
Answers false where that access is refused; the take then ends with T as it was. -/
def State.completeTake (s : State) (n : Fin 8) : State × Bool :=
  match (s.slot n).take with
  | none => (s, true)
  | some t =>
    let x := s.slot n
    let rest := t.count - firstCount t.pos t.count x.geo.streamSize
    if rest = 0 || covers s.windows false x.geo.streamBase (188 * rest) then
      let bytes := t.got ++ s.mem.read x.geo.streamBase (188 * rest)
      let s := s.modSlot n fun x =>
        { x with take := none, streamPos := (t.pos + t.count) % x.geo.streamSize }
      let s := s.advance n (·.advanceA t.count)
      (s.takeSorting n (classifyAll (s.slot n) (packetsOf bytes t.count)), true)
    else (s.modSlot n fun x => { x with take := none }, false)

/-! ## Faults of a RECORD slot (R88) -/

/-- The slot faults: a take in progress completes and its packets are dropped (R104), then the slot is released and its
entry ends (R4); a LAPSED entry stays as it is (R3). -/
def State.faultRecord (s : State) (n : Fin 8) (f : SlotFault) : State :=
  let bound := (s.slot n).boundEntry
  let s := (s.completeTake n).1.toFaulted n f
  match bound with
  | none => s
  | some e => s.endRecording e false

/-! ## Overrun (R81) -/

/-- Loss recorded in the lost total and the packets lost counter. -/
def State.recordLoss (s : State) (n : Fin 8) (loss : Nat) : State :=
  (s.modSlot n fun x => { x with lostTotal := satAdd x.lostTotal loss }).setEngine n
    (fun g => { g with packetsLost := satAdd g.packetsLost loss }) [.packetsLost]

/-- The demultiplexer has lapped the stream window: the carry list is given up, T moves to F, the open chunk is asked to
close and the loss is recorded after that close (R81). -/
def State.overrun (s : State) (n : Fin 8) : State :=
  let x := s.slot n
  let loss := x.streamAvailable + x.carry.length
  let s := s.modSlot n fun y =>
    { y with carry := [], owedA := 0, streamPos := (y.streamPos + x.streamAvailable) % y.geo.streamSize }
  let s := s.setEngine n (fun g => { g with markA := x.viewA }) [.markA]
  let waits := match x.chunk with | none => false | some c => !c.closed
  let s := if waits then (s.modSlot n fun y => { y with lossDue := satAdd y.lossDue loss }).askClose n
    else s.recordLoss n loss
  if x.eng.state = .stalled then s.setSlotState n .running else s

/-- F − T as a take in progress would leave it exceeds W, and is no backward mark (R81). -/
def Slot.overrunDue (x : Slot) : Bool :=
  let d := ahead x.viewA (x.placeA + BitVec.ofNat 32 (match x.take with | none => 0 | some t => t.count))
  decide (x.geo.streamSize < d ∧ d < 2 ^ 31)

/-- A RECORD slot after the mark checks of a refresh: an overrun is handled, a take in progress completing first, or a
STALLED slot with room returns to RUNNING (R76, R81). -/
def State.refreshRecord (s : State) (n : Fin 8) : State :=
  let x := s.slot n
  if x.eng.state = .closing then s
  else if x.overrunDue then
    match s.completeTake n with
    | (s, true) => s.overrun n
    | (s, false) => s.faultRecord n .window
  else if x.eng.state = .stalled ∧ 0 < x.chunkRoom then s.setSlotState n .running
  else s

/-! ## Open and put (R75, R79) -/

/-- A chunk opens on a RUNNING or CLOSING slot with carried packets, no chunk and a LIVE entry (R75). -/
def State.openChunk (s : State) (n : Fin 8) : State :=
  let x := s.slot n
  match x.boundEntry with
  | none => s
  | some e =>
    if (s.entry e).chunkCount = top32 then (s.modSlot n fun x => { x with carry := [] }).finishRecording n
    else if x.chunkRoom = 0 then
      if x.eng.state = .running then s.setSlotState n .stalled else s
    else
      let decided := (s.entry e).decideSegment
      match decided.segments.getLast? with
      | none => s
      | some last =>
        match last.key with
        | none => s
        | some key =>
          let s := (s.setEntry e decided).refillNextKey e
          let c : OpenChunk :=
            { seq := decided.chunkCount, seg := decided.segments.length - 1, stamp := s.clock, pos := x.chunkPos
              stored := 0, key := key, generation := decided.generation, batch := [], closeAsked := false
              closed := false, lost := 0, points := [], overflow := false, scrambledMark := false, seen := []
              chain := Chain.start }
          (s.modSlot n fun x => { x with chunk := some c }).formBatch n

/-- A chunk put is counted into its entry and last segment (R22). -/
def Entry.countChunk (x : Entry) (stamp : Nat) : Entry :=
  { x with
    chunkCount := x.chunkCount + 1
    segments := modifyLast (fun g =>
      { g with count := g.count + 1, lastStamp := some stamp, firstStamp := some (g.firstStamp.getD stamp) }) x.segments }

/-- The slot puts the frame of its open chunk (R79, R80); P is held back where D has moved back meanwhile (R63, log 42). -/
def State.putChunk (s : State) (n : Fin 8) (c : OpenChunk) (e : Fin 64) : State :=
  let s := s.modSlot n fun x => { x with chunkPos := (x.chunkPos + 1) % x.geo.frames, chunk := none }
  let s := s.advance n (·.advanceB 1)
  let s := s.modEntry e fun x => x.countChunk c.stamp
  let s := s.setEngine n (fun g => { g with chunksDone := g.chunksDone + 1 }) [.chunksDone]
  let x := s.slot n
  if x.notice ≤ ahead x.eng.markB x.viewB then s.notify (slotFlag .progress n) else s

/-- Bytes 0 to 55 of the tag of the open chunk (R29 to R31). -/
def OpenChunk.tag (c : OpenChunk) (chunkLength : Nat) (e : Fin 64) : List Byte :=
  tagBytes 1 e.val c.generation c.seq c.seg (tagFlags chunkLength c.stored c.overflow c.scrambledMark c.lost)
    c.stored c.stamp c.lost c.points

end Sys2Proof.Machine
end

