-- ==== Sys2Proof/Machine/RecordOrders.lean ====
section
/-! DEFINITION. Machine/RecordOrders.lean: the orders of a RECORD slot, the return of a FAULTED slot, and unknown orders
(R59, R71, R72, R82 to R87, R89). -/

namespace Sys2Proof.Machine

/-! ## OPEN -/

/-- The entry a RECORD OPEN names or chooses (R7). -/
def State.chooseEntry (s : State) (number : Nat) : Except Result (Fin 64) :=
  if number = 255 then
    match allEntries.find? fun e => (s.entry e).state == .free with
    | none => .error .noRoom
    | some e => .ok e
  else match entryIndex number with
    | none => .error .badOperand
    | some e => if (s.entry e).state = .free then .ok e else .error .wrongState

/-- The checks of a RECORD OPEN in their order (R59, R71). -/
def State.checkRecordOpen (s : State) (n : Fin 8) : Except Result (Fin 64) :=
  let g := s.readGeometry n .record (clampLength (s.slotField n 7 1))
  if (s.slot n).eng.state ≠ .idle then .error .busy
  else if !s.openReady then .error .notReady
  else if !geometryOk .record g (s.watchList n) then .error .badOperand
  else if !windowsOk s.windows .record g then .error .window
  else match s.chooseEntry (s.slotField n 6 1) with
    | .error r => .error r
    | .ok e =>
      match (s.ruleFields n).expiry with
      | none => .ok e
      | some t => if t ≤ s.clock then .error .expired else .ok e

/-- The entry an accepted RECORD OPEN sets up (R8). -/
def Entry.opened (x : Entry) (n : Fin 8) (chunkLength rotation : Nat) (rule : Rule) : Entry :=
  { Entry.free x.generation with
    state := .live
    chunkLength := chunkLength
    rotation := rotation
    expiry := rule.expiry
    views := rule.views
    binding := some n
    segments := [⟨0, 0, none, rule.classHold.cls, rule.classHold.hold, none, none⟩] }

/-- The engine part's fields that an accepted OPEN sets. -/
def openFields : List SlotField :=
  [.state, .fault, .bound, .inStep, .absent, .markA, .markB, .markC, .chunksDone, .packetsLost, .badPackets, .scrambled,
    .lastRemaining] ++ (List.range 16).map SlotField.outcome

/-- The engine part at an accepted OPEN, the order fields kept (R72, R109, R154, log 12). -/
def Engine.opened (g : Engine) (st : SlotState) (e : Fin 64) (inStep : Bool) (markA markB markC : Mark) : Engine :=
  { Engine.idle with
    orderTaken := g.orderTaken
    result := g.result
    overtaken := g.overtaken
    state := st
    bound := some e
    inStep := inStep
    markA := markA
    markB := markB
    markC := markC }

/-- An accepted RECORD OPEN sets up entry and slot (R8, R62, R72, R105). -/
def State.acceptRecord (s : State) (n : Fin 8) (e : Fin 64) : State :=
  let chunkLength := clampLength (s.slotField n 7 1)
  let g := s.readGeometry n .record chunkLength
  let x := s.slot n
  let y := s.readMarks n .record (Slot.bare x.latch x.eng)
  let s := s.modEntry e fun z => z.opened n chunkLength (clampRotation (s.slotField n 16 4)) (s.ruleFields n)
  let s := s.setSlot n
    { y with
      mode := .record
      geo := g
      holdTime := clampHoldTime (s.slotField n 20 1)
      notice := clampNotice (s.slotField n 21 1) g.frames
      othersSeal := clampOthersSeal (s.slotField n 22 1)
      watch := s.watchList n
      history := [true, true, true]
      absence := [0, 0, 0, 0] }
  let s := s.setEngine n (fun z => z.opened .opening e true y.viewA y.viewB 0) openFields
  { s with waiting := s.waiting ++ [n] }.derive e

/-- RECORD_OPEN: an OPEN with mode RECORD (R71, R72). -/
def execRecordOpen (w : Writes) (s : State) : Host.Outcome State Fault Refusal :=
  withWrites w s fun s => s.takeOrder (fun k m _ => k == .openSlot && m == .record) fun s n number =>
    match s.checkRecordOpen n with
    | .error r => s.answer n number r
    | .ok e => (s.answer n number .done).acceptRecord n e

/-! ## CLOSE and ABORT -/

/-- The slot is IDLE, or in use in one of the modes: a CLOSE or ABORT on it is answered by the mode's row (R59). -/
def Slot.answeredBy (x : Slot) (modes : List Mode) : Bool :=
  x.eng.state == .idle || (x.eng.state != .faulted && modes.contains x.mode)

/-- CLOSE of a recording (R83). -/
def State.closeRecord (s : State) (n : Fin 8) (number : Mark) : State :=
  let x := s.slot n
  match x.eng.state with
  | .idle => s.answer n number .wrongState
  | .closing => s.answer n number .busy
  | st =>
    if st = .opening ∨ (st = .running ∧ x.chunk = none ∧ x.carry = [] ∧ x.take = none) then
      (s.answer n number .done).finishRecording n
    else
      let s := (s.answer n number .none).modSlot n fun y => { y with closeServed := some number, holdTimer := none }
      (s.setSlotState n .closing).settleClosing n

/-- RECORD_CLOSE (R83). -/
def execRecordClose (w : Writes) (s : State) : Host.Outcome State Fault Refusal :=
  withWrites w s fun s => s.takeOrder (fun k _ x => k == .close && x.answeredBy [.record]) State.closeRecord

/-- ABORT of a recording: a take in progress completes and its packets are dropped with the rest (R84, R104). Where the
Link Port refuses the second read of a take that wraps, the take is dropped with T as it was, the slot is IDLE, and no
WINDOW fault is reported (DESIGN CHOICE, log 41). -/
def State.abortRecord (s : State) (n : Fin 8) (number : Mark) : State :=
  let x := s.slot n
  if x.eng.state = .idle then s.answer n number .wrongState
  else
    let s := ((s.answer n number .done).completeTake n).1.toIdle n
    match x.boundEntry with
    | none => s
    | some e => s.endRecording e false

/-- RECORD_ABORT (R84). -/
def execRecordAbort (w : Writes) (s : State) : Host.Outcome State Fault Refusal :=
  withWrites w s fun s => s.takeOrder (fun k _ x => k == .abort && x.answeredBy [.record]) State.abortRecord

/-- FAULTED_SLOT_RETURN: CLOSE or ABORT on a FAULTED slot (R89, R124, R163). -/
def execFaultedSlotReturn (w : Writes) (s : State) : Host.Outcome State Fault Refusal :=
  withWrites w s fun s =>
    s.takeOrder (fun k _ x => (k == .close || k == .abort) && x.eng.state == .faulted) fun s n number =>
      (s.answer n number .done).toIdle n

/-! ## RULE, ROTATE, FLUSH -/

/-- The answer to RULE, ROTATE and FLUSH (R59, R82, R119, R160). -/
def Slot.ruleAnswer (x : Slot) : Result :=
  if x.mode = .record then
    match x.eng.state with
    | .opening => .done
    | .running => .done
    | .stalled => .done
    | .closing => .busy
    | _ => .wrongState
  else .wrongState

/-- RULE, ROTATE or FLUSH answered, with its effect where it is DONE. -/
def State.answerRule (s : State) (n : Fin 8) (number : Mark) (effect : State → State) : State :=
  let r := (s.slot n).ruleAnswer
  if r = .done then effect (s.answer n number .done) else s.answer n number r

/-- The table side of RULE on a LIVE entry (R20). -/
def Entry.tighten (x : Entry) (rule : Rule) : Entry :=
  { x with
    pendingRule := some rule.classHold
    expiry := optMin x.expiry rule.expiry
    views := optMin x.views rule.views }

/-- RULE takes effect on slot and entry; a changed expiry has the lapse time derived and judged (R20, R85). -/
def State.applyRule (s : State) (n : Fin 8) : State :=
  let rule := s.ruleFields n
  let s := s.askClose n
  match (s.slot n).boundEntry with
  | none => s
  | some e =>
    if (s.entry e).state = .live then
      let before := (s.entry e).expiry
      let s := s.modEntry e fun x => x.tighten rule
      if (s.entry e).expiry = before then s else s.derive e
    else s

/-- RULE (R85). -/
def execRule (w : Writes) (s : State) : Host.Outcome State Fault Refusal :=
  withWrites w s fun s => s.takeOrder (fun k _ _ => k == .rule) fun s n number =>
    s.answerRule n number fun s => s.applyRule n

/-- ROTATE takes effect on a LIVE entry (R21). -/
def State.applyRotate (s : State) (n : Fin 8) : State :=
  match (s.slot n).boundEntry with
  | none => s
  | some e =>
    if (s.entry e).state = .live then s.modEntry e fun x => { x with pendingRotation := true } else s

/-- ROTATE (R87). -/
def execRotate (w : Writes) (s : State) : Host.Outcome State Fault Refusal :=
  withWrites w s fun s => s.takeOrder (fun k _ _ => k == .rotate) fun s n number =>
    s.answerRule n number fun s => s.applyRotate n

/-- FLUSH (R86). -/
def execFlush (w : Writes) (s : State) : Host.Outcome State Fault Refusal :=
  withWrites w s fun s => s.takeOrder (fun k _ _ => k == .flush) fun s n number =>
    s.answerRule n number fun s => s.askClose n

/-! ## Unknown orders -/

/-- UNKNOWN_ORDER: an unknown kind, or an OPEN with mode OFF or an unknown mode, which a slot in use answers BUSY (R59). -/
def execUnknownOrder (w : Writes) (s : State) : Host.Outcome State Fault Refusal :=
  withWrites w s fun s =>
    s.takeOrder (fun k m _ => k == .unknown || (k == .openSlot && m == .off)) fun s n number =>
      if orderKind (s.slotField n 4 1) = .openSlot ∧ (s.slot n).eng.state ≠ .idle then s.answer n number .busy
      else s.answer n number .unknown

end Sys2Proof.Machine
end

