-- ==== Sys2Proof/Machine/Frames.lean ====
section
/-! DEFINITION. Machine/Frames.lean: the life of a frame on a PLAY, CHECK or MOVE slot: tag checks, permit, finish, and the
end of a playback, check or move (2.7, chapters 6, 7 and 9). -/

namespace Sys2Proof.Machine

/-! ## Tag checks (R38, R112, R155) -/

/-- A tag's fields as read from its 64 bytes (3.10). -/
def readTag (bs : List Byte) : TagRead where
  seq := field bs 8 4
  seg := field bs 12 1
  count := field bs 14 2
  stamp := field bs 16 4
  bytes := bs.take 56
  check := (bs.drop 56).take 8

/-- The answer of the tag checks. -/
inductive TagVerdict where
  | refused (o : FrameOutcome)
  | passed (key : Key) (raiseDue : Bool)
  deriving DecidableEq, Repr

/-- Step 5: a sequence against the chunk count by entry state, or against the move mark in a MOVE slot. Absent when it
passes (R38, R112, R155). -/
def checkSequence (x : Entry) (mode : Mode) (seq seg : Nat) : Option FrameOutcome :=
  if mode = .move then (if seq = x.moveMark then none else some .outOfOrder)
  else if seq < x.chunkCount then none
  else match x.state with
    | .live => some .notYet
    | .held => if x.interrupted && decide (seg + 1 = x.segments.length) then none else some .beyondEnd
    | _ => some .beyondEnd

/-- Steps 1 to 7 of the tag checks against the bound entry; the first that fails gives its outcome (R38). -/
def checkTag (x : Entry) (e : Fin 64) (mode : Mode) (bs : List Byte) : TagVerdict :=
  let t := readTag bs
  if bs.take 4 ≠ tagMarker ∨ field bs 4 1 ≠ 1 then .refused .noMarker
  else if field bs 5 1 ≠ e.val ∨ field bs 6 2 ≠ x.generation then .refused .wrongRecording
  else if t.count = 0 ∨ x.chunkLength < t.count then .refused .badLength
  else match x.segments[t.seg]? with
    | none => .refused .noSegment
    | some g =>
      match checkSequence x mode t.seq t.seg with
      | some o => .refused o
      | none =>
        if t.seq < x.chunkCount ∧ (t.seq < g.first ∨ g.first + g.count ≤ t.seq) then .refused .noSegment
        else if x.state = .lapsed ∨ x.state = .moved then .refused .lapsed
        else match g.key with
          | none => .refused .lapsed
          | some key => .passed key (decide (mode ≠ .move ∧ x.chunkCount ≤ t.seq))

/-! ## The permit (R128 to R133) -/

/-- The answer of the Permit Unit. -/
inductive Permit where
  | refused (o : FrameOutcome)
  | permitted (remaining : Nat)
  deriving DecidableEq, Repr

/-- The hold limit of a segment in seconds, for class NEVER (R130). -/
def Segment.holdLimit (g : Segment) : Option Nat := if g.cls = .never then some (g.hold.getD 0 * 60) else none

/-- The frame has aged: its age is at least its hold limit (R130). -/
def agedOut (limit : Option Nat) (age : Nat) : Bool := match limit with | none => false | some l => decide (l ≤ age)

/-- The expiry is reached (R131). -/
def expired (expiry : Option Nat) (clock : Nat) : Bool := match expiry with | none => false | some e => decide (e ≤ clock)

/-- The remaining seconds of a permit (R133). -/
def remainingSeconds (limit expiry : Option Nat) (age clock : Nat) : Nat :=
  min 65535 ((optMin (limit.map (· - age)) (expiry.map (· - clock))).getD 65535)

/-- Steps 2 to 6 of the permit, the clock being as step 1 leaves it (R130 to R133). -/
def permit (clock : Nat) (x : Entry) (g : Segment) (mode : Mode) (seq stamp : Nat) : Permit :=
  if agedOut g.holdLimit (clock - stamp) then .refused .aged
  else if expired x.expiry clock then .refused .expired
  else if mode ≠ .move ∧ g.cls = .once ∧ seq < x.moveMark then .refused .moved
  else .permitted (remainingSeconds g.holdLimit x.expiry (clock - stamp) clock)

/-! ## Recovery raise (R23, R113) -/

/-- The last segment grown by chunks, its last stamp raised to a later stamp. -/
def growSegment (by_ stamp : Nat) (g : Segment) : Segment :=
  { g with count := g.count + by_, lastStamp := optMax g.lastStamp (some stamp) }

/-- A list with its last segment grown. -/
def growLast (by_ stamp : Nat) : List Segment → List Segment
  | [] => []
  | [g] => [growSegment by_ stamp g]
  | g :: h :: rest => g :: growLast by_ stamp (h :: rest)

/-- The entry extended to hold chunk `seq` (R23). -/
def Entry.raiseCount (x : Entry) (seq stamp : Nat) : Entry :=
  { x with chunkCount := seq + 1, segments := growLast (seq + 1 - x.chunkCount) stamp x.segments }

/-- The recovery raise of a verified frame: made on a HELD interrupted entry for a sequence at or above its count, and
followed by a derivation of its lapse time (R23, R113, R155). -/
def State.recoveryRaise (s : State) (e : Fin 64) (seq stamp : Nat) : State :=
  if (s.entry e).state = .held ∧ (s.entry e).interrupted ∧ (s.entry e).chunkCount ≤ seq then
    (s.modEntry e fun x => x.raiseCount seq stamp).derive e
  else s

/-! ## Delivery (R40, R114) -/

/-- The stored bytes of a range, its batch check, and what becomes of it. -/
inductive RangeRead where
  /-- The read is refused by the Link Port. -/
  | refused
  /-- The batch check differs. -/
  | differs
  /-- The batch check agrees; the stored bytes. -/
  | agrees (bytes : List Byte)
  deriving DecidableEq, Repr

/-- A range read again and compared with its batch check (R40, R41). -/
def State.readRange (s : State) (base pos count : Nat) (key : Key) (expect : List Byte) : RangeRead :=
  let a := base + 64 + 188 * pos
  if covers s.windows false a (188 * count) then
    let bytes := s.mem.read a (188 * count)
    if chainedCheck (frameCheckKey key) bytes = expect then .agrees bytes else .differs
  else .refused

/-- The accesses that lay `count` packets into a ring of packets from position `pos` (R62). -/
def ringAccesses (base size pos count : Nat) (bytes : List Byte) : List (Nat × List Byte) :=
  let first := min count (size - pos)
  if first = count then [(base + 188 * pos, bytes)]
  else [(base + 188 * pos, bytes.take (188 * first)), (base, bytes.drop (188 * first))]

/-- The writes a batch makes, in order, as memory stands (R36, R40, R41, log 10). -/
def State.workAccesses (s : State) : Work → List (Nat × List Byte)
  | .sealing base pos pkts key gen seq => [(base + 64 + 188 * pos, storedBytes key gen seq pos pkts)]
  | .closing base chunkLength count tag key chain =>
    [(base, tag ++ ((chain.feed (frameCheckKey key) tag).finish (frameCheckKey key))),
      (base + 64 + 188 * count, zeros (paddingLength chunkLength count))]
  | .deliver base pos count key gen seq expect winBase winSize winPos =>
    match s.readRange base pos count key expect with
    | .agrees bytes =>
      ringAccesses winBase winSize winPos count (overPackets (openPacket key gen seq) pos (packetsOf bytes count))
    | _ => []
  | .reseal base pos count key gen seq expect token out =>
    match s.readRange base pos count key expect with
    | .agrees bytes => [(out + 64 + 188 * pos, overPackets (convertPacket key token gen seq) pos (packetsOf bytes count))]
    | _ => []
  | .finalReseal out chunkLength count tag token chain =>
    [(out, tag ++ ((chain.feed (frameCheckKey token) tag).finish (frameCheckKey token))),
      (out + 64 + 188 * count, zeros (paddingLength chunkLength count))]
  | _ => []

/-- The writes of a batch made, each checked; answers whether every one was (R54). -/
def State.runWork (s : State) (work : Work) : State × Bool :=
  let (m, ok) := writeAccesses s.windows s.mem (s.workAccesses work)
  ({ s with mem := m }, ok)

/-- A delivered range counted: Pp, the packet window position and the frame in hand advance (R114); Pp is held back where Tp
has moved back meanwhile (R63, log 42). -/
def State.countDelivered (s : State) (n : Fin 8) (count : Nat) : State :=
  let s := s.modSlot n fun x =>
    { x with
      streamPos := (x.streamPos + count) % x.geo.streamSize
      frame := x.frame.map fun f => { f with worked := f.worked + 1, packets := f.packets + count } }
  s.advance n (·.advanceA count)

/-- A deliver batch of the slot in flight completes before the slot is released: its packets are written and Pp advances
(R121, R123). One whose read or a write the Link Port refuses counts nothing and reports no WINDOW of its own: the slot ends
as the ABORT or the fault that completes it has it (log 41). Any other batch stays in flight. -/
def State.drainDeliver (s : State) (n : Fin 8) : State :=
  match s.flight with
  | some ⟨.slot m, .deliver base pos count key gen seq expect winBase winSize winPos, false⟩ =>
    if m = n then
      let s := { s with flight := none }
      match s.readRange base pos count key expect with
      | .agrees _ =>
        match s.runWork (.deliver base pos count key gen seq expect winBase winSize winPos) with
        | (s, true) => s.countDelivered n count
        | (s, false) => s
      | _ => s
    else s
  | _ => s

/-- The frame in hand with its tag as read, where it can be read (R38, R115). -/
def State.readFrameTag (s : State) (n : Fin 8) : State :=
  match (s.slot n).frame with
  | some f =>
    let a := (s.slot n).frameBase f.pos
    if f.tag.isNone && covers s.windows false a 64 then
      s.modSlot n fun x => { x with frame := some { f with tag := some (readTag (s.mem.read a 64)) } }
    else s
  | none => s

/-- A verify batch of the slot in flight completes before an ABORT finishes the frame: a first batch has read the tag, so
that the outcome entry shows its sequence (R115, R121, R161), and the pass is dropped with no outcome (R39, log 26). -/
def State.drainVerify (s : State) (n : Fin 8) : State :=
  if s.flight = some ⟨.slot n, .verify, false⟩ then { s with flight := none }.readFrameTag n else s

/-! ## Finishing a frame (R115, R116, R158) -/

/-- The outcomes that count the chunk as done. -/
def FrameOutcome.countsDone (o : FrameOutcome) : Bool := o == .delivered || o == .verified || o == .movedOut

/-- The frame in hand is finished: outcome entry, Tc, position, counters, and the notice where one is judged. Tc is held back
where Fc has moved back meanwhile (R63, log 42). -/
def State.finishFrame (s : State) (n : Fin 8) (o : FrameOutcome) (packets remaining : Nat) (notice : Bool) : State :=
  match (s.slot n).frame with
  | none => s
  | some f =>
    let x := s.slot n
    let entry : OutcomeEntry :=
      { seq := match f.tag with | none => 0 | some t => t.seq
        outcome := o, pos := f.pos, packets := packets, remaining := remaining
        takeCount := (x.placeB + 1).toNat % 65536 }
    let s := s.modSlot n fun x => { x with chunkPos := (x.chunkPos + 1) % x.geo.frames, frame := none }
    let s := s.setEngine n (fun g => { g with outcomes := g.outcomes.set f.pos entry }) [.outcome f.pos]
    let s := s.advance n (·.advanceB 1)
    let s := if o.countsDone then s.setEngine n (fun g => { g with chunksDone := g.chunksDone + 1 }) [.chunksDone] else s
    let s := if o.countsDone || o == .skippedClass then
        s.setEngine n (fun g => { g with lastRemaining := remaining }) [.lastRemaining]
      else s
    let y := s.slot n
    if notice && decide (y.notice ≤ y.geo.frames - y.framesAvailable) then s.notify (slotFlag .progress n) else s

/-- A PLAY or CHECK slot is released to IDLE by its CLOSE: the last view is judged, DONE is written, PROGRESS raised
(R120, R122). -/
def State.endPlay (s : State) (n : Fin 8) : State :=
  let x := s.slot n
  let s := s.toIdle n
  let s : State := match x.boundEntry with
    | none => s
    | some e => if x.mode = .play then s.judgeLastView e else s
  (s.completeOrder n x.closeServed).notify (slotFlag .progress n)

/-- The move completes (R159). -/
def State.completeMove (s : State) (n : Fin 8) (e : Fin 64) : State :=
  let x := s.slot n
  let s := if (s.entry e).segments.all fun g => g.cls == .once then s.modEntry e fun y => y.spent .moved
    else s.endMove e
  let s := s.toIdle n
  ((s.completeOrder n x.openServed).completeOrder n x.closeServed).notify (slotFlag .progress n)

/-- The move ends without completing: slot IDLE and entry HELD, split at its move mark (R160, R161). -/
def State.quitMove (s : State) (n : Fin 8) : State :=
  let bound := (s.slot n).boundEntry
  let s := s.toIdle n
  match bound with
  | none => s
  | some e => s.endMove e

/-- What a slot does after a finish: completion of a move, end of a CLOSE being served, or the next frame (R116, R120,
R158 to R160). -/
def State.afterFinish (s : State) (n : Fin 8) : State :=
  let x := s.slot n
  match x.mode, x.boundEntry with
  | .move, some e =>
    if (s.entry e).state = .moving ∧ (s.entry e).moveMark = (s.entry e).chunkCount then s.completeMove n e
    else if x.closeAsked then ((s.quitMove n).completeOrder n x.closeServed).notify (slotFlag .progress n)
    else s.setSlotState n .waiting
  | _, _ => if x.closeAsked then s.endPlay n else s.setSlotState n .waiting

/-- The frame in hand, if any, ends with an outcome, then what follows. -/
def State.endFrame (s : State) (n : Fin 8) (o : FrameOutcome) (packets remaining : Nat) : State :=
  if (s.slot n).frame = none then s else (s.finishFrame n o packets remaining true).afterFinish n

/-- The move mark of a slot's entry advanced by 1 (R157, R158). -/
def State.advanceMoveMark (s : State) (e : Fin 64) : State :=
  s.modEntry e fun x => { x with moveMark := x.moveMark + 1 }

/-! ## A permitted frame in hand (R114, R120, R156, R157, R160) -/

/-- A PLAY slot with a permitted frame and no deliver batch in flight: DELIVERING with room for the next range, and
without room WAITING, or finished ABANDONED where a close is asked. -/
def State.playNext (s : State) (n : Fin 8) : State :=
  let x := s.slot n
  match x.frame with
  | some { tag := some t, permit := some _, worked := worked, packets := packets, .. } =>
    if rangeSize t.count worked ≤ x.packetRoom then s.setSlotState n .delivering
    else if x.closeAsked then s.endFrame n .abandoned packets 0
    else s.setSlotState n .waiting
  | _ => s

/-- A MOVE slot with a frame decided for re-seal and not yet reserved: without a free output frame it is WAITING, or
finished ABANDONED where a close is asked. -/
def State.moveNext (s : State) (n : Fin 8) : State :=
  let x := s.slot n
  match x.frame with
  | some { permit := some _, reserved := none, .. } =>
    if 0 < x.outputRoom then s
    else if x.closeAsked then s.endFrame n .abandoned 0 0
    else s.setSlotState n .waiting
  | _ => s

/-- A frame has been permitted with remaining seconds (R112, R114, R156). -/
def State.permitFrame (s : State) (n : Fin 8) (e : Fin 64) (g : Segment) (t : TagRead) (remaining : Nat) : State :=
  let x := s.slot n
  let allow := s.modSlot n fun y => { y with frame := y.frame.map fun f => { f with permit := some remaining } }
  match x.mode with
  | .play => allow.playNext n
  | .move =>
    if g.cls = .once ∨ g.cls = .openCopy then allow.moveNext n
    else (s.advanceMoveMark e).endFrame n .skippedClass 0 remaining
  | _ => s.endFrame n .verified t.count remaining

/-- A frame whose check value agrees: recovery raise, evidence raise, permit, and the judgement of the raise (R39, R112,
R113, R128, R129, R156). -/
def State.frameVerified (s : State) (n : Fin 8) (e : Fin 64) (t : TagRead) (raiseDue : Bool) : State :=
  let s := if raiseDue then s.recoveryRaise e t.seq t.stamp else s
  let x := s.entry e
  match x.judged, x.segments[t.seg]? with
  | true, some g =>
    let raised := decide (s.clock < t.stamp)
    let s := { s with clock := max s.clock t.stamp }
    let s := match permit s.clock x g (s.slot n).mode t.seq t.stamp with
      | .refused o => s.endFrame n o 0 0
      | .permitted remaining => s.permitFrame n e g t remaining
    if raised then s.judgeAll else s
  | _, _ => s.endFrame n .lapsed 0 0

/-! ## Faults of a PLAY, CHECK or MOVE slot (R123, R163) -/

/-- The slot faults: its frame in hand is dropped with no outcome, a deliver batch in flight completing first; the last
view is judged for a PLAY slot, and a MOVING entry returns to HELD. -/
def State.faultFrameSlot (s : State) (n : Fin 8) (f : SlotFault) : State :=
  let x := s.slot n
  let s := (s.drainDeliver n).toFaulted n f
  match x.boundEntry with
  | none => s
  | some e =>
    if x.mode = .play then s.judgeLastView e
    else if x.mode = .move then s.endMove e
    else s

end Sys2Proof.Machine
end

