-- ==== Sys2Proof/Machine/Records.lean ====
section
/-! DEFINITION. Machine/Records.lean: entries as bytes: the query record (R25), the directory entry (R69), the table image
and its entry records (R43, R44, 3.10). -/

namespace Sys2Proof.Machine

/-! ## Shared fields -/

/-- The hold of a class as written: 0 unless the class is NEVER. -/
def holdField (cls : RuleClass) (hold : Option Nat) : Nat := if cls = .never then hold.getD 0 else 0

/-- The chunk length as written: 0 in FREE and RETIRED. -/
def Entry.lengthField (x : Entry) : Nat := if x.state = .free ∨ x.state = .retired then 0 else x.chunkLength

/-- The flags byte of the query record (R25), bit 7 as given. -/
def Entry.flagsField (x : Entry) (bit7 : Bool) : Nat :=
  flagsByte [x.interrupted, x.rotationHeld, x.lastViewTaken, x.pendingRule.isSome, x.pendingRotation, x.nextKey.isSome,
    x.expiry.isSome, bit7]

/-- A segment part, 32 bytes (R25). -/
def segmentPart (i : Nat) (g : Segment) : List Byte :=
  le 1 i ++ le 1 g.cls.code ++ le 2 (holdField g.cls g.hold) ++ le 4 g.first ++ le 4 g.count ++
  le 4 (g.firstStamp.getD 0) ++ le 4 (g.lastStamp.getD 0) ++ zeros 12

/-- The segment parts from index `i` onward, `k` of them; those beyond the list are zero. -/
def segmentParts : Nat → Nat → List Segment → List Byte
  | 0, _, _ => []
  | k + 1, i, [] => zeros 32 ++ segmentParts k (i + 1) []
  | k + 1, i, g :: gs => segmentPart i g ++ segmentParts k (i + 1) gs

/-! ## The query record (R25) -/

/-- The query record of an entry, 544 bytes. -/
def queryRecord (e : Fin 64) (x : Entry) : List Byte :=
  le 1 e.val ++ le 1 x.state.code ++ le 2 x.generation ++ le 2 x.lengthField ++ le 1 x.segments.length ++
  le 1 (x.flagsField x.lapseTime.isSome) ++
  le 1 (match x.pendingRule with | none => 0 | some r => r.cls.code) ++
  le 2 (match x.pendingRule with | none => 0 | some r => holdField r.cls r.hold) ++
  le 2 x.rotation ++ le 1 (x.views.getD 255) ++
  le 1 (match x.binding with | none => 255 | some n => n.val) ++
  le 1 (flagsByte (allSlots.map fun n => x.players.contains n)) ++
  le 4 x.chunkCount ++ le 4 (x.expiry.getD 0) ++ le 4 x.moveMark ++ le 4 (x.lapseTime.getD 0) ++
  segmentParts 16 0 x.segments

/-! ## The directory entry (R69) -/

/-- The five values that the directory shows of an entry. -/
def Entry.directoryValues (x : Entry) : DirValues where
  state := x.state
  generation := x.generation
  chunkCount := x.chunkCount
  lapseTime := x.lapseTime
  views := x.views

/-- A directory entry, 16 bytes (3.10). -/
def DirValues.image (v : DirValues) (revision : BitVec 8) : List Byte :=
  le 1 v.state.code ++ le 1 (v.views.getD 255) ++ le 2 v.generation ++ le 4 v.chunkCount ++
  le 4 (v.lapseTime.getD top32) ++ le 1 revision.toNat ++ zeros 3

/-! ## The table image (R43) -/

/-- The keys of an entry by key place: segments 0 to 15, then the next key. -/
def Entry.keyPlaces (x : Entry) : List (Option Key) :=
  (List.range 16).map (fun i => (x.segments[i]?).bind Segment.key) ++ [x.nextKey]

/-- The key presence field: bit `k` set when key place `k` holds a key. -/
def presenceField (keys : List (Option Key)) : Nat := keys.foldr (fun k n => (if k.isSome then 1 else 0) + 2 * n) 0

/-- A key place from place `p` onward: wrapped, or zero where absent. -/
def keyPlaceBytes (boxKey : Key) (generation recording : Nat) : Nat → List (Option Key) → List Byte
  | _, [] => []
  | p, none :: ks => zeros 16 ++ keyPlaceBytes boxKey generation recording (p + 1) ks
  | p, some k :: ks => bytes16 (wrapKey boxKey generation recording p k) ++ keyPlaceBytes boxKey generation recording (p + 1) ks

/-- An image entry record, 1,024 bytes (3.10). -/
def imageRecord (boxKey : Key) (generation recording : Nat) (x : Entry) : List Byte :=
  le 1 recording ++ le 1 x.state.code ++ le 2 x.generation ++ le 2 x.lengthField ++ le 1 x.segments.length ++
  le 1 (x.flagsField false) ++
  le 1 (match x.pendingRule with | none => 0 | some r => r.cls.code) ++
  le 1 (x.views.getD 255) ++
  le 2 (match x.pendingRule with | none => 0 | some r => holdField r.cls r.hold) ++
  le 2 x.rotation ++ zeros 2 ++ le 4 x.chunkCount ++ le 4 (x.expiry.getD 0) ++ le 4 x.moveMark ++
  le 4 (presenceField x.keyPlaces) ++ segmentParts 16 0 x.segments ++
  keyPlaceBytes boxKey generation recording 0 x.keyPlaces ++ zeros 208

/-- The image marker. -/
def imageMarker : List Byte := [0x4C, 0x32, 0x49, 0x4D]

/-- Bytes 0 to 503 of an image header (3.10). -/
def imageHeader (generation savedTime : Nat) : List Byte :=
  imageMarker ++ le 1 1 ++ zeros 3 ++ le 4 generation ++ le 4 savedTime ++ zeros 488

/-- The size of a table image. -/
def imageSize : Nat := 66048

/-- The entry records of batch `k`, four of them. -/
def batchRecords (boxKey : Key) (generation : Nat) (table : Vector Entry 64) (k : Nat) : List Byte :=
  (List.range 4).flatMap fun j =>
    match entryIndex (4 * k + j) with
    | none => []
    | some e => imageRecord boxKey generation e.val table[e]

/-! ## Reading an image entry record (R44, R170) -/

/-- An entry state from its code; a code the manual does not give is free (log 13). -/
def entryStateOf (b : Byte) : EntryState :=
  match (if b.toNat < 7 then b.toNat else (Config.entryStateCode b).val) with
  | 0 => .free
  | 1 => .live
  | 2 => .held
  | 3 => .moving
  | 4 => .moved
  | 5 => .lapsed
  | _ => .retired

/-- A class from its code; a code the manual does not give is free (log 13). -/
def ruleClassOf (b : Byte) : RuleClass :=
  match (if b.toNat < 4 then b.toNat else (Config.classCode b).val) with
  | 0 => .openCopy
  | 1 => .once
  | 2 => .noMore
  | _ => .never

/-- The number of segments of a record; a count above 16 is free (log 13). -/
def segmentCountOf (count : Nat) : Nat := if count ≤ 16 then count else (Config.segmentCount count).val

/-- A class and its hold as read, the hold present for NEVER. -/
def classHoldOf (code : Byte) (hold : Nat) : ClassHold :=
  ⟨ruleClassOf code, if ruleClassOf code = .never then some hold else none⟩

/-- A segment from its part and its key; stamps are absent while it holds no chunk. -/
def segmentOf (part : List Byte) (key : Option Key) : Segment :=
  let rule := classHoldOf (byteAt part 1) (field part 2 2)
  let count := field part 8 4
  { first := field part 4 4, count := count, key := key, cls := rule.cls, hold := rule.hold
    firstStamp := if count = 0 then none else some (field part 12 4)
    lastStamp := if count = 0 then none else some (field part 16 4) }

/-- The key at a place of a record, unwrapped where the place holds one. -/
def keyAt (boxKey : Key) (generation recording : Nat) (record : List Byte) (place : Nat) : Option Key :=
  if (BitVec.ofNat 32 (field record 28 4)).getLsbD place then
    some (wrapKey boxKey generation recording place (pack16 ((record.drop (544 + 16 * place)).take 16)))
  else none

/-- The entry an image record gives, keys unwrapped, with no binding and no lapse time. -/
def entryOf (boxKey : Key) (generation recording : Nat) (record : List Byte) : Entry :=
  let flags := byteAt record 7
  { state := entryStateOf (byteAt record 1)
    generation := field record 2 2
    chunkLength := field record 4 2
    chunkCount := field record 16 4
    rotation := field record 12 2
    expiry := if flags.getLsbD 6 then some (field record 20 4) else none
    views := if byteAt record 9 = 0xFF then none else some (byteAt record 9).toNat
    moveMark := field record 24 4
    interrupted := flags.getLsbD 0
    rotationHeld := flags.getLsbD 1
    lastViewTaken := flags.getLsbD 2
    pendingRule := if flags.getLsbD 3 then some (classHoldOf (byteAt record 8) (field record 10 2)) else none
    pendingRotation := flags.getLsbD 4
    nextKey := if flags.getLsbD 5 then keyAt boxKey generation recording record 16 else none
    binding := none
    players := []
    segments := (List.range (segmentCountOf (field record 6 1))).map fun i =>
      segmentOf ((record.drop (32 + 32 * i)).take 32) (keyAt boxKey generation recording record i)
    lapseTime := none }

/-! ## Conversion of cut-off entries (R27, R170) -/

/-- A LIVE entry ends as at an engine reset, a MOVING one becomes HELD and *interrupted*; others stay (R4, R27, R170). -/
def Entry.cutOff (x : Entry) : Entry :=
  match x.state with
  | .live => if x.chunkCount = 0 then x.returned else x.endHeld true
  | .moving => { x with state := .held, interrupted := true }
  | _ => x

/-- Every lapse time derived anew, each entry judged, and each HELD entry judged for the last view (R141, R170). -/
def State.deriveAll (s : State) : State := allEntries.foldl State.becameHeld s

end Sys2Proof.Machine
end

