-- ==== Sys2Proof/Machine/Sweep.lean ====
section
/-! DEFINITION. Machine/Sweep.lean: the sweep timer, the slot step and the end-of-sweep writes (3.5, 3.7, 3.9), and the
LAPSED fault of a slot (R139). -/

namespace Sys2Proof.Machine

/-- SWEEP_TIMER_EXPIRY: the next interval starts at the length DIVISOR now gives, and a sweep is requested (R55). -/
def execSweepTimerExpiry (s : State) : Host.Outcome State Fault Refusal :=
  .next (match s.sweepTimer with
    | none => s
    | some _ => { s with sweepTimer := some s.sweepInterval }.requestSweep)

/-- A slot faults under the rule of its mode (R88, R123, R163). -/
def State.faultSlot (s : State) (n : Fin 8) (f : SlotFault) : State :=
  if (s.slot n).mode = .record then s.faultRecord n f else s.faultFrameSlot n f

/-- A batch of slot `n` is in flight. -/
def State.inFlightFor (s : State) (n : Fin 8) : Bool :=
  match s.flight with
  | none => false
  | some f => f.requester == .slot n && !f.orphan

/-- The advances that R63 has held back, made as far as the view lets them (log 42). -/
def Slot.caughtUp (x : Slot) : Slot := ((x.advanceA 0).advanceB 0).advanceC 0

/-- The recorder marks of an open slot are read and checked, and what they bring is done (R62, R63, R76, R81, R114,
R160). -/
def State.refreshSlot (s : State) (n : Fin 8) : State :=
  let s := s.setSlot n (s.readMarks n (s.slot n).mode (s.slot n))
  if (s.slot n).marksBad then s.faultSlot n .mark
  else
    let s := s.advance n Slot.caughtUp
    match (s.slot n).mode with
    | .record => s.refreshRecord n
    | .play => if s.inFlightFor n then s else s.playNext n
    | .move => s.moveNext n
    | _ => s

/-- The order number of slot `n` compared with its latch: equal, the sweep goes on; different, the order is taken next
(R58). -/
def State.compareOrder (s : State) (n : Fin 8) : State :=
  if s.orderNumber n = (s.slot n).latch then { s with sweep := s.afterSlot n }
  else { s with sweep := some (.order n (s.orderNumber n)) }

/-- The marks of the slot are refreshed in its step: it is neither IDLE nor FAULTED (R57), and is no RECORD slot whose
entry has lapsed (R88, log 44). -/
def Slot.refreshes (x : Slot) : Bool :=
  x.eng.state != .idle && x.eng.state != .faulted && !(x.mode == .record && x.lapseDue)

/-- The slot step of a sweep (R57). -/
def State.stepSlot (s : State) (n : Fin 8) : State :=
  if (s.slot n).refreshes then (s.refreshSlot n).compareOrder n else s.compareOrder n

/-- SLOT_STEP: the step of the slot whose turn it is (R57). -/
def execSlotStep (w : Writes) (s : State) : Host.Outcome State Fault Refusal :=
  withWrites w s fun s =>
    match s.sweep with
    | some (.slot n) => s.stepSlot n
    | _ => s

/-- The directory entry of `e` written whole, with its revision count advanced, where its values have changed (R69). -/
def State.writeDirectory (s : State) (e : Fin 64) : State :=
  let values := (s.entry e).directoryValues
  let d := s.directory[e]
  if d.shown = some values then s
  else
    let revision := d.revision + 1
    { s with
      directory := s.directory.set e ⟨some values, revision⟩
      mem := s.mem.write (s.boardBase + 1024 + 16 * e.val) (values.image revision) }

/-- The header mirrors and the sweep count (R57, R68). -/
def State.writeMirrors (s : State) : State :=
  let m := s.mem.write (s.boardBase + 148) (le 4 s.clock)
  let m := m.write (s.boardBase + 152) (le 4 s.cell)
  let m := m.write (s.boardBase + 156) (le 1 (if s.ready then 1 else 0))
  let count := s.sweepCount + 1
  { s with sweepCount := count, mem := m.write (s.boardBase + 144) (le 4 count.toNat) }

/-- The sweep ends; a pending request starts the next one at once (R56). -/
def State.endSweep (s : State) : State :=
  let s := { (allEntries.foldl State.writeDirectory s).writeMirrors with sweep := none }
  if s.sweepPending then { s with sweepPending := false }.beginSweep else s

/-- END_OF_SWEEP_WRITES: once the part order has been taken, or the part step finds none to take (R57, R58). -/
def execEndOfSweepWrites (w : Writes) (s : State) : Host.Outcome State Fault Refusal :=
  withWrites w s fun s =>
    if s.sweep = some .ending ∨ (s.sweep = some .part ∧ s.partOrderNumber = s.partLatch) then s.endSweep else s

/-- SLOT_FAULT_LAPSED: a slot bound to an entry that has lapsed, or to one that returned to FREE, faults (R139, R123). -/
def execSlotFaultLapsed (n : Fin 8) (w : Writes) (s : State) : Host.Outcome State Fault Refusal :=
  withWrites w s fun s =>
    if (s.slot n).lapseDue && (s.slot n).eng.state != .idle && (s.slot n).eng.state != .faulted then s.faultSlot n .lapsed
    else s

end Sys2Proof.Machine
end

