-- ==== Sys2Proof/Machine/FrameOrders.lean ====
section
/-! DEFINITION. Machine/FrameOrders.lean: the orders of PLAY, CHECK and MOVE slots (R108 to R110, R119 to R121, R153, R154,
R160, R161). -/

namespace Sys2Proof.Machine

/-! ## OPEN of a PLAY or CHECK slot -/

/-- Step 4 of a PLAY or CHECK OPEN (R108). -/
def checkEntryState (mode : Mode) (st : EntryState) : Option Result :=
  match st with
  | .live => none
  | .held => none
  | .moving => if mode = .check then none else some .busy
  | _ => some .wrongState

/-- The checks of a PLAY or CHECK OPEN in their order (R59, R108). -/
def State.checkPlayOpen (s : State) (n : Fin 8) (mode : Mode) : Except Result (Fin 64) :=
  if (s.slot n).eng.state ≠ .idle then .error .busy
  else if !s.openReady then .error .notReady
  else if !geometryOk mode (s.readGeometry n mode 0) [] then .error .badOperand
  else match entryIndex (s.slotField n 6 1) with
    | none => .error .badOperand
    | some e =>
      match checkEntryState mode (s.entry e).state with
      | some r => .error r
      | none =>
        if !windowsOk s.windows mode (s.readGeometry n mode (s.entry e).chunkLength) then .error .window
        else if mode = .play ∧ (s.entry e).views = some 0 then .error .viewsUsed
        else .ok e

/-- A view consumed by an accepted PLAY OPEN (R110). -/
def Entry.consumeView (x : Entry) : Entry :=
  match x.views with
  | none => x
  | some v => { x with views := some (v - 1), lastViewTaken := x.lastViewTaken || decide (v - 1 = 0) }

/-- A slot of a frame mode set up at its accepted OPEN (R62, R109, R154). -/
def State.setUpFrameSlot (s : State) (n : Fin 8) (e : Fin 64) (mode : Mode) (token : Option Key)
    (openServed : Option Mark) : State :=
  let x := s.slot n
  let g := s.readGeometry n mode (s.entry e).chunkLength
  let y := s.readMarks n mode (Slot.bare x.latch x.eng)
  let s := s.setSlot n
    { y with
      mode := mode
      geo := g
      notice := clampNotice (s.slotField n 21 1) g.frames
      token := token
      openServed := openServed }
  s.setEngine n (fun z => z.opened .waiting e false y.viewA y.viewB y.viewC) openFields

/-- An accepted PLAY or CHECK OPEN (R109, R110). -/
def State.acceptPlay (s : State) (n : Fin 8) (e : Fin 64) (mode : Mode) : State :=
  let s := s.setUpFrameSlot n e mode none none
  let s := s.modEntry e fun x => { x with players := x.players ++ [n] }
  if mode = .play then s.modEntry e Entry.consumeView else s

/-- A PLAY or CHECK OPEN judged and answered. -/
def State.openPlay (s : State) (n : Fin 8) (number : Mark) (mode : Mode) : State :=
  match s.checkPlayOpen n mode with
  | .error r => s.answer n number r
  | .ok e => (s.answer n number .done).acceptPlay n e mode

/-- PLAY_OPEN (R108, R109, R110). -/
def execPlayOpen (w : Writes) (s : State) : Host.Outcome State Fault Refusal :=
  withWrites w s fun s => s.takeOrder (fun k m _ => k == .openSlot && m == .play) fun s n number =>
    s.openPlay n number .play

/-- CHECK_OPEN (R108, R109). -/
def execCheckOpen (w : Writes) (s : State) : Host.Outcome State Fault Refusal :=
  withWrites w s fun s => s.takeOrder (fun k m _ => k == .openSlot && m == .check) fun s n number =>
    s.openPlay n number .check

/-! ## OPEN of a MOVE slot -/

/-- The checks of a MOVE OPEN in their order, with the token key (R59, R153). -/
def State.checkMoveOpen (s : State) (n : Fin 8) : Except Result (Fin 64 × Key) :=
  if (s.slot n).eng.state ≠ .idle then .error .busy
  else if !s.openReady then .error .notReady
  else if !geometryOk .move (s.readGeometry n .move 0) [] then .error .badOperand
  else match entryIndex (s.slotField n 6 1) with
    | none => .error .badOperand
    | some e =>
      let x := s.entry e
      if x.state ≠ .held then .error .wrongState
      else if s.playBound e then .error .busy
      else if x.chunkCount ≤ x.moveMark then .error .wrongState
      else if !x.segments.any fun g => g.cls == .once || g.cls == .openCopy then .error .cls
      else if !windowsOk s.windows .move (s.readGeometry n .move x.chunkLength) then .error .window
      else match openToken s.fused.transferKey (s.mem.read (s.slotAddr n + 88) 24) with
        | none => .error .tokenBad
        | some key => .ok (e, key)

/-- An accepted MOVE OPEN: the entry becomes MOVING and its lapse time is derived and judged (R154). -/
def State.acceptMove (s : State) (n : Fin 8) (e : Fin 64) (key : Key) (number : Mark) : State :=
  let s := s.setUpFrameSlot n e .move (some key) (some number)
  (s.modEntry e fun x => { x with state := .moving, binding := some n }).derive e

/-- MOVE_OPEN (R153, R154). -/
def execMoveOpen (w : Writes) (s : State) : Host.Outcome State Fault Refusal :=
  withWrites w s fun s => s.takeOrder (fun k m _ => k == .openSlot && m == .move) fun s n number =>
    match s.checkMoveOpen n with
    | .error r => s.answer n number r
    | .ok (e, key) => (s.answer n number .none).acceptMove n e key number

/-! ## CLOSE -/

/-- A close is asked of a slot with a frame in hand; its result comes later. -/
def State.askFrameClose (s : State) (n : Fin 8) (number : Mark) : State :=
  (s.answer n number .none).modSlot n fun y => { y with closeAsked := true, closeServed := some number }

/-- CLOSE of a playback or check (R119, R120). -/
def State.closePlay (s : State) (n : Fin 8) (number : Mark) : State :=
  let x := s.slot n
  if x.eng.state = .idle then s.answer n number .wrongState
  else if x.closeAsked then s.answer n number .busy
  else if x.frame = none then (s.answer n number .done).endPlay n
  else
    let s := s.askFrameClose n number
    if s.inFlightFor n then s else s.playNext n

/-- PLAY_CHECK_CLOSE (R120). -/
def execPlayCheckClose (w : Writes) (s : State) : Host.Outcome State Fault Refusal :=
  withWrites w s fun s => s.takeOrder (fun k _ x => k == .close && x.answeredBy [.play, .check]) State.closePlay

/-- CLOSE of a move (R160). -/
def State.closeMove (s : State) (n : Fin 8) (number : Mark) : State :=
  let x := s.slot n
  if x.eng.state = .idle then s.answer n number .wrongState
  else if x.closeAsked then s.answer n number .busy
  else if x.frame = none then ((s.answer n number .done).quitMove n).notify (slotFlag .progress n)
  else (s.askFrameClose n number).moveNext n

/-- MOVE_CLOSE (R160). -/
def execMoveClose (w : Writes) (s : State) : Host.Outcome State Fault Refusal :=
  withWrites w s fun s => s.takeOrder (fun k _ x => k == .close && x.answeredBy [.move]) State.closeMove

/-! ## ABORT -/

/-- ABORT of a playback or check: a verify or deliver batch in flight completes, and the frame in hand is ABANDONED
(R121). -/
def State.abortPlay (s : State) (n : Fin 8) (number : Mark) : State :=
  let x := s.slot n
  if x.eng.state = .idle then s.answer n number .wrongState
  else
    let s := ((s.answer n number .done).drainVerify n).drainDeliver n
    let s := s.finishFrame n .abandoned (match (s.slot n).frame with | none => 0 | some f => f.packets) 0 false
    let s := s.toIdle n
    match x.boundEntry with
    | none => s
    | some e => if x.mode = .play then s.judgeLastView e else s

/-- PLAY_CHECK_ABORT (R121). -/
def execPlayCheckAbort (w : Writes) (s : State) : Host.Outcome State Fault Refusal :=
  withWrites w s fun s => s.takeOrder (fun k _ x => k == .abort && x.answeredBy [.play, .check]) State.abortPlay

/-- ABORT of a move: a verify batch in flight completes, and the frame in hand is ABANDONED (R161). -/
def State.abortMove (s : State) (n : Fin 8) (number : Mark) : State :=
  if (s.slot n).eng.state = .idle then s.answer n number .wrongState
  else (((s.answer n number .done).drainVerify n).finishFrame n .abandoned 0 0 false).quitMove n

/-- MOVE_ABORT (R161). -/
def execMoveAbort (w : Writes) (s : State) : Host.Outcome State Fault Refusal :=
  withWrites w s fun s => s.takeOrder (fun k _ x => k == .abort && x.answeredBy [.move]) State.abortMove

end Sys2Proof.Machine
end

