-- ==== Sys2Proof/Machine/RecordWork.lean ====
section
/-! DEFINITION. Machine/RecordWork.lean: what a RECORD slot does between its orders: takes, chunk opens, the hold timer and
the completion of its batches (R36, R73 to R79). -/

namespace Sys2Proof.Machine

/-! ## Takes -/

/-- The conditions of a take (R73); once the entry has lapsed none is made (R88). -/
def State.takeDue (s : State) (n : Fin 8) : Bool :=
  let x := s.slot n
  s.part == .running && x.eng.state == .running && !x.lapseDue && x.carry.isEmpty && x.take.isNone && decide (1 ≤ x.streamAvailable) &&
    match x.chunk with
    | none => true
    | some c => c.batch.isEmpty

/-- A take begins: its first access is made, up to the end of the stream window (R73). -/
def State.startTake (s : State) (n : Fin 8) : State :=
  let x := s.slot n
  let m := min 16 x.streamAvailable
  let a := x.geo.streamBase + 188 * x.streamPos
  let len := 188 * firstCount x.streamPos m x.geo.streamSize
  if covers s.windows false a len then
    s.modSlot n fun x => { x with take := some ⟨x.streamPos, m, s.mem.read a len⟩ }
  else s.faultRecord n .window

/-- TAKE_START (R73). -/
def execTakeStart (n : Fin 8) (w : Writes) (s : State) : Host.Outcome State Fault Refusal :=
  withWrites w s fun s => if s.takeDue n then s.startTake n else s

/-- A take ends: its packets join the carry list and go on into a sealing batch (R73, R74, R83). -/
def State.endTake (s : State) (n : Fin 8) : State :=
  match s.completeTake n with
  | (s, true) => (s.formBatch n).settleClosing n
  | (s, false) => s.faultRecord n .window

/-- TAKE_COMPLETE (R73). Once the entry has lapsed the take completes with the slot's LAPSED fault (R88, R104). -/
def execTakeComplete (n : Fin 8) (w : Writes) (s : State) : Host.Outcome State Fault Refusal :=
  withWrites w s fun s => if (s.slot n).take.isSome && !(s.slot n).lapseDue then s.endTake n else s

/-! ## Chunk open and hold timer -/

/-- The entry of slot `n` is LIVE. -/
def State.boundLive (s : State) (n : Fin 8) : Bool :=
  match (s.slot n).boundEntry with
  | none => false
  | some e => (s.entry e).state == .live

/-- The conditions of a chunk open (R75). -/
def State.openDue (s : State) (n : Fin 8) : Bool :=
  let x := s.slot n
  x.mode == .record && (x.eng.state == .running || x.eng.state == .closing) && !x.carry.isEmpty && x.chunk.isNone &&
    s.boundLive n

/-- CHUNK_OPEN (R75). -/
def execChunkOpen (n : Fin 8) (s : State) : Host.Outcome State Fault Refusal :=
  .next (if s.openDue n then s.openChunk n else s)

/-- HOLD_TIMER_EXPIRY, in any part state (R78). -/
def execHoldTimerExpiry (n : Fin 8) (s : State) : Host.Outcome State Fault Refusal :=
  .next (if (s.slot n).holdTimer.isSome then s.askClose n else s)

/-! ## Batches -/

/-- The batch in flight leaves the cipher. -/
def State.freeCipher (s : State) : State := { s with flight := none }

/-- A completed sealing batch counted into the open chunk: n and the running value advance (R36, R74). -/
def OpenChunk.sealed (c : OpenChunk) (bytes : List Byte) : OpenChunk :=
  { c with
    stored := c.stored + c.batch.length
    batch := []
    chain := c.chain.feed (frameCheckKey c.key) bytes }

/-- What follows a completed sealing batch: the close, where it is asked or the chunk is full, or the next batch (R74,
R77, R83). -/
def State.sealedBatch (s : State) (n : Fin 8) (bytes : List Byte) : State :=
  match (s.slot n).chunk with
  | none => s
  | some c =>
    let c := c.sealed bytes
    let s := s.modSlot n fun x => { x with chunk := some c }
    let s := if c.closeAsked || decide ((s.slot n).geo.chunkLength ≤ c.stored) then s.closeTakesEffect n
      else s.formBatch n
    s.settleClosing n

/-- SEALING_BATCH: the batch in flight completes; once the entry has lapsed its values are dropped (R36, R88). -/
def execSealingBatch (s : State) : Host.Outcome State Fault Refusal :=
  .next (match s.flight with
    | some ⟨.slot n, .sealing base pos pkts key gen seq, orphan⟩ =>
      let work := Work.sealing base pos pkts key gen seq
      let (s, ok) := s.freeCipher.runWork work
      if orphan then s
      else if ok then (if (s.slot n).lapseDue then s else s.sealedBatch n (storedBytes key gen seq pos pkts))
      else s.faultRecord n .window
    | _ => s)

/-- A complete frame: it is put and counted while the entry is LIVE; after a lapse it is dropped (R79, R90). -/
def State.closedChunk (s : State) (n : Fin 8) : State :=
  match (s.slot n).chunk, (s.slot n).boundEntry with
  | some c, some e =>
    if (s.entry e).state = .live then (s.putChunk n c e).settleClosing n
    else s.modSlot n fun x => { x with chunk := none }
  | _, _ => s

/-- CLOSING_BATCH: the batch in flight completes (R36, R79). -/
def execClosingBatch (s : State) : Host.Outcome State Fault Refusal :=
  .next (match s.flight with
    | some ⟨.slot n, .closing base chunkLength count tag key chain, orphan⟩ =>
      let (s, ok) := s.freeCipher.runWork (.closing base chunkLength count tag key chain)
      if orphan then s
      else if ok then s.closedChunk n
      else s.faultRecord n .window
    | _ => s)

end Sys2Proof.Machine
end

