-- ==== Sys2Proof/Machine/Arbiter.lean ====
section
/-! DEFINITION. Machine/Arbiter.lean: the cipher arbiter (2.11) and the next batch of each requester. -/

namespace Sys2Proof.Machine

/-- The next batch of a RECORD slot: the sealing batch formed, or the closing batch of a closed chunk (R36, R74, R77). Once
the entry has lapsed none is made (R88). -/
def Slot.recordWork (x : Slot) (e : Fin 64) : Option Work :=
  match x.chunk with
  | none => none
  | some c =>
    if x.lapseDue then none
    else if !c.batch.isEmpty then some (.sealing (x.frameBase c.pos) c.stored c.batch c.key c.generation c.seq)
    else if c.closed then
      some (.closing (x.frameBase c.pos) x.geo.chunkLength c.stored (c.tag x.geo.chunkLength e) c.key c.chain)
    else none

/-- The check of range `r` in a batch check list. -/
def checkOf (checks : List (List Byte)) (r : Nat) : List Byte := checks.getD r []

/-- The next deliver batch of a permitted frame: the entry is LIVE or HELD and the range has room (R114). -/
def Slot.playWork (x : Slot) (entry : Entry) (f : Frame) (t : TagRead) : Option Work :=
  let count := rangeSize t.count f.worked
  if (entry.state = .live ∨ entry.state = .held) ∧ count ≤ x.packetRoom then
    some (.deliver (x.frameBase f.pos) (16 * f.worked) count f.key (field t.bytes 6 2) t.seq (checkOf f.checks f.worked)
      x.geo.streamBase x.geo.streamSize x.streamPos)
  else none

/-- The class of segment `i` of an entry as it stands. -/
def Entry.classAt (x : Entry) (i : Nat) : RuleClass :=
  match x.segments[i]? with
  | none => .never
  | some g => g.cls

/-- The next re-seal batch of a frame with a reserved output frame, the entry being MOVING (R41, R157). -/
def Slot.moveWork (x : Slot) (entry : Entry) (f : Frame) (t : TagRead) : Option Work :=
  match f.reserved, x.token with
  | some out, some token =>
    if entry.state = .moving then
      if f.worked < rangeCount t.count then
        some (.reseal (x.frameBase f.pos) (16 * f.worked) (rangeSize t.count f.worked) f.key (field t.bytes 6 2) t.seq
          (checkOf f.checks f.worked) token (x.outBaseAt out))
      else
        some (.finalReseal (x.outBaseAt out) x.geo.chunkLength t.count
          (exportTagBytes t.bytes t.seq (entry.classAt t.seg).code) token f.outChain)
    else none
  | _, _ => none

/-- The next batch of a PLAY, CHECK or MOVE slot (R39, R112, R114, R157). -/
def Slot.frameWork (x : Slot) (entry : Entry) : Option Work :=
  match x.frame with
  | none => none
  | some f =>
    match f.permit, f.tag with
    | none, _ => some .verify
    | some _, none => none
    | some _, some t =>
      match x.mode with
      | .play => x.playWork entry f t
      | .move => x.moveWork entry f t
      | _ => none

/-- The next batch of a SAVE or LOAD in flight (R43, R44). -/
def ImageOp.work : ImageOp → Work
  | .save _ _ _ _ _ batches _ => if batches < 16 then .saveEntries else .saveHeader
  | .load _ _ none _ _ _ => .loadHeader
  | .load _ _ (some _) _ _ _ => .loadEntries

/-- The batch a requester is ready with (R45). -/
def State.nextWork (s : State) : Requester → Option Work
  | .image => s.image.map ImageOp.work
  | .slot n =>
    match (s.slot n).boundEntry with
    | none => none
    | some e => if (s.slot n).mode = .record then (s.slot n).recordWork e else (s.slot n).frameWork (s.entry e)

/-- The number of a requester, 0 to 8. -/
def Requester.number : Requester → Nat
  | .slot n => n.val
  | .image => 8

/-- The requester of a number. -/
def requesterOf (k : Nat) : Requester := if h : k < 8 then .slot ⟨k, h⟩ else .image

/-- The requesters in the order the arbiter looks at them, from the one after the last granted (R45). -/
def grantOrder (last : Requester) : List Requester := (List.range 9).map fun i => requesterOf ((last.number + 1 + i) % 9)

/-- The first ready requester of a list with its batch. -/
def State.firstReady (s : State) : List Requester → Option (Requester × Work)
  | [] => none
  | r :: rs =>
    match s.nextWork r with
    | some work => some (r, work)
    | none => s.firstReady rs

/-- The grant of the arbiter. -/
def State.grant (s : State) : State :=
  match s.firstReady (grantOrder s.lastGranted) with
  | none => s
  | some (r, work) => { s with lastGranted := r, flight := some ⟨r, work, false⟩ }

/-- CIPHER_GRANT: in RUNNING with no batch in flight (R45, R46). -/
def execCipherGrant (s : State) : Host.Outcome State Fault Refusal :=
  .next (if s.part = .running ∧ s.flight = none then s.grant else s)

end Sys2Proof.Machine
end

