-- ==== Sys2Proof/Machine/FrameWork.lean ====
section
/-! DEFINITION. Machine/FrameWork.lean: what a PLAY, CHECK or MOVE slot does between its orders: the take of a frame, the
output reservation, and the completion of its batches (R39 to R41, R111, R114, R155, R157). -/

namespace Sys2Proof.Machine

/-! ## The take of a frame -/

/-- A frame in hand with nothing of it read. -/
def Frame.fresh (pos : Nat) : Frame where
  pos := pos
  tag := none
  key := 0
  raiseDue := false
  verified := 0
  checks := []
  chain := Chain.start
  permit := none
  worked := 0
  packets := 0
  reserved := none
  outChain := Chain.start

/-- The conditions of the take of a frame (R111, R155). -/
def State.frameDue (s : State) (n : Fin 8) : Bool :=
  let x := s.slot n
  s.part == .running && x.eng.state == .waiting && x.frame.isNone && !x.closeAsked && decide (1 ≤ x.framesAvailable)

/-- The frame at the chunk window position becomes the frame in hand. -/
def State.takeFrame (s : State) (n : Fin 8) : State :=
  (s.modSlot n fun x => { x with frame := some (Frame.fresh x.chunkPos) }).setSlotState n .verifying

/-- FRAME_TAKE (R111, R155). -/
def execFrameTake (n : Fin 8) (s : State) : Host.Outcome State Fault Refusal :=
  .next (if s.frameDue n then s.takeFrame n else s)

/-! ## The verify pass (R38, R39) -/

/-- A range read in the verify pass: fed into the running value, with its batch check. -/
def Frame.feedRange (f : Frame) (bytes : List Byte) : Frame :=
  { f with
    verified := f.verified + 1
    checks := f.checks ++ [chainedCheck (frameCheckKey f.key) bytes]
    chain := f.chain.feed (frameCheckKey f.key) bytes }

/-- The check value of a frame whose ranges have been fed, with its tag bytes. -/
def Frame.checkValue (f : Frame) (t : TagRead) : List Byte :=
  (f.chain.feed (frameCheckKey f.key) t.bytes).finish (frameCheckKey f.key)

/-- The next range of frame `f` is read; the last one decides the check value (R39). -/
def State.verifyRange (s : State) (n : Fin 8) (e : Fin 64) (f : Frame) (t : TagRead) : State :=
  let a := (s.slot n).frameBase f.pos + 64 + 188 * (16 * f.verified)
  let len := 188 * rangeSize t.count f.verified
  if covers s.windows false a len then
    let f := f.feedRange (s.mem.read a len)
    let s := s.modSlot n fun x => { x with frame := some f }
    if f.verified < rangeCount t.count then s
    else if f.checkValue t = t.check then s.frameVerified n e t f.raiseDue
    else s.endFrame n .badCheck 0 0
  else s.faultFrameSlot n .window

/-- A verify batch of slot `n` completes; the first one reads and checks the tag (R38). -/
def State.verifyFrame (s : State) (n : Fin 8) (e : Fin 64) (f : Frame) : State :=
  match f.tag with
  | some t => s.verifyRange n e f t
  | none =>
    let a := (s.slot n).frameBase f.pos
    if covers s.windows false a 64 then
      let bytes := s.mem.read a 64
      let f := { f with tag := some (readTag bytes) }
      match checkTag (s.entry e) e (s.slot n).mode bytes with
      | .refused o => (s.modSlot n fun x => { x with frame := some f }).endFrame n o 0 0
      | .passed key raiseDue => s.verifyRange n e { f with key := key, raiseDue := raiseDue } (readTag bytes)
    else s.faultFrameSlot n .window

/-- VERIFY_BATCH: the batch in flight completes; one of a released slot is dropped (R39). -/
def execVerifyBatch (w : Writes) (s : State) : Host.Outcome State Fault Refusal :=
  withWrites w s fun s =>
    match s.flight with
    | some ⟨.slot n, .verify, orphan⟩ =>
      let s := s.freeCipher
      match orphan, (s.slot n).boundEntry, (s.slot n).frame with
      | false, some e, some f => s.verifyFrame n e f
      | _, _, _ => s
    | _ => s

/-! ## The deliver pass (R40, R114) -/

/-- A delivered range is counted; the last one ends the frame (R114, R120). -/
def State.delivered (s : State) (n : Fin 8) (count : Nat) : State :=
  let s := s.countDelivered n count
  match (s.slot n).frame with
  | some { tag := some t, permit := some remaining, worked := worked, .. } =>
    if worked < rangeCount t.count then s.playNext n else s.endFrame n .delivered t.count remaining
  | _ => s

/-- A batch check differs: the frame ends BAD_CHECK with the packets delivered before it (R40, R115). -/
def State.badRange (s : State) (n : Fin 8) : State :=
  s.endFrame n .badCheck (match (s.slot n).frame with | none => 0 | some f => f.packets) 0

/-- DELIVER_BATCH: the batch in flight completes (R40, R114). -/
def execDeliverBatch (w : Writes) (s : State) : Host.Outcome State Fault Refusal :=
  withWrites w s fun s =>
    match s.flight with
    | some ⟨.slot n, .deliver base pos count key gen seq expect winBase winSize winPos, orphan⟩ =>
      let read := s.readRange base pos count key expect
      let (s, ok) := s.freeCipher.runWork (.deliver base pos count key gen seq expect winBase winSize winPos)
      if orphan then s
      else match read with
        | .refused => s.faultFrameSlot n .window
        | .differs => s.badRange n
        | .agrees _ => if ok then s.delivered n count else s.faultFrameSlot n .window
    | _ => s

/-! ## The re-seal (R41, R157) -/

/-- A frame decided for re-seal waits for its output frame, and there is room for it (R157). -/
def State.reserveDue (s : State) (n : Fin 8) : Bool :=
  let x := s.slot n
  x.mode == .move && decide (0 < x.outputRoom) &&
    (match x.frame with
      | none => false
      | some f => f.permit.isSome && f.reserved.isNone) &&
    match x.boundEntry with
    | none => false
    | some e => (s.entry e).state == .moving

/-- The frame at the output window position is reserved (R157). -/
def State.reserveOutput (s : State) (n : Fin 8) : State :=
  (s.modSlot n fun x =>
    { x with frame := x.frame.map fun f => { f with reserved := some x.outPos, outChain := Chain.start } }).setSlotState n
    .delivering

/-- OUTPUT_RESERVATION (R157). -/
def execOutputReservation (n : Fin 8) (s : State) : Host.Outcome State Fault Refusal :=
  .next (if s.reserveDue n then s.reserveOutput n else s)

/-- A re-sealed range is counted and its converted bytes are fed under the export check key (R41). -/
def State.resealed (s : State) (n : Fin 8) (token : Key) (bytes : List Byte) : State :=
  s.modSlot n fun x =>
    { x with
      frame := x.frame.map fun f =>
        { f with worked := f.worked + 1, outChain := f.outChain.feed (frameCheckKey token) bytes } }

/-- RESEAL_BATCH: the batch in flight completes (R41). -/
def execResealBatch (w : Writes) (s : State) : Host.Outcome State Fault Refusal :=
  withWrites w s fun s =>
    match s.flight with
    | some ⟨.slot n, .reseal base pos count key gen seq expect token out, orphan⟩ =>
      let read := s.readRange base pos count key expect
      let (s, ok) := s.freeCipher.runWork (.reseal base pos count key gen seq expect token out)
      if orphan then s
      else match read with
        | .refused => s.faultFrameSlot n .window
        | .differs => s.badRange n
        | .agrees bytes =>
          if ok then s.resealed n token (overPackets (convertPacket key token gen seq) pos (packetsOf bytes count))
          else s.faultFrameSlot n .window
    | _ => s

/-- The slot puts its output frame (R157); Po is held back where Do has moved back meanwhile (R63, log 42). -/
def State.putOutput (s : State) (n : Fin 8) (e : Fin 64) (count remaining : Nat) : State :=
  let s := s.modSlot n fun x => { x with outPos := (x.outPos + 1) % x.geo.outFrames }
  let s := s.advance n (·.advanceC 1)
  (s.advanceMoveMark e).endFrame n .movedOut count remaining

/-- The output frame is complete: it is put while the entry is MOVING, and not after a lapse (R157, R163). -/
def State.finalResealed (s : State) (n : Fin 8) : State :=
  match (s.slot n).frame, (s.slot n).boundEntry with
  | some { tag := some t, permit := some remaining, .. }, some e =>
    if (s.entry e).state = .moving then s.putOutput n e t.count remaining else s
  | _, _ => s

/-- FINAL_RESEAL_BATCH: the batch in flight completes (R41, R157). -/
def execFinalResealBatch (s : State) : Host.Outcome State Fault Refusal :=
  .next (match s.flight with
    | some ⟨.slot n, .finalReseal out chunkLength count tag token chain, orphan⟩ =>
      let (s, ok) := s.freeCipher.runWork (.finalReseal out chunkLength count tag token chain)
      if orphan then s
      else if ok then s.finalResealed n
      else s.faultFrameSlot n .window
    | _ => s)

end Sys2Proof.Machine
end

