-- ==== Sys2Proof/Machine/Registers.lean ====
section
/-! DEFINITION. Machine/Registers.lean: the resets and the accesses to the register window (3.1 to 3.3, 3.5, 11.2). -/

namespace Sys2Proof.Machine

/-! ## Resets (R53) -/

/-- The writes the batch in flight makes, those of a SAVE included. -/
def State.flightAccesses (s : State) (work : Work) : List (Nat × List Byte) :=
  match work, s.image with
  | .saveEntries, some (.save _ addr table _ gen k _) =>
    [(addr + 512 + 4096 * k, batchRecords s.fused.boxKey gen table k)]
  | .saveHeader, some (.save _ addr _ time gen _ chain) =>
    let key := imageCheckKey s.fused.boxKey
    [(addr, imageHeader gen time ++ (chain.feed key (imageHeader gen time)).finish key)]
  | _, _ => s.workAccesses work

/-- Memory as a reset leaves it: of the batch in flight and of a QUERY's record, the bytes already written stay
(R46, R25, log 11). Of the header batch of a SAVE these may be all bytes: the header then stands whole in memory and the
generation cell keeps its old value, the batch not having completed, as the model reads R168 beside R171 (log 47). -/
def State.cutMemory (s : State) (made queryMade : Nat) : Memory :=
  let m := match s.flight with
    | none => s.mem
    | some f => cutAccesses s.windows made s.mem (s.flightAccesses f.work)
  match s.query with
  | none => m
  | some q => cutAccesses s.windows queryMade m [(q.addr, q.record)]

/-- A function on each element of a vector. -/
def mapVector {α β : Type} {n : Nat} (f : α → β) (v : Vector α n) : Vector β n :=
  Vector.mk (v.toList.map f).toArray (by simp)

/-- The state before the lapse judgements of an engine reset (R53, R13, R27, R47, R92, R106, R126, R151, R164, R171,
R176). -/
def State.engineCleared (s : State) (mem : Memory) : State :=
  { s with
    mem := mem
    windows := []
    part := .stopped
    refusal := .none
    sweepTimer := none
    sweepPending := false
    sweep := none
    slots := Vector.replicate 8 Slot.reset
    partLatch := 0
    header := { s.header with orderTaken := 0, result := .none, detail := 0, overtaken := 0 }
    held := []
    heldCauses := []
    writeAll := true
    directory := mapVector (fun d => { d with shown := none }) s.directory
    flight := none
    entries := mapVector (fun x => { x.cutOff with binding := none, players := [] }) s.entries
    waiting := []
    query := none
    image := none
    flags := [] }

/-- FULL_RESET: every piece of state at its full-reset value; the generation cell and the fused keys are kept, and
recorder memory is the recorder's. -/
def execFullReset (made queryMade : Nat) (s : State) : Host.Outcome State Fault Refusal :=
  .next { State.reset with mem := s.cutMemory made queryMade, cell := s.cell, fused := s.fused, pending := s.pending }

/-- ENGINE_RESET: a write to CONTROL with the ENGINE RESET bit (R50, R53), with the lapses it brings (R141). -/
def execEngineReset (v : BitVec 32) (made queryMade : Nat) (s : State) : Host.Outcome State Fault Refusal :=
  if controlRequest v = .engineReset then
    .next ((s.loadControl v).engineCleared (s.cutMemory made queryMade)).deriveAll
  else .refused .requestMismatch

/-! ## Starting and stopping -/

/-- START in STOPPED judges the window list and is refused or starts the part; in another state it has no effect (R51). -/
def State.startPart (s : State) : State :=
  if s.part = .stopped then
    match judgeWindows s.windowList s.boardBase with
    | .none =>
      { s with
        windows := s.windowList
        refusal := .none
        part := .running
        sweepTimer := some s.sweepInterval
        sweepPending := false }.beginSweep
    | r => { s with windows := [], refusal := r }
  else s

/-- START: a write to CONTROL whose request is START (R50, R51). -/
def execStart (v : BitVec 32) (w : Writes) (s : State) : Host.Outcome State Fault Refusal :=
  if controlRequest v = .start then withWrites w s fun s => (s.loadControl v).startPart else .refused .requestMismatch

/-- Where a sweep stands after STOP: the order being taken is still taken whole (R52). -/
def stoppedSweep : Option SweepAt → Option SweepAt
  | some (.order n number) => some (.order n number)
  | _ => none

/-- STOP in RUNNING makes the part STOPPING; in another state it has no effect (R52). -/
def State.stopPart (s : State) : State :=
  if s.part = .running then
    { s with part := .stopping, sweepTimer := none, sweepPending := false, sweep := stoppedSweep s.sweep }
  else s

/-- STOP: a write to CONTROL whose request is STOP (R50, R52). -/
def execStop (v : BitVec 32) (s : State) : Host.Outcome State Fault Refusal :=
  if controlRequest v = .stop then .next (s.loadControl v).stopPart else .refused .requestMismatch

/-- Nothing holds the part in STOPPING: no batch, no take, no QUERY write and no order being taken (R52). -/
def State.drained (s : State) : Bool :=
  s.flight.isNone && s.query.isNone && s.sweep.isNone && s.slots.toList.all fun x => x.take.isNone

/-- STOP_DRAIN_END: the part becomes STOPPED (R52). -/
def execStopDrainEnd (s : State) : Host.Outcome State Fault Refusal :=
  .next (if s.part = .stopping ∧ s.drained then { s with part := .stopped } else s)

/-- LOAD_DIVISOR_AND_ATTN_ENABLE: a write to CONTROL with no request bit (R50). -/
def execLoadDivisorAndAttnEnable (v : BitVec 32) (s : State) : Host.Outcome State Fault Refusal :=
  if controlRequest v = .nothing then .next (s.loadControl v) else .refused .requestMismatch

/-! ## The other registers -/

/-- SWEEP_REQUEST: a write of any value to SWEEP (R56). -/
def execSweepRequest (_v : BitVec 32) (s : State) : Host.Outcome State Fault Refusal :=
  .next (if s.part = .running then s.requestSweep else s)

/-- ATTENTION_READ: the highest flag is returned and cleared (R174). -/
def execAttentionRead (s : State) : Host.Outcome State Fault Refusal :=
  .next { s with attentionRead := s.attentionValue, flags := s.flags.tail }

/-- BOARD_BASE_LOW_WRITE: bits 31 to 12 are taken while the part is STOPPED (R48). -/
def execBoardBaseLowWrite (v : BitVec 32) (s : State) : Host.Outcome State Fault Refusal :=
  .next (if s.part = .stopped then { s with baseLow := v &&& 0xFFFFF000 } else s)

/-- BOARD_BASE_HIGH_WRITE: taken while the part is STOPPED (R48). -/
def execBoardBaseHighWrite (v : BitVec 32) (s : State) : Host.Outcome State Fault Refusal :=
  .next (if s.part = .stopped then { s with baseHigh := v } else s)

/-- REGISTER_WRITE_IGNORED: a write to IDENT, STATUS or ATTENTION (R49). -/
def execRegisterWriteIgnored (_r : ReadOnlyReg) (_v : BitVec 32) (s : State) : Host.Outcome State Fault Refusal :=
  .next s

end Sys2Proof.Machine
end

