-- ==== Sys2Proof/Machine/ImageWork.lean ====
section
/-! DEFINITION. Machine/ImageWork.lean: the completion of the batches of a SAVE or LOAD (2.10, 10.3, 10.4). -/

namespace Sys2Proof.Machine

/-! ## SAVE (R43, R168) -/

/-- The image operation ends with a result. -/
def State.endImage (s : State) (number : Option Mark) (r : Result) (detail : Nat) : State :=
  { s with image := none }.completePart number r detail

/-- SAVE_ENTRY_BATCH: the batch in flight completes (R43). -/
def execSaveEntryBatch (s : State) : Host.Outcome State Fault Refusal :=
  .next (match s.flight, s.image with
    | some ⟨.image, .saveEntries, _⟩, some (.save number addr table time gen k chain) =>
      match writeAccesses s.windows s.mem (s.flightAccesses .saveEntries) with
      | (m, true) =>
        let chain := chain.feed (imageCheckKey s.fused.boxKey) (batchRecords s.fused.boxKey gen table k)
        { s.freeCipher with mem := m, image := some (.save number addr table time gen (k + 1) chain) }
      | (m, false) => { s.freeCipher with mem := m }.endImage number .window 0
    | _, _ => s)

/-- SAVE_HEADER_BATCH: the batch in flight completes, the generation cell advances with it (R43, R168). -/
def execSaveHeaderBatch (s : State) : Host.Outcome State Fault Refusal :=
  .next (match s.flight, s.image with
    | some ⟨.image, .saveHeader, _⟩, some (.save number _ _ _ gen _ _) =>
      match writeAccesses s.windows s.mem (s.flightAccesses .saveHeader) with
      | (m, true) => { s.freeCipher with mem := m, cell := gen }.endImage number .done gen
      | (m, false) => { s.freeCipher with mem := m }.endImage number .window 0
    | _, _ => s)

/-! ## LOAD (R44, R170) -/

/-- The marker and format of an image header (R44). -/
def headerOk (header : List Byte) : Bool := decide (header.take 4 = imageMarker ∧ field header 4 1 = 1)

/-- LOAD_HEADER_BATCH: the batch in flight completes (R44). -/
def execLoadHeaderBatch (w : Writes) (s : State) : Host.Outcome State Fault Refusal :=
  withWrites w s fun s =>
    match s.flight, s.image with
    | some ⟨.image, .loadHeader, _⟩, some (.load number addr _ staging k chain) =>
      let s := s.freeCipher
      if covers s.windows false addr 512 then
        let header := s.mem.read addr 512
        if headerOk header then { s with image := some (.load number addr (some header) staging k chain) }
        else s.endImage number .imageBad 0
      else s.endImage number .window 0
    | _, _ => s

/-- The table of a staging copy, keys unwrapped, LIVE and MOVING entries converted (R170, steps 1 and 2). -/
def loadedTable (boxKey : Key) (gen : Nat) (staging : List (List Byte)) : Vector Entry 64 :=
  mapVector (fun e : Fin 64 => (entryOf boxKey gen e.val (staging.getD e.val [])).cutOff)
    (Vector.mk allEntries.toArray (by decide))

/-- A LOAD whose checks have all passed (R170, R149). -/
def State.completeLoad (s : State) (number : Option Mark) (header : List Byte) (staging : List (List Byte)) : State :=
  let gen := field header 8 4
  let s := { s with
    entries := loadedTable s.fused.boxKey gen staging
    clock := max s.clock (field header 12 4) }
  { s.deriveAll with ready := true }.endImage number .done gen

/-- The check value and the generation judged after the last entry batch (R44). -/
def State.judgeImage (s : State) (number : Option Mark) (header : List Byte) (staging : List (List Byte)) (chain : Chain) : State :=
  let key := imageCheckKey s.fused.boxKey
  if (chain.feed key (header.take 504)).finish key ≠ (header.drop 504).take 8 then s.endImage number .imageBad 0
  else if field header 8 4 ≠ s.cell then s.endImage number .imageOld 0
  else s.completeLoad number header staging

/-- A batch of 4,096 bytes cut into its four entry records. -/
def recordsOf (bytes : List Byte) : List (List Byte) := (List.range 4).map fun j => (bytes.drop (1024 * j)).take 1024

/-- LOAD_ENTRY_BATCH: the batch in flight completes (R44). -/
def execLoadEntryBatch (w : Writes) (s : State) : Host.Outcome State Fault Refusal :=
  withWrites w s fun s =>
    match s.flight, s.image with
    | some ⟨.image, .loadEntries, _⟩, some (.load number addr (some header) staging k chain) =>
      let s := s.freeCipher
      let a := addr + 512 + 4096 * k
      if covers s.windows false a 4096 then
        let bytes := s.mem.read a 4096
        let chain := chain.feed (imageCheckKey s.fused.boxKey) bytes
        let staging := staging ++ recordsOf bytes
        if k + 1 < 16 then { s with image := some (.load number addr (some header) staging (k + 1) chain) }
        else s.judgeImage number header staging chain
      else s.endImage number .window 0
    | _, _ => s

end Sys2Proof.Machine
end

