-- ==== Sys2Proof/Machine/Keys.lean ====
section
/-! DEFINITION. Machine/Keys.lean: key draws and the hand-over of keys (1.5). -/

namespace Sys2Proof.Machine

/-- KEY_DRAW_COMPLETE: the key joins the tail of the pool and the next draw starts while it holds fewer than 4 (R10).
The key is the event's: the manual says of its value only that it is drawn inside the part (log 14). -/
def execKeyDrawComplete (key : Key) (s : State) : Host.Outcome State Fault Refusal :=
  .next (if s.drawing then { s with pool := s.pool ++ [key], drawing := false }.startDraw else s)

/-- The first segment of a list given its content key. -/
def keyFirst (key : Key) : List Segment → List Segment
  | [] => []
  | g :: gs => { g with key := some key } :: gs

/-- Two keys handed to a slot and its entry (R11). -/
def State.handOver (s : State) (n : Fin 8) (e : Fin 64) (first next : Key) (rest : List Key) : State :=
  let s := { s with pool := rest, waiting := s.waiting.drop 1 }.startDraw
  (s.modEntry e fun x => { x with segments := keyFirst first x.segments, nextKey := some next }).setSlotState n .running

/-- KEY_HANDOVER: the slot at the head of the waiting list is served where the pool holds two keys (R11). -/
def execKeyHandover (s : State) : Host.Outcome State Fault Refusal :=
  .next (match s.waiting, s.pool with
    | n :: _, first :: next :: rest =>
      match (s.slot n).boundEntry with
      | none => s
      | some e => if (s.entry e).state = .live then s.handOver n e first next rest else s
    | _, _ => s)

end Sys2Proof.Machine
end

