-- ==== Sys2Proof/Machine/PartOrders.lean ====
section
/-! DEFINITION. Machine/PartOrders.lean: the part orders of the board header (R24, R25, R60, R144 to R147, R166, R167,
R169). -/

namespace Sys2Proof.Machine

/-! ## FRESH, SAVE and LOAD -/

/-- The answer to FRESH (R166). -/
def State.freshResult (s : State) : Result :=
  if s.loadInFlight then .busy else if s.ready then .wrongState else .done

/-- FRESH (R166). -/
def execFresh (w : Writes) (s : State) : Host.Outcome State Fault Refusal :=
  withWrites w s fun s => s.takePartOrder .fresh fun s number =>
    let r := s.freshResult
    let s := s.answerPart number r 0
    if r = .done then { s with ready := true } else s

/-- The answer to SAVE; absent when it is accepted (R167). -/
def State.saveRefusal (s : State) (addr : Nat) : Option Result :=
  if !s.ready then some .notReady
  else if s.image.isSome then some .busy
  else if top32 ≤ s.cell then some .wrongState
  else if covers s.windows true addr imageSize then none
  else some .window

/-- SAVE: the snapshot is taken where the order is accepted (R167). -/
def execSave (w : Writes) (s : State) : Host.Outcome State Fault Refusal :=
  withWrites w s fun s => s.takePartOrder .save fun s number =>
    let addr := s.headerField 112 8
    match s.saveRefusal addr with
    | some r => s.answerPart number r 0
    | none =>
      { s.answerPart number .none 0 with
        image := some (.save (some number) addr s.entries s.clock (s.cell + 1) 0 Chain.start) }

/-- The answer to LOAD; absent when it is accepted (R169). -/
def State.loadRefusal (s : State) (addr : Nat) : Option Result :=
  if s.image.isSome then some .busy
  else if s.slots.toList.any fun x => x.eng.state != .idle then some .busy
  else if covers s.windows false addr imageSize then none
  else some .window

/-- LOAD (R169). -/
def execLoad (w : Writes) (s : State) : Host.Outcome State Fault Refusal :=
  withWrites w s fun s => s.takePartOrder .load fun s number =>
    let addr := s.headerField 112 8
    match s.loadRefusal addr with
    | some r => s.answerPart number r 0
    | none => { s.answerPart number .none 0 with image := some (.load (some number) addr none [] 0 Chain.start) }

/-! ## TIME (R144 to R147) -/

/-- The vote window with one more offset: of 3 offsets the oldest leaves it first (R146). -/
def appendVote (votes : List Nat) (d : Nat) : List Nat := (if votes.length < 3 then votes else votes.drop 1) ++ [d]

/-- The smaller offset of a pair that differs by 2 or less (R146). -/
def agreeing (a b : Nat) : Option Nat := if max a b - min a b ≤ 2 then some (min a b) else none

/-- The jump of a vote window: the least smaller offset of its qualifying pairs (R146). -/
def chooseJump : List Nat → Option Nat
  | [] => none
  | a :: rest => optMin (rest.foldl (fun m b => optMin m (agreeing a b)) none) (chooseJump rest)

/-- A report 3 seconds or more ahead (R146, R147). -/
def State.voteReport (s : State) (d : Nat) : State × VoteAction :=
  let votes := appendVote s.votes d
  match chooseJump votes with
  | none => ({ s with votes := votes }, .voted)
  | some j => (({ s with votes := [] }.raise (partFlag .lapse)).advanceClock (satAdd s.clock j), .jumped)

/-- A report handled by its offset (R144, R145). -/
def State.timeReport (s : State) (report : Nat) : State × VoteAction :=
  if report ≤ s.clock then ({ s with votes := [] }, .kept)
  else if report - s.clock ≤ 2 then ({ s with votes := [] }.advanceClock (satAdd s.clock (report - s.clock)), .trimmed)
  else s.voteReport (report - s.clock)

/-- The time-vote result written in the header, action before clock (R68, R144). -/
def State.showVote (s : State) (a : VoteAction) : State :=
  { s with header := { s.header with voteAction := a, voteClock := s.clock } }.showHeader [.voteAction, .voteClock]

/-- TIME (R144). -/
def execTime (w : Writes) (s : State) : Host.Outcome State Fault Refusal :=
  withWrites w s fun s => s.takePartOrder .time fun s number =>
    let (s, a) := s.timeReport (s.headerField 104 4)
    (s.showVote a).answerPart number .done s.clock

/-! ## ERASE and QUERY -/

/-- The answer to ERASE on an entry (R24). -/
def Entry.eraseResult (x : Entry) : Result :=
  if x.boundSlots ≠ [] then .busy
  else match x.state with
    | .free => .wrongState
    | .retired => .wrongState
    | .live => .busy
    | .moving => .busy
    | _ => .done

/-- ERASE taken for a recording number (R24). -/
def State.eraseEntry (s : State) (number : Mark) (recording : Nat) : State :=
  if !s.ready then s.answerPart number .notReady 0
  else if s.loadInFlight then s.answerPart number .busy 0
  else match entryIndex recording with
    | none => s.answerPart number .badOperand 0
    | some e =>
      let r := (s.entry e).eraseResult
      if r = .done then
        let s := s.freeEntry e
        s.answerPart number .done (s.entry e).generation
      else s.answerPart number r 0

/-- ERASE (R24). -/
def execErase (w : Writes) (s : State) : Host.Outcome State Fault Refusal :=
  withWrites w s fun s => s.takePartOrder .erase fun s number => s.eraseEntry number (s.headerField 101 1)

/-- The checks of a QUERY in their order (R25). -/
def State.checkQuery (s : State) (recording addr : Nat) : Except Result (Fin 64) :=
  if !s.ready then .error .notReady
  else if s.loadInFlight || s.query.isSome then .error .busy
  else match entryIndex recording with
    | none => .error .badOperand
    | some e => if covers s.windows true addr 544 then .ok e else .error .window

/-- QUERY: the entry is copied where the order is accepted, and its result comes later (R25). -/
def execQuery (w : Writes) (s : State) : Host.Outcome State Fault Refusal :=
  withWrites w s fun s => s.takePartOrder .query fun s number =>
    let addr := s.headerField 120 8
    match s.checkQuery (s.headerField 101 1) addr with
    | .error r => s.answerPart number r 0
    | .ok e => { s.answerPart number .none 0 with query := some ⟨addr, queryRecord e (s.entry e), some number⟩ }

/-- The write of the query record in flight completes; WINDOW where the Link Port refuses it, as for any part order's
access (R25, R54). -/
def State.finishQuery (s : State) (q : Query) : State :=
  let (m, ok) := writeAccesses s.windows s.mem [(q.addr, q.record)]
  { s with mem := m, query := none }.completePart q.number (if ok then .done else .window) 0

/-- QUERY_WRITE_COMPLETE (R25). -/
def execQueryWriteComplete (s : State) : Host.Outcome State Fault Refusal :=
  .next (match s.query with
    | none => s
    | some q => s.finishQuery q)

/-! ## Unknown part orders -/

/-- UNKNOWN_PART_ORDER (R60). -/
def execUnknownPartOrder (w : Writes) (s : State) : Host.Outcome State Fault Refusal :=
  withWrites w s fun s => s.takePartOrder .unknown fun s number => s.answerPart number .unknown 0

end Sys2Proof.Machine
end

