-- ==== Sys2Proof/Machine/Dispatch.lean ====
section
/-! DEFINITION. Machine/Dispatch.lean: one arm per command. -/

namespace Sys2Proof.Machine

def exec (i : Instr) (s : State) : Host.Outcome State Fault Refusal :=
  match i with
  | .fullReset made queryMade => Sys2Proof.Machine.execFullReset made queryMade s
  | .engineReset v made queryMade => Sys2Proof.Machine.execEngineReset v made queryMade s
  | .start v w => Sys2Proof.Machine.execStart v w s
  | .stop v => Sys2Proof.Machine.execStop v s
  | .stopDrainEnd => Sys2Proof.Machine.execStopDrainEnd s
  | .loadDivisorAndAttnEnable v => Sys2Proof.Machine.execLoadDivisorAndAttnEnable v s
  | .sweepRequest v => Sys2Proof.Machine.execSweepRequest v s
  | .attentionRead => Sys2Proof.Machine.execAttentionRead s
  | .boardBaseLowWrite v => Sys2Proof.Machine.execBoardBaseLowWrite v s
  | .boardBaseHighWrite v => Sys2Proof.Machine.execBoardBaseHighWrite v s
  | .registerWriteIgnored r v => Sys2Proof.Machine.execRegisterWriteIgnored r v s
  | .sweepTimerExpiry => Sys2Proof.Machine.execSweepTimerExpiry s
  | .slotStep w => Sys2Proof.Machine.execSlotStep w s
  | .endOfSweepWrites w => Sys2Proof.Machine.execEndOfSweepWrites w s
  | .recordOpen w => Sys2Proof.Machine.execRecordOpen w s
  | .playOpen w => Sys2Proof.Machine.execPlayOpen w s
  | .checkOpen w => Sys2Proof.Machine.execCheckOpen w s
  | .moveOpen w => Sys2Proof.Machine.execMoveOpen w s
  | .recordClose w => Sys2Proof.Machine.execRecordClose w s
  | .recordAbort w => Sys2Proof.Machine.execRecordAbort w s
  | .playCheckClose w => Sys2Proof.Machine.execPlayCheckClose w s
  | .playCheckAbort w => Sys2Proof.Machine.execPlayCheckAbort w s
  | .moveClose w => Sys2Proof.Machine.execMoveClose w s
  | .moveAbort w => Sys2Proof.Machine.execMoveAbort w s
  | .faultedSlotReturn w => Sys2Proof.Machine.execFaultedSlotReturn w s
  | .rule w => Sys2Proof.Machine.execRule w s
  | .rotate w => Sys2Proof.Machine.execRotate w s
  | .flush w => Sys2Proof.Machine.execFlush w s
  | .unknownOrder w => Sys2Proof.Machine.execUnknownOrder w s
  | .fresh w => Sys2Proof.Machine.execFresh w s
  | .save w => Sys2Proof.Machine.execSave w s
  | .load w => Sys2Proof.Machine.execLoad w s
  | .time w => Sys2Proof.Machine.execTime w s
  | .erase w => Sys2Proof.Machine.execErase w s
  | .query w => Sys2Proof.Machine.execQuery w s
  | .queryWriteComplete => Sys2Proof.Machine.execQueryWriteComplete s
  | .unknownPartOrder w => Sys2Proof.Machine.execUnknownPartOrder w s
  | .keyDrawComplete key => Sys2Proof.Machine.execKeyDrawComplete key s
  | .keyHandover => Sys2Proof.Machine.execKeyHandover s
  | .takeStart n w => Sys2Proof.Machine.execTakeStart n w s
  | .takeComplete n w => Sys2Proof.Machine.execTakeComplete n w s
  | .chunkOpen n => Sys2Proof.Machine.execChunkOpen n s
  | .holdTimerExpiry n => Sys2Proof.Machine.execHoldTimerExpiry n s
  | .cipherGrant => Sys2Proof.Machine.execCipherGrant s
  | .sealingBatch => Sys2Proof.Machine.execSealingBatch s
  | .closingBatch => Sys2Proof.Machine.execClosingBatch s
  | .frameTake n => Sys2Proof.Machine.execFrameTake n s
  | .verifyBatch w => Sys2Proof.Machine.execVerifyBatch w s
  | .deliverBatch w => Sys2Proof.Machine.execDeliverBatch w s
  | .outputReservation n => Sys2Proof.Machine.execOutputReservation n s
  | .resealBatch w => Sys2Proof.Machine.execResealBatch w s
  | .finalResealBatch => Sys2Proof.Machine.execFinalResealBatch s
  | .saveEntryBatch => Sys2Proof.Machine.execSaveEntryBatch s
  | .saveHeaderBatch => Sys2Proof.Machine.execSaveHeaderBatch s
  | .loadHeaderBatch w => Sys2Proof.Machine.execLoadHeaderBatch w s
  | .loadEntryBatch w => Sys2Proof.Machine.execLoadEntryBatch w s
  | .clockTick => Sys2Proof.Machine.execClockTick s
  | .slotFaultLapsed n w => Sys2Proof.Machine.execSlotFaultLapsed n w s

end Sys2Proof.Machine
end

