-- ==== Sys2Proof/Safety.lean ====
section
/-! DEFINITION. Safety.lean: the words of the statements: what a command leaves alone, what an entry comes to, and the
invariants of the machine. -/

namespace Sys2Proof.Machine

/-! ## What is left alone -/

/-- The fields of State that no operation on a slot, an entry or a flag changes. -/
structure Kept where
  baseLow : BitVec 32
  baseHigh : BitVec 32
  windows : List Window
  part : PartState
  refusal : StartRefusal
  divisor : BitVec 4
  attnEnable : Bool
  sweepTimer : Option Nat
  sweepPending : Bool
  sweep : Option SweepAt
  sweepCount : Mark
  partLatch : Mark
  header : Header
  writeAll : Bool
  writeVote : Bool
  directory : Vector DirEntry 64
  lastGranted : Requester
  query : Option Query
  tickPhase : Nat
  votes : List Nat
  ready : Bool
  cell : Nat
  image : Option ImageOp
  fused : Fused
  attentionRead : BitVec 32
  pending : List Instr

/-- These fields of a state. -/
def State.kept (s : State) : Kept where
  baseLow := s.baseLow
  baseHigh := s.baseHigh
  windows := s.windows
  part := s.part
  refusal := s.refusal
  divisor := s.divisor
  attnEnable := s.attnEnable
  sweepTimer := s.sweepTimer
  sweepPending := s.sweepPending
  sweep := s.sweep
  sweepCount := s.sweepCount
  partLatch := s.partLatch
  header := s.header
  writeAll := s.writeAll
  writeVote := s.writeVote
  directory := s.directory
  lastGranted := s.lastGranted
  query := s.query
  tickPhase := s.tickPhase
  votes := s.votes
  ready := s.ready
  cell := s.cell
  image := s.image
  fused := s.fused
  attentionRead := s.attentionRead
  pending := s.pending

/-- The key pool, the draw and the clock are as they were. -/
def State.sameKeysAndClock (s t : State) : Prop := t.pool = s.pool ∧ t.drawing = s.drawing ∧ t.clock = s.clock

/-- Address `a` is in the engine part of slot record `n` (R48). -/
def State.inRecord (s : State) (n : Fin 8) (a : Nat) : Prop := s.slotAddr n + 256 ≤ a ∧ a < s.slotAddr n + 512

/-- Address `a` is in the engine part of the header, up to the directory's end (R48). -/
def State.inHeader (s : State) (a : Nat) : Prop := s.boardBase + 128 ≤ a ∧ a < s.boardBase + 2048

/-- Every byte of memory outside `p` is as it was. -/
def State.sameMemoryBut (s t : State) (p : Nat → Prop) : Prop := ∀ a, ¬ p a → t.mem.get a = s.mem.get a

/-- Nothing but slot `n`, entries, flags, the waiting list, the cipher, memory in record `n`, and the place of the sweep
has changed: what the taking of an order of slot `n` leaves alone outside STOPPED. -/
def State.orderFrame (s t : State) (n : Fin 8) : Prop :=
  t.kept = { s.kept with sweep := s.afterSlot n } ∧ s.sameKeysAndClock t ∧ t.held = s.held ∧
    t.heldCauses = s.heldCauses ∧ s.sameMemoryBut t (s.inRecord n)

/-- An order of slot `n` of the given kind is at hand in a sweep. -/
def State.atOrder (s : State) (w : Writes) (n : Fin 8) (number : Mark) (kind : OrderKind) : Prop :=
  s.sweep = some (.order n number) ∧ s.part ≠ .stopped ∧ writesInSpace w = true ∧
    orderKind ((s.recorded w).slotField n 4 1) = kind

/-- A new part order of the given kind is at hand at the part step. -/
def State.atPartOrder (s : State) (w : Writes) (kind : PartOrderKind) : Prop :=
  s.sweep = some .part ∧ s.part ≠ .stopped ∧ writesInSpace w = true ∧
    (s.recorded w).partOrderNumber ≠ s.partLatch ∧ partOrderKind ((s.recorded w).headerField 100 1) = kind

/-- A slot whose order `number` has been answered: latch, order taken, result and orders overtaken; an order taken before
it whose result was to come later writes none any longer (R58, R61). -/
def Slot.answered (x : Slot) (number : Mark) (r : Result) : Slot :=
  { x with
    latch := number
    openServed := none
    closeServed := none
    eng := { x.eng with orderTaken := number, result := r, overtaken := x.eng.overtaken + (number - x.latch - 1) } }

/-- The header after part order `number` has been answered (R58, R61). -/
def State.partAnswered (s : State) (number : Mark) (r : Result) (detail : Nat) : Header :=
  { s.header with
    orderTaken := number
    result := r
    detail := detail
    overtaken := s.header.overtaken + (number - s.partLatch - 1) }

/-- Nothing but the header's order fields, the part latch, the sweep's place, the RESULT flag of the part and memory in
the header has changed, readiness and the image or QUERY in flight apart: what the taking of a part order leaves alone
outside STOPPED. -/
def State.partFrame (s t : State) (r : Result) : Prop :=
  t.kept =
      { s.kept with
        header := t.header, partLatch := t.partLatch, sweep := t.sweep, ready := t.ready, image := t.image
        query := t.query } ∧
    t.slots = s.slots ∧ t.entries = s.entries ∧ t.waiting = s.waiting ∧ t.flight = s.flight ∧
    s.sameKeysAndClock t ∧ t.held = s.held ∧ t.heldCauses = s.heldCauses ∧ s.sameMemoryBut t s.inHeader ∧
    t.flags = (if r = .none then s.flags else raiseFlag (partFlag .result) s.flags)

/-- What changes in the engine parts of slots while the part is STOPPED is marked for writing, and no write is made
(R64). -/
def State.marksFields (s t : State) : Prop :=
  t.mem = s.mem ∧ (∀ f ∈ s.held, f ∈ t.held) ∧
    ∀ n f, (t.slot n).eng.fieldAt f ≠ (s.slot n).eng.fieldAt f → BoardField.slot n f ∈ t.held

/-- A later part order has been taken: an image operation and a QUERY in flight go on and write no result any longer
(R61). -/
def State.overtakes (s t : State) : Prop :=
  t.image = s.image.map ImageOp.overtaken ∧ t.query = s.query.map Query.overtaken

/-! ## Checks in order -/

/-- The first of the checks whose condition holds has the answer `r`. -/
def firstFailing {α : Type} (checks : List (Prop × α)) (r : α) : Prop :=
  ∃ before p after, checks = before ++ (p, r) :: after ∧ p ∧ ∀ q ∈ before, ¬ q.1

/-- The condition of none of the checks holds. -/
def noneFailing {α : Type} (checks : List (Prop × α)) : Prop := ∀ q ∈ checks, ¬ q.1

/-- All of the `len` bytes from `a` lie inside one of the windows, and inside a writable one for a write (R54). -/
def inWindow (windows : List Window) (write : Bool) (a len : Nat) : Prop :=
  ∃ x ∈ windows, (write = true → x.writable = true) ∧ x.lo ≤ a ∧ a + len ≤ x.hi + 1

/-- A frame count outside 2 to 16 (R65). -/
def badFrames (k : Nat) : Prop := k < 2 ∨ 16 < k

/-- The checks of an OPEN in each mode on slot record `n` as memory stands, in their order, each with the condition on
which it fails and its result (R7, R59, R65, R66, R71, R108, R153, R165). -/
def State.openChecks (s : State) (n : Fin 8) (mode : Mode) : List (Prop × Result) :=
  let recording := s.slotField n 6 1
  let size := s.slotField n 48 4
  let frames := s.slotField n 64 1
  let outFrames := s.slotField n 80 1
  let named (p : Entry → Prop) : Prop := ∃ e : Fin 64, e.val = recording ∧ p (s.entry e)
  let chunkOut (write : Bool) (len : Nat) : Prop :=
    ¬ inWindow s.windows write (s.slotField n 56 8) (frames * frameSize len)
  let packetsOut (write : Bool) : Prop := ¬ inWindow s.windows write (s.slotField n 40 8) (188 * size)
  let ready : List (Prop × Result) :=
    [((s.slot n).eng.state ≠ .idle, .busy), (s.ready = false ∨ s.loadInFlight = true, .notReady)]
  match mode with
  | .record =>
    let len := clampLength (s.slotField n 7 1)
    ready ++
      [(size < 256 ∨ 65536 < size ∨ size < len ∨ badFrames frames ∨
          (∃ i j, i < j ∧ j < 4 ∧ (s.watchEntry n i).action ≠ .notUsed ∧ (s.watchEntry n j).action ≠ .notUsed ∧
            (s.watchEntry n i).ident = (s.watchEntry n j).ident), .badOperand),
        (packetsOut false ∨ chunkOut true len, .window),
        (64 ≤ recording ∧ recording ≠ 255, .badOperand),
        (named (·.state ≠ .free), .wrongState),
        (recording = 255 ∧ ∀ e, (s.entry e).state ≠ .free, .noRoom),
        (∃ t, (s.ruleFields n).expiry = some t ∧ t ≤ s.clock, .expired)]
  | .play =>
    ready ++
      [(size < 64 ∨ 65536 < size ∨ badFrames frames, .badOperand),
        (64 ≤ recording, .badOperand),
        (named (·.state = .moving), .busy),
        (named fun x => x.state ≠ .live ∧ x.state ≠ .held, .wrongState),
        (named fun x => chunkOut false x.chunkLength ∨ packetsOut true, .window),
        (named (·.views = some 0), .viewsUsed)]
  | .check =>
    ready ++
      [(badFrames frames, .badOperand),
        (64 ≤ recording, .badOperand),
        (named fun x => x.state ≠ .live ∧ x.state ≠ .held ∧ x.state ≠ .moving, .wrongState),
        (named fun x => chunkOut false x.chunkLength, .window)]
  | .move =>
    let token := s.mem.read (s.slotAddr n + 88) 24
    ready ++
      [(badFrames frames ∨ badFrames outFrames, .badOperand),
        (64 ≤ recording, .badOperand),
        (named (·.state ≠ .held), .wrongState),
        (named fun x => ∃ m ∈ x.players, (s.slot m).mode = .play, .busy),
        (named fun x => x.chunkCount ≤ x.moveMark, .wrongState),
        (named fun x => ∀ g ∈ x.segments, g.cls ≠ .once ∧ g.cls ≠ .openCopy, .cls),
        (named fun x => chunkOut false x.chunkLength ∨
          ¬ inWindow s.windows true (s.slotField n 72 8) (outFrames * frameSize x.chunkLength), .window),
        (chainedCheck (tokenCheckKey s.fused.transferKey) (token.take 16) ≠ token.drop 16, .tokenBad)]
  | .off => []

/-- A tag's fields as they stand in its 64 bytes (3.10). -/
def tagOf (bytes : List Byte) : TagRead :=
  ⟨field bytes 8 4, field bytes 12 1, field bytes 14 2, field bytes 16 4, bytes.take 56, (bytes.drop 56).take 8⟩

/-- The tag checks of a frame's 64 tag bytes against entry `e`, in their order, each with the condition on which it fails
and its outcome (R38, R112, R155). -/
def Entry.tagChecks (x : Entry) (e : Fin 64) (mode : Mode) (bytes : List Byte) : List (Prop × FrameOutcome) :=
  let t := tagOf bytes
  let segment (p : Segment → Prop) : Prop := ∃ g, x.segments[t.seg]? = some g ∧ p g
  let beyond := mode ≠ .move ∧ x.chunkCount ≤ t.seq
  [(bytes.take 4 ≠ [0x4C, 0x32, 0x34, 0x38] ∨ field bytes 4 1 ≠ 1, .noMarker),
    (field bytes 5 1 ≠ e.val ∨ field bytes 6 2 ≠ x.generation, .wrongRecording),
    (t.count = 0 ∨ x.chunkLength < t.count, .badLength),
    (x.segments.length ≤ t.seg, .noSegment),
    (mode = .move ∧ t.seq ≠ x.moveMark, .outOfOrder),
    (beyond ∧ x.state = .live, .notYet),
    (beyond ∧ ¬ (x.state = .held ∧ x.interrupted = true ∧ t.seg + 1 = x.segments.length), .beyondEnd),
    (t.seq < x.chunkCount ∧ segment (fun g => t.seq < g.first ∨ g.first + g.count ≤ t.seq), .noSegment),
    (x.state = .lapsed ∨ x.state = .moved ∨ segment (·.key = none), .lapsed)]

/-- Address `a` lies in none of the blocks. -/
def outsideBlocks (a : Nat) (blocks : List (Nat × List Byte)) : Prop := ∀ b ∈ blocks, a < b.1 ∨ b.1 + b.2.length ≤ a

/-- Every slot but `n` is as it was. -/
def State.sameSlotsBut (s t : State) (n : Fin 8) : Prop := ∀ m, m ≠ n → t.slot m = s.slot m

/-- Every entry but `e` is as it was. -/
def State.sameEntriesBut (s t : State) (e : Fin 64) : Prop := ∀ d, d ≠ e → t.entry d = s.entry d

/-- An entry whose keys are gone, so that slots bound to it fault (R1, R3). -/
def Entry.gone (x : Entry) : Bool := x.state == .free || x.state == .retired || x.state == .lapsed

/-- Slots other than `n` are as they were, but that the LAPSED fault of those playing or checking entry `e` is due where
the entry has gone (R123, R139). -/
def State.playersMarked (s t : State) (n : Fin 8) (e : Fin 64) : Prop :=
  ∀ m, m ≠ n → t.slot m =
    { s.slot m with
      lapseDue := (s.slot m).lapseDue || ((t.entry e).gone && !(s.entry e).gone && (s.entry e).players.contains m) }

/-- The flags that stay as they were but for the given ones. -/
def State.flagsBut (s t : State) (fs : List Flag) : Prop := ∀ f, f ∉ fs → (f ∈ t.flags ↔ f ∈ s.flags)

/-- A slot that has returned to IDLE: its latch and engine part stay, and all working state is gone (R5). -/
def Slot.toIdle (x : Slot) : Slot := Slot.bare x.latch { x.eng with state := .idle, bound := none }

/-- A slot that has entered FAULTED: its work is dropped, and the rest of its working state is held (R70, R88, R107, R123,
R163). -/
def Slot.toFaulted (x : Slot) (f : SlotFault) : Slot :=
  { x.dropWork with eng := { x.eng with state := .faulted, fault := f } }

/-- A PLAY slot is among the players of an entry. -/
def State.playingOn (s : State) (x : Entry) : Bool := x.players.any fun n => (s.slot n).mode == .play

/-- An entry after a clock advance to `clock` (R136). -/
def Entry.judgedAt (x : Entry) (clock : Nat) : Entry :=
  if x.judged && (match x.lapseTime with | none => false | some t => decide (t ≤ clock)) then x.spent .lapsed else x

/-- A clock advance to `clock` has been taken with its judgement: entries whose lapse time it reaches are LAPSED, the
LAPSED faults of the slots bound to them are due, and LAPSE is raised where there is one (R136, R138, R139). -/
def State.advancedTo (s t : State) (clock : Nat) : Prop :=
  t.clock = clock ∧ (∀ e, t.entry e = (s.entry e).judgedAt clock) ∧
    (∀ m, t.slot m =
      { s.slot m with lapseDue := (s.slot m).lapseDue ||
          allEntries.any fun e => (s.entry e).boundSlots.contains m && t.entry e != s.entry e }) ∧
    s.flagsBut t [partFlag .lapse] ∧
    (partFlag .lapse ∈ t.flags ↔ partFlag .lapse ∈ s.flags ∨ ∃ e, t.entry e ≠ s.entry e)

/-- The number of requesters the arbiter passes before it comes to `r`, the last granted being `last` (R45). -/
def turnsAfter (last r : Requester) : Nat := (r.number + 8 - last.number) % 9

/-- The frame in hand of slot `x` has been finished with an outcome: outcome entry, chunk take mark, position, counters
(R116, R158). The mark goes no further than R63 lets it, and the take count of the outcome is that of the frames taken (log
42). -/
def Slot.finished (x : Slot) (f : Frame) (o : FrameOutcome) (packets remaining : Nat) : Slot :=
  let y := x.advanceB 1
  { y with
    chunkPos := (x.chunkPos + 1) % x.geo.frames
    frame := none
    eng := { y.eng with
      outcomes := x.eng.outcomes.set f.pos
        { seq := match f.tag with | none => 0 | some t => t.seq
          outcome := o, pos := f.pos, packets := packets, remaining := remaining
          takeCount := (x.placeB + 1).toNat % 65536 }
      chunksDone := if o = .delivered ∨ o = .verified ∨ o = .movedOut then x.eng.chunksDone + 1 else x.eng.chunksDone
      lastRemaining :=
        if o = .delivered ∨ o = .verified ∨ o = .movedOut ∨ o = .skippedClass then remaining else x.eng.lastRemaining } }

/-- A slot back in WAITING. -/
def Slot.waits (x : Slot) : Slot := { x with eng := { x.eng with state := .waiting } }

/-- The notice of a finished frame is due (R118, R158): the room in the chunk window is at least the notice level. -/
def Slot.noticeDue (x : Slot) : Bool := decide (x.notice ≤ x.geo.frames - x.framesAvailable)

/-! ## What a slot comes to -/

/-- The open chunk of slot `x` closed: the tag's lost count is the lost total, the loss of an overrun that flushed it is
recorded after it, and the hold timer stops (R77, R81, R31, log 9). -/
def Slot.chunkClosed (x : Slot) (c : OpenChunk) : Slot :=
  { x with
    chunk := some { c with closeAsked := true, closed := true, lost := x.lostTotal }
    lostTotal := x.lossDue
    lossDue := 0
    holdTimer := none
    eng := { x.eng with
      packetsLost := if x.lossDue = 0 then x.eng.packetsLost else satAdd x.eng.packetsLost x.lossDue } }

/-- Watch entry `i` is watched for absence, the chunk has not seen it, and it has been missed fewer than 3 times (R93,
R102). -/
def Slot.misses (x : Slot) (c : OpenChunk) (i : Nat) : Prop :=
  (∃ w, x.watch[i]? = some w ∧ (w.action = .seal ∨ w.action = .index ∨ w.action = .clear)) ∧ i ∉ c.seen ∧
    x.absence.getD i 0 < 3

/-- Watch entry `i` becomes absent at the close of the chunk (R102). -/
def Slot.becomesAbsent (x : Slot) (c : OpenChunk) (i : Nat) : Prop := x.misses c i ∧ x.absence.getD i 0 = 2

/-- The close of chunk `c` of slot `n` takes effect, the slot standing as `y` before it and as `z` after it: watched entries
that the chunk has not seen are counted, and those that reach 3 become absent with ABSENT raised (R77, R102). -/
def State.closesChunk (s t : State) (n : Fin 8) (y : Slot) (c : OpenChunk) (z : Slot) : Prop :=
  let closed := y.chunkClosed c
  z = { closed with absence := z.absence, eng := { closed.eng with absent := z.eng.absent } } ∧ z.absence.length = 4 ∧
    (∀ i < 4, (y.misses c i → z.absence.getD i 0 = y.absence.getD i 0 + 1) ∧
      (¬ y.misses c i → z.absence.getD i 0 = y.absence.getD i 0)) ∧
    (y.eng.absent.length = 4 → z.eng.absent.length = 4 ∧ ∀ i < 4,
      (z.eng.absent.getD i false = true ↔ y.eng.absent.getD i false = true ∨ y.becomesAbsent c i)) ∧
    (s.part ≠ .stopped → (slotFlag .absent n ∈ t.flags ↔
      slotFlag .absent n ∈ s.flags ∨ ∃ i < 4, y.becomesAbsent c i)) ∧
    (s.part = .stopped → (slotFlag .absent n ∈ t.heldCauses ↔
      slotFlag .absent n ∈ s.heldCauses ∨ ∃ i < 4, y.becomesAbsent c i))

/-- A close has been asked of the open chunk of slot `n`, the slot standing as `y` before it and as `z` after it: with no
sealing batch formed it takes effect at once, with one formed it waits for that batch, and with no chunk or a close already
asked nothing changes (R77). -/
def State.asksClose (s t : State) (n : Fin 8) (y z : Slot) : Prop :=
  (y.chunk = none → z = y) ∧
    (∀ c, y.chunk = some c → c.closeAsked = true → z = y) ∧
    (∀ c, y.chunk = some c → c.closeAsked = false → c.batch ≠ [] →
      z = { y with chunk := some { c with closeAsked := true }, holdTimer := none }) ∧
    (∀ c, y.chunk = some c → c.closeAsked = false → c.batch = [] → s.closesChunk t n y c z) ∧
    ((∀ c, y.chunk = some c → c.closeAsked = true ∨ c.batch ≠ []) →
      (slotFlag .absent n ∈ t.flags ↔ slotFlag .absent n ∈ s.flags) ∧
      (slotFlag .absent n ∈ t.heldCauses ↔ slotFlag .absent n ∈ s.heldCauses))

/-- The first packets of the carry list of slot `x` have been placed in a sealing batch of its open chunk, which was `c` and
is `d`, and the slot is `y`: access points, marks and entries seen are recorded by position, absence is reset, and the hold
timer restarts outside CLOSING (R74, R78, R83, R101, R103). -/
def Slot.formsBatch (x : Slot) (c : OpenChunk) (y : Slot) (d : OpenChunk) : Prop :=
  let batch := x.carry.take (x.geo.chunkLength - c.stored)
  let found := (batch.zipIdx c.stored).filterMap fun k => if k.1.access then some k.2 else none
  y =
      { x with
        chunk := some d, carry := x.carry.drop (x.geo.chunkLength - c.stored), absence := y.absence
        holdTimer := if x.eng.state = .closing then none else some x.holdTime
        eng := { x.eng with absent := y.eng.absent } } ∧
    d = { c with batch := batch, points := (c.points ++ found).take 8, overflow := d.overflow,
                 scrambledMark := d.scrambledMark, seen := d.seen } ∧
    (d.overflow = true ↔ c.overflow = true ∨ 8 < (c.points ++ found).length) ∧
    (d.scrambledMark = true ↔ c.scrambledMark = true ∨ ∃ k ∈ batch, (byteAt k.bytes 3).toNat / 64 ≠ 0) ∧
    (∀ i, i ∈ d.seen ↔ i ∈ c.seen ∨ ∃ k ∈ batch, k.watch = some i) ∧
    y.absence.length = x.absence.length ∧ y.eng.absent.length = x.eng.absent.length ∧
    ∀ i, ((∃ k ∈ batch, k.watch = some i) → y.absence.getD i 0 = 0 ∧ y.eng.absent.getD i false = false) ∧
      ((∀ k ∈ batch, k.watch ≠ some i) →
        y.absence.getD i 0 = x.absence.getD i 0 ∧ y.eng.absent.getD i false = x.eng.absent.getD i false)

/-- DONE stands as the result of a slot whose latch still holds the number of the order being served (R61). -/
def Slot.served (x : Slot) (number : Option Mark) : Slot :=
  if number = some x.latch then { x with eng := { x.eng with result := .done } } else x

/-! ## What an entry comes to -/

/-- An entry whose lapse time is derived and judged at a clock value (R135, R136). -/
def Entry.derivedAt (x : Entry) (clock : Nat) : Entry :=
  match x.deriveLapse with
  | none => { x with lapseTime := none }
  | some t => if t ≤ clock then x.spent .lapsed else { x with lapseTime := some t }

/-- An entry judged for its last view, `playing` saying that a PLAY slot is bound (R122, R137). -/
def Entry.viewedOut (x : Entry) (playing : Bool) : Entry :=
  if x.lastViewTaken = true ∧ x.state = .held ∧ playing = false then x.spent .lapsed else x

/-- An entry at the end of its recording (R3, R4). -/
def Entry.recordingEnded (x : Entry) (cutOff : Bool) (clock : Nat) (playing : Bool) : Entry :=
  if x.state ≠ .live then x
  else if x.chunkCount = 0 then x.returned
  else ((x.endHeld cutOff).derivedAt clock).viewedOut playing

/-- An entry at the end of a move that did not complete (R161). -/
def Entry.moveEnded (x : Entry) (clock : Nat) (playing : Bool) : Entry :=
  if x.state ≠ .moving then x else ({ x with state := .held }.derivedAt clock).viewedOut playing

/-- The keys of an entry are destroyed (R3). -/
def Entry.keyless (x : Entry) : Prop := x.nextKey = none ∧ ∀ g ∈ x.segments, g.key = none

/-! ## Ends of the work of a slot -/

/-- The entry of a slot `x` that leaves it, `y` being the entry without the slot: a recording ends, a playback has its last
view judged, a move returns to HELD (R4, R122, R161). -/
def State.leftBy (s : State) (x : Slot) (y : Entry) : Entry :=
  if x.mode = .record then y.recordingEnded false s.clock (s.playingOn y)
  else if x.mode = .play then y.viewedOut (s.playingOn y)
  else if x.mode = .move then y.moveEnded s.clock (s.playingOn y)
  else y

/-- Slot `n` of a part that is not STOPPED stands on entry `e` as the rules have it: a LIVE entry is under its RECORD slot,
a MOVING one under its MOVE slot, and a HELD one under none (R5). -/
def State.bindsTo (s : State) (n : Fin 8) (e : Fin 64) : Prop :=
  let x := s.slot n
  let y := s.entry e
  s.part ≠ .stopped ∧ x.boundEntry = some e ∧ (x.mode = .record → y.state = .live → y.binding = some n) ∧
    (x.mode = .move → y.state = .moving → y.binding = some n) ∧ (y.state = .held → y.binding = none)

/-- A deliver batch of slot `n` is in flight. -/
def State.delivers (s : State) (n : Fin 8) : Prop :=
  ∃ base pos count key gen seq expect winBase winSize winPos,
    s.flight = some ⟨.slot n, .deliver base pos count key gen seq expect winBase winSize winPos, false⟩

/-- The batch in flight, left to end with its values dropped where it is one of slot `n` (R5). -/
def State.orphaned (s : State) (n : Fin 8) : Option Flight :=
  s.flight.map fun f => if f.requester = .slot n then { f with orphan := true } else f

/-- The take `tk` of slot `x` needs no second access, or the windows allow it (R54, R73). -/
def State.takeReads (s : State) (x : Slot) (tk : Take) : Prop :=
  let rest := tk.count - min tk.count (x.geo.streamSize - tk.pos)
  rest = 0 ∨ inWindow s.windows false x.geo.streamBase (188 * rest)

/-- The packets of the take `tk` of slot `x`, classified in stream order as memory stands (R73, R95). -/
def State.sortedTake (s : State) (x : Slot) (tk : Take) : Sorting :=
  let rest := tk.count - min tk.count (x.geo.streamSize - tk.pos)
  classifyAll x (packetsOf (tk.got ++ s.mem.read x.geo.streamBase (188 * rest)) tk.count)

/-- Slot `x` after its take `tk` has completed as memory stands: T, as far as R63 lets it (log 42), and the stream position
have advanced, the packets are classified and counted, and those kept are carried (R73, R95, R96, R98). -/
def State.afterTake (s : State) (x : Slot) (tk : Take) : Slot :=
  let z := s.sortedTake x tk
  let y := x.advanceA tk.count
  { y with
    take := none, streamPos := (tk.pos + tk.count) % x.geo.streamSize
    history := z.history, carry := x.carry ++ z.kept
    eng := { y.eng with
      inStep := z.inStep
      badPackets := x.eng.badPackets + BitVec.ofNat 32 z.bad
      scrambled := x.eng.scrambled + BitVec.ofNat 32 z.scrambled } }

/-- A take in progress of slot `x`, if any, completes: `done` holds of the slot as it then is, and `refused` where the
windows refuse the take's second access, which drops the take with T as it was (R73, R104). -/
def State.takeDone (s : State) (x : Slot) (done refused : Slot → Prop) : Prop :=
  (x.take = none → done x) ∧
    ∀ tk, x.take = some tk →
      (s.takeReads x tk → done (s.afterTake x tk)) ∧ (¬ s.takeReads x tk → refused { x with take := none })

/-- A deliver batch in flight of slot `n`, standing as `x`, if any, completes before the slot is released, and `done` holds
of the slot, of memory and of the batch then in flight. Its packets are written and counted, with Pp as far as R63 lets it
(log 42); where the check differs or the windows refuse an access, none is counted and no fault comes of it (R40, R114,
R121, R123, log 41; log 10 for the bytes that stay). Another batch of the slot stays in flight with its values to be dropped. -/
def State.deliverDone (s : State) (n : Fin 8) (x : Slot) (done : Slot → Memory → Option Flight → Prop) : Prop :=
  (¬ s.delivers n → done x s.mem (s.orphaned n)) ∧
  ∀ base pos count key gen seq expect winBase winSize winPos,
    s.flight = some ⟨.slot n, .deliver base pos count key gen seq expect winBase winSize winPos, false⟩ →
    let a := base + 64 + 188 * pos
    let bytes := s.mem.read a (188 * count)
    let packets := overPackets (openPacket key gen seq) pos (packetsOf bytes count)
    let first := min count (winSize - winPos)
    let head := winBase + 188 * winPos
    let opens := inWindow s.windows false a (188 * count) ∧ chainedCheck (frameCheckKey key) bytes = expect ∧
      inWindow s.windows true head (188 * first)
    let inTail := first = count ∨ inWindow s.windows true winBase (188 * (count - first))
    let headWritten := s.mem.write head (packets.take (188 * first))
    (¬ opens → done x s.mem none) ∧ (opens → ¬ inTail → done x headWritten none) ∧
    (opens → inTail → done
      { x.advanceA count with
        streamPos := (x.streamPos + count) % x.geo.streamSize
        frame := x.frame.map fun f => { f with worked := f.worked + 1, packets := f.packets + count } }
      (headWritten.write winBase (packets.drop (188 * first))) none)

/-- Slot `n`, standing as `x`, has faulted with a code: it is FAULTED and off the waiting list, its entry ends as the mode
has it, FAULT is raised, and nothing else changes but the cipher's batch, the sweep's place, the entry's lapse and memory in
record `n` (R88, R123, R163). -/
def State.faultsTo (s t : State) (n : Fin 8) (e : Fin 64) (x : Slot) (code : SlotFault) : Prop :=
  t.slot n = x.toFaulted code ∧ t.entry e = s.leftBy x ((s.entry e).unbind n) ∧ s.sameEntriesBut t e ∧
    s.playersMarked t n e ∧ t.waiting = s.waiting.filter (· ≠ n) ∧ slotFlag .fault n ∈ t.flags ∧
    s.flagsBut t [slotFlag .fault n, partFlag .lapse] ∧ t.kept = { s.kept with sweep := t.sweep } ∧
    s.sameKeysAndClock t ∧ t.held = s.held ∧ t.heldCauses = s.heldCauses

/-- Slot `n`, standing as `x`, has ended by its CLOSE: it is IDLE with DONE where the latch holds the CLOSE's number, its
entry ends as the mode has it, and PROGRESS is raised (R83, R120, R160). -/
def State.endsByClose (s t : State) (n : Fin 8) (e : Fin 64) (x : Slot) : Prop :=
  t.slot n = x.toIdle.served x.closeServed ∧ t.entry e = s.leftBy x ((s.entry e).unbind n) ∧ s.sameEntriesBut t e ∧
    s.playersMarked t n e ∧ slotFlag .progress n ∈ t.flags ∧
    (x.closeServed = some x.latch → slotFlag .result n ∈ t.flags) ∧
    s.flagsBut t [slotFlag .progress n, slotFlag .result n, partFlag .lapse]

/-- The packets that slot `n`, standing as `y` with no take in progress, carries go on as far as they can without a grant:
they form a sealing batch of an open chunk that takes them; and a CLOSING slot that carries none has the close of its chunk
asked once no batch is formed, or with no chunk ends its recording (R74, R83). -/
def State.carriesOn (s t : State) (n : Fin 8) (e : Fin 64) (y : Slot) : Prop :=
  let stays := t.slot n = y ∧ s.sameSlotsBut t n ∧ t.entries = s.entries ∧ t.flags = s.flags ∧ t.flight = s.flight
  let closing := y.eng.state = .closing ∧ y.carry = []
  (y.chunk = none → (¬ closing → stays) ∧ (closing → s.endsByClose t n e y ∧ t.flight = s.orphaned n)) ∧
    ∀ c, y.chunk = some c →
      (y.carry ≠ [] → c.closeAsked = false → c.batch = [] → c.points.length ≤ 8 →
        (∃ d, y.formsBatch c (t.slot n) d) ∧ s.sameSlotsBut t n ∧ t.entries = s.entries ∧ t.flags = s.flags ∧
          t.flight = s.flight) ∧
      (y.carry ≠ [] → c.closeAsked = true ∨ c.batch ≠ [] → stays) ∧
      (y.carry = [] → ¬ closing ∨ c.batch ≠ [] → stays) ∧
      (closing → c.batch = [] → s.asksClose t n y (t.slot n) ∧ s.sameSlotsBut t n ∧ t.entries = s.entries ∧
        s.flagsBut t [slotFlag .absent n] ∧ t.flight = s.flight)

/-- A frame of slot `n` has been finished, which leaves the slot as `x`: it waits for its next frame with the notice judged,
or ends where a close is asked of it (R116, R118, R120, R158, R160). -/
def State.frameEnds (s t : State) (n : Fin 8) (e : Fin 64) (x : Slot) : Prop :=
  (x.closeAsked = false → t.slot n = x.waits ∧ s.sameSlotsBut t n ∧ t.entries = s.entries ∧
      (slotFlag .progress n ∈ t.flags ↔ slotFlag .progress n ∈ s.flags ∨ x.noticeDue = true) ∧
      s.flagsBut t [slotFlag .progress n]) ∧
    (x.closeAsked = true → s.endsByClose t n e x)

/-- The move of slot `n`, standing as `x`, has completed: the entry is MOVED where every segment is ONCE and HELD
otherwise, the slot is IDLE with DONE for the OPEN or CLOSE whose number the latch holds, and PROGRESS is raised (R159). -/
def State.moveCompletes (s t : State) (n : Fin 8) (e : Fin 64) (x : Slot) : Prop :=
  let y := s.entry e
  t.slot n = (x.toIdle.served x.openServed).served x.closeServed ∧
    ((∀ g ∈ y.segments, g.cls = .once) → t.entry e = (y.spent .moved).unbind n) ∧
    (¬ (∀ g ∈ y.segments, g.cls = .once) → t.entry e = (y.moveEnded s.clock (s.playingOn y)).unbind n) ∧
    s.sameEntriesBut t e ∧ s.playersMarked t n e ∧ slotFlag .progress n ∈ t.flags ∧
    (x.openServed = some x.latch ∨ x.closeServed = some x.latch → slotFlag .result n ∈ t.flags) ∧
    s.flagsBut t [slotFlag .progress n, slotFlag .result n, partFlag .lapse]

/-- A frame of slot `n` has been finished, with the entry as it stands in `s`, which leaves the slot as `x`: a move whose mark
has reached the chunk count completes, and otherwise the slot goes on (R116, R158, R159). -/
def State.finishes (s t : State) (n : Fin 8) (e : Fin 64) (x : Slot) : Prop :=
  let y := s.entry e
  let complete := x.mode = .move ∧ y.state = .moving ∧ y.moveMark = y.chunkCount
  (complete → s.moveCompletes t n e x) ∧ (¬ complete → s.frameEnds t n e x)

/-- Slot `n` stands as `x`, and the other slots, the entries and the flags are as they were. -/
def State.slotStands (s t : State) (n : Fin 8) (x : Slot) : Prop :=
  t.slot n = x ∧ s.sameSlotsBut t n ∧ t.entries = s.entries ∧ t.flags = s.flags

/-- What the completion of a batch of slot `n` leaves alone, whatever becomes of slots, entries, flags, clock and memory. -/
def State.batchFrame (s t : State) (n : Fin 8) : Prop :=
  t.flight = none ∧ t.kept = s.kept ∧ t.pool = s.pool ∧ t.drawing = s.drawing ∧ t.held = s.held ∧
    t.heldCauses = s.heldCauses ∧ (t.waiting = s.waiting ∨ t.waiting = s.waiting.filter (· ≠ n))

/-! ## The verify pass -/

/-- The range of the frame that comes next in its verify pass is read (R39). -/
def Frame.withRange (f : Frame) (bytes : List Byte) : Frame :=
  { f with
    verified := f.verified + 1
    checks := f.checks ++ [chainedCheck (frameCheckKey f.key) bytes]
    chain := f.chain.feed (frameCheckKey f.key) bytes }

/-- At its next verify batch the frame in hand `f` of slot `n` is `g` with tag `t`: the first batch reads the tag, which
passes every check and gives the key of its segment, and a later one has them (R38). -/
def State.tagKnown (s : State) (n : Fin 8) (e : Fin 64) (f g : Frame) (t : TagRead) : Prop :=
  let x := s.slot n
  let a := x.geo.chunkBase + f.pos * frameSize x.geo.chunkLength
  let bytes := s.mem.read a 64
  f.tag = some t ∧ g = f ∨
    f.tag = none ∧ inWindow s.windows false a 64 ∧ noneFailing ((s.entry e).tagChecks e x.mode bytes) ∧
      t = tagOf bytes ∧ ∃ segment key, (s.entry e).segments[t.seg]? = some segment ∧ segment.key = some key ∧
        g = { f with
              tag := some t, key := key
              raiseDue := decide (x.mode ≠ .move ∧ (s.entry e).chunkCount ≤ t.seq) }

/-- The address of the range that the next verify batch of frame `f` reads (R28, R39). -/
def Slot.rangeAt (x : Slot) (f : Frame) : Nat :=
  x.geo.chunkBase + f.pos * frameSize x.geo.chunkLength + 64 + 188 * (16 * f.verified)

/-- The last verify batch of the frame in hand `f` of slot `n` can read its range, and the check value agrees with that of
tag `t`; the frame is then `g` (R39). -/
def State.verifies (s : State) (n : Fin 8) (e : Fin 64) (f g : Frame) (t : TagRead) : Prop :=
  ∃ h, s.tagKnown n e f h t ∧
    let len := 188 * min 16 (t.count - 16 * h.verified)
    inWindow s.windows false ((s.slot n).rangeAt h) len ∧ g = h.withRange (s.mem.read ((s.slot n).rangeAt h) len) ∧
      (t.count + 15) / 16 ≤ g.verified ∧
      (g.chain.feed (frameCheckKey g.key) t.bytes).finish (frameCheckKey g.key) = t.check

/-- An entry after the recovery raise by a chunk with the tag: on a HELD interrupted entry the chunk count and the last
segment grow to hold the chunk, and the lapse time is derived anew (R23, R113). -/
def Entry.recovered (x : Entry) (t : TagRead) (clock : Nat) : Entry :=
  if x.state = .held ∧ x.interrupted = true ∧ x.chunkCount ≤ t.seq then
    Entry.derivedAt
      { x with
        chunkCount := t.seq + 1
        segments := x.segments.dropLast ++ (x.segments.getLast?.map fun g =>
          { g with
            count := g.count + (t.seq + 1 - x.chunkCount)
            lastStamp := some (match g.lastStamp with | none => t.stamp | some l => max l t.stamp) }).toList } clock
  else x

/-- The state in which the permit of a verified frame `g` with tag `t` on entry `e` is answered: recovery raise and evidence
raise are made (R113, R128, R129). -/
def State.judging (s : State) (e : Fin 64) (g : Frame) (t : TagRead) : State :=
  let y := if g.raiseDue then (s.entry e).recovered t s.clock else s.entry e
  { s.setEntry e y with clock := max s.clock t.stamp }

/-- The judgement of the entries after a permit has been answered in a state `u`: made where its stamp raised the clock
(R129). -/
def State.afterEvidence (s u t : State) (stamp : Nat) : Prop :=
  (stamp ≤ s.clock → t = u) ∧ (s.clock < stamp → u.advancedTo t stamp)

/-- Slot `n` has the verified frame `g` of tag `t` judged: the verify batch in flight is its last, the check value agrees,
and the entry, which the permit finds in LIVE, HELD or MOVING, holds the tag's segment (R39, R128). -/
def State.judges (s : State) (w : Writes) (n : Fin 8) (e : Fin 64) (g : Frame) (t : TagRead) (segment : Segment) : Prop :=
  (s.slot n).mode ≠ .record ∧ s.flight = some ⟨.slot n, .verify, false⟩ ∧ writesInSpace w = true ∧ s.bindsTo n e ∧
    (∃ f, (s.slot n).frame = some f ∧ f.pos < 16 ∧ (s.recorded w).verifies n e f g t) ∧
    let y := (s.judging e g t).entry e
    (y.state = .live ∨ y.state = .held ∨ y.state = .moving) ∧ y.segments[t.seg]? = some segment

/-! ## Tags (R29 to R31, R37) -/

/-- Bytes 0 to 55 of the tag of open chunk `c` on entry `e` (R29, R30, R31, 3.10). -/
def isLocalTag (tag : List Byte) (c : OpenChunk) (e : Fin 64) (chunkLength : Nat) : Prop :=
  tag.length = 56 ∧ tag.take 4 = [0x4C, 0x32, 0x34, 0x38] ∧ field tag 4 1 = 1 ∧ field tag 5 1 = e.val ∧
    field tag 6 2 = c.generation ∧ field tag 8 4 = c.seq ∧ field tag 12 1 = c.seg ∧
    (List.range 8).map (byteAt tag 13).getLsbD =
      [decide (c.stored < chunkLength), c.overflow, c.scrambledMark, decide (0 < c.lost), false, false, false, false] ∧
    field tag 14 2 = c.stored ∧ field tag 16 4 = c.stamp ∧ field tag 20 4 = c.lost ∧ field tag 24 1 = c.points.length ∧
    byteAt tag 25 = 0 ∧ (∀ i < 8, field tag (26 + 2 * i) 2 = c.points.getD i 0) ∧ (tag.drop 42).take 14 = zeros 14

/-- The fields of an open chunk lie in the ranges that the tag has for them (R29). -/
def OpenChunk.fits (c : OpenChunk) : Prop :=
  c.generation < 65536 ∧ c.seq ≤ top32 ∧ c.seg < 16 ∧ c.stored ≤ 2048 ∧ c.stamp ≤ top32 ∧ c.lost ≤ top32 ∧
    c.points.length ≤ 8 ∧ ∀ p ∈ c.points, p < 2048

/-- Bytes 0 to 55 of the export tag of a local tag, its chunk's segment being of class `cls` (R37, 3.10). -/
def isExportTag (tag : List Byte) (t : TagRead) (cls : RuleClass) : Prop :=
  tag.length = 56 ∧ tag.take 4 = [0x4C, 0x32, 0x34, 0x38] ∧ field tag 4 1 = 2 ∧ field tag 5 1 = 255 ∧
    field tag 6 2 = 0 ∧ field tag 8 4 = t.seq ∧ field tag 12 1 = cls.code ∧
    (tag.drop 13).take 12 = (t.bytes.drop 13).take 12 ∧ byteAt tag 25 = 0 ∧
    (tag.drop 26).take 16 = (t.bytes.drop 26).take 16 ∧ (tag.drop 42).take 14 = zeros 14

/-! ## What the table image can hold -/

/-- A class and hold as an entry record can carry them: a hold of two bytes, present for NEVER alone. -/
def holdFits (cls : RuleClass) (hold : Option Nat) : Prop :=
  (cls = .never → ∃ h, hold = some h ∧ h < 65536) ∧ (cls ≠ .never → hold = none)

/-- A segment that its part of an entry record can carry: stamps are present exactly while it holds a chunk (R14). -/
def Segment.fits (g : Segment) : Prop :=
  g.first ≤ top32 ∧ g.count ≤ top32 ∧ holdFits g.cls g.hold ∧
    (g.count = 0 → g.firstStamp = none ∧ g.lastStamp = none) ∧
    (g.count ≠ 0 → ∃ a b, g.firstStamp = some a ∧ g.lastStamp = some b ∧ a ≤ top32 ∧ b ≤ top32)

/-- An entry whose fields an entry record can carry (3.10). -/
def Entry.fits (x : Entry) : Prop :=
  x.generation < 65536 ∧ x.chunkLength < 65536 ∧ (x.state = .free ∨ x.state = .retired → x.chunkLength = 0) ∧
    x.chunkCount ≤ top32 ∧ x.rotation < 65536 ∧ (∀ t, x.expiry = some t → t ≤ top32) ∧
    (∀ v, x.views = some v → v ≤ 254) ∧ x.moveMark ≤ top32 ∧ (∀ r, x.pendingRule = some r → holdFits r.cls r.hold) ∧
    x.segments.length ≤ 16 ∧ ∀ g ∈ x.segments, g.fits

/-! ## Invariants -/

/-- The key pool holds at most 4 keys, and a draw is in flight exactly while it holds fewer (R10). -/
def State.poolOk (s : State) : Prop := s.pool.length ≤ 4 ∧ (s.drawing = true ↔ s.pool.length < 4)

/-- The pending flags stand in the order in which ATTENTION returns them, each once (R172, R174). -/
def flagsOk (flags : List Flag) : Prop := flags.Pairwise fun a b => a.value < b.value

/-- The vote window holds at most 3 offsets, each from 3 to 4,294,967,295, no two within 2 of each other (R146). -/
def votesOk (votes : List Nat) : Prop :=
  votes.length ≤ 3 ∧ (∀ d ∈ votes, 3 ≤ d ∧ d ≤ top32) ∧ votes.Pairwise fun a b => a + 2 < b ∨ b + 2 < a

/-- The clock is in its range, and so is the stamp of every tag in hand. -/
def State.clockOk (s : State) : Prop :=
  s.clock ≤ top32 ∧ ∀ n f t, (s.slot n).frame = some f → f.tag = some t → t.stamp ≤ top32

/-- Every lapse time is as derived, and the clock has reached none (R134, R136). -/
def State.lapseOk (s : State) : Prop :=
  ∀ e, (s.entry e).lapseTime = (s.entry e).deriveLapse ∧ ∀ t, (s.entry e).lapseTime = some t → s.clock < t

/-- Consecutive segments from chunk `first` onward, the next of them starting where one ends (R14). -/
def segmentsFrom : Nat → List Segment → Nat → Prop
  | first, [], last => first = last
  | first, g :: gs, last => g.first = first ∧ segmentsFrom (first + g.count) gs last

/-- The segment list of an entry in LIVE, HELD or MOVING: 1 to 16 segments that divide its chunks, of which only the last
segment of a LIVE entry may hold none (R14, R22). -/
def Entry.segmentsOk (x : Entry) : Prop :=
  x.judged = true →
    1 ≤ x.segments.length ∧ x.segments.length ≤ 16 ∧ segmentsFrom 0 x.segments x.chunkCount ∧
      (∀ g ∈ x.segments.dropLast, 0 < g.count) ∧ (x.state ≠ .live → ∀ g ∈ x.segments, 0 < g.count)

def State.segmentsOk (s : State) : Prop := ∀ e, (s.entry e).segmentsOk

/-- Every outcome list has its 16 entries, every position of a frame in it is one of them, and a slot that is not IDLE or
FAULTED, or has a frame in hand or a chunk open, stands at a position of a chunk window of 1 to 16 frames. -/
def State.positionsOk (s : State) : Prop :=
  (∀ n, (s.slot n).eng.outcomes.length = 16) ∧
    (∀ n, (((s.slot n).eng.state = .idle ∨ (s.slot n).eng.state = .faulted) ∧ (s.slot n).frame = none ∧
        (s.slot n).chunk = none) ∨
      (1 ≤ (s.slot n).geo.frames ∧ (s.slot n).geo.frames ≤ 16 ∧ (s.slot n).chunkPos < (s.slot n).geo.frames)) ∧
    (∀ n f, (s.slot n).frame = some f → f.pos < 16) ∧
    ∀ n p, BoardField.slot n (.outcome p) ∈ s.held → p < 16

/-- An entry that is FREE, RETIRED, LAPSED or MOVED holds no key (R1, R3). -/
def State.keysOk (s : State) : Prop := ∀ e, (s.entry e).judged = false → (s.entry e).keyless

/-- While the part is NOT_READY its table is as the full reset left it and every slot is IDLE without working state (R26,
R165, R166). -/
def State.unreadyOk (s : State) : Prop :=
  s.ready = false →
    (∀ e, s.entry e = Entry.free 0) ∧ s.waiting = [] ∧ (∀ f, s.flight = some f → f.requester = .image) ∧
      ∀ n, s.slot n = Slot.bare (s.slot n).latch (s.slot n).eng ∧ (s.slot n).eng.state = .idle ∧
        (s.slot n).eng.bound = none

/-- A byte the part may write: in the engine parts of the board, or in a held writable window (R48, R54). -/
def State.mayWrite (s : State) (a : Nat) : Prop :=
  (∃ n, s.inRecord n a) ∨ s.inHeader a ∨ ∃ x ∈ s.windows, x.writable = true ∧ x.lo ≤ a ∧ a ≤ x.hi

end Sys2Proof.Machine
end

