-- ==== Sys2Proof/WellFormed.lean ====
section
/-! DEFINITION. WellFormed.lean: which operands make a command that can happen. -/

namespace Sys2Proof

/-- The recorder writes a command carries, where it carries any. -/
def Instr.writes : Instr → Option Writes
  | .start _ w => some w
  | .slotStep w => some w
  | .endOfSweepWrites w => some w
  | .recordOpen w => some w
  | .playOpen w => some w
  | .checkOpen w => some w
  | .moveOpen w => some w
  | .recordClose w => some w
  | .recordAbort w => some w
  | .playCheckClose w => some w
  | .playCheckAbort w => some w
  | .moveClose w => some w
  | .moveAbort w => some w
  | .faultedSlotReturn w => some w
  | .rule w => some w
  | .rotate w => some w
  | .flush w => some w
  | .unknownOrder w => some w
  | .fresh w => some w
  | .save w => some w
  | .load w => some w
  | .time w => some w
  | .erase w => some w
  | .query w => some w
  | .unknownPartOrder w => some w
  | .takeStart _ w => some w
  | .takeComplete _ w => some w
  | .verifyBatch w => some w
  | .deliverBatch w => some w
  | .resealBatch w => some w
  | .loadHeaderBatch w => some w
  | .loadEntryBatch w => some w
  | .slotFaultLapsed _ w => some w
  | .fullReset _ _ => none
  | .engineReset _ _ _ => none
  | .stop _ => none
  | .stopDrainEnd => none
  | .loadDivisorAndAttnEnable _ => none
  | .sweepRequest _ => none
  | .attentionRead => none
  | .boardBaseLowWrite _ => none
  | .boardBaseHighWrite _ => none
  | .registerWriteIgnored _ _ => none
  | .sweepTimerExpiry => none
  | .queryWriteComplete => none
  | .keyDrawComplete _ => none
  | .keyHandover => none
  | .chunkOpen _ => none
  | .holdTimerExpiry _ => none
  | .cipherGrant => none
  | .sealingBatch => none
  | .closingBatch => none
  | .frameTake _ => none
  | .outputReservation _ => none
  | .finalResealBatch => none
  | .saveEntryBatch => none
  | .saveHeaderBatch => none
  | .clockTick => none

/-- The value written to CONTROL and the request the command names, for the four commands that are such a write. -/
def Instr.controlWrite : Instr → Option (BitVec 32 × Machine.ControlRequest)
  | .engineReset v _ _ => some (v, .engineReset)
  | .start v _ => some (v, .start)
  | .stop v => some (v, .stop)
  | .loadDivisorAndAttnEnable v => some (v, .nothing)
  | .fullReset _ _ => none
  | .stopDrainEnd => none
  | .sweepRequest _ => none
  | .attentionRead => none
  | .boardBaseLowWrite _ => none
  | .boardBaseHighWrite _ => none
  | .registerWriteIgnored _ _ => none
  | .sweepTimerExpiry => none
  | .slotStep _ => none
  | .endOfSweepWrites _ => none
  | .recordOpen _ => none
  | .playOpen _ => none
  | .checkOpen _ => none
  | .moveOpen _ => none
  | .recordClose _ => none
  | .recordAbort _ => none
  | .playCheckClose _ => none
  | .playCheckAbort _ => none
  | .moveClose _ => none
  | .moveAbort _ => none
  | .faultedSlotReturn _ => none
  | .rule _ => none
  | .rotate _ => none
  | .flush _ => none
  | .unknownOrder _ => none
  | .fresh _ => none
  | .save _ => none
  | .load _ => none
  | .time _ => none
  | .erase _ => none
  | .query _ => none
  | .queryWriteComplete => none
  | .unknownPartOrder _ => none
  | .keyDrawComplete _ => none
  | .keyHandover => none
  | .takeStart _ _ => none
  | .takeComplete _ _ => none
  | .chunkOpen _ => none
  | .holdTimerExpiry _ => none
  | .cipherGrant => none
  | .sealingBatch => none
  | .closingBatch => none
  | .frameTake _ => none
  | .verifyBatch _ => none
  | .deliverBatch _ => none
  | .outputReservation _ => none
  | .resealBatch _ => none
  | .finalResealBatch => none
  | .saveEntryBatch => none
  | .saveHeaderBatch => none
  | .loadHeaderBatch _ => none
  | .loadEntryBatch _ => none
  | .clockTick => none
  | .slotFaultLapsed _ _ => none

/-- A command is well formed: its recorder writes lie below 2^64, and a value it writes to CONTROL makes the request it
names (R50). -/
def Instr.wellFormed (i : Instr) : Bool :=
  (match i.writes with | none => true | some w => Machine.writesInSpace w) &&
    match i.controlWrite with | none => true | some (v, r) => decide (Machine.controlRequest v = r)

end Sys2Proof
end

