-- ==== Sys2Proof/Certificates/Slice0/Obligations.lean ====
section
/-! DEFINITION. Certificates/Slice0/Obligations.lean: what is claimed of the model, for the provers. A statement about an order
names the slot, the entry, the flags and the memory it leaves changed and says that the rest stays. -/

open Sys2Proof Sys2Proof.Machine

/-! ## The block and its resets -/

/-- Step takes the command at the front of the queue and runs it on the queue's rest; on an empty queue the block idles
(the model's choice, log 3). -/
def Obligations.StepRunsFrontCommand : Prop :=
  ∀ (c : Instr) (rest : List Instr) (s : State), step { s with pending := c :: rest } = exec c { s with pending := rest } ∧
    step { s with pending := [] } = .next { s with pending := [] }

/-- Every well-formed command is answered with a next state in every state. The commands that can contradict themselves
stop as the model chooses: a value written to CONTROL that does not make the named request is refused, and recorder writes
that do not lie below 2^64 fault (log 7, log 8). -/
def Obligations.WellFormedCommandsComplete : Prop :=
  (∀ (c : Instr) (s : State), c.wellFormed = true → ∃ t, exec c s = .next t) ∧
    (∀ (c : Instr) (s : State) (v : BitVec 32) (q : ControlRequest), c.controlWrite = some (v, q) → controlRequest v ≠ q →
      exec c s = .refused .requestMismatch) ∧
    ∀ (c : Instr) (s : State) (w : Writes), c.writes = some w → writesInSpace w = false → c.controlWrite = none →
      exec c s = .fault .noSuchAddress

/-- What a full reset leaves: the values the rules give for the registers, the board walker, the table, the key pool, the
cipher, the clock, the Image Unit and the Attention Unit; and the invariants stated below hold there. The working state of
an IDLE slot and the chunk length 0 of a FREE entry, to which the rules give no value, are the model's choice (log 29). -/
def Obligations.ResetValues : Prop :=
  State.reset.divisor = 1 ∧ State.reset.attnEnable = false ∧ State.reset.part = .stopped ∧ State.reset.refusal = .none ∧
    State.reset.boardBase = 0 ∧ State.reset.windows = [] ∧ State.reset.sweepCount = 0 ∧ State.reset.sweep = none ∧
    State.reset.sweepTimer = none ∧ State.reset.sweepPending = false ∧ State.reset.partLatch = 0 ∧
    (∀ n, State.reset.slot n = Slot.bare 0 Engine.idle) ∧ (∀ e, State.reset.entry e = Entry.free 0) ∧
    State.reset.pool = [] ∧ State.reset.drawing = true ∧ State.reset.waiting = [] ∧ State.reset.query = none ∧
    State.reset.image = none ∧ State.reset.flight = none ∧ State.reset.lastGranted.number = 8 ∧ State.reset.ready = false ∧
    State.reset.clock = 0 ∧ State.reset.tickPhase = 0 ∧ State.reset.votes = [] ∧ State.reset.flags = [] ∧
    State.reset.registerValue .status = 0 ∧ State.reset.registerValue .ident = 0x00012480 ∧
    State.reset.registerValue .control = 0 ∧ State.reset.registerValue .sweep = 0 ∧ State.reset.attentionLine = false ∧
    State.reset.mem.wf = true ∧ State.reset.clockOk ∧ State.reset.lapseOk ∧ State.reset.poolOk ∧
    flagsOk State.reset.flags ∧ votesOk State.reset.votes ∧ State.reset.segmentsOk ∧ State.reset.keysOk ∧
    State.reset.positionsOk ∧ State.reset.unreadyOk

/-- FULL_RESET puts every piece of state at its reset value but the generation cell, the fused keys and recorder memory,
in which only bytes of a batch or QUERY write cut off may have changed. That recorder memory and the waiting commands stay
is the model's inference (log 28), and so are the working state of an IDLE slot (log 29) and the value last read from
ATTENTION (log 6) after it. ENGINE_RESET stops the part, returns every slot to IDLE, drops what was in flight, ends LIVE and
MOVING entries, and has every lapse time derived and judged; the first sweep after the next START is to write every engine
part, and every directory entry, for each of which no value counts as shown; what the rules keep is kept. -/
def Obligations.ResetStates : Prop :=
  (∀ (made queryMade : Nat) (s : State), ∃ t, exec (.fullReset made queryMade) s = .next t ∧
    t = { State.reset with mem := t.mem, cell := s.cell, fused := s.fused, pending := s.pending } ∧
    ∀ a, (∀ f, s.flight = some f → outsideBlocks a (s.flightAccesses f.work)) →
      (∀ q, s.query = some q → outsideBlocks a [(q.addr, q.record)]) → t.mem.get a = s.mem.get a) ∧
  ∀ (v : BitVec 32) (made queryMade : Nat) (s : State), controlRequest v = .engineReset →
    ∃ t, exec (.engineReset v made queryMade) s = .next t ∧
      t.part = .stopped ∧ t.windows = [] ∧ t.refusal = .none ∧ t.sweepTimer = none ∧ t.sweepPending = false ∧
      t.sweep = none ∧ (∀ n, t.slot n = Slot.bare 0 Engine.idle) ∧ t.partLatch = 0 ∧
      t.header = { s.header with orderTaken := 0, result := .none, detail := 0, overtaken := 0 } ∧
      t.held = [] ∧ t.heldCauses = [] ∧ t.flight = none ∧ t.query = none ∧ t.image = none ∧ t.waiting = [] ∧
      t.divisor = v.extractLsb' 4 4 ∧ t.attnEnable = v.getLsbD 8 ∧ t.boardBase = s.boardBase ∧
      t.sweepCount = s.sweepCount ∧ t.writeAll = true ∧ t.writeVote = s.writeVote ∧ t.fused = s.fused ∧
      t.attentionRead = s.attentionRead ∧ t.pending = s.pending ∧
      (∀ e : Fin 64, t.directory[e].shown = none ∧ t.directory[e].revision = s.directory[e].revision) ∧
      s.sameKeysAndClock t ∧ t.tickPhase = s.tickPhase ∧ t.votes = s.votes ∧ t.ready = s.ready ∧ t.cell = s.cell ∧
      t.lastGranted = s.lastGranted ∧
      (∀ e, t.entry e =
        (({ (s.entry e).cutOff with binding := none, players := [] }).derivedAt s.clock).viewedOut false) ∧
      (∀ f, f ∈ t.flags → f = partFlag .lapse) ∧
      (partFlag .lapse ∈ t.flags ↔ ∃ e, (t.entry e).state = .lapsed ∧ (s.entry e).state ≠ .lapsed) ∧
      ∀ a, (∀ f, s.flight = some f → outsideBlocks a (s.flightAccesses f.work)) →
        (∀ q, s.query = some q → outsideBlocks a [(q.addr, q.record)]) → t.mem.get a = s.mem.get a

/-- Every engine-part field that a step of a part outside STOPPED changes, of a slot record or of the header, is written
with its new value at its place on the board in that step. The batch in flight is taken to write no byte of the board's
engine parts itself, whatever it reads. -/
def Obligations.ChangedFieldsAreWritten : Prop :=
  ∀ s t : State, step s = .next t → s.part ≠ .stopped → t.part ≠ .stopped → s.positionsOk →
    (∀ f m a, s.flight = some f → (∃ n, s.inRecord n a) ∨ s.inHeader a →
      outsideBlocks a (({ s with mem := m } : State).flightAccesses f.work)) →
    (∀ n f, (∀ p, f = .outcome p → p < 16) →
      let field := (t.slot n).eng.fieldAt f
      field ≠ (s.slot n).eng.fieldAt f → t.mem.read (t.slotAddr n + field.1) field.2.length = field.2) ∧
    ∀ f,
      let field := t.header.fieldAt f
      field ≠ s.header.fieldAt f → t.mem.read (t.boardBase + field.1) field.2.length = field.2

/-! ## Registers, starting and stopping -/

/-- START in STOPPED judges the window list as read: a bad list and a board outside it are refused with no window held, in
that order; otherwise the part is RUNNING, holds the windows, and a sweep has started, which first writes what was held:
each marked engine-part field with its value as it stands, and after a reset every engine part, the header's zero fields
with it (log 43). The first interval is that of the DIVISOR this write gives, a pending sweep request is cleared and a
refused START drops the windows, which the model infers (log 35; of the interval R55 says only that DIVISOR gives it). In
another state START only loads DIVISOR and ATTN ENABLE. -/
def Obligations.StartJudgesWindowList : Prop :=
  ∀ (v : BitVec 32) (w : Writes) (s : State), controlRequest v = .start → writesInSpace w = true →
    let r := (s.recorded w).loadControl v
    let bad := (∃ x ∈ r.windowList, x.hi < x.lo) ∨ ¬ r.windowList.Pairwise fun x y => x.hi < y.lo ∨ y.hi < x.lo
    let inside := ∃ x ∈ r.windowList, x.writable = true ∧ x.lo ≤ s.boardBase ∧ s.boardBase + 6143 ≤ x.hi
    (s.part ≠ .stopped → exec (.start v w) s = .next r) ∧
      (s.part = .stopped → bad → exec (.start v w) s = .next { r with windows := [], refusal := .windowsBad }) ∧
      (s.part = .stopped → ¬ bad → ¬ inside →
        exec (.start v w) s = .next { r with windows := [], refusal := .boardOutside }) ∧
      (s.part = .stopped → ¬ bad → inside → ∃ t, exec (.start v w) s = .next t ∧
        t.part = .running ∧ t.windows = r.windowList ∧ t.refusal = .none ∧ t.sweep = some (.slot 0) ∧
        t.sweepTimer = some ((v.extractLsb' 4 4).toNat + 1) ∧ t.sweepPending = false ∧
        t.held = [] ∧ t.heldCauses = [] ∧ t.writeAll = false ∧ t.writeVote = false ∧
        t.slots = s.slots ∧ t.entries = s.entries ∧ t.header = s.header ∧ s.sameKeysAndClock t ∧
        t.flight = s.flight ∧ t.image = s.image ∧ t.sweepCount = s.sweepCount ∧
        (∀ f, f ∈ t.flags ↔ f ∈ s.flags ∨ f ∈ s.heldCauses) ∧
        (s.positionsOk →
          (r.sameMemoryBut t fun a => (∃ n, s.inRecord n a) ∨ s.inHeader a) ∧
          (s.writeAll = false → s.writeVote = false → ∀ a, outsideBlocks a (s.held.map s.boardAccess) →
            t.mem.get a = r.mem.get a) ∧
          (∀ n f, (∀ p, f = .outcome p → p < 16) → s.writeAll = true ∨ .slot n f ∈ s.held →
            let field := (s.slot n).eng.fieldAt f
            t.mem.read (s.slotAddr n + field.1) field.2.length = field.2) ∧
          (∀ f, (f ≠ .voteAction ∧ f ≠ .voteClock ∧ s.writeAll = true) ∨
              ((f = .voteAction ∨ f = .voteClock) ∧ s.writeVote = true) ∨ s.writeAll = false ∧ .header f ∈ s.held →
            let field := s.header.fieldAt f
            t.mem.read (s.boardBase + field.1) field.2.length = field.2) ∧
          (s.writeAll = true →
            (∀ n, t.mem.read (s.slotAddr n + 270) 2 = zeros 2 ∧ t.mem.read (s.slotAddr n + 302) 18 = zeros 18) ∧
            t.mem.read (s.boardBase + 133) 3 = zeros 3 ∧ t.mem.read (s.boardBase + 158) 2 = zeros 2 ∧
            t.mem.read (s.boardBase + 164) 860 = zeros 860)))

/-- STOP in RUNNING makes the part STOPPING, stops the timer, clears the pending request and ends the sweep but for an
order being taken; in another state it only loads DIVISOR and ATTN ENABLE. STOP_DRAIN_END makes the part STOPPED where
nothing holds it in STOPPING, and changes nothing otherwise. A write to CONTROL with no request bit loads DIVISOR and ATTN
ENABLE alone; the board base registers are taken in STOPPED and only there, and the base is a multiple of 4,096; writes to
IDENT, STATUS and ATTENTION are ignored. -/
def Obligations.StopDrainAndRegisterWrites : Prop :=
  (∀ (v : BitVec 32) (s : State), controlRequest v = .stop → ∃ t, exec (.stop v) s = .next t ∧
    (s.part = .running → t =
      { s.loadControl v with
        part := .stopping
        sweepTimer := none
        sweepPending := false
        sweep := match s.sweep with
          | some (.order n number) => some (.order n number)
          | _ => none }) ∧
    (s.part ≠ .running → t = s.loadControl v)) ∧
  (∀ s : State,
    let drained := s.flight = none ∧ s.query = none ∧ s.sweep = none ∧ ∀ n, (s.slot n).take = none
    (s.part = .stopping → drained → exec .stopDrainEnd s = .next { s with part := .stopped }) ∧
      (s.part ≠ .stopping ∨ ¬ drained → exec .stopDrainEnd s = .next s)) ∧
  (∀ (v : BitVec 32) (s : State), controlRequest v = .nothing →
    exec (.loadDivisorAndAttnEnable v) s =
      .next { s with divisor := v.extractLsb' 4 4, attnEnable := v.getLsbD 8 }) ∧
  (∀ (v : BitVec 32) (s : State), ∃ t, exec (.boardBaseLowWrite v) s = .next t ∧
    (s.part = .stopped → t = { s with baseLow := t.baseLow } ∧ t.boardBase % 4096 = 0 ∧
      ∀ i, t.baseLow.getLsbD i = (decide (12 ≤ i) && v.getLsbD i)) ∧
    (s.part ≠ .stopped → t = s)) ∧
  (∀ (v : BitVec 32) (s : State), ∃ t, exec (.boardBaseHighWrite v) s = .next t ∧
    (s.part = .stopped → t = { s with baseHigh := v }) ∧ (s.part ≠ .stopped → t = s)) ∧
  ∀ (q : ReadOnlyReg) (v : BitVec 32) (s : State), exec (.registerWriteIgnored q v) s = .next s

/-- A sweep request in RUNNING, by a write to SWEEP or by the timer, starts a sweep, or sets the pending request during
one; the timer's next interval starts at the length DIVISOR gives. In STOPPED and STOPPING a write to SWEEP changes
nothing. -/
def Obligations.SweepRequests : Prop :=
  ∀ (v : BitVec 32) (s : State),
    (s.part ≠ .running → exec (.sweepRequest v) s = .next s) ∧
    (s.part = .running → s.sweep.isSome = true → exec (.sweepRequest v) s = .next { s with sweepPending := true }) ∧
    (s.part = .running → s.sweep = none → ∃ t, exec (.sweepRequest v) s = .next t ∧
      t.sweep = some (.slot 0) ∧ t.sweepPending = s.sweepPending ∧ t.sweepTimer = s.sweepTimer ∧
      t.slots = s.slots ∧ t.entries = s.entries ∧ s.sameKeysAndClock t ∧
      (s.held = [] → s.heldCauses = [] → s.writeAll = false → s.writeVote = false →
        t = { s with sweep := some (.slot 0) })) ∧
    (∀ k, s.sweepTimer = some k → s.sweep.isSome = true → exec .sweepTimerExpiry s =
      .next { s with sweepTimer := some (s.divisor.toNat + 1), sweepPending := true }) ∧
    (∀ k, s.sweepTimer = some k → s.sweep = none → ∃ t, exec .sweepTimerExpiry s = .next t ∧
      t.sweep = some (.slot 0) ∧ t.sweepTimer = some (s.divisor.toNat + 1) ∧ t.sweepPending = s.sweepPending ∧
      t.slots = s.slots ∧ t.entries = s.entries ∧ s.sameKeysAndClock t) ∧
    (s.sweepTimer = none → exec .sweepTimerExpiry s = .next s)

/-- A read of ATTENTION returns the highest-priority cause pending, the lowest-numbered source of that cause, and clears
that one flag; with no flag pending it returns 0 and clears nothing; a write to ATTENTION is ignored. In every state of the
part the attention line is asserted while ATTN ENABLE is set and a flag is pending, and only then. -/
def Obligations.AttentionReadTakesHighest : Prop :=
  ∀ s : State, (s.attentionLine = true ↔ s.attnEnable = true ∧ ∃ f, f ∈ s.flags) ∧
    (flagsOk s.flags → ∃ t, exec .attentionRead s = .next t ∧
      t = { s with attentionRead := t.attentionRead, flags := t.flags } ∧
      t.attentionRead = s.registerValue .attention ∧
      (s.flags = [] → t.attentionRead = 0 ∧ t.flags = []) ∧
      (s.flags ≠ [] → ∃ f ∈ s.flags,
        t.attentionRead = BitVec.ofNat 32 (2 ^ 8 * f.cause.code + f.source.val) ∧
        (∀ g ∈ s.flags, f.cause.code < g.cause.code ∨ (f.cause = g.cause ∧ f.source ≤ g.source)) ∧
        ∀ g, g ∈ t.flags ↔ g ∈ s.flags ∧ g ≠ f) ∧
      ∀ v, exec (.registerWriteIgnored .attention v) s = .next s)

/-! ## Sweeps -/

/-- The slot step compares the order number with the latch, and a different number has the order taken next. An IDLE or
FAULTED slot, and a RECORD slot whose entry has lapsed (log 44), is not refreshed. Any other has the recorder marks read into
its view first. Where they stand as they should, an advance of the engine's marks that R63 has held back is made as far as
the view now lets it, as the model has it (log 42); a STALLED RECORD slot with room is RUNNING; a PLAY slot with a permitted
frame and no batch in flight is DELIVERING where the next range has room, and WAITING where not; a MOVE slot with a frame
decided for re-seal and no free output frame is WAITING; where a close is asked of the slot such a frame without room is
finished ABANDONED and the slot ends, in the step of the refresh as the model infers (log 39); and nothing but the view and
those marks changes otherwise. -/
def Obligations.SlotStepComparesOrders : Prop :=
  ∀ (s : State) (w : Writes) (n : Fin 8), s.sweep = some (.slot n) → writesInSpace w = true →
    let r := s.recorded w
    let x := s.slot n
    let next := if r.orderNumber n = x.latch then s.afterSlot n else some (.order n (r.orderNumber n))
    let seen := r.readMarks n x.mode x
    let caught := seen.caughtUp
    let refreshed := x.eng.state ≠ .idle ∧ x.eng.state ≠ .faulted ∧ (x.mode = .record → x.lapseDue = false)
    let viewed : Prop := ∃ t, exec (.slotStep w) s = .next t ∧ t.slot n = caught ∧ s.sameSlotsBut t n ∧
      t.entries = s.entries ∧ t.flags = s.flags ∧ t.flight = s.flight ∧ t.kept = { s.kept with sweep := next } ∧
      s.sameKeysAndClock t ∧ r.sameMemoryBut t (s.inRecord n) ∧
      (x.owedA = 0 → x.owedB = 0 → x.owedC = 0 → t = { r.setSlot n seen with sweep := next })
    let becomes (st : SlotState) : Prop := ∃ t, exec (.slotStep w) s = .next t ∧
      t.slot n = { caught with eng := { caught.eng with state := st } } ∧ s.sameSlotsBut t n ∧ t.entries = s.entries ∧
      t.flags = s.flags ∧ t.flight = s.flight ∧ t.kept = { s.kept with sweep := next } ∧ s.sameKeysAndClock t ∧
      r.sameMemoryBut t (s.inRecord n)
    let abandons (f : Frame) (packets : Nat) : Prop := ∀ e, s.bindsTo n e → f.pos < 16 →
      ∃ t, exec (.slotStep w) s = .next t ∧ s.finishes t n e (caught.finished f .abandoned packets 0) ∧
        t.kept = { s.kept with sweep := next } ∧ s.sameKeysAndClock t ∧ r.sameMemoryBut t (s.inRecord n)
    (¬ refreshed → exec (.slotStep w) s = .next { r with sweep := next }) ∧
    (refreshed → s.part ≠ .stopped → seen.marksBad = false →
      (x.mode = .record → seen.overrunDue = false ∨ x.eng.state = .closing →
        let resumes := x.eng.state = .stalled ∧ 0 < seen.geo.frames - ahead seen.placeB seen.viewB
        (resumes → becomes .running) ∧ (¬ resumes → viewed)) ∧
      (x.mode = .check → viewed) ∧
      (x.mode = .play →
        let flying := ∃ work, s.flight = some ⟨.slot n, work, false⟩
        (flying ∨ (∀ f, x.frame = some f → f.tag = none ∨ f.permit = none) → viewed) ∧
        ∀ f tag left, ¬ flying → x.frame = some f → f.tag = some tag → f.permit = some left →
          let room := seen.geo.streamSize - ahead seen.placeA seen.viewA
          let count := min 16 (tag.count - 16 * f.worked)
          (count ≤ room → becomes .delivering) ∧ (room < count → x.closeAsked = false → becomes .waiting) ∧
            (room < count → x.closeAsked = true → abandons f f.packets)) ∧
      (x.mode = .move →
        let room := seen.geo.outFrames - ahead seen.placeC seen.viewC
        (0 < room ∨ (∀ f, x.frame = some f → f.permit = none ∨ f.reserved ≠ none) → viewed) ∧
        ∀ f left, x.frame = some f → f.permit = some left → f.reserved = none → room = 0 →
          (x.closeAsked = false → becomes .waiting) ∧ (x.closeAsked = true → abandons f 0)))

/-- Marks that stand wrongly fault a slot of any mode with MARK at its refresh: a RECORD slot's recording ends, a PLAY slot's
last view is judged, a MOVE slot's entry returns to HELD, and FAULT is raised; then its order number is compared. A take in
progress and a deliver batch in flight complete first, in the step itself as the model has it (log 18); T or Pp goes as far
as R63 lets it (log 42); that one of them whose access the windows refuse leaves the code MARK is the model's choice (log
41), and what a refused deliver batch leaves in memory is its reading of what one access is (log 10). -/
def Obligations.SlotStepMarkFault : Prop :=
  ∀ (s : State) (w : Writes) (n : Fin 8) (e : Fin 64), s.sweep = some (.slot n) → writesInSpace w = true →
    s.bindsTo n e →
    let r := s.recorded w
    let x := s.slot n
    let seen := r.readMarks n x.mode x
    let faults (y : Slot) (m : Memory) (flying : Option Flight) : Prop :=
      ∃ t, exec (.slotStep w) s = .next t ∧ s.faultsTo t n e y .mark ∧ t.flight = flying ∧
        t.sweep = (if r.orderNumber n = x.latch then s.afterSlot n else some (.order n (r.orderNumber n))) ∧
        ∀ a, ¬ s.inRecord n a → t.mem.get a = m.get a
    seen.marksBad = true →
    (x.mode = .record → x.lapseDue = false →
      r.takeDone seen (faults · r.mem (s.orphaned n)) (faults · r.mem (s.orphaned n))) ∧
    (x.mode ≠ .record → r.deliverDone n seen faults)

/-- An overrun gives up the carry list, moves T to F and counts the loss; a close is asked of a chunk that is open, and the
loss is recorded once it has taken effect, so that the chunk's tag has the lost total as it stood, which is R31 as the model
reads it against R79 (log 9); a STALLED slot returns to RUNNING. A take in progress completes first, in the step itself as
the model has it (log 18), and its packets count in the loss with the carry list; where the windows refuse it the slot
faults with WINDOW. An advance of P that R63 has held back is made first, as the model has it (log 42). -/
def Obligations.SlotStepOverrun : Prop :=
  ∀ (s : State) (w : Writes) (n : Fin 8), s.sweep = some (.slot n) → s.part ≠ .stopped → writesInSpace w = true →
    let r := s.recorded w
    let x := s.slot n
    let seen := r.readMarks n .record x
    let left := ahead seen.viewA (x.placeA + BitVec.ofNat 32 (match x.take with | none => 0 | some tk => tk.count))
    let next := if r.orderNumber n = x.latch then s.afterSlot n else some (.order n (r.orderNumber n))
    x.mode = .record → x.eng.state = .opening ∨ x.eng.state = .running ∨ x.eng.state = .stalled →
    x.lapseDue = false → seen.marksBad = false → x.geo.streamSize < left → left < 2 ^ 31 →
    let overruns (y : Slot) : Prop :=
      let loss := left + y.carry.length
      let passed :=
        { y with
          carry := [], owedA := 0, streamPos := (y.streamPos + left) % x.geo.streamSize
          eng := { y.eng with
            markA := seen.viewA, state := if x.eng.state = SlotState.stalled then SlotState.running else x.eng.state } }
      ∃ t, exec (.slotStep w) s = .next t ∧
        ((∀ c, x.chunk = some c → c.closed = true) → t.slot n =
          { passed with
            lostTotal := satAdd x.lostTotal loss
            eng := { passed.eng with packetsLost := satAdd x.eng.packetsLost loss } }) ∧
        (∀ c, x.chunk = some c → c.closed = false →
          s.asksClose t n { passed with lossDue := satAdd x.lossDue loss } (t.slot n)) ∧
        s.sameSlotsBut t n ∧ t.entries = s.entries ∧ s.sameKeysAndClock t ∧ t.flight = s.flight ∧
        t.waiting = s.waiting ∧ s.flagsBut t [slotFlag .absent n] ∧ r.sameMemoryBut t (s.inRecord n) ∧
        t.kept = { s.kept with sweep := next }
    let faults (y : Slot) : Prop := ∀ e, s.bindsTo n e →
      ∃ t, exec (.slotStep w) s = .next t ∧ s.faultsTo t n e y .window ∧ t.flight = s.orphaned n ∧ t.sweep = next ∧
        r.sameMemoryBut t (s.inRecord n)
    r.takeDone seen.caughtUp overruns faults

/-- The end-of-sweep writes, made once the part order has been taken or none is at hand: each directory entry of whose five
values any has changed is written whole with its revision count advanced, an absent lapse time as 0xFFFFFFFF and absent
views as 0xFF, then the header mirrors, and the sweep count advances by 1; the sweep ends, or the next one starts where a
request is pending. -/
def Obligations.EndOfSweepWrites : Prop :=
  ∀ (s : State) (w : Writes), writesInSpace w = true →
    let r := s.recorded w
    s.sweep = some .ending ∨ (s.sweep = some .part ∧ r.partOrderNumber = s.partLatch) →
    ∃ t, exec (.endOfSweepWrites w) s = .next t ∧
      t.sweepCount = s.sweepCount + 1 ∧ t.sweep = (if s.sweepPending then some (.slot 0) else none) ∧
      t.sweepPending = false ∧
      (∀ e : Fin 64,
        let x := s.entry e
        let values : DirValues := ⟨x.state, x.generation, x.chunkCount, x.lapseTime, x.views⟩
        t.directory[e].shown = some values ∧
          t.directory[e].revision = (if s.directory[e].shown = some values then s.directory[e].revision
            else s.directory[e].revision + 1)) ∧
      t.slots = s.slots ∧ t.entries = s.entries ∧ s.sameKeysAndClock t ∧ t.ready = s.ready ∧ t.cell = s.cell ∧
      (s.sweepPending = false →
        t.flags = s.flags ∧
        t.mem.read (s.boardBase + 144) 4 = le 4 (s.sweepCount + 1).toNat ∧
        t.mem.read (s.boardBase + 148) 4 = le 4 s.clock ∧ t.mem.read (s.boardBase + 152) 4 = le 4 s.cell ∧
        t.mem.read (s.boardBase + 156) 1 = [if s.ready then 1 else 0] ∧
        (∀ e : Fin 64,
          let x := s.entry e
          let a := s.boardBase + 1024 + 16 * e.val
          let same := s.directory[e].shown = some ⟨x.state, x.generation, x.chunkCount, x.lapseTime, x.views⟩
          (same → t.mem.read a 16 = r.mem.read a 16) ∧
          (¬ same →
            t.mem.read a 1 = [BitVec.ofNat 8 x.state.code] ∧
            t.mem.read (a + 1) 1 = [match x.views with | none => 0xFF | some v => BitVec.ofNat 8 v] ∧
            t.mem.read (a + 2) 2 = le 2 x.generation ∧ t.mem.read (a + 4) 4 = le 4 x.chunkCount ∧
            t.mem.read (a + 8) 4 = le 4 (match x.lapseTime with | none => 0xFFFFFFFF | some c => c) ∧
            t.mem.read (a + 12) 1 = [s.directory[e].revision + 1] ∧ t.mem.read (a + 13) 3 = zeros 3)) ∧
        r.sameMemoryBut t s.inHeader)

/-! ## OPEN -/

/-- An OPEN is judged by the checks of its mode in their order. The first that fails gives the result, and nothing else
changes. Where none fails the OPEN is accepted, on the entry it names, on the lowest-numbered FREE entry for 'any', and
for MOVE with the key of its token deciphered under the transfer key. -/
def Obligations.RefusedOpensChangeNothing : Prop :=
  ∀ (s : State) (w : Writes) (n : Fin 8) (number : Mark) (mode : Mode) (c : Instr),
    s.atOrder w n number .openSlot →
    let r := s.recorded w
    let recording := r.slotField n 6 1
    modeOf (r.slotField n 5 1) = mode →
    (mode = .record ∧ c = .recordOpen w ∨ mode = .play ∧ c = .playOpen w ∨ mode = .check ∧ c = .checkOpen w ∨
      mode = .move ∧ c = .moveOpen w) →
    (∀ res, firstFailing (r.openChecks n mode) res →
      ∃ t, exec c s = .next t ∧ t.slot n = (s.slot n).answered number res ∧ s.sameSlotsBut t n ∧ t.entries = s.entries ∧
        t.waiting = s.waiting ∧ t.flight = s.flight ∧ r.orderFrame t n ∧ slotFlag .result n ∈ t.flags ∧
        s.flagsBut t [slotFlag .result n]) ∧
    (noneFailing (r.openChecks n mode) →
      (mode = .record → ∃ e, r.checkRecordOpen n = .ok e ∧ (s.entry e).state = .free ∧
        (recording ≠ 255 → e.val = recording) ∧
        (recording = 255 → ∀ d, d < e → (s.entry d).state ≠ .free)) ∧
      (mode = .play ∨ mode = .check → ∃ e, r.checkPlayOpen n mode = .ok e ∧ e.val = recording) ∧
      (mode = .move → ∃ e, e.val = recording ∧ r.checkMoveOpen n =
        .ok (e, Aes.decipher s.fused.transferKey (pack16 (r.mem.read (s.slotAddr n + 88) 16)))))

/-- An accepted RECORD OPEN is answered DONE; the entry is LIVE with one segment of the order's rule as clamped, no key and
the expiry as its lapse time; the slot is OPENING at the tail of the waiting list, T at F, P at D, in step, with nothing
carried, no loss and its counters at 0. That it is OPENING where the pool holds two keys too, the hand-over being a command
of its own, is log 17; that the outcome list, the last remaining seconds and Po are zero is log 12: the model infers both. -/
def Obligations.RecordOpenAccepted : Prop :=
  ∀ (s : State) (w : Writes) (n : Fin 8) (number : Mark) (e : Fin 64), s.atOrder w n number .openSlot →
    let r := s.recorded w
    let rule := r.ruleFields n
    let len := clampLength (r.slotField n 7 1)
    let fill : Mark := BitVec.ofNat 32 (r.slotField n 52 4)
    let done : Mark := BitVec.ofNat 32 (r.slotField n 68 4)
    modeOf (r.slotField n 5 1) = .record → r.checkRecordOpen n = .ok e →
    ∃ t, exec (.recordOpen w) s = .next t ∧
      t.slot n =
        { Slot.bare number
            { ((s.slot n).answered number .done).eng with
              state := .opening, fault := .none, bound := some e, inStep := true
              absent := [false, false, false, false], markA := fill, markB := done, markC := 0, chunksDone := 0
              packetsLost := 0, badPackets := 0, scrambled := 0, lastRemaining := 0
              outcomes := List.replicate 16 OutcomeEntry.zero } with
          mode := .record, geo := r.readGeometry n .record len, viewA := fill, viewB := done
          holdTime := clampHoldTime (r.slotField n 20 1)
          notice := clampNotice (r.slotField n 21 1) (r.slotField n 64 1)
          othersSeal := clampOthersSeal (r.slotField n 22 1), watch := r.watchList n
          history := [true, true, true], absence := [0, 0, 0, 0] } ∧
      t.entry e =
        { Entry.free (s.entry e).generation with
          state := .live, chunkLength := len, rotation := clampRotation (r.slotField n 16 4), expiry := rule.expiry
          views := rule.views, binding := some n, lapseTime := rule.expiry
          segments := [⟨0, 0, none, rule.classHold.cls, rule.classHold.hold, none, none⟩] } ∧
      (s.entry e).state = .free ∧ s.sameSlotsBut t n ∧ s.sameEntriesBut t e ∧ t.waiting = s.waiting ++ [n] ∧
      t.flight = s.flight ∧ slotFlag .result n ∈ t.flags ∧ s.flagsBut t [slotFlag .result n] ∧ r.orderFrame t n

/-- An accepted PLAY or CHECK OPEN is answered DONE and binds the slot, which is WAITING with Tc at Fc and Pp at Tp and an
empty outcome list; a PLAY OPEN consumes a view where views are present, and the last one sets last view taken. The zeros
of the fields that the mode does not use (the mark at offset 272 of a CHECK slot, the absent flags, the counters of RECORD)
rest on R107 and log 12. -/
def Obligations.PlayCheckOpenAccepted : Prop :=
  ∀ (s : State) (w : Writes) (n : Fin 8) (number : Mark) (e : Fin 64) (mode : Mode) (c : Instr),
    s.atOrder w n number .openSlot →
    let r := s.recorded w
    let x := s.entry e
    let taken : Mark := if mode = .play then BitVec.ofNat 32 (r.slotField n 52 4) else 0
    let fill : Mark := BitVec.ofNat 32 (r.slotField n 68 4)
    modeOf (r.slotField n 5 1) = mode → (mode = .play ∧ c = .playOpen w ∨ mode = .check ∧ c = .checkOpen w) →
    r.checkPlayOpen n mode = .ok e →
    ∃ t, exec c s = .next t ∧
      t.slot n =
        { Slot.bare number
            { ((s.slot n).answered number .done).eng with
              state := .waiting, fault := .none, bound := some e, inStep := false
              absent := [false, false, false, false], markA := taken, markB := fill, markC := 0, chunksDone := 0
              packetsLost := 0, badPackets := 0, scrambled := 0, lastRemaining := 0
              outcomes := List.replicate 16 OutcomeEntry.zero } with
          mode := mode, geo := r.readGeometry n mode x.chunkLength, viewA := taken, viewB := fill
          notice := clampNotice (r.slotField n 21 1) (r.slotField n 64 1) } ∧
      (mode = .check → t.entry e = { x with players := x.players ++ [n] }) ∧
      (mode = .play → x.views = none → t.entry e = { x with players := x.players ++ [n] }) ∧
      (∀ v, mode = .play → x.views = some v → 1 ≤ v ∧ t.entry e =
        { x with players := x.players ++ [n], views := some (v - 1),
                 lastViewTaken := x.lastViewTaken || decide (v = 1) }) ∧
      (x.state = .live ∨ x.state = .held ∨ x.state = .moving) ∧
      s.sameSlotsBut t n ∧ s.sameEntriesBut t e ∧ t.waiting = s.waiting ∧ t.flight = s.flight ∧
      slotFlag .result n ∈ t.flags ∧ s.flagsBut t [slotFlag .result n] ∧ r.orderFrame t n

/-- An accepted MOVE OPEN shows NONE until the move completes: the entry is MOVING under the slot with its expiry as its
lapse time and its move mark kept, and the slot is WAITING with the token key, Tc at Fc and Po at Do. The expiry is taken
to lie ahead of the clock, as it does in every state the part reaches. The zeros of the fields that a MOVE slot does not
use (in step, the absent flags, the mark at offset 272, the counters of RECORD) rest on R152 and log 12. -/
def Obligations.MoveOpenAccepted : Prop :=
  ∀ (s : State) (w : Writes) (n : Fin 8) (number : Mark) (e : Fin 64) (key : Key), s.atOrder w n number .openSlot →
    let r := s.recorded w
    let x := s.entry e
    let fill : Mark := BitVec.ofNat 32 (r.slotField n 68 4)
    let done : Mark := BitVec.ofNat 32 (r.slotField n 84 4)
    modeOf (r.slotField n 5 1) = .move → r.checkMoveOpen n = .ok (e, key) → (∀ c, x.expiry = some c → s.clock < c) →
    ∃ t, exec (.moveOpen w) s = .next t ∧
      t.slot n =
        { Slot.bare number
            { ((s.slot n).answered number .none).eng with
              state := .waiting, fault := .none, bound := some e, inStep := false
              absent := [false, false, false, false], markA := 0, markB := fill, markC := done, chunksDone := 0
              packetsLost := 0, badPackets := 0, scrambled := 0, lastRemaining := 0
              outcomes := List.replicate 16 OutcomeEntry.zero } with
          mode := .move, geo := r.readGeometry n .move x.chunkLength, viewB := fill, viewC := done
          notice := clampNotice (r.slotField n 21 1) (r.slotField n 64 1)
          token := some key, openServed := some number } ∧
      t.entry e = { x with state := .moving, binding := some n, lapseTime := x.expiry } ∧
      x.state = .held ∧ x.moveMark < x.chunkCount ∧
      s.sameSlotsBut t n ∧ s.sameEntriesBut t e ∧ t.waiting = s.waiting ∧ t.flight = s.flight ∧ t.flags = s.flags ∧
      r.orderFrame t n

/-! ## CLOSE and ABORT -/

/-- CLOSE of a recording: an IDLE slot answers WRONG_STATE and a CLOSING one BUSY; an OPENING slot, and a RUNNING one with
nothing taken and no chunk, returns to IDLE with DONE and PROGRESS and its recording ends; with packets still to seal the
slot is CLOSING and the result comes later. With a chunk open and nothing carried the slot is CLOSING and a close is asked
of the chunk, at once where no sealing batch is formed and after that batch otherwise. A take in progress alone, with no
chunk and no carry, makes the slot CLOSING too, which the model infers (log 22). That the close of the chunk takes the lost
total, and not the put, is R31 as the model reads it against R79 (log 9). -/
def Obligations.RecordCloseEnds : Prop :=
  ∀ (s : State) (w : Writes) (n : Fin 8) (number : Mark) (e : Fin 64), s.atOrder w n number .close →
    let r := s.recorded w
    let x := s.slot n
    let y := (s.entry e).unbind n
    let closing :=
      { x.answered number .none with
        closeServed := some number, holdTimer := none
        eng := { (x.answered number .none).eng with state := .closing } }
    ((x.eng.state = .idle ∨ x.mode = .record ∧ x.eng.state = .closing → ∃ t, exec (.recordClose w) s = .next t ∧
        t.slot n = x.answered number (if x.eng.state = .idle then .wrongState else .busy) ∧ s.sameSlotsBut t n ∧
        t.entries = s.entries ∧ r.orderFrame t n) ∧
      (x.mode = .record → x.boundEntry = some e → (s.entry e).state = .live → (s.entry e).binding = some n →
        (x.eng.state = .opening ∨
          x.eng.state = .running ∧ x.chunk = none ∧ x.carry = [] ∧ x.take = none) →
        ∃ t, exec (.recordClose w) s = .next t ∧ t.slot n = (x.answered number .done).toIdle ∧
          t.entry e = y.recordingEnded false s.clock (s.playingOn y) ∧ s.sameEntriesBut t e ∧ s.playersMarked t n e ∧
          t.waiting = s.waiting.filter (· ≠ n) ∧ slotFlag .result n ∈ t.flags ∧ slotFlag .progress n ∈ t.flags ∧
          s.flagsBut t [slotFlag .result n, slotFlag .progress n, partFlag .lapse] ∧ r.orderFrame t n) ∧
      (x.mode = .record → x.eng.state = .running ∨ x.eng.state = .stalled → x.take ≠ none ∨ x.carry ≠ [] →
        ∃ t, exec (.recordClose w) s = .next t ∧ t.slot n = closing ∧
          s.sameSlotsBut t n ∧ t.entries = s.entries ∧ t.flags = s.flags ∧ t.flight = s.flight ∧ r.orderFrame t n) ∧
      (∀ c, x.mode = .record → x.eng.state = .running → x.take = none → x.carry = [] → x.chunk = some c →
        ∃ t, exec (.recordClose w) s = .next t ∧ (c.batch = [] → s.asksClose t n closing (t.slot n)) ∧
          (c.batch ≠ [] → t.slot n = closing ∧ t.flags = s.flags) ∧ s.sameSlotsBut t n ∧ t.entries = s.entries ∧
          s.flagsBut t [slotFlag .absent n] ∧ t.flight = s.flight ∧ r.orderFrame t n))

/-- ABORT of a recording: DONE, the slot IDLE with carry and open chunk dropped, off the waiting list, and the recording
ended; no PROGRESS. A take in progress completes first, in the step of the ABORT as the model has it (log 18), T, as far
as R63 lets it (log 42), and the counters advancing with it, and its packets are dropped;
that one whose second access the windows refuse is dropped with T as it was and no fault is the model's choice (log 41). -/
def Obligations.RecordAbortEnds : Prop :=
  ∀ (s : State) (w : Writes) (n : Fin 8) (number : Mark) (e : Fin 64), s.atOrder w n number .abort →
    let r := s.recorded w
    let x := s.slot n
    let y := (s.entry e).unbind n
    let ends (z : Slot) : Prop :=
      ∃ t, exec (.recordAbort w) s = .next t ∧ t.slot n = z.toIdle ∧
        t.entry e = y.recordingEnded false s.clock (s.playingOn y) ∧ s.sameEntriesBut t e ∧ s.playersMarked t n e ∧
        t.waiting = s.waiting.filter (· ≠ n) ∧ t.flight = s.orphaned n ∧
        slotFlag .result n ∈ t.flags ∧ s.flagsBut t [slotFlag .result n, partFlag .lapse] ∧ r.orderFrame t n
    x.mode = .record → x.boundEntry = some e → (s.entry e).state = .live → (s.entry e).binding = some n →
    (∀ tk, x.take = some tk → ∀ i < 188 * (tk.count - min tk.count (x.geo.streamSize - tk.pos)),
      ¬ s.inRecord n (x.geo.streamBase + i)) →
    r.takeDone (x.answered number .done) ends ends

/-- CLOSE of a playback, check or move: with no frame in hand the slot is IDLE with DONE and PROGRESS, the last view judged
for a PLAY slot and a MOVING entry back in HELD with its move mark; with a frame in hand the close is asked: its verify pass
goes on, and so do its deliver batches while the next range has room, and its re-seal once its output frame is reserved or
can be, and the result comes later. A permitted frame that has no room is finished ABANDONED, and the slot ends with DONE
and PROGRESS, in the step of the CLOSE itself, as the model infers (log 39), with Tc as far as R63 lets it (log 42).
A second CLOSE is BUSY. -/
def Obligations.FrameSlotCloses : Prop :=
  ∀ (s : State) (w : Writes) (n : Fin 8) (number : Mark) (e : Fin 64) (c : Instr), s.atOrder w n number .close →
    let r := s.recorded w
    let x := s.slot n
    let y := (s.entry e).unbind n
    ((x.mode = .play ∨ x.mode = .check) ∧ c = .playCheckClose w ∨ x.mode = .move ∧ c = .moveClose w) →
    x.boundEntry = some e →
    (x.closeAsked = true → ∃ t, exec c s = .next t ∧ t.slot n = x.answered number .busy ∧ s.sameSlotsBut t n ∧
        t.entries = s.entries ∧ r.orderFrame t n) ∧
      (x.closeAsked = false → x.frame = none →
        (x.mode = .move → (s.entry e).state = .moving ∧ (s.entry e).binding = some n) →
        ∃ t, exec c s = .next t ∧ t.slot n = (x.answered number .done).toIdle ∧
          t.entry e = (if x.mode = .play then y.viewedOut (s.playingOn y)
            else if x.mode = .move then y.moveEnded s.clock (s.playingOn y) else y) ∧
          (x.mode = .move → (t.entry e).moveMark = (s.entry e).moveMark) ∧
          (((s.entry e).state = .held → (s.entry e).binding = none) → s.playersMarked t n e) ∧
          s.sameEntriesBut t e ∧ slotFlag .result n ∈ t.flags ∧ slotFlag .progress n ∈ t.flags ∧
          s.flagsBut t [slotFlag .result n, slotFlag .progress n, partFlag .lapse] ∧ r.orderFrame t n) ∧
      (∀ f, x.closeAsked = false → x.frame = some f → f.permit = none →
        ∃ t, exec c s = .next t ∧
          t.slot n = { x.answered number .none with closeAsked := true, closeServed := some number } ∧
          s.sameSlotsBut t n ∧ t.entries = s.entries ∧ t.flags = s.flags ∧ t.flight = s.flight ∧ r.orderFrame t n) ∧
      ∀ f tag left, x.closeAsked = false → x.frame = some f → f.pos < 16 → f.tag = some tag → f.permit = some left →
        let asked := { x.answered number .none with closeAsked := true, closeServed := some number }
        let later (z : Slot) : Prop :=
          ∃ t, exec c s = .next t ∧ s.slotStands t n z ∧ t.flight = s.flight ∧ r.orderFrame t n
        let abandons (packets : Nat) : Prop := s.bindsTo n e →
          ∃ t, exec c s = .next t ∧ s.finishes t n e (asked.finished f .abandoned packets 0) ∧
            t.flight = s.orphaned n ∧ r.orderFrame t n
        (x.mode = .play →
          let flying := ∃ work, s.flight = some ⟨.slot n, work, false⟩
          let room := x.geo.streamSize - ahead x.placeA x.viewA
          let count := min 16 (tag.count - 16 * f.worked)
          (flying → later asked) ∧
            (¬ flying → count ≤ room → later { asked with eng := { asked.eng with state := .delivering } }) ∧
            (¬ flying → room < count → abandons f.packets)) ∧
        (x.mode = .move →
          let room := x.geo.outFrames - ahead x.placeC x.viewC
          (f.reserved ≠ none ∨ 0 < room → later asked) ∧ (f.reserved = none → room = 0 → abandons 0))

/-- ABORT of a playback, check or move: DONE, the frame in hand ABANDONED with the packets delivered before, its position
given back, the slot IDLE; no PROGRESS; the entry ends as at CLOSE and a move mark stays. A verify batch in flight completes
first, so that the outcome shows the sequence of a tag it reads, with the model's inference that its pass gives no outcome
(log 26); a deliver batch in flight writes its packets and advances Pp, as Tc for the frame only as far as R63 lets it (log
42), and one whose access the windows refuse counts nothing and reports no WINDOW, as the model chooses (log 41), what it
leaves in memory resting on log 10. Both complete in the step of the ABORT, as the model has it (log 18); another batch of
the slot is left to end with its values dropped. -/
def Obligations.FrameSlotAborts : Prop :=
  ∀ (s : State) (w : Writes) (n : Fin 8) (number : Mark) (e : Fin 64) (c : Instr), s.atOrder w n number .abort →
    let r := s.recorded w
    let x := s.slot n
    let y := (s.entry e).unbind n
    let done := x.answered number .done
    let left (t : State) (z : Slot) : Prop :=
      (z.frame = none → t.slot n = z.toIdle) ∧
      (∀ f, z.frame = some f → t.slot n = (z.finished f .abandoned (if z.mode = .move then 0 else f.packets) 0).toIdle) ∧
      t.entry e = s.leftBy x y ∧ s.playersMarked t n e ∧ s.sameEntriesBut t e ∧ slotFlag .result n ∈ t.flags ∧
      s.flagsBut t [slotFlag .result n, partFlag .lapse]
    ((x.mode = .play ∨ x.mode = .check) ∧ c = .playCheckAbort w ∨ x.mode = .move ∧ c = .moveAbort w) →
    s.bindsTo n e → (∀ f, x.frame = some f → f.pos < 16) →
    (s.flight ≠ some ⟨.slot n, .verify, false⟩ → ¬ s.delivers n →
      ∃ t, exec c s = .next t ∧ left t done ∧ t.flight = s.orphaned n ∧ r.orderFrame t n) ∧
    (∀ f, s.flight = some ⟨.slot n, .verify, false⟩ → x.frame = some f →
      let a := x.geo.chunkBase + f.pos * frameSize x.geo.chunkLength
      (∀ i < 64, ¬ s.inRecord n (a + i)) →
      ∃ t, exec c s = .next t ∧ t.flight = none ∧ r.orderFrame t n ∧
        (f.tag = none → inWindow s.windows false a 64 →
          left t { done with frame := some { f with tag := some (tagOf (r.mem.read a 64)) } }) ∧
        (f.tag ≠ none ∨ ¬ inWindow s.windows false a 64 → left t done)) ∧
    ((∀ base pos count key gen seq expect winBase winSize winPos,
        s.flight = some ⟨.slot n, .deliver base pos count key gen seq expect winBase winSize winPos, false⟩ →
        ∀ i < 188 * count, ¬ s.inRecord n (base + 64 + 188 * pos + i)) →
      x.mode ≠ .move → s.flight ≠ some ⟨.slot n, .verify, false⟩ → r.deliverDone n done fun z m flying =>
        ∃ t, exec c s = .next t ∧ t.flight = flying ∧ left t z ∧ ∀ b, ¬ s.inRecord n b → t.mem.get b = m.get b)

/-- CLOSE or ABORT on a FAULTED slot returns it to IDLE with DONE: the fault code stays, no binding changes, no PROGRESS. -/
def Obligations.FaultedSlotReturns : Prop :=
  ∀ (s : State) (w : Writes) (n : Fin 8) (number : Mark) (kind : OrderKind), s.atOrder w n number kind →
    kind = .close ∨ kind = .abort → (s.slot n).eng.state = .faulted →
    ∃ t, exec (.faultedSlotReturn w) s = .next t ∧ t.slot n = ((s.slot n).answered number .done).toIdle ∧
      (t.slot n).eng.fault = (s.slot n).eng.fault ∧ s.sameSlotsBut t n ∧ t.entries = s.entries ∧
      slotFlag .result n ∈ t.flags ∧ s.flagsBut t [slotFlag .result n] ∧ (s.recorded w).orderFrame t n

/-! ## RULE, FLUSH, ROTATE and unknown orders -/

/-- RULE on an OPENING, RUNNING or STALLED slot: DONE, a close asked of an open chunk, the rule pending, expiry and views
tightened and never loosened, the lapse time following the expiry; an expiry brought to or before the clock lapses the entry
at once and the slot's LAPSED fault is due, as an event of its own (R139, log 19). That the close takes the lost total, and
not the put, is R31 as the model reads it against R79 (log 9). A CLOSING slot answers BUSY, a slot of another mode or state
WRONG_STATE, and nothing changes. -/
def Obligations.RuleTightens : Prop :=
  ∀ (s : State) (w : Writes) (n : Fin 8) (number : Mark) (e : Fin 64), s.atOrder w n number .rule →
    let r := s.recorded w
    let x := s.slot n
    let y := s.entry e
    let rule := r.ruleFields n
    let expiry := optMin y.expiry rule.expiry
    let ruled := { y with pendingRule := some rule.classHold, expiry := expiry, views := optMin y.views rule.views }
    let lapses := expiry ≠ y.expiry ∧ ∃ c, expiry = some c ∧ c ≤ s.clock
    (x.mode = .record → x.eng.state = .opening ∨ x.eng.state = .running ∨ x.eng.state = .stalled →
      x.boundEntry = some e → y.state = .live → y.binding = some n → n ∉ y.players →
      ∃ t z, exec (.rule w) s = .next t ∧ s.asksClose t n (x.answered number .done) z ∧
        (¬ lapses → t.entry e = { ruled with lapseTime := if expiry = y.expiry then y.lapseTime else expiry } ∧
          t.slot n = z ∧ s.sameSlotsBut t n) ∧
        (lapses → t.entry e = ruled.spent .lapsed ∧ t.slot n = { z with lapseDue := true } ∧
          s.playersMarked t n e ∧ partFlag .lapse ∈ t.flags) ∧
        s.sameEntriesBut t e ∧ slotFlag .result n ∈ t.flags ∧ t.waiting = s.waiting ∧ t.flight = s.flight ∧
        s.flagsBut t [slotFlag .result n, slotFlag .absent n, partFlag .lapse] ∧ r.orderFrame t n) ∧
    (x.mode ≠ .record ∨ x.eng.state = .idle ∨ x.eng.state = .faulted ∨ x.eng.state = .closing →
      ∃ t, exec (.rule w) s = .next t ∧
        t.slot n = x.answered number (if x.mode = .record ∧ x.eng.state = .closing then .busy else .wrongState) ∧
        s.sameSlotsBut t n ∧ t.entries = s.entries ∧ r.orderFrame t n)

/-- FLUSH, with DONE, and the expiry of the hold timer ask a close of the open chunk. With no sealing batch formed it takes
effect at once: the tag's lost count is the lost total, which is then the loss still to be recorded, the hold timer stops,
and watched entries that the chunk has not seen are counted absent, ABSENT being raised for those that reach 3; with one
formed it waits for the batch; with no chunk, or a close already asked, nothing changes. A CLOSING slot answers FLUSH BUSY,
a slot of another mode or state WRONG_STATE. An expiry while the part is STOPPED marks what it changes for writing and
holds the cause. That the lost total is cleared where the close takes effect and not at the put is R31 as the model reads
it against R79 (log 9). -/
def Obligations.FlushAndHoldTimerAskClose : Prop :=
  ∀ (s : State) (w : Writes) (n : Fin 8) (number : Mark),
    let x := s.slot n
    (s.atOrder w n number .flush → x.mode = .record →
      x.eng.state = .opening ∨ x.eng.state = .running ∨ x.eng.state = .stalled →
      ∃ t, exec (.flush w) s = .next t ∧ s.asksClose t n (x.answered number .done) (t.slot n) ∧ s.sameSlotsBut t n ∧
        t.entries = s.entries ∧ t.waiting = s.waiting ∧ t.flight = s.flight ∧ slotFlag .result n ∈ t.flags ∧
        s.flagsBut t [slotFlag .result n, slotFlag .absent n] ∧ (s.recorded w).orderFrame t n) ∧
    (s.atOrder w n number .flush →
      x.mode ≠ .record ∨ x.eng.state = .idle ∨ x.eng.state = .faulted ∨ x.eng.state = .closing →
      ∃ t, exec (.flush w) s = .next t ∧
        t.slot n = x.answered number (if x.mode = .record ∧ x.eng.state = .closing then .busy else .wrongState) ∧
        s.sameSlotsBut t n ∧ t.entries = s.entries ∧ t.waiting = s.waiting ∧ t.flight = s.flight ∧
        slotFlag .result n ∈ t.flags ∧ s.flagsBut t [slotFlag .result n] ∧ (s.recorded w).orderFrame t n) ∧
    (x.holdTimer.isSome = true → ∃ t, exec (.holdTimerExpiry n) s = .next t ∧ s.asksClose t n x (t.slot n) ∧
      s.sameSlotsBut t n ∧ t.entries = s.entries ∧ t.waiting = s.waiting ∧ t.flight = s.flight ∧ t.kept = s.kept ∧
      s.sameKeysAndClock t ∧ s.flagsBut t [slotFlag .absent n] ∧ s.sameMemoryBut t (s.inRecord n) ∧
      (s.part ≠ .stopped → t.held = s.held ∧ t.heldCauses = s.heldCauses) ∧
      (s.part = .stopped → s.marksFields t ∧ t.flags = s.flags)) ∧
    (x.holdTimer = none → exec (.holdTimerExpiry n) s = .next s)

/-- ROTATE on an OPENING, RUNNING or STALLED slot of a LIVE entry: DONE, and pending rotation is set; the open chunk, and
all else of slot and entry, stays. A CLOSING slot answers it BUSY, a slot of another mode or state WRONG_STATE. An order of
an unknown kind, and an OPEN with mode OFF or an unknown mode on an IDLE slot, is answered UNKNOWN; such an OPEN on a slot
in use is BUSY; a part order of an unknown kind is answered UNKNOWN with detail 0. Nothing else changes. -/
def Obligations.RotateAndUnknownOrders : Prop :=
  (∀ (s : State) (w : Writes) (n : Fin 8) (number : Mark) (e : Fin 64), s.atOrder w n number .rotate →
      let x := s.slot n
      (x.mode = .record → x.eng.state = .opening ∨ x.eng.state = .running ∨ x.eng.state = .stalled →
        x.boundEntry = some e → (s.entry e).state = .live →
        ∃ t, exec (.rotate w) s = .next t ∧ t.slot n = x.answered number .done ∧ s.sameSlotsBut t n ∧
          t.entry e = { s.entry e with pendingRotation := true } ∧ s.sameEntriesBut t e ∧ t.waiting = s.waiting ∧
          t.flight = s.flight ∧ slotFlag .result n ∈ t.flags ∧ s.flagsBut t [slotFlag .result n] ∧
          (s.recorded w).orderFrame t n) ∧
      (x.mode ≠ .record ∨ x.eng.state = .idle ∨ x.eng.state = .faulted ∨ x.eng.state = .closing →
        ∃ t, exec (.rotate w) s = .next t ∧
          t.slot n = x.answered number (if x.mode = .record ∧ x.eng.state = .closing then .busy else .wrongState) ∧
          s.sameSlotsBut t n ∧ t.entries = s.entries ∧ t.waiting = s.waiting ∧ t.flight = s.flight ∧
          slotFlag .result n ∈ t.flags ∧ s.flagsBut t [slotFlag .result n] ∧ (s.recorded w).orderFrame t n)) ∧
  (∀ (s : State) (w : Writes) (n : Fin 8) (number : Mark) (kind : OrderKind), s.atOrder w n number kind →
    kind = .unknown ∨ kind = .openSlot ∧ modeOf ((s.recorded w).slotField n 5 1) = .off →
    ∃ t, exec (.unknownOrder w) s = .next t ∧
      t.slot n = (s.slot n).answered number
        (if kind = .openSlot ∧ (s.slot n).eng.state ≠ .idle then .busy else .unknown) ∧
      s.sameSlotsBut t n ∧ t.entries = s.entries ∧ t.waiting = s.waiting ∧ t.flight = s.flight ∧
      slotFlag .result n ∈ t.flags ∧ s.flagsBut t [slotFlag .result n] ∧ (s.recorded w).orderFrame t n) ∧
  ∀ (s : State) (w : Writes), s.atPartOrder w .unknown →
    let number := (s.recorded w).partOrderNumber
    ∃ t, exec (.unknownPartOrder w) s = .next t ∧ t.header = s.partAnswered number .unknown 0 ∧ t.partLatch = number ∧
      t.sweep = some .ending ∧ t.ready = s.ready ∧ s.overtakes t ∧ (s.recorded w).partFrame t .unknown

/-! ## Part orders -/

/-- FRESH: BUSY while a LOAD is in flight, WRONG_STATE in READY, DONE in NOT_READY, which makes the part READY; the table,
the clock and the generation cell stay as they are. A table that is as the full reset left it while the part is NOT_READY
is so after DONE: 64 entries FREE with generation 0 and no segments. -/
def Obligations.FreshAnswers : Prop :=
  ∀ (s : State) (w : Writes), s.atPartOrder w .fresh →
    let number := (s.recorded w).partOrderNumber
    let res : Result := if s.loadInFlight then .busy else if s.ready then .wrongState else .done
    ∃ t, exec (.fresh w) s = .next t ∧ t.header = s.partAnswered number res 0 ∧ t.partLatch = number ∧
      t.ready = (s.ready || decide (res = .done)) ∧ t.clock = s.clock ∧ t.cell = s.cell ∧ s.overtakes t ∧
      t.sweep = some .ending ∧ (s.recorded w).partFrame t res ∧
      (s.unreadyOk → res = .done →
        ∀ e, t.entry e = Entry.free 0 ∧ (t.entry e).state = .free ∧ (t.entry e).generation = 0 ∧
          (t.entry e).segments = [])

/-- SAVE and LOAD at their takes: the refusals in their order, and otherwise result NONE and the operation in flight, a SAVE
with its snapshot of table and clock and the image generation one above the cell. The detail 0 beside a result NONE is the
model's inference (log 25). -/
def Obligations.ImageOrdersTaken : Prop :=
  ∀ (s : State) (w : Writes),
    let r := s.recorded w
    let number := r.partOrderNumber
    let addr := r.headerField 112 8
    let open_ := ∃ n, (s.slot n).eng.state ≠ .idle
    let within (x : Window) := x.lo ≤ addr ∧ addr + 66047 ≤ x.hi
    (s.atPartOrder w .save → ∃ t res, exec (.save w) s = .next t ∧ t.header = s.partAnswered number res 0 ∧
      t.partLatch = number ∧ t.sweep = some .ending ∧ r.partFrame t res ∧ t.ready = s.ready ∧ t.cell = s.cell ∧
      t.query = s.query.map Query.overtaken ∧
      (s.ready = false → res = .notReady) ∧
      (s.ready = true → s.image.isSome = true → res = .busy) ∧
      (s.ready = true → s.image = none → top32 ≤ s.cell → res = .wrongState) ∧
      (s.ready = true → s.image = none → s.cell < top32 →
        (¬ (∃ x ∈ s.windows, x.writable = true ∧ within x) → res = .window) ∧
        ((∃ x ∈ s.windows, x.writable = true ∧ within x) → res = .none ∧
          t.image = some (.save (some number) addr s.entries s.clock (s.cell + 1) 0 Chain.start))) ∧
      (res ≠ .none → t.image = s.image.map ImageOp.overtaken)) ∧
    (s.atPartOrder w .load → ∃ t res, exec (.load w) s = .next t ∧ t.header = s.partAnswered number res 0 ∧
      t.partLatch = number ∧ t.sweep = some .ending ∧ r.partFrame t res ∧ t.ready = s.ready ∧ t.cell = s.cell ∧
      t.query = s.query.map Query.overtaken ∧
      (s.image.isSome = true ∨ open_ → res = .busy) ∧
      (s.image = none → ¬ open_ →
        (¬ (∃ x ∈ s.windows, within x) → res = .window) ∧
        ((∃ x ∈ s.windows, within x) → res = .none ∧
          t.image = some (.load (some number) addr none [] 0 Chain.start))) ∧
      (res ≠ .none → t.image = s.image.map ImageOp.overtaken))

/-- A report at or behind the clock is KEPT: the clock stays and the vote window is emptied. A report 1 or 2 seconds ahead is
TRIMMED: the clock advances to it, the vote window is emptied, and the entries are judged. -/
def Obligations.TimeKeptOrTrimmed : Prop :=
  ∀ (s : State) (w : Writes), s.atPartOrder w .time →
    let r := s.recorded w
    let number := r.partOrderNumber
    let report := r.headerField 104 4
    report ≤ s.clock + 2 →
    ∃ t, exec (.time w) s = .next t ∧ t.votes = [] ∧ t.clock = max s.clock report ∧
      t.header =
        { s.partAnswered number .done t.clock with
          voteAction := if report ≤ s.clock then .kept else .trimmed
          voteClock := t.clock } ∧
      (report ≤ s.clock → t.entries = s.entries ∧ t.slots = s.slots ∧ s.flagsBut t [partFlag .result]) ∧
      (s.clock < report → ∀ e, t.entry e = (s.entry e).judgedAt report) ∧
      t.sweep = some .ending ∧ t.partLatch = number ∧ t.pool = s.pool ∧ t.flight = s.flight ∧ s.overtakes t ∧
      partFlag .result ∈ t.flags ∧ r.sameMemoryBut t s.inHeader

/-- A report 3 seconds or more ahead joins the vote window, from which the oldest of 3 offsets has left. Where no two
offsets differ by 2 or less it is VOTED and the clock stays. Otherwise it is JUMPED by the least smaller offset of such
pairs, saturating; the window is emptied, LAPSE is raised, and the entries are judged. -/
def Obligations.TimeVotes : Prop :=
  ∀ (s : State) (w : Writes), s.atPartOrder w .time →
    let r := s.recorded w
    let number := r.partOrderNumber
    let d := r.headerField 104 4 - s.clock
    let window := (if s.votes.length < 3 then s.votes else s.votes.drop 1) ++ [d]
    let agrees (a b : Nat) := a ≤ b + 2 ∧ b ≤ a + 2
    3 ≤ d →
    ∃ t, exec (.time w) s = .next t ∧ t.sweep = some .ending ∧ t.partLatch = number ∧ t.pool = s.pool ∧
      t.flight = s.flight ∧ s.overtakes t ∧ r.sameMemoryBut t s.inHeader ∧
      (window.Pairwise (fun a b => ¬ agrees a b) →
        t.votes = window ∧ t.clock = s.clock ∧ t.entries = s.entries ∧ t.slots = s.slots ∧
        t.header = { s.partAnswered number .done s.clock with voteAction := .voted, voteClock := s.clock }) ∧
      (¬ window.Pairwise (fun a b => ¬ agrees a b) → ∃ j,
        (∃ u a v b x, window = u ++ [a] ++ v ++ [b] ++ x ∧ agrees a b ∧ j = min a b) ∧
        (∀ u a v b x, window = u ++ [a] ++ v ++ [b] ++ x → agrees a b → j ≤ min a b) ∧
        t.votes = [] ∧ t.clock = min (s.clock + j) top32 ∧ (∀ e, t.entry e = (s.entry e).judgedAt t.clock) ∧
        partFlag .lapse ∈ t.flags ∧
        t.header = { s.partAnswered number .done t.clock with voteAction := .jumped, voteClock := t.clock })

/-- ERASE: the refusals in their order; on DONE the entry is FREE with its generation advanced, or RETIRED where it was
65,535, with no key, segment, binding or lapse time, and the detail is its generation. R24 says that a LIVE or MOVING entry
always has a slot bound; that one with no slot bound is answered BUSY too is the model's inference (log 33). -/
def Obligations.EraseAnswers : Prop :=
  ∀ (s : State) (w : Writes), s.atPartOrder w .erase →
    let r := s.recorded w
    let number := r.partOrderNumber
    let recording := r.headerField 101 1
    ∃ t res detail, exec (.erase w) s = .next t ∧ t.header = s.partAnswered number res detail ∧
      t.partLatch = number ∧ t.sweep = some .ending ∧ t.ready = s.ready ∧ s.overtakes t ∧
      (s.ready = false → res = .notReady) ∧
      (s.ready = true → s.loadInFlight = true → res = .busy) ∧
      (s.ready = true → s.loadInFlight = false → 63 < recording → res = .badOperand) ∧
      (res ≠ .done → detail = 0 ∧ r.partFrame t res) ∧
      (∀ e : Fin 64, e.val = recording → s.ready = true → s.loadInFlight = false →
        let x := s.entry e
        (x.binding ≠ none ∨ x.players ≠ [] → res = .busy) ∧
        (x.binding = none → x.players = [] →
          (x.state = .free ∨ x.state = .retired → res = .wrongState) ∧
          (x.state = .live ∨ x.state = .moving → res = .busy) ∧
          (x.state = .held ∨ x.state = .lapsed ∨ x.state = .moved →
            res = .done ∧ s.sameEntriesBut t e ∧ t.slots = s.slots ∧ detail = (t.entry e).generation ∧
            (x.generation < 65535 → t.entry e = Entry.free (x.generation + 1)) ∧
            (65535 ≤ x.generation → t.entry e = { Entry.free x.generation with state := .retired }) ∧
            partFlag .result ∈ t.flags ∧ s.flagsBut t [partFlag .result] ∧ s.sameKeysAndClock t ∧
            t.kept =
              { s.kept with
                header := t.header, partLatch := t.partLatch, sweep := t.sweep, image := t.image, query := t.query } ∧
            t.waiting = s.waiting ∧ t.flight = s.flight ∧ r.sameMemoryBut t s.inHeader)))

/-- QUERY is refused NOT_READY, BUSY while a LOAD or another QUERY is in flight, BAD_OPERAND or WINDOW, in that order, with
nothing else done. Otherwise it copies the entry and answers NONE, with detail 0 by the model's inference (log 25); when its
write completes the record's bytes are at the query address, and DONE is written where no later part order has been taken.
The record of an entry whose values fit has 544 bytes and shows each field at its place, those absent as 0 or 0xFF and parts
beyond the segment count as zero. It shows no key: entries that differ in the values of their keys alone have one record. -/
def Obligations.QueryCopiesAndWrites : Prop :=
  (∀ (s : State) (w : Writes) (res : Result), s.atPartOrder w .query →
    let r := s.recorded w
    let number := r.partOrderNumber
    firstFailing
      [(s.ready = false, Result.notReady), (s.loadInFlight = true ∨ s.query ≠ none, .busy),
        (63 < r.headerField 101 1, .badOperand), (¬ inWindow s.windows true (r.headerField 120 8) 544, .window)] res →
    ∃ t, exec (.query w) s = .next t ∧ t.header = s.partAnswered number res 0 ∧ t.partLatch = number ∧
      t.sweep = some .ending ∧ t.ready = s.ready ∧ s.overtakes t ∧ r.partFrame t res) ∧
  (∀ (s : State) (w : Writes) (e : Fin 64), s.atPartOrder w .query →
    let r := s.recorded w
    let number := r.partOrderNumber
    let addr := r.headerField 120 8
    s.ready = true → s.loadInFlight = false → s.query = none → e.val = r.headerField 101 1 →
    (∃ x ∈ s.windows, x.writable = true ∧ x.lo ≤ addr ∧ addr + 543 ≤ x.hi) →
    ∃ t, exec (.query w) s = .next t ∧ t.query = some ⟨addr, queryRecord e (s.entry e), some number⟩ ∧
      t.header = s.partAnswered number .none 0 ∧ t.partLatch = number ∧ t.sweep = some .ending ∧ t.ready = s.ready ∧
      t.image = s.image.map ImageOp.overtaken ∧ r.partFrame t .none) ∧
  (∀ (s : State) (q : Query), s.query = some q → s.part ≠ .stopped →
    (∃ x ∈ s.windows, x.writable = true ∧ x.lo ≤ q.addr ∧ q.addr + q.record.length ≤ x.hi + 1) →
    ∃ t, exec .queryWriteComplete s = .next t ∧ t.query = none ∧
      (∀ i (h : i < q.record.length), ¬ s.inHeader (q.addr + i) → t.mem.get (q.addr + i) = q.record[i]) ∧
      s.sameMemoryBut t (fun a => s.inHeader a ∨ (q.addr ≤ a ∧ a < q.addr + q.record.length)) ∧
      t.header = (if q.number = some s.partLatch then { s.header with result := .done, detail := 0 } else s.header) ∧
      (q.number = some s.partLatch → partFlag .result ∈ t.flags) ∧ s.flagsBut t [partFlag .result] ∧
      t.slots = s.slots ∧ t.entries = s.entries ∧ s.sameKeysAndClock t ∧ t.sweep = s.sweep) ∧
  (∀ (e : Fin 64) (x : Entry) (f : Key → Key),
    queryRecord e
        { x with nextKey := x.nextKey.map f, segments := x.segments.map fun g => { g with key := g.key.map f } } =
      queryRecord e x) ∧
  ∀ (e : Fin 64) (x : Entry), x.fits → (∀ c, x.lapseTime = some c → c ≤ top32) →
    let b := queryRecord e x
    let hold (cls : RuleClass) (h : Option Nat) := if cls = .never then h.getD 0 else 0
    b.length = 544 ∧ field b 0 1 = e.val ∧ field b 1 1 = x.state.code ∧ field b 2 2 = x.generation ∧
      field b 4 2 = (if x.state = .free ∨ x.state = .retired then 0 else x.chunkLength) ∧
      field b 6 1 = x.segments.length ∧
      (List.range 8).map (byteAt b 7).getLsbD =
        [x.interrupted, x.rotationHeld, x.lastViewTaken, x.pendingRule.isSome, x.pendingRotation, x.nextKey.isSome,
          x.expiry.isSome, x.lapseTime.isSome] ∧
      field b 8 1 = (match x.pendingRule with | none => 0 | some q => q.cls.code) ∧
      field b 9 2 = (match x.pendingRule with | none => 0 | some q => hold q.cls q.hold) ∧
      field b 11 2 = x.rotation ∧ field b 13 1 = x.views.getD 255 ∧
      field b 14 1 = (match x.binding with | none => 255 | some n => n.val) ∧
      (∀ n : Fin 8, (byteAt b 15).getLsbD n = x.players.contains n) ∧
      field b 16 4 = x.chunkCount ∧ field b 20 4 = x.expiry.getD 0 ∧ field b 24 4 = x.moveMark ∧
      field b 28 4 = x.lapseTime.getD 0 ∧
      (∀ i g, x.segments[i]? = some g →
        let p := (b.drop (32 + 32 * i)).take 32
        field p 0 1 = i ∧ field p 1 1 = g.cls.code ∧ field p 2 2 = hold g.cls g.hold ∧ field p 4 4 = g.first ∧
          field p 8 4 = g.count ∧ field p 12 4 = g.firstStamp.getD 0 ∧ field p 16 4 = g.lastStamp.getD 0 ∧
          p.drop 20 = zeros 12) ∧
      ∀ i < 16, x.segments.length ≤ i → (b.drop (32 + 32 * i)).take 32 = zeros 32

/-! ## Keys -/

/-- A key draw that completes adds its key at the tail of the pool, and the next draw starts while the pool holds fewer than
4. The head of the waiting list takes two keys from the head of the pool: the first keys segment 0 and the second is the
entry's next key; the slot leaves the list and is RUNNING, in STOPPED with its state marked for writing. -/
def Obligations.KeysAreDrawnAndHanded : Prop :=
  (∀ (s : State) (key : Key), s.drawing = true →
    exec (.keyDrawComplete key) s =
      .next { s with pool := s.pool ++ [key], drawing := decide (s.pool.length + 1 < 4) }) ∧
  (∀ (s : State) (key : Key), s.drawing = false → exec (.keyDrawComplete key) s = .next s) ∧
  ∀ (s : State) (n : Fin 8) (e : Fin 64) (later : List (Fin 8)) (k₁ k₂ : Key) (keys : List Key) (g : Segment)
    (gs : List Segment), s.waiting = n :: later → s.pool = k₁ :: k₂ :: keys → (s.slot n).boundEntry = some e →
    (s.entry e).state = .live → (s.entry e).segments = g :: gs →
    ∃ t, exec .keyHandover s = .next t ∧ t.pool = keys ∧ t.waiting = later ∧
      t.drawing = (s.drawing || decide (keys.length < 4)) ∧
      t.entry e = { s.entry e with segments := { g with key := some k₁ } :: gs, nextKey := some k₂ } ∧
      t.slot n = { s.slot n with eng := { (s.slot n).eng with state := .running } } ∧ s.sameSlotsBut t n ∧
      s.sameEntriesBut t e ∧ t.flags = s.flags ∧ t.heldCauses = s.heldCauses ∧ t.flight = s.flight ∧
      t.clock = s.clock ∧ t.kept = s.kept ∧ s.sameMemoryBut t (s.inRecord n) ∧
      (s.part ≠ .stopped → t.held = s.held) ∧ (s.part = .stopped → s.marksFields t)

/-! ## Takes and chunks -/

/-- A take reads the smaller of 16 and F − T packets from the stream position, as far as the window's end at first; when it
completes T and the stream position advance by them, the packets the sorter keeps join the carry list, and the in-step field
is written with its latest value where any packet has changed the flag, be it back to what it was. A read that the
windows refuse faults the slot with WINDOW and T as it was. T goes no further than F: what F moved back meanwhile has it
held back counts as taken all the same, which is the model's choice (log 42). Past F there is no packet to take, and once
the entry has lapsed neither row does anything: readings of the model (log 45, log 44). The packets carried then form
a sealing batch of an open chunk at once; and a CLOSING slot that carries none has the close of its chunk asked, or with no
chunk ends its recording. -/
def Obligations.TakesReadTheStream : Prop :=
  (∀ (s : State) (w : Writes) (n : Fin 8), writesInSpace w = true →
    let r := s.recorded w
    let x := s.slot n
    let untaken := ahead x.viewA x.placeA
    let m := min 16 untaken
    let a := x.geo.streamBase + 188 * x.streamPos
    let len := 188 * min m (x.geo.streamSize - x.streamPos)
    (s.part = .running → x.eng.state = .running → x.lapseDue = false → x.carry = [] → x.take = none →
      1 ≤ untaken → untaken < 2 ^ 31 → (∀ c, x.chunk = some c → c.batch = []) →
      (inWindow s.windows false a len →
        exec (.takeStart n w) s = .next (r.setSlot n { x with take := some ⟨x.streamPos, m, r.mem.read a len⟩ })) ∧
      (∀ e, ¬ inWindow s.windows false a len → x.mode = .record → s.bindsTo n e →
        ∃ t, exec (.takeStart n w) s = .next t ∧ s.faultsTo t n e x .window ∧ t.flight = s.orphaned n ∧
          t.sweep = s.sweep ∧ r.sameMemoryBut t (s.inRecord n))) ∧
    (s.part ≠ .running ∨ x.eng.state ≠ .running ∨ x.lapseDue = true ∨ x.carry ≠ [] ∨ x.take ≠ none ∨ untaken = 0 ∨
      2 ^ 31 ≤ untaken ∨ (∃ c, x.chunk = some c ∧ c.batch ≠ []) → exec (.takeStart n w) s = .next r)) ∧
  ∀ (s : State) (w : Writes) (n : Fin 8) (tk : Take), writesInSpace w = true → (s.slot n).take = some tk →
    let r := s.recorded w
    let x := s.slot n
    let stepShown (t : State) : Prop := (r.sortedTake x tk).stepMoved = true →
      t.mem.read (s.slotAddr n + 268) 1 = [if (r.afterTake x tk).eng.inStep then 1 else 0]
    s.part ≠ .stopped →
    (x.lapseDue = true → exec (.takeComplete n w) s = .next r) ∧
    (x.lapseDue = false → x.eng.state = .running → x.chunk = none → s.takeReads x tk →
      ∃ t, exec (.takeComplete n w) s = .next t ∧ t.slot n = r.afterTake x tk ∧ stepShown t ∧
        s.sameSlotsBut t n ∧ t.entries = s.entries ∧ t.flags = s.flags ∧ t.flight = s.flight ∧ t.kept = s.kept ∧
        s.sameKeysAndClock t ∧ r.sameMemoryBut t (s.inRecord n)) ∧
    ∀ e, x.lapseDue = false → x.mode = .record → s.bindsTo n e →
      (s.takeReads x tk → ∃ t, exec (.takeComplete n w) s = .next t ∧ s.carriesOn t n e (r.afterTake x tk) ∧
        stepShown t ∧ t.kept = s.kept ∧ s.sameKeysAndClock t ∧ r.sameMemoryBut t (s.inRecord n)) ∧
      (¬ s.takeReads x tk → ∃ t, exec (.takeComplete n w) s = .next t ∧ s.faultsTo t n e { x with take := none } .window ∧
        t.flight = s.orphaned n ∧ t.sweep = s.sweep ∧ r.sameMemoryBut t (s.inRecord n))

/-- The sorter drops and counts a packet with a bad sync byte or out of step, drops a null packet uncounted, counts a
scrambled arrival, and keeps or drops a packet by the one watch entry in use that matches it or by the others action; the
stream leaves step with 2 bad results among the last 3 and regains it with 3 good ones, and each change of the flag is
noted. -/
def Obligations.SorterClassifies : Prop :=
  ∀ (watch : List Watch) (othersSeal : Bool) (z : Sorting) (p : List Byte) (a b c : Bool),
    z.history = [a, b, c] →
    let y := classify watch othersSeal z p
    let good := byteAt p 0 == 0x47
    let bads := (if b then 0 else 1) + (if c then 0 else 1) + (if good then 0 else 1)
    let inStep := if z.inStep then decide (bads < 2) else decide (bads = 0)
    let null := decide (packetIdent p = 0x1FFF)
    let sorted := good && inStep && !null
    let hits (i : Nat) (x : Watch) := watch[i]? = some x ∧ x.action ≠ .notUsed ∧ x.ident = packetIdent p
    y.history = [b, c, good] ∧ y.inStep = inStep ∧ y.stepMoved = (z.stepMoved || inStep != z.inStep) ∧
      y.bad = z.bad + (if good && inStep then 0 else 1) ∧
      y.scrambled = z.scrambled + (if sorted && decide ((byteAt p 3).toNat / 64 ≠ 0) then 1 else 0) ∧
      (sorted = false → y.kept = z.kept) ∧
      (sorted = true → (∀ i x, ¬ hits i x) →
        y.kept = z.kept ++ (if othersSeal then [⟨p, true, false, none⟩] else [])) ∧
      ∀ i x, sorted = true → hits i x → (∀ j x', hits j x' → j = i) →
        (x.action = .seal → y.kept = z.kept ++ [⟨p, true, false, some i⟩]) ∧
        (x.action = .index → y.kept = z.kept ++ [⟨p, true, accessPoint p, some i⟩]) ∧
        (x.action = .clear → y.kept = z.kept ++ [⟨p, false, false, some i⟩]) ∧
        (x.action = .drop → y.kept = z.kept)

/-- The segment decision at a chunk open: an empty last segment takes a pending rule outright; with nothing wanted nothing
changes; with room and a next key a segment is appended under it; a full list holds the rotation and merges the rule; and
without a next key the rule is merged and stays pending. -/
def Obligations.SegmentDecision : Prop :=
  ∀ (x : Entry) (init : List Segment) (last : Segment), x.segments = init ++ [last] →
    let period := decide (x.rotation ≠ 0 ∧ x.rotation ≤ last.count)
    let wanted := period || x.pendingRotation
    let y := x.decideSegment
    let ruled := match x.pendingRule with | none => last | some q => mergeRule q last
    (last.count = 0 → y =
      { x with
        segments := init ++
          [match x.pendingRule with | none => last | some q => { last with cls := q.cls, hold := q.hold }]
        pendingRule := none, pendingRotation := false }) ∧
    (last.count ≠ 0 → wanted = false → x.pendingRule = none → y = x) ∧
    (last.count ≠ 0 → (wanted = true ∨ x.pendingRule ≠ none) →
      (∀ key, x.segments.length < 16 → x.nextKey = some key → y =
        { x with
          segments := x.segments ++
            [{ first := x.chunkCount, count := 0, key := some key
               cls := match x.pendingRule with | none => last.cls | some q => q.cls
               hold := match x.pendingRule with | none => last.hold | some q => q.hold
               firstStamp := none, lastStamp := none }]
          nextKey := none, pendingRule := none, pendingRotation := false }) ∧
      (16 ≤ x.segments.length → y =
        { x with
          segments := init ++ [ruled], pendingRule := none, pendingRotation := false
          rotationHeld := x.rotationHeld || wanted }) ∧
      (x.segments.length < 16 → x.nextKey = none → y = { x with segments := init ++ [ruled] }))

/-- A chunk opens on a RUNNING or CLOSING slot with carried packets and a free frame: its sequence is the entry's chunk
count, its segment the last after the decision, its stamp the clock, its frame the one at the chunk position; the first
packets form its sealing batch and start the hold timer outside CLOSING. With no free frame a RUNNING slot is STALLED, a
CLOSING one waits, and nothing else happens. At a chunk count of 4,294,967,295 the open is refused: the carry list is
emptied and the recording ends as at the completion of a CLOSE. A chunk opens in STOPPED too, with the fields that change
marked for writing: that it does is the model's inference (log 21). -/
def Obligations.ChunkOpens : Prop :=
  ∀ (s : State) (n : Fin 8) (e : Fin 64) (last : Segment) (key : Key),
    let x := s.slot n
    let y := s.entry e
    let decided := y.decideSegment
    let free := x.geo.frames - ahead x.placeB x.viewB
    let marked (t : State) : Prop :=
      (s.part ≠ .stopped → t.held = s.held) ∧ (s.part = .stopped → s.marksFields t) ∧ t.heldCauses = s.heldCauses
    x.mode = .record → x.eng.state = .running ∨ x.eng.state = .closing → x.carry ≠ [] → x.chunk = none →
    x.boundEntry = some e → y.state = .live →
    (y.chunkCount = top32 → s.bindsTo n e →
      ∃ t, exec (.chunkOpen n) s = .next t ∧ s.endsByClose t n e { x with carry := [] } ∧ t.flight = s.orphaned n ∧
        t.waiting = s.waiting.filter (· ≠ n) ∧ t.kept = s.kept ∧ s.sameKeysAndClock t ∧
        s.sameMemoryBut t (s.inRecord n)) ∧
    (y.chunkCount ≠ top32 → free = 0 → x.eng.state = .running → ∃ t, exec (.chunkOpen n) s = .next t ∧
      t.slot n = { x with eng := { x.eng with state := .stalled } } ∧ s.sameSlotsBut t n ∧ t.entries = s.entries ∧
      t.flags = s.flags ∧ t.flight = s.flight ∧ t.kept = s.kept ∧ s.sameKeysAndClock t ∧ marked t ∧
      s.sameMemoryBut t (s.inRecord n)) ∧
    (y.chunkCount ≠ top32 → free = 0 → x.eng.state = .closing → exec (.chunkOpen n) s = .next s) ∧
    (y.chunkCount ≠ top32 → 0 < free → decided.segments.getLast? = some last → last.key = some key →
      0 < x.geo.chunkLength →
      ∃ t c, exec (.chunkOpen n) s = .next t ∧ (t.slot n).chunk = some c ∧
        c.seq = y.chunkCount ∧ c.seg = decided.segments.length - 1 ∧ c.stamp = s.clock ∧ c.pos = x.chunkPos ∧
        c.stored = 0 ∧ c.key = key ∧ c.generation = y.generation ∧ c.batch = x.carry.take x.geo.chunkLength ∧
        c.closeAsked = false ∧ c.closed = false ∧ c.points.length ≤ 8 ∧
        (t.slot n).carry = x.carry.drop x.geo.chunkLength ∧
        (t.slot n).holdTimer = (if x.eng.state = .closing then none else some x.holdTime) ∧
        (t.slot n).eng.state = x.eng.state ∧ (t.slot n).eng.markA = x.eng.markA ∧ (t.slot n).eng.markB = x.eng.markB ∧
        (∀ k ks, decided.nextKey = none → s.pool = k :: ks → s.waiting = [] →
          t.entry e = { decided with nextKey := some k } ∧ t.pool = ks ∧ t.drawing = (s.drawing || decide (ks.length < 4))) ∧
        (decided.nextKey ≠ none ∨ s.pool = [] ∨ s.waiting ≠ [] →
          t.entry e = decided ∧ t.pool = s.pool ∧ t.drawing = s.drawing) ∧
        s.sameSlotsBut t n ∧ s.sameEntriesBut t e ∧ t.waiting = s.waiting ∧ t.flags = s.flags ∧ t.flight = s.flight ∧
        t.clock = s.clock ∧ t.kept = s.kept ∧ marked t ∧ s.sameMemoryBut t (s.inRecord n))

/-- A sealing batch that completes has its packets' stored bytes in the reserved frame, from the next position on, and
nothing else of memory changed; they are counted and fed into the check. Where a close is asked, the chunk is full, or a
CLOSING slot has nothing more for it, its close takes effect; otherwise packets still carried form the next batch, and with
none the chunk stays open. A write that the windows refuse faults the slot with WINDOW and leaves no byte of the batch,
whose bytes are one access as the model reads it (log 10). The values of a batch of a released slot are dropped, refused or
not (log 41), and so are they once the entry has lapsed (log 44). That the lost total is taken where the close takes effect
is R31 as the model reads it against R79 (log 9). -/
def Obligations.SealingBatchStores : Prop :=
  ∀ (s : State) (n : Fin 8) (base pos : Nat) (pkts : List Carried) (key : Key) (gen seq : Nat) (c : OpenChunk)
    (orphan : Bool),
    let x := s.slot n
    let bytes := storedBytes key gen seq pos pkts
    let a := base + 64 + 188 * pos
    let sealed :=
      { c with
        stored := c.stored + c.batch.length, batch := [], chain := c.chain.feed (frameCheckKey c.key) bytes }
    let y := { x with chunk := some sealed }
    let closes := c.closeAsked = true ∨ x.geo.chunkLength ≤ sealed.stored ∨
      (x.eng.state = .closing ∧ x.take = none ∧ x.carry = [])
    let stored (t : State) : Prop := t.flight = none ∧ s.sameSlotsBut t n ∧ t.entries = s.entries ∧ t.kept = s.kept ∧
      s.sameKeysAndClock t ∧ t.waiting = s.waiting ∧
      ∀ b, ¬ s.inRecord n b → t.mem.get b = (s.mem.write a bytes).get b
    s.flight = some ⟨.slot n, .sealing base pos pkts key gen seq, orphan⟩ → s.part ≠ .stopped →
    (inWindow s.windows true a bytes.length →
      (orphan = true ∨ x.lapseDue = true →
        exec .sealingBatch s = .next { s with flight := none, mem := s.mem.write a bytes }) ∧
      (orphan = false → x.lapseDue = false → x.chunk = some c →
        (closes → ∃ t, exec .sealingBatch s = .next t ∧ stored t ∧ s.closesChunk t n y sealed (t.slot n) ∧
          s.flagsBut t [slotFlag .absent n]) ∧
        (¬ closes → x.carry = [] → ∃ t, exec .sealingBatch s = .next t ∧ stored t ∧ t.slot n = y ∧
          t.mem = s.mem.write a bytes ∧ t.flags = s.flags) ∧
        (¬ closes → x.carry ≠ [] → c.points.length ≤ 8 → ∃ t d, exec .sealingBatch s = .next t ∧ stored t ∧
          y.formsBatch sealed (t.slot n) d ∧ t.flags = s.flags))) ∧
    (¬ inWindow s.windows true a bytes.length → orphan = true →
      exec .sealingBatch s = .next { s with flight := none }) ∧
    ∀ e, ¬ inWindow s.windows true a bytes.length → orphan = false → x.lapseDue = false → x.mode = .record →
      x.take = none → s.bindsTo n e →
      ∃ t, exec .sealingBatch s = .next t ∧ s.faultsTo t n e x .window ∧ t.flight = none ∧ t.sweep = s.sweep ∧
        s.sameMemoryBut t (s.inRecord n)

/-- A closing batch that completes has the tag with its check value and the zero padding in the frame; the slot puts the
frame: position and P advance, the chunk is counted into its entry and last segment with its stamp, and PROGRESS is raised
at the notice level. The put that leaves a CLOSING slot with nothing more ends the recording. Once the entry has lapsed the
frame is not put. A write that the windows refuse ends the batch there and faults the slot with WINDOW; tag and padding are
an access each, so that a padding refused leaves the tag in memory, as the model reads it (log 10). The batch of a released
slot only writes, refused or not (log 41). That the put leaves the lost total alone is the model's reading of R79 (log 9).
P goes no further than the frame count ahead of D: where D has moved back meanwhile the rest of the put is made and P is
held back, which is the model's choice (log 42). -/
def Obligations.ClosingBatchPuts : Prop :=
  ∀ (s : State) (n : Fin 8) (e : Fin 64) (base len count : Nat) (tag : List Byte) (key : Key) (chain : Chain)
    (c : OpenChunk) (init : List Segment) (last : Segment) (orphan : Bool),
    let x := s.slot n
    let y := s.entry e
    let check := (chain.feed (frameCheckKey key) tag).finish (frameCheckKey key)
    let stamp := c.stamp
    let rest := base + 64 + 188 * count
    let tagged := s.mem.write base (tag ++ check)
    let written := tagged.write rest (zeros (paddingLength len count))
    let inTag := inWindow s.windows true base (tag ++ check).length
    let inRest := inWindow s.windows true rest (paddingLength len count)
    let put :=
      { x.advanceB 1 with
        chunk := none, chunkPos := (x.chunkPos + 1) % x.geo.frames
        eng := { (x.advanceB 1).eng with chunksDone := x.eng.chunksDone + 1 } }
    let counted :=
      { y with
        chunkCount := y.chunkCount + 1
        segments := init ++
          [{ last with
             count := last.count + 1, lastStamp := some stamp
             firstStamp := some (match last.firstStamp with | none => stamp | some v => v) }] }
    let ends := x.eng.state = .closing ∧ x.take = none ∧ x.carry = []
    s.flight = some ⟨.slot n, .closing base len count tag key chain, orphan⟩ →
    (orphan = true →
      (inTag → inRest → exec .closingBatch s = .next { s with flight := none, mem := written }) ∧
      (inTag → ¬ inRest → exec .closingBatch s = .next { s with flight := none, mem := tagged }) ∧
      (¬ inTag → exec .closingBatch s = .next { s with flight := none })) ∧
    (orphan = false → s.part ≠ .stopped → x.mode = .record → x.boundEntry = some e →
      (inTag → inRest → x.chunk = some c →
        (y.state ≠ .live → exec .closingBatch s = .next
          { s.setSlot n { x with chunk := none } with flight := none, mem := written }) ∧
        (y.state = .live → y.segments = init ++ [last] → ¬ ends →
          ∃ t, exec .closingBatch s = .next t ∧ t.flight = none ∧ t.slot n = put ∧ t.entry e = counted ∧
            (slotFlag .progress n ∈ t.flags ↔
              slotFlag .progress n ∈ s.flags ∨ x.notice ≤ ahead put.eng.markB x.viewB) ∧
            s.flagsBut t [slotFlag .progress n] ∧ s.sameSlotsBut t n ∧ s.sameEntriesBut t e ∧ t.kept = s.kept ∧
            s.sameKeysAndClock t ∧ ∀ b, ¬ s.inRecord n b → t.mem.get b = written.get b) ∧
        (y.state = .live → y.segments = init ++ [last] → ends → y.binding = some n →
          ∃ t, exec .closingBatch s = .next t ∧ t.flight = none ∧ (s.setEntry e counted).endsByClose t n e put ∧
            t.kept = s.kept ∧ s.sameKeysAndClock t ∧ ∀ b, ¬ s.inRecord n b → t.mem.get b = written.get b)) ∧
      (¬ inTag ∨ ¬ inRest → x.lapseDue = false → x.take = none → s.bindsTo n e →
        ∃ t, exec .closingBatch s = .next t ∧ s.faultsTo t n e x .window ∧ t.flight = none ∧ t.sweep = s.sweep ∧
          (inTag → ∀ b, ¬ s.inRecord n b → t.mem.get b = tagged.get b) ∧ (¬ inTag → s.sameMemoryBut t (s.inRecord n))))

/-! ## The arbiter -/

/-- A grant in RUNNING with the cipher free goes to the ready requester reached first counting upward from the one after
the last granted, and starts its next batch; with none ready, with a batch in flight or outside RUNNING nothing is
granted. A RECORD slot is ready with the sealing batch formed, or with the closing batch of its closed chunk, whose tag
says what the chunk is, but not once its entry has lapsed (log 44). Another slot is ready with verify batches from the take
of a frame to its permit; then a PLAY slot on a LIVE or HELD entry with the deliver batch of the next range while it has
room, and a MOVE slot on a MOVING entry with the re-seal batch of the next range of a frame with an output frame, and after
the last range with the final one, whose tag is the export tag. A SAVE or LOAD in flight is always ready. -/
def Obligations.CipherGrantsInTurn : Prop :=
  (∀ s : State,
    (s.part ≠ .running ∨ s.flight ≠ none ∨ (∀ r, s.nextWork r = none) → exec .cipherGrant s = .next s) ∧
    ∀ (r : Requester) (work : Work), s.part = .running → s.flight = none → s.nextWork r = some work →
      (∀ q, s.nextWork q ≠ none → turnsAfter s.lastGranted r ≤ turnsAfter s.lastGranted q) →
      exec .cipherGrant s = .next { s with lastGranted := r, flight := some ⟨r, work, false⟩ }) ∧
  (∀ (s : State) (n : Fin 8), (s.slot n).boundEntry = none → s.nextWork (.slot n) = none) ∧
  (∀ (s : State) (n : Fin 8) (e : Fin 64), (s.slot n).boundEntry = some e →
    let x := s.slot n
    let y := s.entry e
    let len := x.geo.chunkLength
    let work := s.nextWork (.slot n)
    (x.mode = .record → x.chunk = none ∨ x.lapseDue = true → work = none) ∧
    (∀ c, x.mode = .record → x.lapseDue = false → x.chunk = some c →
      let base := x.geo.chunkBase + c.pos * frameSize len
      (c.batch ≠ [] → work = some (.sealing base c.stored c.batch c.key c.generation c.seq)) ∧
      (c.batch = [] → c.closed = false → work = none) ∧
      (c.batch = [] → c.closed = true → c.fits →
        ∃ tag, isLocalTag tag c e len ∧ work = some (.closing base len c.stored tag c.key c.chain))) ∧
    (x.mode ≠ .record → x.frame = none → work = none) ∧
    (∀ f, x.mode ≠ .record → x.frame = some f → f.permit = none → work = some .verify) ∧
    ∀ f left t, x.frame = some f → f.permit = some left → f.tag = some t →
      let base := x.geo.chunkBase + f.pos * frameSize len
      let count := min 16 (t.count - 16 * f.worked)
      let gen := field t.bytes 6 2
      let expect := f.checks.getD f.worked []
      let room := x.geo.streamSize - ahead x.placeA x.viewA
      (x.mode = .check → work = none) ∧
      (x.mode = .play → (y.state = .live ∨ y.state = .held) → count ≤ room →
        work = some (.deliver base (16 * f.worked) count f.key gen t.seq expect x.geo.streamBase x.geo.streamSize
          x.streamPos)) ∧
      (x.mode = .play → (y.state ≠ .live ∧ y.state ≠ .held) ∨ room < count → work = none) ∧
      (x.mode = .move → f.reserved = none ∨ x.token = none ∨ y.state ≠ .moving → work = none) ∧
      ∀ pos token, x.mode = .move → f.reserved = some pos → x.token = some token → y.state = .moving →
        let out := x.geo.outBase + pos * frameSize len
        (f.worked < (t.count + 15) / 16 →
          work = some (.reseal base (16 * f.worked) count f.key gen t.seq expect token out)) ∧
        ∀ g, (t.count + 15) / 16 ≤ f.worked → t.bytes.length = 56 → t.seq ≤ top32 → y.segments[t.seg]? = some g →
          ∃ tag, isExportTag tag t g.cls ∧ work = some (.finalReseal out len t.count tag token f.outChain)) ∧
  (∀ s : State, s.image = none → s.nextWork .image = none) ∧
  (∀ (s : State) (number : Option Mark) (addr : Nat) (table : Vector Entry 64) (time gen k : Nat) (chain : Chain),
    s.image = some (.save number addr table time gen k chain) →
    s.nextWork .image = some (if k < 16 then .saveEntries else .saveHeader)) ∧
  ∀ (s : State) (number : Option Mark) (addr : Nat) (header : Option (List Byte)) (staging : List (List Byte)) (k : Nat)
    (chain : Chain), s.image = some (.load number addr header staging k chain) →
    s.nextWork .image = some (if header = none then .loadHeader else .loadEntries)

/-! ## Frames -/

/-- A WAITING slot of a running part with no frame in hand, no close asked and a frame available takes the frame at its
chunk window position and is VERIFYING. Behind a backward fill mark no frame is available, as the model reads the marks
(log 45); a frame finished is none that is available, where R63 holds Tc back too (log 42). -/
def Obligations.FrameTakeStartsVerify : Prop :=
  ∀ (s : State) (n : Fin 8),
    let x := s.slot n
    let takes := s.part = .running ∧ x.eng.state = .waiting ∧ x.frame = none ∧ x.closeAsked = false ∧
      1 ≤ ahead x.viewB x.placeB ∧ ahead x.viewB x.placeB < 2 ^ 31
    (takes → ∃ t f, exec (.frameTake n) s = .next t ∧
      t.slot n = { x with frame := some f, eng := { x.eng with state := .verifying } } ∧ f.pos = x.chunkPos ∧
      f.tag = none ∧ f.permit = none ∧ f.verified = 0 ∧ f.worked = 0 ∧ f.packets = 0 ∧ f.checks = [] ∧
      f.chain = Chain.start ∧ f.reserved = none ∧
      s.sameSlotsBut t n ∧ t.entries = s.entries ∧ t.flags = s.flags ∧ t.flight = s.flight ∧ t.kept = s.kept ∧
      s.sameKeysAndClock t ∧ s.sameMemoryBut t (s.inRecord n)) ∧
    (¬ takes → exec (.frameTake n) s = .next s)

/-- A verify batch completes. The first reads the tag, and the first tag check that fails finishes the frame with its
outcome. Each reads its range and records its batch check; the last decides the check value: a difference finishes the frame
BAD_CHECK. Where it agrees, an interrupted HELD entry is raised by a chunk beyond its count, the clock is raised to a later
stamp, the permit is asked, and the entries are judged where the clock has moved. A refused frame is finished with the
permit's outcome, and a permitted one of a CHECK slot VERIFIED; a frame whose entry is LAPSED or MOVED when the permit is
asked is finished LAPSED, and so is one whose entry is FREE or RETIRED then, which R128 does not name and the model infers
(log 33). That the raise is made on the entry as it then stands, HELD, interrupted and with a count not above the frame's,
and that it may bring the count to 2^32, are readings of R23 and R113 (log 23). A move that a finish completes ends with it,
and a close asked ends the slot after the frame. A read that the windows refuse faults the slot with WINDOW. Where Fc has
moved back meanwhile Tc goes no further than Fc and the rest of the finish is made, which is the model's choice (log 42). The
batch of a released slot is dropped. -/
def Obligations.VerifyBatchJudges : Prop :=
  (∀ (s : State) (w : Writes) (n : Fin 8), s.flight = some ⟨.slot n, .verify, true⟩ → writesInSpace w = true →
    exec (.verifyBatch w) s = .next { s.recorded w with flight := none }) ∧
  (∀ (s : State) (w : Writes) (n : Fin 8) (e : Fin 64) (f : Frame),
    let r := s.recorded w
    let x := s.slot n
    let base := x.geo.chunkBase + f.pos * frameSize x.geo.chunkLength
    let bytes := r.mem.read base 64
    let plain (t : State) : Prop := r.batchFrame t n ∧ t.clock = s.clock ∧ r.sameMemoryBut t (s.inRecord n)
    let faults : Prop := ∃ t, exec (.verifyBatch w) s = .next t ∧ s.faultsTo t n e x .window ∧ t.sweep = s.sweep ∧ plain t
    s.flight = some ⟨.slot n, .verify, false⟩ → writesInSpace w = true → s.bindsTo n e → x.frame = some f →
    f.pos < 16 → x.mode ≠ .record →
    (f.tag = none → ¬ inWindow s.windows false base 64 → faults) ∧
    (∀ o, f.tag = none → inWindow s.windows false base 64 → firstFailing ((s.entry e).tagChecks e x.mode bytes) o →
      ∃ t, exec (.verifyBatch w) s = .next t ∧ plain t ∧
        r.finishes t n e (x.finished { f with tag := some (tagOf bytes) } o 0 0)) ∧
    ∀ h tag, r.tagKnown n e f h tag →
      let a := x.rangeAt h
      let len := 188 * min 16 (tag.count - 16 * h.verified)
      let g := h.withRange (r.mem.read a len)
      let last := (tag.count + 15) / 16 ≤ g.verified
      let agrees := (g.chain.feed (frameCheckKey g.key) tag.bytes).finish (frameCheckKey g.key) = tag.check
      (¬ inWindow s.windows false a len → faults) ∧
      (inWindow s.windows false a len → ¬ last → exec (.verifyBatch w) s = .next
        { (r.setSlot n { x with frame := some g }) with flight := none }) ∧
      (inWindow s.windows false a len → last → ¬ agrees → ∃ t, exec (.verifyBatch w) s = .next t ∧ plain t ∧
        r.finishes t n e (x.finished g .badCheck 0 0)) ∧
      (inWindow s.windows false a len → last → agrees → (s.entry e).judged = false →
        ∃ t, exec (.verifyBatch w) s = .next t ∧ plain t ∧ r.frameEnds t n e (x.finished g .lapsed 0 0))) ∧
  ∀ (s : State) (w : Writes) (n : Fin 8) (e : Fin 64) (g : Frame) (tag : TagRead) (segment : Segment),
    s.judges w n e g tag segment →
    let r := s.recorded w
    let x := s.slot n
    let a := r.judging e g tag
    let p := permit (max s.clock tag.stamp) (a.entry e) segment x.mode tag.seq tag.stamp
    let answers (ends : State → Prop) : Prop := ∃ u t, exec (.verifyBatch w) s = .next t ∧ ends u ∧
      r.afterEvidence u t tag.stamp ∧ r.batchFrame t n ∧ t.clock = max s.clock tag.stamp ∧
      r.sameMemoryBut t (s.inRecord n)
    (∀ o, p = .refused o → answers fun u => a.finishes u n e (x.finished g o 0 0)) ∧
    (∀ left, x.mode = .check → p = .permitted left → answers fun u =>
      a.frameEnds u n e (x.finished g .verified tag.count left))

/-- A frame that a PLAY slot is permitted is DELIVERING with room for its first range, and WAITING without, or finished
ABANDONED where a close is asked, as R120 has it and in the step of the decision as the model infers (log 39). A deliver
batch whose batch check agrees writes its packets, rebuilt, into the packet window at the packet window position, going on
from the window's start past its end; Pp and the position advance by them. After the last range the frame is finished
DELIVERED, and otherwise the next range is judged for room. One whose batch check differs writes nothing and finishes the
frame BAD_CHECK with the packets delivered before it. An access that the windows refuse faults the slot with WINDOW, Pp as it
was; the packets up to the window's end are one access and those from its start another, so that a second one refused leaves
the first in memory, as the model reads it (log 10). Pp goes no further than the packet window size ahead of Tp: where Tp has
moved back meanwhile the packets count as delivered and Pp is held back, which is the model's choice (log 42). The batch of a
released slot only writes, refused or not (log 41). -/
def Obligations.DeliverBatchOpens : Prop :=
  (∀ (s : State) (w : Writes) (n : Fin 8) (e : Fin 64) (g : Frame) (tag : TagRead) (segment : Segment) (left : Nat),
    s.judges w n e g tag segment →
    let r := s.recorded w
    let x := s.slot n
    let a := r.judging e g tag
    let h := { g with permit := some left }
    let count := min 16 (tag.count - 16 * g.worked)
    let room := x.geo.streamSize - ahead x.placeA x.viewA
    x.mode = .play →
    permit (max s.clock tag.stamp) (a.entry e) segment .play tag.seq tag.stamp = .permitted left →
    ∃ u t, exec (.verifyBatch w) s = .next t ∧ r.afterEvidence u t tag.stamp ∧ r.batchFrame t n ∧
      t.clock = max s.clock tag.stamp ∧ r.sameMemoryBut t (s.inRecord n) ∧
      (count ≤ room → a.slotStands u n { x with frame := some h, eng := { x.eng with state := .delivering } }) ∧
      (room < count → x.closeAsked = false →
        a.slotStands u n { x with frame := some h, eng := { x.eng with state := .waiting } }) ∧
      (room < count → x.closeAsked = true → a.frameEnds u n e (x.finished h .abandoned g.packets 0))) ∧
  ∀ (s : State) (w : Writes) (n : Fin 8) (base pos count : Nat) (key : Key) (gen seq : Nat) (expect : List Byte)
    (winBase winSize winPos : Nat) (orphan : Bool),
    let r := s.recorded w
    let x := s.slot n
    let a := base + 64 + 188 * pos
    let bytes := r.mem.read a (188 * count)
    let packets := overPackets (openPacket key gen seq) pos (packetsOf bytes count)
    let first := min count (winSize - winPos)
    let head := winBase + 188 * winPos
    let readable := inWindow s.windows false a (188 * count)
    let agrees := chainedCheck (frameCheckKey key) bytes = expect
    let inHead := inWindow s.windows true head (188 * first)
    let inTail := first = count ∨ inWindow s.windows true winBase (188 * (count - first))
    let headWritten := r.mem.write head (packets.take (188 * first))
    let written := headWritten.write winBase (packets.drop (188 * first))
    s.flight = some ⟨.slot n, .deliver base pos count key gen seq expect winBase winSize winPos, orphan⟩ →
    writesInSpace w = true →
    (orphan = true → readable → agrees → inHead → inTail → ∃ t, exec (.deliverBatch w) s = .next t ∧
      t = { r with flight := none, mem := t.mem } ∧ ∀ b, t.mem.get b = written.get b) ∧
    (orphan = true → ¬ readable ∨ ¬ agrees ∨ ¬ inHead → exec (.deliverBatch w) s = .next { r with flight := none }) ∧
    (orphan = true → readable → agrees → inHead → ¬ inTail →
      exec (.deliverBatch w) s = .next { r with flight := none, mem := headWritten }) ∧
    ∀ e, orphan = false → x.mode = .play → s.bindsTo n e →
      (¬ readable ∨ (agrees ∧ (¬ inHead ∨ ¬ inTail)) →
        ∃ t, exec (.deliverBatch w) s = .next t ∧ s.faultsTo t n e x .window ∧ t.flight = none ∧ t.sweep = s.sweep ∧
          (readable → inHead → ∀ b, ¬ s.inRecord n b → t.mem.get b = headWritten.get b) ∧
          (¬ readable ∨ ¬ inHead → r.sameMemoryBut t (s.inRecord n))) ∧
      ∀ f tag left, x.frame = some f → f.pos < 16 → f.tag = some tag → f.permit = some left → readable →
        let g := { f with worked := f.worked + 1, packets := f.packets + count }
        let put :=
          { x.advanceA count with streamPos := (x.streamPos + count) % x.geo.streamSize, frame := some g }
        (¬ agrees → ∃ t, exec (.deliverBatch w) s = .next t ∧ r.batchFrame t n ∧ t.clock = s.clock ∧
          r.sameMemoryBut t (s.inRecord n) ∧ s.frameEnds t n e (x.finished f .badCheck f.packets 0)) ∧
        (agrees → inHead → inTail → ∃ t, exec (.deliverBatch w) s = .next t ∧ r.batchFrame t n ∧ t.clock = s.clock ∧
          (∀ b, ¬ s.inRecord n b → t.mem.get b = written.get b) ∧
          ((tag.count + 15) / 16 ≤ g.worked → s.frameEnds t n e (put.finished g .delivered tag.count left)) ∧
          (g.worked < (tag.count + 15) / 16 →
            let next := min 16 (tag.count - 16 * g.worked)
            let room := x.geo.streamSize - ahead put.placeA x.viewA
            (next ≤ room → s.slotStands t n { put with eng := { put.eng with state := .delivering } }) ∧
            (room < next → x.closeAsked = false →
              s.slotStands t n { put with eng := { put.eng with state := .waiting } }) ∧
            (room < next → x.closeAsked = true → s.frameEnds t n e (put.finished g .abandoned g.packets 0))))

/-- A frame that a MOVE slot is permitted is decided by the class of its segment: NO_MORE and NEVER advance the move mark and
finish it SKIPPED_CLASS; ONCE and OPEN_COPY have it re-sealed, or WAITING for a free output frame; where there is none and a
close is asked it is finished ABANDONED as R160 has it, in the step of the decision as the model infers (log 39). Of a frame
that is finished Tc goes no further than R63 lets it, which is the model's choice (log 42). A slot whose frame waits for its
output frame reserves the one at its output position when there is room, in STOPPED too, where its state is marked for
writing: that readiness in STOPPED is the model's inference (log 21). A re-seal batch whose check agrees writes its converted
packets into the reserved frame; a difference finishes the frame BAD_CHECK with the mark and Po as they were; an access that
the windows refuse faults the slot with WINDOW and leaves no byte of the batch, whose bytes are one access as the model reads
it (log 10). The batch of a released slot only writes, refused or not (log 41). -/
def Obligations.ResealWorks : Prop :=
  (∀ (s : State) (w : Writes) (n : Fin 8) (e : Fin 64) (g : Frame) (tag : TagRead) (segment : Segment) (left : Nat),
    s.judges w n e g tag segment →
    let r := s.recorded w
    let x := s.slot n
    let a := r.judging e g tag
    let h := { g with permit := some left }
    let room := x.geo.outFrames - ahead x.placeC x.viewC
    let copies := segment.cls = .once ∨ segment.cls = .openCopy
    let y := a.entry e
    x.mode = .move → g.reserved = none →
    permit (max s.clock tag.stamp) y segment .move tag.seq tag.stamp = .permitted left →
    ∃ u t, exec (.verifyBatch w) s = .next t ∧ r.afterEvidence u t tag.stamp ∧ r.batchFrame t n ∧
      t.clock = max s.clock tag.stamp ∧ r.sameMemoryBut t (s.inRecord n) ∧
      (¬ copies →
        (a.setEntry e { y with moveMark := y.moveMark + 1 }).finishes u n e (x.finished g .skippedClass 0 left)) ∧
      (copies → 0 < room → a.slotStands u n { x with frame := some h }) ∧
      (copies → room = 0 → x.closeAsked = false →
        a.slotStands u n { x with frame := some h, eng := { x.eng with state := .waiting } }) ∧
      (copies → room = 0 → x.closeAsked = true → a.finishes u n e (x.finished h .abandoned 0 0))) ∧
  (∀ (s : State) (n : Fin 8) (e : Fin 64) (f : Frame) (left : Nat),
    let x := s.slot n
    x.mode = .move → x.boundEntry = some e → (s.entry e).state = .moving → x.frame = some f → f.permit = some left →
    f.reserved = none → 0 < x.geo.outFrames - ahead x.placeC x.viewC →
    ∃ t, exec (.outputReservation n) s = .next t ∧
      s.slotStands t n
        { x with
          frame := some { f with reserved := some x.outPos, outChain := Chain.start }
          eng := { x.eng with state := .delivering } } ∧
      t.flight = s.flight ∧ t.kept = s.kept ∧ s.sameKeysAndClock t ∧ t.heldCauses = s.heldCauses ∧
      s.sameMemoryBut t (s.inRecord n) ∧ (s.part ≠ .stopped → t.held = s.held) ∧
      (s.part = .stopped → s.marksFields t)) ∧
  ∀ (s : State) (w : Writes) (n : Fin 8) (base pos count : Nat) (key : Key) (gen seq : Nat) (expect : List Byte)
    (token : Key) (out : Nat) (orphan : Bool),
    let r := s.recorded w
    let x := s.slot n
    let a := base + 64 + 188 * pos
    let bytes := r.mem.read a (188 * count)
    let stored := overPackets (convertPacket key token gen seq) pos (packetsOf bytes count)
    let to_ := out + 64 + 188 * pos
    let readable := inWindow s.windows false a (188 * count)
    let agrees := chainedCheck (frameCheckKey key) bytes = expect
    let inOut := inWindow s.windows true to_ (188 * count)
    s.flight = some ⟨.slot n, .reseal base pos count key gen seq expect token out, orphan⟩ → writesInSpace w = true →
    (orphan = true → readable → agrees → inOut → exec (.resealBatch w) s = .next
      { r with flight := none, mem := r.mem.write to_ stored }) ∧
    (orphan = true → ¬ readable ∨ ¬ agrees ∨ ¬ inOut → exec (.resealBatch w) s = .next { r with flight := none }) ∧
    ∀ e, orphan = false → x.mode = .move → s.bindsTo n e →
      (¬ readable ∨ (agrees ∧ ¬ inOut) →
        ∃ t, exec (.resealBatch w) s = .next t ∧ s.faultsTo t n e x .window ∧ t.flight = none ∧ t.sweep = s.sweep ∧
          r.sameMemoryBut t (s.inRecord n)) ∧
      ∀ f, x.frame = some f → f.pos < 16 → readable →
        (¬ agrees → f.packets = 0 → ∃ t, exec (.resealBatch w) s = .next t ∧ r.batchFrame t n ∧ t.clock = s.clock ∧
          r.sameMemoryBut t (s.inRecord n) ∧ s.finishes t n e (x.finished f .badCheck 0 0)) ∧
        (agrees → inOut → exec (.resealBatch w) s = .next
          { (r.setSlot n
              { x with
                frame := some
                  { f with worked := f.worked + 1, outChain := f.outChain.feed (frameCheckKey token) stored } }) with
            flight := none, mem := r.mem.write to_ stored })

/-- The final re-seal batch that completes has the export tag with its check value and the padding in the output frame,
which the slot puts: the output position and Po advance, the move mark advances by 1, and the frame is finished MOVED_OUT.
Where the mark has reached the chunk count the move completes, the entry MOVED where all of it was ONCE and HELD otherwise;
short of it the slot waits for the next frame, or ends where a close is asked. Once the entry has lapsed nothing is put. A
write that the windows refuse ends the batch there and faults the slot with WINDOW; tag and padding are an access each, so
that a padding refused leaves the tag in memory, as the model reads it (log 10). Po goes no further than the frame count
ahead of Do: where Do has moved back meanwhile the rest of the put is made and Po is held back, and so is Tc
behind an Fc moved back, which is the model's choice (log 42). The batch of a released slot only writes, refused or not (log
41). -/
def Obligations.FinalResealPuts : Prop :=
  ∀ (s : State) (n : Fin 8) (out len count : Nat) (tag : List Byte) (token : Key) (chain : Chain) (orphan : Bool),
    let x := s.slot n
    let check := (chain.feed (frameCheckKey token) tag).finish (frameCheckKey token)
    let rest := out + 64 + 188 * count
    let tagged := s.mem.write out (tag ++ check)
    let written := tagged.write rest (zeros (paddingLength len count))
    let inTag := inWindow s.windows true out (tag ++ check).length
    let inRest := inWindow s.windows true rest (paddingLength len count)
    let put :=
      { x.advanceC 1 with outPos := (x.outPos + 1) % x.geo.outFrames }
    s.flight = some ⟨.slot n, .finalReseal out len count tag token chain, orphan⟩ →
    (orphan = true →
      (inTag → inRest → exec .finalResealBatch s = .next { s with flight := none, mem := written }) ∧
      (inTag → ¬ inRest → exec .finalResealBatch s = .next { s with flight := none, mem := tagged }) ∧
      (¬ inTag → exec .finalResealBatch s = .next { s with flight := none })) ∧
    ∀ e, orphan = false → x.mode = .move → s.bindsTo n e →
      let y := s.entry e
      (∀ f t₀ left, x.frame = some f → f.pos < 16 → f.tag = some t₀ → f.permit = some left → inTag → inRest →
        (y.state = .moving → ∃ t, exec .finalResealBatch s = .next t ∧ s.batchFrame t n ∧ t.clock = s.clock ∧
          (∀ b, ¬ s.inRecord n b → t.mem.get b = written.get b) ∧
          (s.setEntry e { y with moveMark := y.moveMark + 1 }).finishes t n e
            (put.finished f .movedOut t₀.count left)) ∧
        (y.state ≠ .moving → exec .finalResealBatch s = .next { s with flight := none, mem := written })) ∧
      (¬ inTag ∨ ¬ inRest →
        ∃ t, exec .finalResealBatch s = .next t ∧ s.faultsTo t n e x .window ∧ t.flight = none ∧ t.sweep = s.sweep ∧
          (inTag → ∀ b, ¬ s.inRecord n b → t.mem.get b = tagged.get b) ∧ (¬ inTag → s.sameMemoryBut t (s.inRecord n)))

/-! ## The table image -/

/-- The batches of a SAVE: an entry batch lays its four records at their place in the image and feeds them into the running
value, the image generation that wraps their keys laid low byte first as the model reads R43 (log 46); the header batch
writes the header with its check value, and with it the generation cell becomes the image generation, the SAVE ends, and DONE
shows it where no later part order has been taken. A write that the windows refuse ends the SAVE with WINDOW, the cell as it
was, and leaves no byte of that batch, whose bytes are one access as the model reads it (log 10). -/
def Obligations.SaveBatchesWriteImage : Prop :=
  ∀ (s : State) (number : Option Mark) (addr : Nat) (table : Vector Entry 64) (time gen k : Nat) (chain : Chain)
    (orphan : Bool),
    let box := s.fused.boxKey
    let records := batchRecords box gen table k
    let a := addr + 512 + 4096 * k
    let header := imageHeader gen time ++ (chain.feed (imageCheckKey box) (imageHeader gen time)).finish (imageCheckKey box)
    let ended (t : State) (res : Result) (detail cell : Nat) (mem : Memory) : Prop :=
      t.flight = none ∧ t.image = none ∧ t.cell = cell ∧
        t.header =
          (if number = some s.partLatch then { s.header with result := res, detail := detail } else s.header) ∧
        (number = some s.partLatch → partFlag .result ∈ t.flags) ∧ (number ≠ some s.partLatch → t.flags = s.flags) ∧
        s.flagsBut t [partFlag .result] ∧ t.slots = s.slots ∧ t.entries = s.entries ∧ s.sameKeysAndClock t ∧
        t.kept = { s.kept with header := t.header, cell := t.cell, image := none } ∧ t.waiting = s.waiting ∧
        ∀ b, ¬ s.inHeader b → t.mem.get b = mem.get b
    s.image = some (.save number addr table time gen k chain) →
    (s.flight = some ⟨.image, .saveEntries, orphan⟩ →
      (inWindow s.windows true a records.length → exec .saveEntryBatch s = .next
        { s with
          flight := none, mem := s.mem.write a records
          image := some (.save number addr table time gen (k + 1) (chain.feed (imageCheckKey box) records)) }) ∧
      (¬ inWindow s.windows true a records.length → s.part ≠ .stopped →
        ∃ t, exec .saveEntryBatch s = .next t ∧ ended t .window 0 s.cell s.mem)) ∧
    (s.flight = some ⟨.image, .saveHeader, orphan⟩ → s.part ≠ .stopped →
      (inWindow s.windows true addr header.length →
        ∃ t, exec .saveHeaderBatch s = .next t ∧ ended t .done gen gen (s.mem.write addr header)) ∧
      (¬ inWindow s.windows true addr header.length →
        ∃ t, exec .saveHeaderBatch s = .next t ∧ ended t .window 0 s.cell s.mem))

/-- The batches of a LOAD: a header without marker or format ends it IMAGE_BAD; entry batches fill the staging copy; after
the last one a check value that differs ends it IMAGE_BAD and another generation IMAGE_OLD, with table, clock and readiness
as they were; otherwise the table is replaced, LIVE and MOVING entries converted, the clock raised to the saved time, every
lapse time derived and judged, with LAPSE raised where an entry lapses, and the part is READY. A read that the windows
refuse ends the LOAD with WINDOW. The result is written and RESULT raised where no later part order has been taken. The image
generation that unwraps the keys is laid low byte first, as the model reads R43 (log 46). -/
def Obligations.LoadBatchesReadImage : Prop :=
  ∀ (s : State) (w : Writes) (number : Option Mark) (addr : Nat) (staging : List (List Byte)) (k : Nat) (chain : Chain)
    (orphan : Bool), writesInSpace w = true → s.part ≠ .stopped →
    let r := s.recorded w
    let ended (t : State) (res : Result) (detail : Nat) : Prop :=
      t.image = none ∧
        t.header =
          (if number = some s.partLatch then { s.header with result := res, detail := detail } else s.header) ∧
        (partFlag .result ∈ t.flags ↔ partFlag .result ∈ s.flags ∨ number = some s.partLatch)
    let asWas (t : State) : Prop := t.flight = none ∧ t.entries = s.entries ∧ t.slots = s.slots ∧
      t.kept = { s.kept with header := t.header, image := t.image } ∧ s.sameKeysAndClock t ∧ t.waiting = s.waiting ∧
      s.flagsBut t [partFlag .result] ∧ r.sameMemoryBut t s.inHeader
    (s.flight = some ⟨.image, .loadHeader, orphan⟩ → s.image = some (.load number addr none staging k chain) →
      let header := r.mem.read addr 512
      let ok := header.take 4 = [0x4C, 0x32, 0x49, 0x4D] ∧ (header.drop 4).take 1 = [1]
      let reads := inWindow s.windows false addr 512
      ∃ t, exec (.loadHeaderBatch w) s = .next t ∧ asWas t ∧
        (reads → ok → t.image = some (.load number addr (some header) staging k chain) ∧ t.header = s.header ∧
          t.flags = s.flags) ∧
        (reads → ¬ ok → ended t .imageBad 0) ∧ (¬ reads → ended t .window 0)) ∧
    ∀ header, s.flight = some ⟨.image, .loadEntries, orphan⟩ →
      s.image = some (.load number addr (some header) staging k chain) →
      let a := addr + 512 + 4096 * k
      let reads := inWindow s.windows false a 4096
      let box := s.fused.boxKey
      let bytes := r.mem.read a 4096
      let copy := staging ++ recordsOf bytes
      let value := chain.feed (imageCheckKey box) bytes
      let check := (value.feed (imageCheckKey box) (header.take 504)).finish (imageCheckKey box)
      let gen := field header 8 4
      let clock := max s.clock (field header 12 4)
      (reads → k + 1 < 16 → exec (.loadEntryBatch w) s = .next
        { r with flight := none, image := some (.load number addr (some header) copy (k + 1) value) }) ∧
      (¬ reads → ∃ t, exec (.loadEntryBatch w) s = .next t ∧ asWas t ∧ ended t .window 0) ∧
      (reads → 16 ≤ k + 1 → check ≠ (header.drop 504).take 8 ∨ gen ≠ s.cell →
        ∃ t, exec (.loadEntryBatch w) s = .next t ∧ asWas t ∧
          ended t (if check ≠ (header.drop 504).take 8 then .imageBad else .imageOld) 0) ∧
      (reads → 16 ≤ k + 1 → check = (header.drop 504).take 8 → gen = s.cell →
        ∃ t, exec (.loadEntryBatch w) s = .next t ∧ t.flight = none ∧ t.slots = s.slots ∧
          t.kept = { s.kept with header := t.header, image := none, ready := true } ∧ t.pool = s.pool ∧
          t.drawing = s.drawing ∧ t.clock = clock ∧ ended t .done gen ∧ r.sameMemoryBut t s.inHeader ∧
          s.flagsBut t [partFlag .result, partFlag .lapse] ∧
          let loaded (e : Fin 64) := (entryOf box gen e.val (copy.getD e.val [])).cutOff
          (∀ e, t.entry e = ((loaded e).derivedAt clock).viewedOut false) ∧
          (partFlag .lapse ∈ t.flags ↔
            partFlag .lapse ∈ s.flags ∨ ∃ e, (t.entry e).state = .lapsed ∧ (loaded e).state ≠ .lapsed))

/-! ## The clock and the lapse -/

/-- A tick advances the clock by 1, up to 4,294,967,295, in every part state, and the entries are judged: those whose lapse
time it reaches are LAPSED with no keys, the LAPSED faults of their slots are due, and LAPSE is raised. -/
def Obligations.ClockTickAdvances : Prop :=
  ∀ s : State, ∃ t, exec .clockTick s = .next t ∧ s.advancedTo t (min (s.clock + 1) top32) ∧
    (∀ e, t.entry e ≠ s.entry e → (t.entry e).state = .lapsed ∧ (t.entry e).keyless) ∧
    t.kept = { s.kept with tickPhase := 0 } ∧ t.pool = s.pool ∧ t.drawing = s.drawing ∧ t.mem = s.mem ∧
    t.held = s.held ∧ t.waiting = s.waiting ∧ t.flight = s.flight

/-- The LAPSED fault of a slot whose entry has lapsed or returned to FREE or RETIRED: the slot is FAULTED with its work
dropped and off the waiting list, the entry stays as it is but loses the binding. A take in progress of a RECORD slot and a
deliver batch in flight of a PLAY slot complete first, in the step itself as the model has it (log 18), with no WINDOW where
the windows refuse them (the model's choice, log 41; log 10 says what a refused batch leaves in memory) and T or Pp as far as
R63 lets it (log 42); another batch in flight is left to end with its values dropped. FAULT is raised, or held where the part
is STOPPED, with the fields that change marked for writing. A slot with no such fault due is left alone. -/
def Obligations.LapsedSlotFaults : Prop :=
  ∀ (s : State) (w : Writes) (n : Fin 8) (e : Fin 64), writesInSpace w = true →
    let r := s.recorded w
    let x := s.slot n
    let faults (y : Slot) (m : Memory) (flying : Option Flight) : Prop :=
      ∃ t, exec (.slotFaultLapsed n w) s = .next t ∧ t.slot n = y.toFaulted .lapsed ∧
        t.entry e = (s.entry e).unbind n ∧ s.sameSlotsBut t n ∧ s.sameEntriesBut t e ∧
        t.waiting = s.waiting.filter (· ≠ n) ∧ t.flight = flying ∧ t.kept = s.kept ∧ s.sameKeysAndClock t ∧
        (∀ a, ¬ s.inRecord n a → t.mem.get a = m.get a) ∧
        (s.part ≠ .stopped → slotFlag .fault n ∈ t.flags ∧ s.flagsBut t [slotFlag .fault n] ∧ t.held = s.held ∧
          t.heldCauses = s.heldCauses) ∧
        (s.part = .stopped → t.flags = s.flags ∧ (∀ f, f ∈ t.heldCauses ↔ f ∈ s.heldCauses ∨ f = slotFlag .fault n) ∧
          { r with mem := m }.marksFields t)
    (x.lapseDue = true → x.boundEntry = some e →
      (s.entry e).state = .lapsed ∨ (s.entry e).state = .free ∨ (s.entry e).state = .retired →
      (x.mode = .record → r.takeDone x (faults · r.mem (s.orphaned n)) (faults · r.mem (s.orphaned n))) ∧
      (x.mode ≠ .record → r.deliverDone n x faults)) ∧
    (x.lapseDue = false → exec (.slotFaultLapsed n w) s = .next r)

/-! ## Rules of the table and of the cipher -/

/-- The rule fields of an OPEN or RULE are clamped, not refused. -/
def Obligations.RuleFieldsClamped : Prop :=
  (∀ hold, clampClassHold 0 hold = ⟨.openCopy, none⟩ ∧ clampClassHold 1 hold = ⟨.once, none⟩ ∧
    clampClassHold 2 hold = ⟨.noMore, none⟩ ∧ (clampClassHold 3 hold).cls = .never ∧
    (hold = 0 → (clampClassHold 3 hold).hold = some 90) ∧
    (1 ≤ hold → hold ≤ 1023 → (clampClassHold 3 hold).hold = some hold) ∧
    (1023 < hold → (clampClassHold 3 hold).hold = some 1023) ∧
    ∀ cls, 3 < cls → clampClassHold cls hold = ⟨.never, some 90⟩) ∧
  (∀ v, v ≤ 255 → clampViews v = (if v = 0 then none else if v = 255 then some 254 else some v)) ∧
  (∀ t, t ≤ top32 → clampExpiry t = (if t = 0 ∨ t = 4294967295 then none else some t)) ∧
  (∀ p, clampRotation p = if 65535 < p then 65535 else p) ∧
  (clampLength 0 = 256 ∧ clampLength 1 = 512 ∧ clampLength 2 = 1024 ∧ clampLength 3 = 2048 ∧
    ∀ code, 3 < code → clampLength code = 512) ∧
  ∀ (s : State) (n : Fin 8),
    (s.ruleFields n).classHold = clampClassHold (s.slotField n 8 1) (s.slotField n 10 2) ∧
    (s.ruleFields n).views = clampViews (s.slotField n 9 1) ∧
    (s.ruleFields n).expiry = clampExpiry (s.slotField n 12 4) ∧
    (s.slotField n 12 4 = 0 → s.checkRecordOpen n ≠ .error .expired)

/-- A merge takes the stricter class and, for NEVER, the smaller of the holds that are present; it touches no expiry and no
views. -/
def Obligations.MergeTowardsStricter : Prop :=
  (∀ (g : Segment) (r : ClassHold),
    let m := mergeRule r g
    m = { g with cls := m.cls, hold := m.hold } ∧
      (m.cls = g.cls ∨ m.cls = r.cls) ∧ g.cls.code ≤ m.cls.code ∧ r.cls.code ≤ m.cls.code ∧
      (m.cls ≠ .never → m.hold = none) ∧
      (m.cls = .never → ∀ a b, g.hold = some a → r.hold = some b → m.hold = some (min a b)) ∧
      (m.cls = .never → g.hold = none → m.hold = r.hold) ∧ (m.cls = .never → r.hold = none → m.hold = g.hold) ∧
      (g.cls ≠ .never → g.hold = none → r.cls.code ≤ g.cls.code → m = g)) ∧
  (∀ x : Entry, x.mergePending.expiry = x.expiry ∧ x.mergePending.views = x.views) ∧
  ∀ (first count : Nat) (key : Option Key) (a b : Option Nat),
    let seg (cls : RuleClass) (hold : Option Nat) : Segment := ⟨first, count, key, cls, hold, a, b⟩
    mergeRule ⟨.never, some 120⟩ (seg .once none) = seg .never (some 120) ∧
      mergeRule ⟨.openCopy, none⟩ (seg .never (some 120)) = seg .never (some 120) ∧
      mergeRule ⟨.never, some 45⟩ (seg .never (some 120)) = seg .never (some 45) ∧
      mergeRule ⟨.once, none⟩ (seg .noMore none) = seg .noMore none ∧
      mergeRule ⟨.noMore, none⟩ (seg .openCopy none) = seg .noMore none

/-- The permit of a frame: AGED where its age has reached the hold limit of a NEVER segment, then EXPIRED where the clock
has reached the expiry, then MOVED for a ONCE chunk below the move mark outside a MOVE slot; otherwise it is permitted with
the least of 65,535, the hold limit less the age, and the seconds to the expiry, at least 1. -/
def Obligations.PermitAnswers : Prop :=
  ∀ (clock : Nat) (x : Entry) (g : Segment) (mode : Mode) (seq stamp : Nat),
    let age := clock - stamp
    let limit := g.hold.getD 0 * 60
    let p := permit clock x g mode seq stamp
    let aged := g.cls = .never ∧ limit ≤ age
    let past := ∃ e, x.expiry = some e ∧ e ≤ clock
    let gone := mode ≠ .move ∧ g.cls = .once ∧ seq < x.moveMark
    (aged → p = .refused .aged) ∧ (¬ aged → past → p = .refused .expired) ∧
      (¬ aged → ¬ past → gone → p = .refused .moved) ∧
      (¬ aged → ¬ past → ¬ gone → ∃ left, p = .permitted left ∧ 1 ≤ left ∧ left ≤ 65535 ∧
        (g.cls = .never → left ≤ limit - age) ∧ (∀ e, x.expiry = some e → left ≤ e - clock) ∧
        (left = 65535 ∨ g.cls = .never ∧ left = limit - age ∨ ∃ e, x.expiry = some e ∧ left = e - clock))

/-- A received packet comes back from its stored form, sealed or clear, and from the export frame made of it; it is stored
in 188 bytes whose byte 0 shows the form and whose bytes 1 to 3 are as received. -/
def Obligations.PacketsRoundTrip : Prop :=
  ∀ (key token : Key) (gen seq pos : Nat) (isSealed : Bool) (p : List Byte), p.length = 188 → byteAt p 0 = 0x47 →
    let stored := storePacket key gen seq pos isSealed p
    stored.length = 188 ∧ byteAt stored 0 = (if isSealed then 0xB8 else 0x47) ∧
      (stored.drop 1).take 3 = (p.drop 1).take 3 ∧ (isSealed = false → stored = p) ∧
      openPacket key gen seq pos stored = p ∧
      (convertPacket key token gen seq pos stored).take 4 = stored.take 4 ∧
      openPacket token 0 seq pos (convertPacket key token gen seq pos stored) = p

/-- An entry whose fields fit comes back from its entry record of 1,024 bytes, keys unwrapped, without its bindings and its
lapse time, under any box key and image generation. -/
def Obligations.ImageRecordRoundTrip : Prop :=
  ∀ (boxKey : Key) (gen : Nat) (e : Fin 64) (x : Entry), x.fits →
    (imageRecord boxKey gen e.val x).length = 1024 ∧
      entryOf boxKey gen e.val (imageRecord boxKey gen e.val x) = { x with binding := none, players := [], lapseTime := none }

/-! ## Invariants -/

/-- Recorder memory keeps its canonical form through every step. -/
def Obligations.MemoryStaysCanonical : Prop :=
  ∀ s t : State, s.mem.wf = true → step s = .next t → t.mem.wf = true

/-- The protected clock never decreases and never exceeds 4,294,967,295, except that a full reset sets it to 0; and every step
leaves each entry's lapse time as its state, expiry and segments give it, and no lapse time that the clock has reached: an
entry whose time has come is LAPSED in the step that brings it. -/
def Obligations.ClockAndLapseTimesHold : Prop :=
  ∀ s t : State, step s = .next t →
    (s.clockOk → t.clockOk ∧ (s.clock ≤ t.clock ∨ ∃ a b, s.pending.head? = some (.fullReset a b) ∧ t.clock = 0)) ∧
      (s.lapseOk → t.lapseOk)

/-- No step advances a take mark past the fill mark of the view, nor a put mark further than the frame count, for the
packet window its size, ahead of the mark of the view that follows it: T, Tc, P, Po and Pp stand so wherever a step has
moved them. An advance that these limits allow is made whole; of one that they do not the model makes as much as they allow
and holds the rest back, and that is its own choice (log 42). -/
def Obligations.MarksKeepLimits : Prop :=
  (∀ (s t : State) (n : Fin 8), step s = .next t →
    let x := s.slot n
    let y := t.slot n
    let took (fill before after : Mark) : Prop := after ≠ before → ahead fill after < 2 ^ 31
    let put (done before after : Mark) (size : Nat) : Prop := after ≠ before → ahead after done ≤ size
    (y.mode = .record → took y.viewA x.eng.markA y.eng.markA ∧ put y.viewB x.eng.markB y.eng.markB y.geo.frames) ∧
    (y.mode = .play → took y.viewB x.eng.markB y.eng.markB ∧ put y.viewA x.eng.markA y.eng.markA y.geo.streamSize) ∧
    (y.mode = .check → took y.viewB x.eng.markB y.eng.markB) ∧
    (y.mode = .move → took y.viewB x.eng.markB y.eng.markB ∧ put y.viewC x.eng.markC y.eng.markC y.geo.outFrames)) ∧
  ∀ (x : Slot) (k : Nat),
    (x.owedA = 0 → (if x.mode = .play then ahead x.eng.markA x.viewA + k ≤ x.geo.streamSize
        else ahead x.viewA x.eng.markA < 2 ^ 31 ∧ k ≤ ahead x.viewA x.eng.markA) →
      x.advanceA k = { x with eng := { x.eng with markA := x.eng.markA + BitVec.ofNat 32 k } }) ∧
    (x.owedB = 0 → (if x.mode = .record then ahead x.eng.markB x.viewB + k ≤ x.geo.frames
        else ahead x.viewB x.eng.markB < 2 ^ 31 ∧ k ≤ ahead x.viewB x.eng.markB) →
      x.advanceB k = { x with eng := { x.eng with markB := x.eng.markB + BitVec.ofNat 32 k } }) ∧
    (x.owedC = 0 → ahead x.eng.markC x.viewC + k ≤ x.geo.outFrames →
      x.advanceC k = { x with eng := { x.eng with markC := x.eng.markC + BitVec.ofNat 32 k } }) ∧
    (x.advanceA k).placeA = x.placeA + BitVec.ofNat 32 k ∧ (x.advanceB k).placeB = x.placeB + BitVec.ofNat 32 k ∧
    (x.advanceC k).placeC = x.placeC + BitVec.ofNat 32 k

/-- Every step keeps the key pool at 4 keys or fewer with a draw in flight exactly while it holds fewer, the pending flags
each once and in the order ATTENTION returns them, and the vote window at 3 offsets or fewer of which no two agree. -/
def Obligations.PoolFlagsAndVotesHold : Prop :=
  ∀ s t : State, step s = .next t → (s.poolOk → t.poolOk) ∧ (flagsOk s.flags → flagsOk t.flags) ∧
    (votesOk s.votes → votesOk t.votes)

/-- Every step but the last of a LOAD, which takes its table from memory, keeps the segments of a LIVE, HELD or MOVING
entry dividing its chunks, 1 to 16 of them, and keeps FREE, RETIRED, LAPSED and MOVED entries without keys. -/
def Obligations.EntriesStaySound : Prop :=
  ∀ s t : State, (∀ w, s.pending.head? ≠ some (.loadEntryBatch w)) → step s = .next t →
    (s.segmentsOk → t.segmentsOk) ∧ (s.keysOk → t.keysOk)

/-- Only FRESH and the last batch of a LOAD make the part READY, only a full reset makes it NOT_READY, and only the header
batch of a SAVE changes the generation cell. The fused keys never change. While the part is NOT_READY every step keeps its
table as the full reset left it, 64 entries FREE with generation 0 and no segments, and its slots IDLE. -/
def Obligations.ReadinessAndCellMove : Prop :=
  ∀ s t : State, step s = .next t →
    (s.ready = false → t.ready = true →
      ∃ w, s.pending.head? = some (.fresh w) ∨ s.pending.head? = some (.loadEntryBatch w)) ∧
    (s.ready = true → t.ready = false → ∃ a b, s.pending.head? = some (.fullReset a b)) ∧
    (t.cell ≠ s.cell → s.pending.head? = some .saveHeaderBatch) ∧ t.fused = s.fused ∧ (s.unreadyOk → t.unreadyOk)

/-- Every byte of memory that a step changes beyond the recorder's own writes lies in the engine parts of the board or in a
held writable window, and outcome lists keep their 16 positions. -/
def Obligations.WritesStayInWindows : Prop :=
  ∀ (s t : State) (c : Instr) (rest : List Instr), s.pending = c :: rest → s.positionsOk → step s = .next t →
    t.positionsOk ∧ ∀ a, ¬ s.mayWrite a → t.mem.get a = (s.mem.recorder (c.writes.getD [])).get a
end

