-- ==== Sys2Proof/Laws/Memory.lean ====
section
/-! SUPPORT. Laws/Memory.lean: what reads find after writes, and that every memory operation keeps the canonical form. -/

namespace Sys2Proof.Machine

/-! ## Reads -/

theorem Memory.get_eq_find (m : Memory) (a : Nat) :
    m.get a = ((m.find? fun c => c.1 == a).map Prod.snd).getD 0 := rfl

@[simp] theorem Memory.get_nil (a : Nat) : Memory.get [] a = 0 := rfl

@[simp] theorem Memory.length_read (m : Memory) (a len : Nat) : (m.read a len).length = len := by
  simp [Memory.read]

theorem Memory.getElem_read (m : Memory) (a len i : Nat) (h : i < (m.read a len).length) :
    (m.read a len)[i] = m.get (a + i) := by
  simp [Memory.read]

/-- Two memories that agree byte by byte on a run read the same there. -/
theorem Memory.read_congr {m m' : Memory} {a len : Nat} (h : ∀ i, a ≤ i → i < a + len → m.get i = m'.get i) :
    m.read a len = m'.read a len := by
  unfold Memory.read
  apply List.map_congr_left
  intro i hi
  exact h _ (by omega) (by have := List.mem_range.mp hi; omega)

/-! ## Writes -/

theorem Memory.find_cells_none {a0 : Nat} {bs : List Byte} {a : Nat} (h : a < a0 ∨ a0 + bs.length ≤ a) :
    (Memory.cells a0 bs).find? (fun c => c.1 == a) = none := by
  induction bs generalizing a0 with
  | nil => simp [Memory.cells]
  | cons b bs ih =>
    simp only [List.length_cons] at h
    have hr := ih (a0 := a0 + 1) (by omega)
    unfold Memory.cells
    split
    · exact hr
    · have hne : ¬ a0 = a := by omega
      simp [hne, hr]

theorem Memory.find_cells {a0 : Nat} {bs : List Byte} {i : Nat} (h : i < bs.length) :
    ((Memory.cells a0 bs).find? fun c => c.1 == a0 + i) = if bs[i] = 0 then none else some (a0 + i, bs[i]) := by
  induction bs generalizing a0 i with
  | nil => simp at h
  | cons b bs ih =>
    unfold Memory.cells
    cases i with
    | zero =>
      by_cases hb : b = 0
      · simp only [hb, if_true, List.getElem_cons_zero]
        exact Memory.find_cells_none (Or.inl (by omega))
      · rw [if_neg hb, List.find?_cons]
        simp only [Nat.add_zero, beq_self_eq_true, List.getElem_cons_zero]
        rw [if_neg hb]
    | succ i =>
      have hi : i < bs.length := by simpa using h
      have hr := ih (a0 := a0 + 1) hi
      rw [show a0 + (i + 1) = a0 + 1 + i by omega]
      have hne : ¬ a0 = a0 + 1 + i := by omega
      split
      · simpa using hr
      · simpa [List.find?_cons, hne] using hr

/-- The byte at an address after a write: the byte written there, or what was there before. -/
theorem Memory.get_write (m : Memory) (a0 : Nat) (bs : List Byte) (a : Nat) :
    (m.write a0 bs).get a = if a0 ≤ a ∧ a < a0 + bs.length then bs.getD (a - a0) 0 else m.get a := by
  have hlow : (m.filter fun c => decide (c.1 < a0)).find? (fun c => c.1 == a) =
      if a < a0 then m.find? (fun c => c.1 == a) else none := by
    rw [List.find?_filter]
    split
    · congr 1
      funext c
      by_cases hc : c.1 = a <;> simp [hc]
      assumption
    · rw [List.find?_eq_none]
      intro c _
      simp
      omega
  have hhigh : (m.filter fun c => decide (a0 + bs.length ≤ c.1)).find? (fun c => c.1 == a) =
      if a0 + bs.length ≤ a then m.find? (fun c => c.1 == a) else none := by
    rw [List.find?_filter]
    split
    · congr 1
      funext c
      by_cases hc : c.1 = a <;> simp [hc]
      assumption
    · rw [List.find?_eq_none]
      intro c _
      simp
      omega
  unfold Memory.write Memory.get
  rw [List.find?_append, List.find?_append, hlow, hhigh]
  by_cases h1 : a < a0
  · rw [Memory.find_cells_none (Or.inl h1)]
    simp only [h1, if_true, Option.none_or]
    rw [if_neg (by omega), if_neg (by omega)]
    simp
  · by_cases h2 : a0 + bs.length ≤ a
    · rw [Memory.find_cells_none (Or.inr h2)]
      simp only [h1, h2, if_true, if_false, Option.none_or]
      rw [if_neg (by omega)]
    · have hi : a - a0 < bs.length := by omega
      have hc := Memory.find_cells (a0 := a0) (i := a - a0) hi
      rw [show a0 + (a - a0) = a by omega] at hc
      rw [hc]
      simp only [h1, h2, if_false, Option.none_or, Option.or_none]
      have hin : a0 ≤ a ∧ a < a0 + bs.length := ⟨by omega, by omega⟩
      rw [if_pos hin]
      have hd : bs.getD (a - a0) 0 = bs[a - a0] := by simp [List.getD, hi]
      rw [hd]
      split
      · rename_i h0
        simpa using h0.symm
      · rfl

/-- A write leaves every byte outside it alone. -/
theorem Memory.get_write_outside {m : Memory} {a0 : Nat} {bs : List Byte} {a : Nat} (h : a < a0 ∨ a0 + bs.length ≤ a) :
    (m.write a0 bs).get a = m.get a := by
  rw [Memory.get_write, if_neg (by omega)]

/-- A read of what has just been written gives it. -/
theorem Memory.read_write (m : Memory) (a : Nat) (bs : List Byte) : (m.write a bs).read a bs.length = bs := by
  apply List.ext_getElem
  · simp
  · intro i h1 h2
    rw [Memory.getElem_read, Memory.get_write, if_pos ⟨by omega, by omega⟩]
    simp [List.getD, h2]

/-! ## The canonical form -/

theorem Memory.wf_iff (m : Memory) :
    m.wf = true ↔ (m.Pairwise fun x y => x.1 < y.1) ∧ ∀ c ∈ m, c.2 ≠ 0 := by
  simp [Memory.wf, List.all_eq_true]

theorem Memory.mem_cells {a0 : Nat} {bs : List Byte} {c : Host.Cell} (h : c ∈ Memory.cells a0 bs) :
    a0 ≤ c.1 ∧ c.1 < a0 + bs.length ∧ c.2 ≠ 0 := by
  induction bs generalizing a0 with
  | nil => simp [Memory.cells] at h
  | cons b bs ih =>
    unfold Memory.cells at h
    simp only [List.length_cons]
    split at h
    · have := ih h
      refine ⟨by omega, by omega, this.2.2⟩
    · rcases List.mem_cons.mp h with rfl | h
      · refine ⟨Nat.le_refl _, by simp, by assumption⟩
      · have := ih h
        refine ⟨by omega, by omega, this.2.2⟩

theorem Memory.pairwise_cells (a0 : Nat) (bs : List Byte) : (Memory.cells a0 bs).Pairwise fun x y => x.1 < y.1 := by
  induction bs generalizing a0 with
  | nil => simp [Memory.cells]
  | cons b bs ih =>
    unfold Memory.cells
    split
    · exact ih _
    · rw [List.pairwise_cons]
      refine ⟨fun c hc => ?_, ih _⟩
      have := (Memory.mem_cells hc).1
      simp only
      omega

/-- A write keeps the canonical form. -/
theorem Memory.wf_write {m : Memory} (h : m.wf = true) (a0 : Nat) (bs : List Byte) : (m.write a0 bs).wf = true := by
  rw [Memory.wf_iff] at h ⊢
  unfold Memory.write
  constructor
  · rw [List.pairwise_append, List.pairwise_append]
    refine ⟨h.1.filter _, ⟨Memory.pairwise_cells _ _, h.1.filter _, fun c hc d hd => ?_⟩, fun c hc d hd => ?_⟩
    · have h1 := Memory.mem_cells hc
      have h2 := List.mem_filter.mp hd
      simp at h2
      omega
    · have h1 := List.mem_filter.mp hc
      simp at h1
      rcases List.mem_append.mp hd with hd | hd
      · have h2 := Memory.mem_cells hd
        omega
      · have h2 := List.mem_filter.mp hd
        simp at h2
        omega
  · intro c hc
    rcases List.mem_append.mp hc with hc | hc
    · exact h.2 c (List.mem_filter.mp hc).1
    · rcases List.mem_append.mp hc with hc | hc
      · exact (Memory.mem_cells hc).2.2
      · exact h.2 c (List.mem_filter.mp hc).1

/-- The recorder's writes keep the canonical form. -/
theorem Memory.wf_recorder {m : Memory} (h : m.wf = true) (w : Writes) : (m.recorder w).wf = true := by
  unfold Memory.recorder
  induction w generalizing m with
  | nil => exact h
  | cons b w ih => exact ih (Memory.wf_write h _ _)

/-- The canonical form makes equal what reads the same. -/
theorem Memory.ext_get {m m' : Memory} (h : m.wf = true) (h' : m'.wf = true) (hg : ∀ a, m.get a = m'.get a) : m = m' := by
  have key : ∀ {m : Memory}, m.wf = true → ∀ c, c ∈ m ↔ c.2 ≠ 0 ∧ m.get c.1 = c.2 := by
    intro m hm c
    rw [Memory.wf_iff] at hm
    have nodup : ∀ d ∈ m, m.get d.1 = d.2 := by
      intro d hd
      obtain ⟨l1, l2, rfl⟩ := List.append_of_mem hd
      have hp := List.pairwise_append.mp hm.1
      have hn : l1.find? (fun x => x.1 == d.1) = none := by
        rw [List.find?_eq_none]
        intro x hx
        have := hp.2.2 x hx d (by simp)
        simp
        omega
      simp [Memory.get, List.find?_append, hn]
    constructor
    · intro hc
      exact ⟨hm.2 c hc, nodup c hc⟩
    · rintro ⟨h0, hg⟩
      unfold Memory.get at hg
      cases hf : m.find? (fun x => x.1 == c.1) with
      | none => simp [hf] at hg; exact absurd hg.symm h0
      | some d =>
        have hd := List.mem_of_find?_eq_some hf
        have he := List.find?_some hf
        simp [hf] at hg he
        rw [show c = d from Prod.ext he.symm hg.symm]
        exact hd
  have hmem : ∀ c, c ∈ m ↔ c ∈ m' := fun c => by rw [key h, key h', hg]
  have hp := ((Memory.wf_iff m).mp h).1
  have hp' := ((Memory.wf_iff m').mp h').1
  have hnd : m.Nodup := hp.imp fun {a b} hab he => by subst he; omega
  have hnd' : m'.Nodup := hp'.imp fun {a b} hab he => by subst he; omega
  exact List.Perm.eq_of_pairwise (fun a b _ _ hab hba => by omega) hp hp' ((List.perm_ext_iff_of_nodup hnd hnd').mpr hmem)

end Sys2Proof.Machine
end

