-- ==== Sys2Proof/Laws/State.lean ====
section
/-! SUPPORT. Laws/State.lean: for each named update of State, the fields it leaves alone, and what the accessors of slots
and entries find after it. -/

namespace Sys2Proof.Machine

/-! ## Slots and entries -/

@[simp] theorem State.slot_setSlot_self (s : State) (n : Fin 8) (x : Slot) : (s.setSlot n x).slot n = x := by
  simp [State.slot, State.setSlot]

theorem State.slot_setSlot_ne (s : State) {m n : Fin 8} (x : Slot) (h : m ≠ n) : (s.setSlot n x).slot m = s.slot m := by
  have : n.val ≠ m.val := fun h' => h (Fin.ext h'.symm)
  simp [State.slot, State.setSlot, this]

theorem State.slot_setSlot (s : State) (m n : Fin 8) (x : Slot) :
    (s.setSlot n x).slot m = if m = n then x else s.slot m := by
  split
  · subst m
    simp
  · exact s.slot_setSlot_ne x (by assumption)

@[simp] theorem State.slot_modSlot_self (s : State) (n : Fin 8) (g : Slot → Slot) :
    (s.modSlot n g).slot n = g (s.slot n) := by
  simp [State.modSlot]

theorem State.slot_modSlot (s : State) (m n : Fin 8) (g : Slot → Slot) :
    (s.modSlot n g).slot m = if m = n then g (s.slot n) else s.slot m := by
  simp [State.modSlot, State.slot_setSlot]

@[simp] theorem State.entry_setEntry_self (s : State) (e : Fin 64) (x : Entry) : (s.setEntry e x).entry e = x := by
  simp [State.entry, State.setEntry]

theorem State.entry_setEntry (s : State) (d e : Fin 64) (x : Entry) :
    (s.setEntry e x).entry d = if d = e then x else s.entry d := by
  split
  · subst d
    simp
  · rename_i h
    have : e.val ≠ d.val := fun h' => h (Fin.ext h'.symm)
    simp [State.entry, State.setEntry, this]

@[simp] theorem State.entry_modEntry_self (s : State) (e : Fin 64) (g : Entry → Entry) :
    (s.modEntry e g).entry e = g (s.entry e) := by
  simp [State.modEntry]

theorem State.entry_modEntry (s : State) (d e : Fin 64) (g : Entry → Entry) :
    (s.modEntry e g).entry d = if d = e then g (s.entry e) else s.entry d := by
  simp [State.modEntry, State.entry_setEntry]

/-! ## setSlot -/
@[simp] theorem State.setSlot_baseLow (s : State) (n : Fin 8) (x : Slot) : (s.setSlot n x).baseLow = s.baseLow := rfl
@[simp] theorem State.setSlot_baseHigh (s : State) (n : Fin 8) (x : Slot) : (s.setSlot n x).baseHigh = s.baseHigh := rfl
@[simp] theorem State.setSlot_windows (s : State) (n : Fin 8) (x : Slot) : (s.setSlot n x).windows = s.windows := rfl
@[simp] theorem State.setSlot_mem (s : State) (n : Fin 8) (x : Slot) : (s.setSlot n x).mem = s.mem := rfl
@[simp] theorem State.setSlot_part (s : State) (n : Fin 8) (x : Slot) : (s.setSlot n x).part = s.part := rfl
@[simp] theorem State.setSlot_refusal (s : State) (n : Fin 8) (x : Slot) : (s.setSlot n x).refusal = s.refusal := rfl
@[simp] theorem State.setSlot_divisor (s : State) (n : Fin 8) (x : Slot) : (s.setSlot n x).divisor = s.divisor := rfl
@[simp] theorem State.setSlot_attnEnable (s : State) (n : Fin 8) (x : Slot) : (s.setSlot n x).attnEnable = s.attnEnable := rfl
@[simp] theorem State.setSlot_sweepTimer (s : State) (n : Fin 8) (x : Slot) : (s.setSlot n x).sweepTimer = s.sweepTimer := rfl
@[simp] theorem State.setSlot_sweepPending (s : State) (n : Fin 8) (x : Slot) : (s.setSlot n x).sweepPending = s.sweepPending := rfl
@[simp] theorem State.setSlot_sweep (s : State) (n : Fin 8) (x : Slot) : (s.setSlot n x).sweep = s.sweep := rfl
@[simp] theorem State.setSlot_sweepCount (s : State) (n : Fin 8) (x : Slot) : (s.setSlot n x).sweepCount = s.sweepCount := rfl
@[simp] theorem State.setSlot_partLatch (s : State) (n : Fin 8) (x : Slot) : (s.setSlot n x).partLatch = s.partLatch := rfl
@[simp] theorem State.setSlot_header (s : State) (n : Fin 8) (x : Slot) : (s.setSlot n x).header = s.header := rfl
@[simp] theorem State.setSlot_held (s : State) (n : Fin 8) (x : Slot) : (s.setSlot n x).held = s.held := rfl
@[simp] theorem State.setSlot_heldCauses (s : State) (n : Fin 8) (x : Slot) : (s.setSlot n x).heldCauses = s.heldCauses := rfl
@[simp] theorem State.setSlot_writeAll (s : State) (n : Fin 8) (x : Slot) : (s.setSlot n x).writeAll = s.writeAll := rfl
@[simp] theorem State.setSlot_writeVote (s : State) (n : Fin 8) (x : Slot) : (s.setSlot n x).writeVote = s.writeVote := rfl
@[simp] theorem State.setSlot_directory (s : State) (n : Fin 8) (x : Slot) : (s.setSlot n x).directory = s.directory := rfl
@[simp] theorem State.setSlot_lastGranted (s : State) (n : Fin 8) (x : Slot) : (s.setSlot n x).lastGranted = s.lastGranted := rfl
@[simp] theorem State.setSlot_flight (s : State) (n : Fin 8) (x : Slot) : (s.setSlot n x).flight = s.flight := rfl
@[simp] theorem State.setSlot_entries (s : State) (n : Fin 8) (x : Slot) : (s.setSlot n x).entries = s.entries := rfl
@[simp] theorem State.setSlot_pool (s : State) (n : Fin 8) (x : Slot) : (s.setSlot n x).pool = s.pool := rfl
@[simp] theorem State.setSlot_drawing (s : State) (n : Fin 8) (x : Slot) : (s.setSlot n x).drawing = s.drawing := rfl
@[simp] theorem State.setSlot_waiting (s : State) (n : Fin 8) (x : Slot) : (s.setSlot n x).waiting = s.waiting := rfl
@[simp] theorem State.setSlot_query (s : State) (n : Fin 8) (x : Slot) : (s.setSlot n x).query = s.query := rfl
@[simp] theorem State.setSlot_clock (s : State) (n : Fin 8) (x : Slot) : (s.setSlot n x).clock = s.clock := rfl
@[simp] theorem State.setSlot_tickPhase (s : State) (n : Fin 8) (x : Slot) : (s.setSlot n x).tickPhase = s.tickPhase := rfl
@[simp] theorem State.setSlot_votes (s : State) (n : Fin 8) (x : Slot) : (s.setSlot n x).votes = s.votes := rfl
@[simp] theorem State.setSlot_ready (s : State) (n : Fin 8) (x : Slot) : (s.setSlot n x).ready = s.ready := rfl
@[simp] theorem State.setSlot_cell (s : State) (n : Fin 8) (x : Slot) : (s.setSlot n x).cell = s.cell := rfl
@[simp] theorem State.setSlot_image (s : State) (n : Fin 8) (x : Slot) : (s.setSlot n x).image = s.image := rfl
@[simp] theorem State.setSlot_fused (s : State) (n : Fin 8) (x : Slot) : (s.setSlot n x).fused = s.fused := rfl
@[simp] theorem State.setSlot_flags (s : State) (n : Fin 8) (x : Slot) : (s.setSlot n x).flags = s.flags := rfl
@[simp] theorem State.setSlot_attentionRead (s : State) (n : Fin 8) (x : Slot) : (s.setSlot n x).attentionRead = s.attentionRead := rfl
@[simp] theorem State.setSlot_pending (s : State) (n : Fin 8) (x : Slot) : (s.setSlot n x).pending = s.pending := rfl
@[simp] theorem State.setSlot_entry (s : State) (n : Fin 8) (x : Slot) (k : Fin 64) : (s.setSlot n x).entry k = s.entry k := rfl

/-! ## modSlot -/
@[simp] theorem State.modSlot_baseLow (s : State) (n : Fin 8) (g : Slot → Slot) : (s.modSlot n g).baseLow = s.baseLow := rfl
@[simp] theorem State.modSlot_baseHigh (s : State) (n : Fin 8) (g : Slot → Slot) : (s.modSlot n g).baseHigh = s.baseHigh := rfl
@[simp] theorem State.modSlot_windows (s : State) (n : Fin 8) (g : Slot → Slot) : (s.modSlot n g).windows = s.windows := rfl
@[simp] theorem State.modSlot_mem (s : State) (n : Fin 8) (g : Slot → Slot) : (s.modSlot n g).mem = s.mem := rfl
@[simp] theorem State.modSlot_part (s : State) (n : Fin 8) (g : Slot → Slot) : (s.modSlot n g).part = s.part := rfl
@[simp] theorem State.modSlot_refusal (s : State) (n : Fin 8) (g : Slot → Slot) : (s.modSlot n g).refusal = s.refusal := rfl
@[simp] theorem State.modSlot_divisor (s : State) (n : Fin 8) (g : Slot → Slot) : (s.modSlot n g).divisor = s.divisor := rfl
@[simp] theorem State.modSlot_attnEnable (s : State) (n : Fin 8) (g : Slot → Slot) : (s.modSlot n g).attnEnable = s.attnEnable := rfl
@[simp] theorem State.modSlot_sweepTimer (s : State) (n : Fin 8) (g : Slot → Slot) : (s.modSlot n g).sweepTimer = s.sweepTimer := rfl
@[simp] theorem State.modSlot_sweepPending (s : State) (n : Fin 8) (g : Slot → Slot) : (s.modSlot n g).sweepPending = s.sweepPending := rfl
@[simp] theorem State.modSlot_sweep (s : State) (n : Fin 8) (g : Slot → Slot) : (s.modSlot n g).sweep = s.sweep := rfl
@[simp] theorem State.modSlot_sweepCount (s : State) (n : Fin 8) (g : Slot → Slot) : (s.modSlot n g).sweepCount = s.sweepCount := rfl
@[simp] theorem State.modSlot_partLatch (s : State) (n : Fin 8) (g : Slot → Slot) : (s.modSlot n g).partLatch = s.partLatch := rfl
@[simp] theorem State.modSlot_header (s : State) (n : Fin 8) (g : Slot → Slot) : (s.modSlot n g).header = s.header := rfl
@[simp] theorem State.modSlot_held (s : State) (n : Fin 8) (g : Slot → Slot) : (s.modSlot n g).held = s.held := rfl
@[simp] theorem State.modSlot_heldCauses (s : State) (n : Fin 8) (g : Slot → Slot) : (s.modSlot n g).heldCauses = s.heldCauses := rfl
@[simp] theorem State.modSlot_writeAll (s : State) (n : Fin 8) (g : Slot → Slot) : (s.modSlot n g).writeAll = s.writeAll := rfl
@[simp] theorem State.modSlot_writeVote (s : State) (n : Fin 8) (g : Slot → Slot) : (s.modSlot n g).writeVote = s.writeVote := rfl
@[simp] theorem State.modSlot_directory (s : State) (n : Fin 8) (g : Slot → Slot) : (s.modSlot n g).directory = s.directory := rfl
@[simp] theorem State.modSlot_lastGranted (s : State) (n : Fin 8) (g : Slot → Slot) : (s.modSlot n g).lastGranted = s.lastGranted := rfl
@[simp] theorem State.modSlot_flight (s : State) (n : Fin 8) (g : Slot → Slot) : (s.modSlot n g).flight = s.flight := rfl
@[simp] theorem State.modSlot_entries (s : State) (n : Fin 8) (g : Slot → Slot) : (s.modSlot n g).entries = s.entries := rfl
@[simp] theorem State.modSlot_pool (s : State) (n : Fin 8) (g : Slot → Slot) : (s.modSlot n g).pool = s.pool := rfl
@[simp] theorem State.modSlot_drawing (s : State) (n : Fin 8) (g : Slot → Slot) : (s.modSlot n g).drawing = s.drawing := rfl
@[simp] theorem State.modSlot_waiting (s : State) (n : Fin 8) (g : Slot → Slot) : (s.modSlot n g).waiting = s.waiting := rfl
@[simp] theorem State.modSlot_query (s : State) (n : Fin 8) (g : Slot → Slot) : (s.modSlot n g).query = s.query := rfl
@[simp] theorem State.modSlot_clock (s : State) (n : Fin 8) (g : Slot → Slot) : (s.modSlot n g).clock = s.clock := rfl
@[simp] theorem State.modSlot_tickPhase (s : State) (n : Fin 8) (g : Slot → Slot) : (s.modSlot n g).tickPhase = s.tickPhase := rfl
@[simp] theorem State.modSlot_votes (s : State) (n : Fin 8) (g : Slot → Slot) : (s.modSlot n g).votes = s.votes := rfl
@[simp] theorem State.modSlot_ready (s : State) (n : Fin 8) (g : Slot → Slot) : (s.modSlot n g).ready = s.ready := rfl
@[simp] theorem State.modSlot_cell (s : State) (n : Fin 8) (g : Slot → Slot) : (s.modSlot n g).cell = s.cell := rfl
@[simp] theorem State.modSlot_image (s : State) (n : Fin 8) (g : Slot → Slot) : (s.modSlot n g).image = s.image := rfl
@[simp] theorem State.modSlot_fused (s : State) (n : Fin 8) (g : Slot → Slot) : (s.modSlot n g).fused = s.fused := rfl
@[simp] theorem State.modSlot_flags (s : State) (n : Fin 8) (g : Slot → Slot) : (s.modSlot n g).flags = s.flags := rfl
@[simp] theorem State.modSlot_attentionRead (s : State) (n : Fin 8) (g : Slot → Slot) : (s.modSlot n g).attentionRead = s.attentionRead := rfl
@[simp] theorem State.modSlot_pending (s : State) (n : Fin 8) (g : Slot → Slot) : (s.modSlot n g).pending = s.pending := rfl
@[simp] theorem State.modSlot_entry (s : State) (n : Fin 8) (g : Slot → Slot) (k : Fin 64) : (s.modSlot n g).entry k = s.entry k := rfl

/-! ## setEntry -/
@[simp] theorem State.setEntry_baseLow (s : State) (e : Fin 64) (x : Entry) : (s.setEntry e x).baseLow = s.baseLow := rfl
@[simp] theorem State.setEntry_baseHigh (s : State) (e : Fin 64) (x : Entry) : (s.setEntry e x).baseHigh = s.baseHigh := rfl
@[simp] theorem State.setEntry_windows (s : State) (e : Fin 64) (x : Entry) : (s.setEntry e x).windows = s.windows := rfl
@[simp] theorem State.setEntry_mem (s : State) (e : Fin 64) (x : Entry) : (s.setEntry e x).mem = s.mem := rfl
@[simp] theorem State.setEntry_part (s : State) (e : Fin 64) (x : Entry) : (s.setEntry e x).part = s.part := rfl
@[simp] theorem State.setEntry_refusal (s : State) (e : Fin 64) (x : Entry) : (s.setEntry e x).refusal = s.refusal := rfl
@[simp] theorem State.setEntry_divisor (s : State) (e : Fin 64) (x : Entry) : (s.setEntry e x).divisor = s.divisor := rfl
@[simp] theorem State.setEntry_attnEnable (s : State) (e : Fin 64) (x : Entry) : (s.setEntry e x).attnEnable = s.attnEnable := rfl
@[simp] theorem State.setEntry_sweepTimer (s : State) (e : Fin 64) (x : Entry) : (s.setEntry e x).sweepTimer = s.sweepTimer := rfl
@[simp] theorem State.setEntry_sweepPending (s : State) (e : Fin 64) (x : Entry) : (s.setEntry e x).sweepPending = s.sweepPending := rfl
@[simp] theorem State.setEntry_sweep (s : State) (e : Fin 64) (x : Entry) : (s.setEntry e x).sweep = s.sweep := rfl
@[simp] theorem State.setEntry_sweepCount (s : State) (e : Fin 64) (x : Entry) : (s.setEntry e x).sweepCount = s.sweepCount := rfl
@[simp] theorem State.setEntry_slots (s : State) (e : Fin 64) (x : Entry) : (s.setEntry e x).slots = s.slots := rfl
@[simp] theorem State.setEntry_partLatch (s : State) (e : Fin 64) (x : Entry) : (s.setEntry e x).partLatch = s.partLatch := rfl
@[simp] theorem State.setEntry_header (s : State) (e : Fin 64) (x : Entry) : (s.setEntry e x).header = s.header := rfl
@[simp] theorem State.setEntry_held (s : State) (e : Fin 64) (x : Entry) : (s.setEntry e x).held = s.held := rfl
@[simp] theorem State.setEntry_heldCauses (s : State) (e : Fin 64) (x : Entry) : (s.setEntry e x).heldCauses = s.heldCauses := rfl
@[simp] theorem State.setEntry_writeAll (s : State) (e : Fin 64) (x : Entry) : (s.setEntry e x).writeAll = s.writeAll := rfl
@[simp] theorem State.setEntry_writeVote (s : State) (e : Fin 64) (x : Entry) : (s.setEntry e x).writeVote = s.writeVote := rfl
@[simp] theorem State.setEntry_directory (s : State) (e : Fin 64) (x : Entry) : (s.setEntry e x).directory = s.directory := rfl
@[simp] theorem State.setEntry_lastGranted (s : State) (e : Fin 64) (x : Entry) : (s.setEntry e x).lastGranted = s.lastGranted := rfl
@[simp] theorem State.setEntry_flight (s : State) (e : Fin 64) (x : Entry) : (s.setEntry e x).flight = s.flight := rfl
@[simp] theorem State.setEntry_pool (s : State) (e : Fin 64) (x : Entry) : (s.setEntry e x).pool = s.pool := rfl
@[simp] theorem State.setEntry_drawing (s : State) (e : Fin 64) (x : Entry) : (s.setEntry e x).drawing = s.drawing := rfl
@[simp] theorem State.setEntry_waiting (s : State) (e : Fin 64) (x : Entry) : (s.setEntry e x).waiting = s.waiting := rfl
@[simp] theorem State.setEntry_query (s : State) (e : Fin 64) (x : Entry) : (s.setEntry e x).query = s.query := rfl
@[simp] theorem State.setEntry_clock (s : State) (e : Fin 64) (x : Entry) : (s.setEntry e x).clock = s.clock := rfl
@[simp] theorem State.setEntry_tickPhase (s : State) (e : Fin 64) (x : Entry) : (s.setEntry e x).tickPhase = s.tickPhase := rfl
@[simp] theorem State.setEntry_votes (s : State) (e : Fin 64) (x : Entry) : (s.setEntry e x).votes = s.votes := rfl
@[simp] theorem State.setEntry_ready (s : State) (e : Fin 64) (x : Entry) : (s.setEntry e x).ready = s.ready := rfl
@[simp] theorem State.setEntry_cell (s : State) (e : Fin 64) (x : Entry) : (s.setEntry e x).cell = s.cell := rfl
@[simp] theorem State.setEntry_image (s : State) (e : Fin 64) (x : Entry) : (s.setEntry e x).image = s.image := rfl
@[simp] theorem State.setEntry_fused (s : State) (e : Fin 64) (x : Entry) : (s.setEntry e x).fused = s.fused := rfl
@[simp] theorem State.setEntry_flags (s : State) (e : Fin 64) (x : Entry) : (s.setEntry e x).flags = s.flags := rfl
@[simp] theorem State.setEntry_attentionRead (s : State) (e : Fin 64) (x : Entry) : (s.setEntry e x).attentionRead = s.attentionRead := rfl
@[simp] theorem State.setEntry_pending (s : State) (e : Fin 64) (x : Entry) : (s.setEntry e x).pending = s.pending := rfl
@[simp] theorem State.setEntry_slot (s : State) (e : Fin 64) (x : Entry) (k : Fin 8) : (s.setEntry e x).slot k = s.slot k := rfl

/-! ## modEntry -/
@[simp] theorem State.modEntry_baseLow (s : State) (e : Fin 64) (g : Entry → Entry) : (s.modEntry e g).baseLow = s.baseLow := rfl
@[simp] theorem State.modEntry_baseHigh (s : State) (e : Fin 64) (g : Entry → Entry) : (s.modEntry e g).baseHigh = s.baseHigh := rfl
@[simp] theorem State.modEntry_windows (s : State) (e : Fin 64) (g : Entry → Entry) : (s.modEntry e g).windows = s.windows := rfl
@[simp] theorem State.modEntry_mem (s : State) (e : Fin 64) (g : Entry → Entry) : (s.modEntry e g).mem = s.mem := rfl
@[simp] theorem State.modEntry_part (s : State) (e : Fin 64) (g : Entry → Entry) : (s.modEntry e g).part = s.part := rfl
@[simp] theorem State.modEntry_refusal (s : State) (e : Fin 64) (g : Entry → Entry) : (s.modEntry e g).refusal = s.refusal := rfl
@[simp] theorem State.modEntry_divisor (s : State) (e : Fin 64) (g : Entry → Entry) : (s.modEntry e g).divisor = s.divisor := rfl
@[simp] theorem State.modEntry_attnEnable (s : State) (e : Fin 64) (g : Entry → Entry) : (s.modEntry e g).attnEnable = s.attnEnable := rfl
@[simp] theorem State.modEntry_sweepTimer (s : State) (e : Fin 64) (g : Entry → Entry) : (s.modEntry e g).sweepTimer = s.sweepTimer := rfl
@[simp] theorem State.modEntry_sweepPending (s : State) (e : Fin 64) (g : Entry → Entry) : (s.modEntry e g).sweepPending = s.sweepPending := rfl
@[simp] theorem State.modEntry_sweep (s : State) (e : Fin 64) (g : Entry → Entry) : (s.modEntry e g).sweep = s.sweep := rfl
@[simp] theorem State.modEntry_sweepCount (s : State) (e : Fin 64) (g : Entry → Entry) : (s.modEntry e g).sweepCount = s.sweepCount := rfl
@[simp] theorem State.modEntry_slots (s : State) (e : Fin 64) (g : Entry → Entry) : (s.modEntry e g).slots = s.slots := rfl
@[simp] theorem State.modEntry_partLatch (s : State) (e : Fin 64) (g : Entry → Entry) : (s.modEntry e g).partLatch = s.partLatch := rfl
@[simp] theorem State.modEntry_header (s : State) (e : Fin 64) (g : Entry → Entry) : (s.modEntry e g).header = s.header := rfl
@[simp] theorem State.modEntry_held (s : State) (e : Fin 64) (g : Entry → Entry) : (s.modEntry e g).held = s.held := rfl
@[simp] theorem State.modEntry_heldCauses (s : State) (e : Fin 64) (g : Entry → Entry) : (s.modEntry e g).heldCauses = s.heldCauses := rfl
@[simp] theorem State.modEntry_writeAll (s : State) (e : Fin 64) (g : Entry → Entry) : (s.modEntry e g).writeAll = s.writeAll := rfl
@[simp] theorem State.modEntry_writeVote (s : State) (e : Fin 64) (g : Entry → Entry) : (s.modEntry e g).writeVote = s.writeVote := rfl
@[simp] theorem State.modEntry_directory (s : State) (e : Fin 64) (g : Entry → Entry) : (s.modEntry e g).directory = s.directory := rfl
@[simp] theorem State.modEntry_lastGranted (s : State) (e : Fin 64) (g : Entry → Entry) : (s.modEntry e g).lastGranted = s.lastGranted := rfl
@[simp] theorem State.modEntry_flight (s : State) (e : Fin 64) (g : Entry → Entry) : (s.modEntry e g).flight = s.flight := rfl
@[simp] theorem State.modEntry_pool (s : State) (e : Fin 64) (g : Entry → Entry) : (s.modEntry e g).pool = s.pool := rfl
@[simp] theorem State.modEntry_drawing (s : State) (e : Fin 64) (g : Entry → Entry) : (s.modEntry e g).drawing = s.drawing := rfl
@[simp] theorem State.modEntry_waiting (s : State) (e : Fin 64) (g : Entry → Entry) : (s.modEntry e g).waiting = s.waiting := rfl
@[simp] theorem State.modEntry_query (s : State) (e : Fin 64) (g : Entry → Entry) : (s.modEntry e g).query = s.query := rfl
@[simp] theorem State.modEntry_clock (s : State) (e : Fin 64) (g : Entry → Entry) : (s.modEntry e g).clock = s.clock := rfl
@[simp] theorem State.modEntry_tickPhase (s : State) (e : Fin 64) (g : Entry → Entry) : (s.modEntry e g).tickPhase = s.tickPhase := rfl
@[simp] theorem State.modEntry_votes (s : State) (e : Fin 64) (g : Entry → Entry) : (s.modEntry e g).votes = s.votes := rfl
@[simp] theorem State.modEntry_ready (s : State) (e : Fin 64) (g : Entry → Entry) : (s.modEntry e g).ready = s.ready := rfl
@[simp] theorem State.modEntry_cell (s : State) (e : Fin 64) (g : Entry → Entry) : (s.modEntry e g).cell = s.cell := rfl
@[simp] theorem State.modEntry_image (s : State) (e : Fin 64) (g : Entry → Entry) : (s.modEntry e g).image = s.image := rfl
@[simp] theorem State.modEntry_fused (s : State) (e : Fin 64) (g : Entry → Entry) : (s.modEntry e g).fused = s.fused := rfl
@[simp] theorem State.modEntry_flags (s : State) (e : Fin 64) (g : Entry → Entry) : (s.modEntry e g).flags = s.flags := rfl
@[simp] theorem State.modEntry_attentionRead (s : State) (e : Fin 64) (g : Entry → Entry) : (s.modEntry e g).attentionRead = s.attentionRead := rfl
@[simp] theorem State.modEntry_pending (s : State) (e : Fin 64) (g : Entry → Entry) : (s.modEntry e g).pending = s.pending := rfl
@[simp] theorem State.modEntry_slot (s : State) (e : Fin 64) (g : Entry → Entry) (k : Fin 8) : (s.modEntry e g).slot k = s.slot k := rfl

/-! ## raise -/
@[simp] theorem State.raise_baseLow (s : State) (f : Flag) : (s.raise f).baseLow = s.baseLow := rfl
@[simp] theorem State.raise_baseHigh (s : State) (f : Flag) : (s.raise f).baseHigh = s.baseHigh := rfl
@[simp] theorem State.raise_windows (s : State) (f : Flag) : (s.raise f).windows = s.windows := rfl
@[simp] theorem State.raise_mem (s : State) (f : Flag) : (s.raise f).mem = s.mem := rfl
@[simp] theorem State.raise_part (s : State) (f : Flag) : (s.raise f).part = s.part := rfl
@[simp] theorem State.raise_refusal (s : State) (f : Flag) : (s.raise f).refusal = s.refusal := rfl
@[simp] theorem State.raise_divisor (s : State) (f : Flag) : (s.raise f).divisor = s.divisor := rfl
@[simp] theorem State.raise_attnEnable (s : State) (f : Flag) : (s.raise f).attnEnable = s.attnEnable := rfl
@[simp] theorem State.raise_sweepTimer (s : State) (f : Flag) : (s.raise f).sweepTimer = s.sweepTimer := rfl
@[simp] theorem State.raise_sweepPending (s : State) (f : Flag) : (s.raise f).sweepPending = s.sweepPending := rfl
@[simp] theorem State.raise_sweep (s : State) (f : Flag) : (s.raise f).sweep = s.sweep := rfl
@[simp] theorem State.raise_sweepCount (s : State) (f : Flag) : (s.raise f).sweepCount = s.sweepCount := rfl
@[simp] theorem State.raise_slots (s : State) (f : Flag) : (s.raise f).slots = s.slots := rfl
@[simp] theorem State.raise_partLatch (s : State) (f : Flag) : (s.raise f).partLatch = s.partLatch := rfl
@[simp] theorem State.raise_header (s : State) (f : Flag) : (s.raise f).header = s.header := rfl
@[simp] theorem State.raise_held (s : State) (f : Flag) : (s.raise f).held = s.held := rfl
@[simp] theorem State.raise_heldCauses (s : State) (f : Flag) : (s.raise f).heldCauses = s.heldCauses := rfl
@[simp] theorem State.raise_writeAll (s : State) (f : Flag) : (s.raise f).writeAll = s.writeAll := rfl
@[simp] theorem State.raise_writeVote (s : State) (f : Flag) : (s.raise f).writeVote = s.writeVote := rfl
@[simp] theorem State.raise_directory (s : State) (f : Flag) : (s.raise f).directory = s.directory := rfl
@[simp] theorem State.raise_lastGranted (s : State) (f : Flag) : (s.raise f).lastGranted = s.lastGranted := rfl
@[simp] theorem State.raise_flight (s : State) (f : Flag) : (s.raise f).flight = s.flight := rfl
@[simp] theorem State.raise_entries (s : State) (f : Flag) : (s.raise f).entries = s.entries := rfl
@[simp] theorem State.raise_pool (s : State) (f : Flag) : (s.raise f).pool = s.pool := rfl
@[simp] theorem State.raise_drawing (s : State) (f : Flag) : (s.raise f).drawing = s.drawing := rfl
@[simp] theorem State.raise_waiting (s : State) (f : Flag) : (s.raise f).waiting = s.waiting := rfl
@[simp] theorem State.raise_query (s : State) (f : Flag) : (s.raise f).query = s.query := rfl
@[simp] theorem State.raise_clock (s : State) (f : Flag) : (s.raise f).clock = s.clock := rfl
@[simp] theorem State.raise_tickPhase (s : State) (f : Flag) : (s.raise f).tickPhase = s.tickPhase := rfl
@[simp] theorem State.raise_votes (s : State) (f : Flag) : (s.raise f).votes = s.votes := rfl
@[simp] theorem State.raise_ready (s : State) (f : Flag) : (s.raise f).ready = s.ready := rfl
@[simp] theorem State.raise_cell (s : State) (f : Flag) : (s.raise f).cell = s.cell := rfl
@[simp] theorem State.raise_image (s : State) (f : Flag) : (s.raise f).image = s.image := rfl
@[simp] theorem State.raise_fused (s : State) (f : Flag) : (s.raise f).fused = s.fused := rfl
@[simp] theorem State.raise_attentionRead (s : State) (f : Flag) : (s.raise f).attentionRead = s.attentionRead := rfl
@[simp] theorem State.raise_pending (s : State) (f : Flag) : (s.raise f).pending = s.pending := rfl
@[simp] theorem State.raise_slot (s : State) (f : Flag) (k : Fin 8) : (s.raise f).slot k = s.slot k := rfl
@[simp] theorem State.raise_entry (s : State) (f : Flag) (k : Fin 64) : (s.raise f).entry k = s.entry k := rfl

/-! ## recorded -/
@[simp] theorem State.recorded_baseLow (s : State) (w : Writes) : (s.recorded w).baseLow = s.baseLow := rfl
@[simp] theorem State.recorded_baseHigh (s : State) (w : Writes) : (s.recorded w).baseHigh = s.baseHigh := rfl
@[simp] theorem State.recorded_windows (s : State) (w : Writes) : (s.recorded w).windows = s.windows := rfl
@[simp] theorem State.recorded_part (s : State) (w : Writes) : (s.recorded w).part = s.part := rfl
@[simp] theorem State.recorded_refusal (s : State) (w : Writes) : (s.recorded w).refusal = s.refusal := rfl
@[simp] theorem State.recorded_divisor (s : State) (w : Writes) : (s.recorded w).divisor = s.divisor := rfl
@[simp] theorem State.recorded_attnEnable (s : State) (w : Writes) : (s.recorded w).attnEnable = s.attnEnable := rfl
@[simp] theorem State.recorded_sweepTimer (s : State) (w : Writes) : (s.recorded w).sweepTimer = s.sweepTimer := rfl
@[simp] theorem State.recorded_sweepPending (s : State) (w : Writes) : (s.recorded w).sweepPending = s.sweepPending := rfl
@[simp] theorem State.recorded_sweep (s : State) (w : Writes) : (s.recorded w).sweep = s.sweep := rfl
@[simp] theorem State.recorded_sweepCount (s : State) (w : Writes) : (s.recorded w).sweepCount = s.sweepCount := rfl
@[simp] theorem State.recorded_slots (s : State) (w : Writes) : (s.recorded w).slots = s.slots := rfl
@[simp] theorem State.recorded_partLatch (s : State) (w : Writes) : (s.recorded w).partLatch = s.partLatch := rfl
@[simp] theorem State.recorded_header (s : State) (w : Writes) : (s.recorded w).header = s.header := rfl
@[simp] theorem State.recorded_held (s : State) (w : Writes) : (s.recorded w).held = s.held := rfl
@[simp] theorem State.recorded_heldCauses (s : State) (w : Writes) : (s.recorded w).heldCauses = s.heldCauses := rfl
@[simp] theorem State.recorded_writeAll (s : State) (w : Writes) : (s.recorded w).writeAll = s.writeAll := rfl
@[simp] theorem State.recorded_writeVote (s : State) (w : Writes) : (s.recorded w).writeVote = s.writeVote := rfl
@[simp] theorem State.recorded_directory (s : State) (w : Writes) : (s.recorded w).directory = s.directory := rfl
@[simp] theorem State.recorded_lastGranted (s : State) (w : Writes) : (s.recorded w).lastGranted = s.lastGranted := rfl
@[simp] theorem State.recorded_flight (s : State) (w : Writes) : (s.recorded w).flight = s.flight := rfl
@[simp] theorem State.recorded_entries (s : State) (w : Writes) : (s.recorded w).entries = s.entries := rfl
@[simp] theorem State.recorded_pool (s : State) (w : Writes) : (s.recorded w).pool = s.pool := rfl
@[simp] theorem State.recorded_drawing (s : State) (w : Writes) : (s.recorded w).drawing = s.drawing := rfl
@[simp] theorem State.recorded_waiting (s : State) (w : Writes) : (s.recorded w).waiting = s.waiting := rfl
@[simp] theorem State.recorded_query (s : State) (w : Writes) : (s.recorded w).query = s.query := rfl
@[simp] theorem State.recorded_clock (s : State) (w : Writes) : (s.recorded w).clock = s.clock := rfl
@[simp] theorem State.recorded_tickPhase (s : State) (w : Writes) : (s.recorded w).tickPhase = s.tickPhase := rfl
@[simp] theorem State.recorded_votes (s : State) (w : Writes) : (s.recorded w).votes = s.votes := rfl
@[simp] theorem State.recorded_ready (s : State) (w : Writes) : (s.recorded w).ready = s.ready := rfl
@[simp] theorem State.recorded_cell (s : State) (w : Writes) : (s.recorded w).cell = s.cell := rfl
@[simp] theorem State.recorded_image (s : State) (w : Writes) : (s.recorded w).image = s.image := rfl
@[simp] theorem State.recorded_fused (s : State) (w : Writes) : (s.recorded w).fused = s.fused := rfl
@[simp] theorem State.recorded_flags (s : State) (w : Writes) : (s.recorded w).flags = s.flags := rfl
@[simp] theorem State.recorded_attentionRead (s : State) (w : Writes) : (s.recorded w).attentionRead = s.attentionRead := rfl
@[simp] theorem State.recorded_pending (s : State) (w : Writes) : (s.recorded w).pending = s.pending := rfl
@[simp] theorem State.recorded_slot (s : State) (w : Writes) (k : Fin 8) : (s.recorded w).slot k = s.slot k := rfl
@[simp] theorem State.recorded_entry (s : State) (w : Writes) (k : Fin 64) : (s.recorded w).entry k = s.entry k := rfl

/-! ## writeField -/
@[simp] theorem State.writeField_baseLow (s : State) (f : BoardField) : (s.writeField f).baseLow = s.baseLow := rfl
@[simp] theorem State.writeField_baseHigh (s : State) (f : BoardField) : (s.writeField f).baseHigh = s.baseHigh := rfl
@[simp] theorem State.writeField_windows (s : State) (f : BoardField) : (s.writeField f).windows = s.windows := rfl
@[simp] theorem State.writeField_part (s : State) (f : BoardField) : (s.writeField f).part = s.part := rfl
@[simp] theorem State.writeField_refusal (s : State) (f : BoardField) : (s.writeField f).refusal = s.refusal := rfl
@[simp] theorem State.writeField_divisor (s : State) (f : BoardField) : (s.writeField f).divisor = s.divisor := rfl
@[simp] theorem State.writeField_attnEnable (s : State) (f : BoardField) : (s.writeField f).attnEnable = s.attnEnable := rfl
@[simp] theorem State.writeField_sweepTimer (s : State) (f : BoardField) : (s.writeField f).sweepTimer = s.sweepTimer := rfl
@[simp] theorem State.writeField_sweepPending (s : State) (f : BoardField) : (s.writeField f).sweepPending = s.sweepPending := rfl
@[simp] theorem State.writeField_sweep (s : State) (f : BoardField) : (s.writeField f).sweep = s.sweep := rfl
@[simp] theorem State.writeField_sweepCount (s : State) (f : BoardField) : (s.writeField f).sweepCount = s.sweepCount := rfl
@[simp] theorem State.writeField_slots (s : State) (f : BoardField) : (s.writeField f).slots = s.slots := rfl
@[simp] theorem State.writeField_partLatch (s : State) (f : BoardField) : (s.writeField f).partLatch = s.partLatch := rfl
@[simp] theorem State.writeField_header (s : State) (f : BoardField) : (s.writeField f).header = s.header := rfl
@[simp] theorem State.writeField_held (s : State) (f : BoardField) : (s.writeField f).held = s.held := rfl
@[simp] theorem State.writeField_heldCauses (s : State) (f : BoardField) : (s.writeField f).heldCauses = s.heldCauses := rfl
@[simp] theorem State.writeField_writeAll (s : State) (f : BoardField) : (s.writeField f).writeAll = s.writeAll := rfl
@[simp] theorem State.writeField_writeVote (s : State) (f : BoardField) : (s.writeField f).writeVote = s.writeVote := rfl
@[simp] theorem State.writeField_directory (s : State) (f : BoardField) : (s.writeField f).directory = s.directory := rfl
@[simp] theorem State.writeField_lastGranted (s : State) (f : BoardField) : (s.writeField f).lastGranted = s.lastGranted := rfl
@[simp] theorem State.writeField_flight (s : State) (f : BoardField) : (s.writeField f).flight = s.flight := rfl
@[simp] theorem State.writeField_entries (s : State) (f : BoardField) : (s.writeField f).entries = s.entries := rfl
@[simp] theorem State.writeField_pool (s : State) (f : BoardField) : (s.writeField f).pool = s.pool := rfl
@[simp] theorem State.writeField_drawing (s : State) (f : BoardField) : (s.writeField f).drawing = s.drawing := rfl
@[simp] theorem State.writeField_waiting (s : State) (f : BoardField) : (s.writeField f).waiting = s.waiting := rfl
@[simp] theorem State.writeField_query (s : State) (f : BoardField) : (s.writeField f).query = s.query := rfl
@[simp] theorem State.writeField_clock (s : State) (f : BoardField) : (s.writeField f).clock = s.clock := rfl
@[simp] theorem State.writeField_tickPhase (s : State) (f : BoardField) : (s.writeField f).tickPhase = s.tickPhase := rfl
@[simp] theorem State.writeField_votes (s : State) (f : BoardField) : (s.writeField f).votes = s.votes := rfl
@[simp] theorem State.writeField_ready (s : State) (f : BoardField) : (s.writeField f).ready = s.ready := rfl
@[simp] theorem State.writeField_cell (s : State) (f : BoardField) : (s.writeField f).cell = s.cell := rfl
@[simp] theorem State.writeField_image (s : State) (f : BoardField) : (s.writeField f).image = s.image := rfl
@[simp] theorem State.writeField_fused (s : State) (f : BoardField) : (s.writeField f).fused = s.fused := rfl
@[simp] theorem State.writeField_flags (s : State) (f : BoardField) : (s.writeField f).flags = s.flags := rfl
@[simp] theorem State.writeField_attentionRead (s : State) (f : BoardField) : (s.writeField f).attentionRead = s.attentionRead := rfl
@[simp] theorem State.writeField_pending (s : State) (f : BoardField) : (s.writeField f).pending = s.pending := rfl
@[simp] theorem State.writeField_slot (s : State) (f : BoardField) (k : Fin 8) : (s.writeField f).slot k = s.slot k := rfl
@[simp] theorem State.writeField_entry (s : State) (f : BoardField) (k : Fin 64) : (s.writeField f).entry k = s.entry k := rfl

/-! ## writeRecord -/
@[simp] theorem State.writeRecord_baseLow (s : State) (n : Fin 8) : (s.writeRecord n).baseLow = s.baseLow := rfl
@[simp] theorem State.writeRecord_baseHigh (s : State) (n : Fin 8) : (s.writeRecord n).baseHigh = s.baseHigh := rfl
@[simp] theorem State.writeRecord_windows (s : State) (n : Fin 8) : (s.writeRecord n).windows = s.windows := rfl
@[simp] theorem State.writeRecord_part (s : State) (n : Fin 8) : (s.writeRecord n).part = s.part := rfl
@[simp] theorem State.writeRecord_refusal (s : State) (n : Fin 8) : (s.writeRecord n).refusal = s.refusal := rfl
@[simp] theorem State.writeRecord_divisor (s : State) (n : Fin 8) : (s.writeRecord n).divisor = s.divisor := rfl
@[simp] theorem State.writeRecord_attnEnable (s : State) (n : Fin 8) : (s.writeRecord n).attnEnable = s.attnEnable := rfl
@[simp] theorem State.writeRecord_sweepTimer (s : State) (n : Fin 8) : (s.writeRecord n).sweepTimer = s.sweepTimer := rfl
@[simp] theorem State.writeRecord_sweepPending (s : State) (n : Fin 8) : (s.writeRecord n).sweepPending = s.sweepPending := rfl
@[simp] theorem State.writeRecord_sweep (s : State) (n : Fin 8) : (s.writeRecord n).sweep = s.sweep := rfl
@[simp] theorem State.writeRecord_sweepCount (s : State) (n : Fin 8) : (s.writeRecord n).sweepCount = s.sweepCount := rfl
@[simp] theorem State.writeRecord_slots (s : State) (n : Fin 8) : (s.writeRecord n).slots = s.slots := rfl
@[simp] theorem State.writeRecord_partLatch (s : State) (n : Fin 8) : (s.writeRecord n).partLatch = s.partLatch := rfl
@[simp] theorem State.writeRecord_header (s : State) (n : Fin 8) : (s.writeRecord n).header = s.header := rfl
@[simp] theorem State.writeRecord_held (s : State) (n : Fin 8) : (s.writeRecord n).held = s.held := rfl
@[simp] theorem State.writeRecord_heldCauses (s : State) (n : Fin 8) : (s.writeRecord n).heldCauses = s.heldCauses := rfl
@[simp] theorem State.writeRecord_writeAll (s : State) (n : Fin 8) : (s.writeRecord n).writeAll = s.writeAll := rfl
@[simp] theorem State.writeRecord_writeVote (s : State) (n : Fin 8) : (s.writeRecord n).writeVote = s.writeVote := rfl
@[simp] theorem State.writeRecord_directory (s : State) (n : Fin 8) : (s.writeRecord n).directory = s.directory := rfl
@[simp] theorem State.writeRecord_lastGranted (s : State) (n : Fin 8) : (s.writeRecord n).lastGranted = s.lastGranted := rfl
@[simp] theorem State.writeRecord_flight (s : State) (n : Fin 8) : (s.writeRecord n).flight = s.flight := rfl
@[simp] theorem State.writeRecord_entries (s : State) (n : Fin 8) : (s.writeRecord n).entries = s.entries := rfl
@[simp] theorem State.writeRecord_pool (s : State) (n : Fin 8) : (s.writeRecord n).pool = s.pool := rfl
@[simp] theorem State.writeRecord_drawing (s : State) (n : Fin 8) : (s.writeRecord n).drawing = s.drawing := rfl
@[simp] theorem State.writeRecord_waiting (s : State) (n : Fin 8) : (s.writeRecord n).waiting = s.waiting := rfl
@[simp] theorem State.writeRecord_query (s : State) (n : Fin 8) : (s.writeRecord n).query = s.query := rfl
@[simp] theorem State.writeRecord_clock (s : State) (n : Fin 8) : (s.writeRecord n).clock = s.clock := rfl
@[simp] theorem State.writeRecord_tickPhase (s : State) (n : Fin 8) : (s.writeRecord n).tickPhase = s.tickPhase := rfl
@[simp] theorem State.writeRecord_votes (s : State) (n : Fin 8) : (s.writeRecord n).votes = s.votes := rfl
@[simp] theorem State.writeRecord_ready (s : State) (n : Fin 8) : (s.writeRecord n).ready = s.ready := rfl
@[simp] theorem State.writeRecord_cell (s : State) (n : Fin 8) : (s.writeRecord n).cell = s.cell := rfl
@[simp] theorem State.writeRecord_image (s : State) (n : Fin 8) : (s.writeRecord n).image = s.image := rfl
@[simp] theorem State.writeRecord_fused (s : State) (n : Fin 8) : (s.writeRecord n).fused = s.fused := rfl
@[simp] theorem State.writeRecord_flags (s : State) (n : Fin 8) : (s.writeRecord n).flags = s.flags := rfl
@[simp] theorem State.writeRecord_attentionRead (s : State) (n : Fin 8) : (s.writeRecord n).attentionRead = s.attentionRead := rfl
@[simp] theorem State.writeRecord_pending (s : State) (n : Fin 8) : (s.writeRecord n).pending = s.pending := rfl
@[simp] theorem State.writeRecord_slot (s : State) (n : Fin 8) (k : Fin 8) : (s.writeRecord n).slot k = s.slot k := rfl
@[simp] theorem State.writeRecord_entry (s : State) (n : Fin 8) (k : Fin 64) : (s.writeRecord n).entry k = s.entry k := rfl

/-! ## startDraw -/
@[simp] theorem State.startDraw_baseLow (s : State) : (s.startDraw).baseLow = s.baseLow := rfl
@[simp] theorem State.startDraw_baseHigh (s : State) : (s.startDraw).baseHigh = s.baseHigh := rfl
@[simp] theorem State.startDraw_windows (s : State) : (s.startDraw).windows = s.windows := rfl
@[simp] theorem State.startDraw_mem (s : State) : (s.startDraw).mem = s.mem := rfl
@[simp] theorem State.startDraw_part (s : State) : (s.startDraw).part = s.part := rfl
@[simp] theorem State.startDraw_refusal (s : State) : (s.startDraw).refusal = s.refusal := rfl
@[simp] theorem State.startDraw_divisor (s : State) : (s.startDraw).divisor = s.divisor := rfl
@[simp] theorem State.startDraw_attnEnable (s : State) : (s.startDraw).attnEnable = s.attnEnable := rfl
@[simp] theorem State.startDraw_sweepTimer (s : State) : (s.startDraw).sweepTimer = s.sweepTimer := rfl
@[simp] theorem State.startDraw_sweepPending (s : State) : (s.startDraw).sweepPending = s.sweepPending := rfl
@[simp] theorem State.startDraw_sweep (s : State) : (s.startDraw).sweep = s.sweep := rfl
@[simp] theorem State.startDraw_sweepCount (s : State) : (s.startDraw).sweepCount = s.sweepCount := rfl
@[simp] theorem State.startDraw_slots (s : State) : (s.startDraw).slots = s.slots := rfl
@[simp] theorem State.startDraw_partLatch (s : State) : (s.startDraw).partLatch = s.partLatch := rfl
@[simp] theorem State.startDraw_header (s : State) : (s.startDraw).header = s.header := rfl
@[simp] theorem State.startDraw_held (s : State) : (s.startDraw).held = s.held := rfl
@[simp] theorem State.startDraw_heldCauses (s : State) : (s.startDraw).heldCauses = s.heldCauses := rfl
@[simp] theorem State.startDraw_writeAll (s : State) : (s.startDraw).writeAll = s.writeAll := rfl
@[simp] theorem State.startDraw_writeVote (s : State) : (s.startDraw).writeVote = s.writeVote := rfl
@[simp] theorem State.startDraw_directory (s : State) : (s.startDraw).directory = s.directory := rfl
@[simp] theorem State.startDraw_lastGranted (s : State) : (s.startDraw).lastGranted = s.lastGranted := rfl
@[simp] theorem State.startDraw_flight (s : State) : (s.startDraw).flight = s.flight := rfl
@[simp] theorem State.startDraw_entries (s : State) : (s.startDraw).entries = s.entries := rfl
@[simp] theorem State.startDraw_pool (s : State) : (s.startDraw).pool = s.pool := rfl
@[simp] theorem State.startDraw_waiting (s : State) : (s.startDraw).waiting = s.waiting := rfl
@[simp] theorem State.startDraw_query (s : State) : (s.startDraw).query = s.query := rfl
@[simp] theorem State.startDraw_clock (s : State) : (s.startDraw).clock = s.clock := rfl
@[simp] theorem State.startDraw_tickPhase (s : State) : (s.startDraw).tickPhase = s.tickPhase := rfl
@[simp] theorem State.startDraw_votes (s : State) : (s.startDraw).votes = s.votes := rfl
@[simp] theorem State.startDraw_ready (s : State) : (s.startDraw).ready = s.ready := rfl
@[simp] theorem State.startDraw_cell (s : State) : (s.startDraw).cell = s.cell := rfl
@[simp] theorem State.startDraw_image (s : State) : (s.startDraw).image = s.image := rfl
@[simp] theorem State.startDraw_fused (s : State) : (s.startDraw).fused = s.fused := rfl
@[simp] theorem State.startDraw_flags (s : State) : (s.startDraw).flags = s.flags := rfl
@[simp] theorem State.startDraw_attentionRead (s : State) : (s.startDraw).attentionRead = s.attentionRead := rfl
@[simp] theorem State.startDraw_pending (s : State) : (s.startDraw).pending = s.pending := rfl
@[simp] theorem State.startDraw_slot (s : State) (k : Fin 8) : (s.startDraw).slot k = s.slot k := rfl
@[simp] theorem State.startDraw_entry (s : State) (k : Fin 64) : (s.startDraw).entry k = s.entry k := rfl

/-! ## freeCipher -/
@[simp] theorem State.freeCipher_baseLow (s : State) : (s.freeCipher).baseLow = s.baseLow := rfl
@[simp] theorem State.freeCipher_baseHigh (s : State) : (s.freeCipher).baseHigh = s.baseHigh := rfl
@[simp] theorem State.freeCipher_windows (s : State) : (s.freeCipher).windows = s.windows := rfl
@[simp] theorem State.freeCipher_mem (s : State) : (s.freeCipher).mem = s.mem := rfl
@[simp] theorem State.freeCipher_part (s : State) : (s.freeCipher).part = s.part := rfl
@[simp] theorem State.freeCipher_refusal (s : State) : (s.freeCipher).refusal = s.refusal := rfl
@[simp] theorem State.freeCipher_divisor (s : State) : (s.freeCipher).divisor = s.divisor := rfl
@[simp] theorem State.freeCipher_attnEnable (s : State) : (s.freeCipher).attnEnable = s.attnEnable := rfl
@[simp] theorem State.freeCipher_sweepTimer (s : State) : (s.freeCipher).sweepTimer = s.sweepTimer := rfl
@[simp] theorem State.freeCipher_sweepPending (s : State) : (s.freeCipher).sweepPending = s.sweepPending := rfl
@[simp] theorem State.freeCipher_sweep (s : State) : (s.freeCipher).sweep = s.sweep := rfl
@[simp] theorem State.freeCipher_sweepCount (s : State) : (s.freeCipher).sweepCount = s.sweepCount := rfl
@[simp] theorem State.freeCipher_slots (s : State) : (s.freeCipher).slots = s.slots := rfl
@[simp] theorem State.freeCipher_partLatch (s : State) : (s.freeCipher).partLatch = s.partLatch := rfl
@[simp] theorem State.freeCipher_header (s : State) : (s.freeCipher).header = s.header := rfl
@[simp] theorem State.freeCipher_held (s : State) : (s.freeCipher).held = s.held := rfl
@[simp] theorem State.freeCipher_heldCauses (s : State) : (s.freeCipher).heldCauses = s.heldCauses := rfl
@[simp] theorem State.freeCipher_writeAll (s : State) : (s.freeCipher).writeAll = s.writeAll := rfl
@[simp] theorem State.freeCipher_writeVote (s : State) : (s.freeCipher).writeVote = s.writeVote := rfl
@[simp] theorem State.freeCipher_directory (s : State) : (s.freeCipher).directory = s.directory := rfl
@[simp] theorem State.freeCipher_lastGranted (s : State) : (s.freeCipher).lastGranted = s.lastGranted := rfl
@[simp] theorem State.freeCipher_entries (s : State) : (s.freeCipher).entries = s.entries := rfl
@[simp] theorem State.freeCipher_pool (s : State) : (s.freeCipher).pool = s.pool := rfl
@[simp] theorem State.freeCipher_drawing (s : State) : (s.freeCipher).drawing = s.drawing := rfl
@[simp] theorem State.freeCipher_waiting (s : State) : (s.freeCipher).waiting = s.waiting := rfl
@[simp] theorem State.freeCipher_query (s : State) : (s.freeCipher).query = s.query := rfl
@[simp] theorem State.freeCipher_clock (s : State) : (s.freeCipher).clock = s.clock := rfl
@[simp] theorem State.freeCipher_tickPhase (s : State) : (s.freeCipher).tickPhase = s.tickPhase := rfl
@[simp] theorem State.freeCipher_votes (s : State) : (s.freeCipher).votes = s.votes := rfl
@[simp] theorem State.freeCipher_ready (s : State) : (s.freeCipher).ready = s.ready := rfl
@[simp] theorem State.freeCipher_cell (s : State) : (s.freeCipher).cell = s.cell := rfl
@[simp] theorem State.freeCipher_image (s : State) : (s.freeCipher).image = s.image := rfl
@[simp] theorem State.freeCipher_fused (s : State) : (s.freeCipher).fused = s.fused := rfl
@[simp] theorem State.freeCipher_flags (s : State) : (s.freeCipher).flags = s.flags := rfl
@[simp] theorem State.freeCipher_attentionRead (s : State) : (s.freeCipher).attentionRead = s.attentionRead := rfl
@[simp] theorem State.freeCipher_pending (s : State) : (s.freeCipher).pending = s.pending := rfl
@[simp] theorem State.freeCipher_slot (s : State) (k : Fin 8) : (s.freeCipher).slot k = s.slot k := rfl
@[simp] theorem State.freeCipher_entry (s : State) (k : Fin 64) : (s.freeCipher).entry k = s.entry k := rfl

/-! ## orphan -/
@[simp] theorem State.orphan_baseLow (s : State) (n : Fin 8) : (s.orphan n).baseLow = s.baseLow := rfl
@[simp] theorem State.orphan_baseHigh (s : State) (n : Fin 8) : (s.orphan n).baseHigh = s.baseHigh := rfl
@[simp] theorem State.orphan_windows (s : State) (n : Fin 8) : (s.orphan n).windows = s.windows := rfl
@[simp] theorem State.orphan_mem (s : State) (n : Fin 8) : (s.orphan n).mem = s.mem := rfl
@[simp] theorem State.orphan_part (s : State) (n : Fin 8) : (s.orphan n).part = s.part := rfl
@[simp] theorem State.orphan_refusal (s : State) (n : Fin 8) : (s.orphan n).refusal = s.refusal := rfl
@[simp] theorem State.orphan_divisor (s : State) (n : Fin 8) : (s.orphan n).divisor = s.divisor := rfl
@[simp] theorem State.orphan_attnEnable (s : State) (n : Fin 8) : (s.orphan n).attnEnable = s.attnEnable := rfl
@[simp] theorem State.orphan_sweepTimer (s : State) (n : Fin 8) : (s.orphan n).sweepTimer = s.sweepTimer := rfl
@[simp] theorem State.orphan_sweepPending (s : State) (n : Fin 8) : (s.orphan n).sweepPending = s.sweepPending := rfl
@[simp] theorem State.orphan_sweep (s : State) (n : Fin 8) : (s.orphan n).sweep = s.sweep := rfl
@[simp] theorem State.orphan_sweepCount (s : State) (n : Fin 8) : (s.orphan n).sweepCount = s.sweepCount := rfl
@[simp] theorem State.orphan_slots (s : State) (n : Fin 8) : (s.orphan n).slots = s.slots := rfl
@[simp] theorem State.orphan_partLatch (s : State) (n : Fin 8) : (s.orphan n).partLatch = s.partLatch := rfl
@[simp] theorem State.orphan_header (s : State) (n : Fin 8) : (s.orphan n).header = s.header := rfl
@[simp] theorem State.orphan_held (s : State) (n : Fin 8) : (s.orphan n).held = s.held := rfl
@[simp] theorem State.orphan_heldCauses (s : State) (n : Fin 8) : (s.orphan n).heldCauses = s.heldCauses := rfl
@[simp] theorem State.orphan_writeAll (s : State) (n : Fin 8) : (s.orphan n).writeAll = s.writeAll := rfl
@[simp] theorem State.orphan_writeVote (s : State) (n : Fin 8) : (s.orphan n).writeVote = s.writeVote := rfl
@[simp] theorem State.orphan_directory (s : State) (n : Fin 8) : (s.orphan n).directory = s.directory := rfl
@[simp] theorem State.orphan_lastGranted (s : State) (n : Fin 8) : (s.orphan n).lastGranted = s.lastGranted := rfl
@[simp] theorem State.orphan_entries (s : State) (n : Fin 8) : (s.orphan n).entries = s.entries := rfl
@[simp] theorem State.orphan_pool (s : State) (n : Fin 8) : (s.orphan n).pool = s.pool := rfl
@[simp] theorem State.orphan_drawing (s : State) (n : Fin 8) : (s.orphan n).drawing = s.drawing := rfl
@[simp] theorem State.orphan_waiting (s : State) (n : Fin 8) : (s.orphan n).waiting = s.waiting := rfl
@[simp] theorem State.orphan_query (s : State) (n : Fin 8) : (s.orphan n).query = s.query := rfl
@[simp] theorem State.orphan_clock (s : State) (n : Fin 8) : (s.orphan n).clock = s.clock := rfl
@[simp] theorem State.orphan_tickPhase (s : State) (n : Fin 8) : (s.orphan n).tickPhase = s.tickPhase := rfl
@[simp] theorem State.orphan_votes (s : State) (n : Fin 8) : (s.orphan n).votes = s.votes := rfl
@[simp] theorem State.orphan_ready (s : State) (n : Fin 8) : (s.orphan n).ready = s.ready := rfl
@[simp] theorem State.orphan_cell (s : State) (n : Fin 8) : (s.orphan n).cell = s.cell := rfl
@[simp] theorem State.orphan_image (s : State) (n : Fin 8) : (s.orphan n).image = s.image := rfl
@[simp] theorem State.orphan_fused (s : State) (n : Fin 8) : (s.orphan n).fused = s.fused := rfl
@[simp] theorem State.orphan_flags (s : State) (n : Fin 8) : (s.orphan n).flags = s.flags := rfl
@[simp] theorem State.orphan_attentionRead (s : State) (n : Fin 8) : (s.orphan n).attentionRead = s.attentionRead := rfl
@[simp] theorem State.orphan_pending (s : State) (n : Fin 8) : (s.orphan n).pending = s.pending := rfl
@[simp] theorem State.orphan_slot (s : State) (n : Fin 8) (k : Fin 8) : (s.orphan n).slot k = s.slot k := rfl
@[simp] theorem State.orphan_entry (s : State) (n : Fin 8) (k : Fin 64) : (s.orphan n).entry k = s.entry k := rfl

/-! ## loadControl -/
@[simp] theorem State.loadControl_baseLow (s : State) (v : BitVec 32) : (s.loadControl v).baseLow = s.baseLow := rfl
@[simp] theorem State.loadControl_baseHigh (s : State) (v : BitVec 32) : (s.loadControl v).baseHigh = s.baseHigh := rfl
@[simp] theorem State.loadControl_windows (s : State) (v : BitVec 32) : (s.loadControl v).windows = s.windows := rfl
@[simp] theorem State.loadControl_mem (s : State) (v : BitVec 32) : (s.loadControl v).mem = s.mem := rfl
@[simp] theorem State.loadControl_part (s : State) (v : BitVec 32) : (s.loadControl v).part = s.part := rfl
@[simp] theorem State.loadControl_refusal (s : State) (v : BitVec 32) : (s.loadControl v).refusal = s.refusal := rfl
@[simp] theorem State.loadControl_sweepTimer (s : State) (v : BitVec 32) : (s.loadControl v).sweepTimer = s.sweepTimer := rfl
@[simp] theorem State.loadControl_sweepPending (s : State) (v : BitVec 32) : (s.loadControl v).sweepPending = s.sweepPending := rfl
@[simp] theorem State.loadControl_sweep (s : State) (v : BitVec 32) : (s.loadControl v).sweep = s.sweep := rfl
@[simp] theorem State.loadControl_sweepCount (s : State) (v : BitVec 32) : (s.loadControl v).sweepCount = s.sweepCount := rfl
@[simp] theorem State.loadControl_slots (s : State) (v : BitVec 32) : (s.loadControl v).slots = s.slots := rfl
@[simp] theorem State.loadControl_partLatch (s : State) (v : BitVec 32) : (s.loadControl v).partLatch = s.partLatch := rfl
@[simp] theorem State.loadControl_header (s : State) (v : BitVec 32) : (s.loadControl v).header = s.header := rfl
@[simp] theorem State.loadControl_held (s : State) (v : BitVec 32) : (s.loadControl v).held = s.held := rfl
@[simp] theorem State.loadControl_heldCauses (s : State) (v : BitVec 32) : (s.loadControl v).heldCauses = s.heldCauses := rfl
@[simp] theorem State.loadControl_writeAll (s : State) (v : BitVec 32) : (s.loadControl v).writeAll = s.writeAll := rfl
@[simp] theorem State.loadControl_writeVote (s : State) (v : BitVec 32) : (s.loadControl v).writeVote = s.writeVote := rfl
@[simp] theorem State.loadControl_directory (s : State) (v : BitVec 32) : (s.loadControl v).directory = s.directory := rfl
@[simp] theorem State.loadControl_lastGranted (s : State) (v : BitVec 32) : (s.loadControl v).lastGranted = s.lastGranted := rfl
@[simp] theorem State.loadControl_flight (s : State) (v : BitVec 32) : (s.loadControl v).flight = s.flight := rfl
@[simp] theorem State.loadControl_entries (s : State) (v : BitVec 32) : (s.loadControl v).entries = s.entries := rfl
@[simp] theorem State.loadControl_pool (s : State) (v : BitVec 32) : (s.loadControl v).pool = s.pool := rfl
@[simp] theorem State.loadControl_drawing (s : State) (v : BitVec 32) : (s.loadControl v).drawing = s.drawing := rfl
@[simp] theorem State.loadControl_waiting (s : State) (v : BitVec 32) : (s.loadControl v).waiting = s.waiting := rfl
@[simp] theorem State.loadControl_query (s : State) (v : BitVec 32) : (s.loadControl v).query = s.query := rfl
@[simp] theorem State.loadControl_clock (s : State) (v : BitVec 32) : (s.loadControl v).clock = s.clock := rfl
@[simp] theorem State.loadControl_tickPhase (s : State) (v : BitVec 32) : (s.loadControl v).tickPhase = s.tickPhase := rfl
@[simp] theorem State.loadControl_votes (s : State) (v : BitVec 32) : (s.loadControl v).votes = s.votes := rfl
@[simp] theorem State.loadControl_ready (s : State) (v : BitVec 32) : (s.loadControl v).ready = s.ready := rfl
@[simp] theorem State.loadControl_cell (s : State) (v : BitVec 32) : (s.loadControl v).cell = s.cell := rfl
@[simp] theorem State.loadControl_image (s : State) (v : BitVec 32) : (s.loadControl v).image = s.image := rfl
@[simp] theorem State.loadControl_fused (s : State) (v : BitVec 32) : (s.loadControl v).fused = s.fused := rfl
@[simp] theorem State.loadControl_flags (s : State) (v : BitVec 32) : (s.loadControl v).flags = s.flags := rfl
@[simp] theorem State.loadControl_attentionRead (s : State) (v : BitVec 32) : (s.loadControl v).attentionRead = s.attentionRead := rfl
@[simp] theorem State.loadControl_pending (s : State) (v : BitVec 32) : (s.loadControl v).pending = s.pending := rfl
@[simp] theorem State.loadControl_slot (s : State) (v : BitVec 32) (k : Fin 8) : (s.loadControl v).slot k = s.slot k := rfl
@[simp] theorem State.loadControl_entry (s : State) (v : BitVec 32) (k : Fin 64) : (s.loadControl v).entry k = s.entry k := rfl

/-! ## The working state that a fault drops (R88, R105, R123) -/

@[simp] theorem Slot.dropWork_latch (x : Slot) : x.dropWork.latch = x.latch := rfl
@[simp] theorem Slot.dropWork_eng (x : Slot) : x.dropWork.eng = x.eng := rfl
@[simp] theorem Slot.dropWork_mode (x : Slot) : x.dropWork.mode = x.mode := rfl
@[simp] theorem Slot.dropWork_geo (x : Slot) : x.dropWork.geo = x.geo := rfl
@[simp] theorem Slot.dropWork_holdTime (x : Slot) : x.dropWork.holdTime = x.holdTime := rfl
@[simp] theorem Slot.dropWork_notice (x : Slot) : x.dropWork.notice = x.notice := rfl
@[simp] theorem Slot.dropWork_othersSeal (x : Slot) : x.dropWork.othersSeal = x.othersSeal := rfl
@[simp] theorem Slot.dropWork_watch (x : Slot) : x.dropWork.watch = x.watch := rfl
@[simp] theorem Slot.dropWork_viewA (x : Slot) : x.dropWork.viewA = x.viewA := rfl
@[simp] theorem Slot.dropWork_viewB (x : Slot) : x.dropWork.viewB = x.viewB := rfl
@[simp] theorem Slot.dropWork_viewC (x : Slot) : x.dropWork.viewC = x.viewC := rfl
@[simp] theorem Slot.dropWork_streamPos (x : Slot) : x.dropWork.streamPos = x.streamPos := rfl
@[simp] theorem Slot.dropWork_chunkPos (x : Slot) : x.dropWork.chunkPos = x.chunkPos := rfl
@[simp] theorem Slot.dropWork_outPos (x : Slot) : x.dropWork.outPos = x.outPos := rfl
@[simp] theorem Slot.dropWork_carry (x : Slot) : x.dropWork.carry = [] := rfl
@[simp] theorem Slot.dropWork_chunk (x : Slot) : x.dropWork.chunk = none := rfl
@[simp] theorem Slot.dropWork_take (x : Slot) : x.dropWork.take = none := rfl
@[simp] theorem Slot.dropWork_lostTotal (x : Slot) : x.dropWork.lostTotal = 0 := rfl
@[simp] theorem Slot.dropWork_lossDue (x : Slot) : x.dropWork.lossDue = 0 := rfl
@[simp] theorem Slot.dropWork_holdTimer (x : Slot) : x.dropWork.holdTimer = none := rfl
@[simp] theorem Slot.dropWork_history (x : Slot) : x.dropWork.history = x.history := rfl
@[simp] theorem Slot.dropWork_absence (x : Slot) : x.dropWork.absence = x.absence := rfl
@[simp] theorem Slot.dropWork_frame (x : Slot) : x.dropWork.frame = none := rfl
@[simp] theorem Slot.dropWork_token (x : Slot) : x.dropWork.token = none := rfl
@[simp] theorem Slot.dropWork_closeAsked (x : Slot) : x.dropWork.closeAsked = false := rfl
@[simp] theorem Slot.dropWork_openServed (x : Slot) : x.dropWork.openServed = none := rfl
@[simp] theorem Slot.dropWork_closeServed (x : Slot) : x.dropWork.closeServed = none := rfl
@[simp] theorem Slot.dropWork_owedA (x : Slot) : x.dropWork.owedA = 0 := rfl
@[simp] theorem Slot.dropWork_owedB (x : Slot) : x.dropWork.owedB = 0 := rfl
@[simp] theorem Slot.dropWork_owedC (x : Slot) : x.dropWork.owedC = 0 := rfl
@[simp] theorem Slot.dropWork_lapseDue (x : Slot) : x.dropWork.lapseDue = false := rfl

/-! ## Part orders overtaken (R61) -/

@[simp] theorem Query.overtaken_addr (q : Query) : q.overtaken.addr = q.addr := rfl
@[simp] theorem Query.overtaken_record (q : Query) : q.overtaken.record = q.record := rfl
@[simp] theorem Query.overtaken_number (q : Query) : q.overtaken.number = none := rfl
@[simp] theorem ImageOp.overtaken_save (number : Option Mark) (addr : Nat) (table : Vector Entry 64) (time gen k : Nat) (chain : Chain) :
    (ImageOp.save number addr table time gen k chain).overtaken = .save none addr table time gen k chain := rfl
@[simp] theorem ImageOp.overtaken_load (number : Option Mark) (addr : Nat) (header : Option (List Byte)) (staging : List (List Byte)) (k : Nat)
    (chain : Chain) : (ImageOp.load number addr header staging k chain).overtaken = .load none addr header staging k chain := rfl

end Sys2Proof.Machine
end

