-- ==== Sys2Proof/Laws/Kept.lean ====
section
/-! SUPPORT. Laws/Kept.lean: for each operation on slots, entries and flags, the one lemma that it keeps the fields
gathered in Kept. -/

namespace Sys2Proof.Machine


/-- Two states with the same kept fields agree on each of them. -/
theorem State.kept_eq_iff (s t : State) :
    s.kept = t.kept ↔ s.baseLow = t.baseLow ∧ s.baseHigh = t.baseHigh ∧ s.windows = t.windows ∧ s.part = t.part ∧ s.refusal = t.refusal ∧ s.divisor = t.divisor ∧ s.attnEnable = t.attnEnable ∧ s.sweepTimer = t.sweepTimer ∧ s.sweepPending = t.sweepPending ∧ s.sweep = t.sweep ∧ s.sweepCount = t.sweepCount ∧ s.partLatch = t.partLatch ∧ s.header = t.header ∧ s.writeAll = t.writeAll ∧ s.writeVote = t.writeVote ∧ s.directory = t.directory ∧ s.lastGranted = t.lastGranted ∧ s.query = t.query ∧ s.tickPhase = t.tickPhase ∧ s.votes = t.votes ∧ s.ready = t.ready ∧ s.cell = t.cell ∧ s.image = t.image ∧ s.fused = t.fused ∧ s.attentionRead = t.attentionRead ∧ s.pending = t.pending := by
  simp [State.kept]

/-- A fold of operations that keep the fields keeps them. -/
theorem State.kept_foldl {α : Type} (op : State → α → State) (h : ∀ s a, (op s a).kept = s.kept) (l : List α) (s : State) :
    (l.foldl op s).kept = s.kept := by
  induction l generalizing s with
  | nil => rfl
  | cons a l ih => rw [List.foldl_cons, ih, h]

@[simp] theorem State.setSlot_kept (s : State) (n : Fin 8) (x : Slot) : (s.setSlot n x).kept = s.kept := rfl
@[simp] theorem State.modSlot_kept (s : State) (n : Fin 8) (g : Slot → Slot) : (s.modSlot n g).kept = s.kept := rfl
@[simp] theorem State.setEntry_kept (s : State) (e : Fin 64) (x : Entry) : (s.setEntry e x).kept = s.kept := rfl
@[simp] theorem State.modEntry_kept (s : State) (e : Fin 64) (g : Entry → Entry) : (s.modEntry e g).kept = s.kept := rfl
@[simp] theorem State.raise_kept (s : State) (f : Flag) : (s.raise f).kept = s.kept := rfl
@[simp] theorem State.recorded_kept (s : State) (w : Writes) : (s.recorded w).kept = s.kept := rfl
@[simp] theorem State.writeField_kept (s : State) (f : BoardField) : (s.writeField f).kept = s.kept := rfl
@[simp] theorem State.writeRecord_kept (s : State) (n : Fin 8) : (s.writeRecord n).kept = s.kept := rfl
@[simp] theorem State.writeHeaderZeros_kept (s : State) : s.writeHeaderZeros.kept = s.kept := rfl
@[simp] theorem State.startDraw_kept (s : State) : (s.startDraw).kept = s.kept := rfl
@[simp] theorem State.freeCipher_kept (s : State) : (s.freeCipher).kept = s.kept := rfl
@[simp] theorem State.orphan_kept (s : State) (n : Fin 8) : (s.orphan n).kept = s.kept := rfl
@[simp] theorem State.showField_kept (s : State) (f : BoardField) : (s.showField f).kept = s.kept := by
  unfold State.showField
  split
  · split <;> rfl
  · rfl
@[simp] theorem State.showSlot_kept (s : State) (n : Fin 8) (fs : List SlotField) : (s.showSlot n fs).kept = s.kept := by
  unfold State.showSlot
  exact State.kept_foldl _ (fun s a => s.showField_kept _) _ s
@[simp] theorem State.setEngine_kept (s : State) (n : Fin 8) (g : Engine → Engine) (fs : List SlotField) : (s.setEngine n g fs).kept = s.kept := by
  unfold State.setEngine
  simp
@[simp] theorem State.advance_kept (s : State) (n : Fin 8) (f : Slot → Slot) : (s.advance n f).kept = s.kept := by
  simp [State.advance]
@[simp] theorem State.setSlotState_kept (s : State) (n : Fin 8) (st : SlotState) : (s.setSlotState n st).kept = s.kept := by
  unfold State.setSlotState
  split <;> simp
@[simp] theorem State.notify_kept (s : State) (f : Flag) : (s.notify f).kept = s.kept := by
  unfold State.notify
  split <;> rfl
@[simp] theorem State.writeResult_kept (s : State) (n : Fin 8) (r : Result) : (s.writeResult n r).kept = s.kept := by
  unfold State.writeResult
  dsimp only
  split <;> simp
@[simp] theorem State.answer_kept (s : State) (n : Fin 8) (number : Mark) (r : Result) : (s.answer n number r).kept = s.kept := by
  unfold State.answer
  simp
@[simp] theorem State.completeOrder_kept (s : State) (n : Fin 8) (number : Option Mark) : (s.completeOrder n number).kept = s.kept := by
  unfold State.completeOrder
  split <;> simp
@[simp] theorem State.release_kept (s : State) (n : Fin 8) : (s.release n).kept = s.kept := by
  unfold State.release
  split <;> rfl
@[simp] theorem State.toIdle_kept (s : State) (n : Fin 8) : (s.toIdle n).kept = s.kept := by
  unfold State.toIdle
  simp
@[simp] theorem State.toFaulted_kept (s : State) (n : Fin 8) (f : SlotFault) : (s.toFaulted n f).kept = s.kept := by
  unfold State.toFaulted
  simp
@[simp] theorem State.markLapse_kept (s : State) (ns : List (Fin 8)) : (s.markLapse ns).kept = s.kept := by
  unfold State.markLapse
  exact State.kept_foldl _ (fun s a => s.modSlot_kept _ _) _ s
@[simp] theorem State.lapse_kept (s : State) (e : Fin 64) : (s.lapse e).kept = s.kept := by
  unfold State.lapse
  simp
@[simp] theorem State.judge_kept (s : State) (e : Fin 64) : (s.judge e).kept = s.kept := by
  unfold State.judge
  split <;> simp
@[simp] theorem State.derive_kept (s : State) (e : Fin 64) : (s.derive e).kept = s.kept := by
  unfold State.derive
  simp
@[simp] theorem State.judgeAll_kept (s : State) : (s.judgeAll).kept = s.kept := by
  unfold State.judgeAll
  exact State.kept_foldl _ (fun s a => s.judge_kept _) _ s
@[simp] theorem State.advanceClock_kept (s : State) (c : Nat) : (s.advanceClock c).kept = s.kept := by
  unfold State.advanceClock
  rw [State.judgeAll_kept]
  rfl
@[simp] theorem State.judgeLastView_kept (s : State) (e : Fin 64) : (s.judgeLastView e).kept = s.kept := by
  unfold State.judgeLastView
  split <;> simp
@[simp] theorem State.becameHeld_kept (s : State) (e : Fin 64) : (s.becameHeld e).kept = s.kept := by
  unfold State.becameHeld
  simp
@[simp] theorem State.deriveAll_kept (s : State) : (s.deriveAll).kept = s.kept := by
  unfold State.deriveAll
  exact State.kept_foldl _ (fun s a => s.becameHeld_kept _) _ s
@[simp] theorem State.freeEntry_kept (s : State) (e : Fin 64) : (s.freeEntry e).kept = s.kept := by
  unfold State.freeEntry
  simp
@[simp] theorem State.endRecording_kept (s : State) (e : Fin 64) (cutOff : Bool) : (s.endRecording e cutOff).kept = s.kept := by
  unfold State.endRecording
  split
  · split <;> simp
  · simp
@[simp] theorem State.endMove_kept (s : State) (e : Fin 64) : (s.endMove e).kept = s.kept := by
  unfold State.endMove
  split <;> simp
@[simp] theorem State.takeSorting_kept (s : State) (n : Fin 8) (z : Sorting) : (s.takeSorting n z).kept = s.kept := by
  unfold State.takeSorting
  simp
@[simp] theorem State.countAbsence_kept (s : State) (n : Fin 8) (seen : List Nat) : (s.countAbsence n seen).kept = s.kept := by
  unfold State.countAbsence
  dsimp only
  split <;> simp
@[simp] theorem State.refillNextKey_kept (s : State) (e : Fin 64) : (s.refillNextKey e).kept = s.kept := by
  unfold State.refillNextKey
  split <;> rfl
@[simp] theorem State.closeTakesEffect_kept (s : State) (n : Fin 8) : (s.closeTakesEffect n).kept = s.kept := by
  unfold State.closeTakesEffect
  split
  · rfl
  · dsimp only
    split <;> simp
@[simp] theorem State.askClose_kept (s : State) (n : Fin 8) : (s.askClose n).kept = s.kept := by
  unfold State.askClose
  split
  · rfl
  · split
    · rfl
    · split <;> simp
@[simp] theorem State.formBatch_kept (s : State) (n : Fin 8) : (s.formBatch n).kept = s.kept := by
  unfold State.formBatch
  split
  · rfl
  · dsimp only
    split
    · rfl
    · split <;> simp
@[simp] theorem State.finishRecording_kept (s : State) (n : Fin 8) : (s.finishRecording n).kept = s.kept := by
  unfold State.finishRecording
  dsimp only
  split <;> simp
@[simp] theorem State.settleClosing_kept (s : State) (n : Fin 8) : (s.settleClosing n).kept = s.kept := by
  unfold State.settleClosing
  dsimp only
  split
  · split
    · simp
    · split <;> simp
  · rfl
@[simp] theorem State.completeTake_kept (s : State) (n : Fin 8) : (s.completeTake n).1.kept = s.kept := by
  unfold State.completeTake
  split
  · rfl
  · dsimp only
    split <;> simp
@[simp] theorem State.faultRecord_kept (s : State) (n : Fin 8) (f : SlotFault) : (s.faultRecord n f).kept = s.kept := by
  unfold State.faultRecord
  dsimp only
  split <;> simp
@[simp] theorem State.recordLoss_kept (s : State) (n : Fin 8) (loss : Nat) : (s.recordLoss n loss).kept = s.kept := by
  unfold State.recordLoss
  simp
@[simp] theorem State.overrun_kept (s : State) (n : Fin 8) : (s.overrun n).kept = s.kept := by
  unfold State.overrun
  cases h : (s.slot n).chunk <;> simp [apply_ite State.kept]
@[simp] theorem State.refreshRecord_kept (s : State) (n : Fin 8) : (s.refreshRecord n).kept = s.kept := by
  unfold State.refreshRecord
  dsimp only
  split
  · rfl
  · split
    · have h := s.completeTake_kept n
      split <;> simp_all
    · split <;> simp
@[simp] theorem State.openChunk_kept (s : State) (n : Fin 8) : (s.openChunk n).kept = s.kept := by
  unfold State.openChunk
  dsimp only
  split
  · rfl
  · split
    · simp
    · split
      · split <;> simp
      · split
        · rfl
        · split <;> simp
@[simp] theorem State.putChunk_kept (s : State) (n : Fin 8) (c : OpenChunk) (e : Fin 64) : (s.putChunk n c e).kept = s.kept := by
  unfold State.putChunk
  dsimp only
  split <;> simp
@[simp] theorem State.recoveryRaise_kept (s : State) (e : Fin 64) (seq stamp : Nat) : (s.recoveryRaise e seq stamp).kept = s.kept := by
  unfold State.recoveryRaise
  split <;> simp
@[simp] theorem State.runWork_kept (s : State) (work : Work) : (s.runWork work).1.kept = s.kept := by
  unfold State.runWork
  rfl
@[simp] theorem State.countDelivered_kept (s : State) (n : Fin 8) (count : Nat) : (s.countDelivered n count).kept = s.kept := by
  unfold State.countDelivered
  simp
@[simp] theorem State.drainDeliver_kept (s : State) (n : Fin 8) : (s.drainDeliver n).kept = s.kept := by
  unfold State.drainDeliver
  split
  · split
    · dsimp only
      split
      · split
        · rename_i h
          have := congrArg (fun x : State × Bool => x.1.kept) h
          simp only [State.runWork_kept] at this
          simp only [State.countDelivered_kept, ← this]
          rfl
        · rename_i h
          have := congrArg (fun x : State × Bool => x.1.kept) h
          simp only [State.runWork_kept] at this
          rw [← this]
          rfl
      · rfl
    · rfl
  · rfl
@[simp] theorem State.readFrameTag_kept (s : State) (n : Fin 8) : (s.readFrameTag n).kept = s.kept := by
  unfold State.readFrameTag
  split
  · dsimp only
    split <;> simp
  · rfl
@[simp] theorem State.drainVerify_kept (s : State) (n : Fin 8) : (s.drainVerify n).kept = s.kept := by
  unfold State.drainVerify
  split
  · rw [State.readFrameTag_kept]
    rfl
  · rfl
@[simp] theorem State.finishFrame_kept (s : State) (n : Fin 8) (o : FrameOutcome) (packets remaining : Nat) (notice : Bool) :
    (s.finishFrame n o packets remaining notice).kept = s.kept := by
  unfold State.finishFrame
  split
  · rfl
  · simp [apply_ite State.kept]
@[simp] theorem State.endPlay_kept (s : State) (n : Fin 8) : (s.endPlay n).kept = s.kept := by
  unfold State.endPlay
  dsimp only
  split
  · simp
  · split <;> simp
@[simp] theorem State.completeMove_kept (s : State) (n : Fin 8) (e : Fin 64) : (s.completeMove n e).kept = s.kept := by
  unfold State.completeMove
  dsimp only
  split <;> simp
@[simp] theorem State.quitMove_kept (s : State) (n : Fin 8) : (s.quitMove n).kept = s.kept := by
  unfold State.quitMove
  dsimp only
  split <;> simp
@[simp] theorem State.afterFinish_kept (s : State) (n : Fin 8) : (s.afterFinish n).kept = s.kept := by
  unfold State.afterFinish
  dsimp only
  split
  · split
    · simp
    · split <;> simp
  · split <;> simp
@[simp] theorem State.endFrame_kept (s : State) (n : Fin 8) (o : FrameOutcome) (packets remaining : Nat) : (s.endFrame n o packets remaining).kept = s.kept := by
  unfold State.endFrame
  split <;> simp
@[simp] theorem State.advanceMoveMark_kept (s : State) (e : Fin 64) : (s.advanceMoveMark e).kept = s.kept := by
  unfold State.advanceMoveMark
  simp
@[simp] theorem State.playNext_kept (s : State) (n : Fin 8) : (s.playNext n).kept = s.kept := by
  unfold State.playNext
  dsimp only
  split
  · split
    · simp
    · split <;> simp
  · rfl
@[simp] theorem State.moveNext_kept (s : State) (n : Fin 8) : (s.moveNext n).kept = s.kept := by
  unfold State.moveNext
  dsimp only
  split
  · split
    · rfl
    · split <;> simp
  · rfl
@[simp] theorem State.permitFrame_kept (s : State) (n : Fin 8) (e : Fin 64) (g : Segment) (t : TagRead) (remaining : Nat) : (s.permitFrame n e g t remaining).kept = s.kept := by
  unfold State.permitFrame
  dsimp only
  split
  · simp
  · split <;> simp
  · simp
@[simp] theorem State.setClock_kept (s : State) (c : Nat) : ({ s with clock := c } : State).kept = s.kept := rfl
@[simp] theorem State.frameVerified_kept (s : State) (n : Fin 8) (e : Fin 64) (t : TagRead) (raiseDue : Bool) :
    (s.frameVerified n e t raiseDue).kept = s.kept := by
  unfold State.frameVerified
  have h : (if raiseDue then s.recoveryRaise e t.seq t.stamp else s).kept = s.kept := by split <;> simp
  generalize (if raiseDue then s.recoveryRaise e t.seq t.stamp else s) = s1 at h
  dsimp only
  split
  · split <;> split <;> simp [h]
  · simp [h]
@[simp] theorem State.faultFrameSlot_kept (s : State) (n : Fin 8) (f : SlotFault) : (s.faultFrameSlot n f).kept = s.kept := by
  unfold State.faultFrameSlot
  dsimp only
  split
  · simp
  · split
    · simp
    · split <;> simp
@[simp] theorem State.faultSlot_kept (s : State) (n : Fin 8) (f : SlotFault) : (s.faultSlot n f).kept = s.kept := by
  unfold State.faultSlot
  split <;> simp
@[simp] theorem State.refreshSlot_kept (s : State) (n : Fin 8) : (s.refreshSlot n).kept = s.kept := by
  unfold State.refreshSlot
  dsimp only
  split
  · simp
  · split
    · simp
    · split <;> simp
    · simp
    · simp
@[simp] theorem State.startTake_kept (s : State) (n : Fin 8) : (s.startTake n).kept = s.kept := by
  unfold State.startTake
  dsimp only
  split <;> simp
@[simp] theorem State.endTake_kept (s : State) (n : Fin 8) : (s.endTake n).kept = s.kept := by
  unfold State.endTake
  have h := s.completeTake_kept n
  split <;> simp_all
@[simp] theorem State.sealedBatch_kept (s : State) (n : Fin 8) (bytes : List Byte) : (s.sealedBatch n bytes).kept = s.kept := by
  unfold State.sealedBatch
  split
  · rfl
  · dsimp only
    split <;> simp
@[simp] theorem State.closedChunk_kept (s : State) (n : Fin 8) : (s.closedChunk n).kept = s.kept := by
  unfold State.closedChunk
  split
  · split <;> simp
  · rfl
@[simp] theorem State.takeFrame_kept (s : State) (n : Fin 8) : (s.takeFrame n).kept = s.kept := by
  unfold State.takeFrame
  simp
@[simp] theorem State.verifyRange_kept (s : State) (n : Fin 8) (e : Fin 64) (f : Frame) (t : TagRead) : (s.verifyRange n e f t).kept = s.kept := by
  unfold State.verifyRange
  dsimp only
  split
  · split
    · simp
    · split <;> simp
  · simp
@[simp] theorem State.verifyFrame_kept (s : State) (n : Fin 8) (e : Fin 64) (f : Frame) : (s.verifyFrame n e f).kept = s.kept := by
  unfold State.verifyFrame
  split
  · simp
  · dsimp only
    split
    · split <;> simp
    · simp
@[simp] theorem State.delivered_kept (s : State) (n : Fin 8) (count : Nat) : (s.delivered n count).kept = s.kept := by
  unfold State.delivered
  dsimp only
  split
  · split <;> simp
  · simp
@[simp] theorem State.badRange_kept (s : State) (n : Fin 8) : (s.badRange n).kept = s.kept := by
  unfold State.badRange
  simp
@[simp] theorem State.reserveOutput_kept (s : State) (n : Fin 8) : (s.reserveOutput n).kept = s.kept := by
  unfold State.reserveOutput
  simp
@[simp] theorem State.resealed_kept (s : State) (n : Fin 8) (token : Key) (bytes : List Byte) : (s.resealed n token bytes).kept = s.kept := by
  unfold State.resealed
  simp
@[simp] theorem State.putOutput_kept (s : State) (n : Fin 8) (e : Fin 64) (count remaining : Nat) : (s.putOutput n e count remaining).kept = s.kept := by
  unfold State.putOutput
  simp
@[simp] theorem State.finalResealed_kept (s : State) (n : Fin 8) : (s.finalResealed n).kept = s.kept := by
  unfold State.finalResealed
  split
  · split <;> simp
  · rfl
@[simp] theorem State.handOver_kept (s : State) (n : Fin 8) (e : Fin 64) (first next : Key) (rest : List Key) : (s.handOver n e first next rest).kept = s.kept := by
  unfold State.handOver
  simp
  rfl

/-! ## The key pool, the draw and the clock -/

/-- The key pool, the draw in flight and the clock. -/
def State.keysClock (s : State) : List Key × Bool × Nat := (s.pool, s.drawing, s.clock)

theorem State.sameKeysAndClock_iff (s t : State) : s.sameKeysAndClock t ↔ t.keysClock = s.keysClock := by
  simp [State.sameKeysAndClock, State.keysClock]

/-- A fold of operations that keep them keeps them. -/
theorem State.keysClock_foldl {α : Type} (op : State → α → State) (h : ∀ s a, (op s a).keysClock = s.keysClock) (l : List α)
    (s : State) : (l.foldl op s).keysClock = s.keysClock := by
  induction l generalizing s with
  | nil => rfl
  | cons a l ih => rw [List.foldl_cons, ih, h]

@[simp] theorem State.setSlot_keysClock (s : State) (n : Fin 8) (x : Slot) : (s.setSlot n x).keysClock = s.keysClock := rfl
@[simp] theorem State.modSlot_keysClock (s : State) (n : Fin 8) (g : Slot → Slot) : (s.modSlot n g).keysClock = s.keysClock := rfl
@[simp] theorem State.setEntry_keysClock (s : State) (e : Fin 64) (x : Entry) : (s.setEntry e x).keysClock = s.keysClock := rfl
@[simp] theorem State.modEntry_keysClock (s : State) (e : Fin 64) (g : Entry → Entry) : (s.modEntry e g).keysClock = s.keysClock := rfl
@[simp] theorem State.raise_keysClock (s : State) (f : Flag) : (s.raise f).keysClock = s.keysClock := rfl
@[simp] theorem State.recorded_keysClock (s : State) (w : Writes) : (s.recorded w).keysClock = s.keysClock := rfl
@[simp] theorem State.writeField_keysClock (s : State) (f : BoardField) : (s.writeField f).keysClock = s.keysClock := rfl
@[simp] theorem State.writeRecord_keysClock (s : State) (n : Fin 8) : (s.writeRecord n).keysClock = s.keysClock := rfl
@[simp] theorem State.freeCipher_keysClock (s : State) : (s.freeCipher).keysClock = s.keysClock := rfl
@[simp] theorem State.orphan_keysClock (s : State) (n : Fin 8) : (s.orphan n).keysClock = s.keysClock := rfl
@[simp] theorem State.showField_keysClock (s : State) (f : BoardField) : (s.showField f).keysClock = s.keysClock := by
  unfold State.showField
  split
  · split <;> rfl
  · rfl
@[simp] theorem State.showSlot_keysClock (s : State) (n : Fin 8) (fs : List SlotField) : (s.showSlot n fs).keysClock = s.keysClock := by
  unfold State.showSlot
  exact State.keysClock_foldl _ (fun s a => s.showField_keysClock _) _ s
@[simp] theorem State.setEngine_keysClock (s : State) (n : Fin 8) (g : Engine → Engine) (fs : List SlotField) : (s.setEngine n g fs).keysClock = s.keysClock := by
  unfold State.setEngine
  simp
@[simp] theorem State.advance_keysClock (s : State) (n : Fin 8) (f : Slot → Slot) : (s.advance n f).keysClock = s.keysClock := by
  simp [State.advance]
@[simp] theorem State.setSlotState_keysClock (s : State) (n : Fin 8) (st : SlotState) : (s.setSlotState n st).keysClock = s.keysClock := by
  unfold State.setSlotState
  split <;> simp
@[simp] theorem State.notify_keysClock (s : State) (f : Flag) : (s.notify f).keysClock = s.keysClock := by
  unfold State.notify
  split <;> rfl
@[simp] theorem State.writeResult_keysClock (s : State) (n : Fin 8) (r : Result) : (s.writeResult n r).keysClock = s.keysClock := by
  unfold State.writeResult
  dsimp only
  split <;> simp
@[simp] theorem State.answer_keysClock (s : State) (n : Fin 8) (number : Mark) (r : Result) : (s.answer n number r).keysClock = s.keysClock := by
  unfold State.answer
  simp
@[simp] theorem State.completeOrder_keysClock (s : State) (n : Fin 8) (number : Option Mark) : (s.completeOrder n number).keysClock = s.keysClock := by
  unfold State.completeOrder
  split <;> simp
@[simp] theorem State.release_keysClock (s : State) (n : Fin 8) : (s.release n).keysClock = s.keysClock := by
  unfold State.release
  split <;> rfl
@[simp] theorem State.toIdle_keysClock (s : State) (n : Fin 8) : (s.toIdle n).keysClock = s.keysClock := by
  unfold State.toIdle
  simp
@[simp] theorem State.toFaulted_keysClock (s : State) (n : Fin 8) (f : SlotFault) : (s.toFaulted n f).keysClock = s.keysClock := by
  unfold State.toFaulted
  simp
@[simp] theorem State.markLapse_keysClock (s : State) (ns : List (Fin 8)) : (s.markLapse ns).keysClock = s.keysClock := by
  unfold State.markLapse
  exact State.keysClock_foldl _ (fun s a => s.modSlot_keysClock _ _) _ s
@[simp] theorem State.lapse_keysClock (s : State) (e : Fin 64) : (s.lapse e).keysClock = s.keysClock := by
  unfold State.lapse
  simp
@[simp] theorem State.judge_keysClock (s : State) (e : Fin 64) : (s.judge e).keysClock = s.keysClock := by
  unfold State.judge
  split <;> simp
@[simp] theorem State.derive_keysClock (s : State) (e : Fin 64) : (s.derive e).keysClock = s.keysClock := by
  unfold State.derive
  simp
@[simp] theorem State.judgeAll_keysClock (s : State) : (s.judgeAll).keysClock = s.keysClock := by
  unfold State.judgeAll
  exact State.keysClock_foldl _ (fun s a => s.judge_keysClock _) _ s
@[simp] theorem State.judgeLastView_keysClock (s : State) (e : Fin 64) : (s.judgeLastView e).keysClock = s.keysClock := by
  unfold State.judgeLastView
  split <;> simp
@[simp] theorem State.becameHeld_keysClock (s : State) (e : Fin 64) : (s.becameHeld e).keysClock = s.keysClock := by
  unfold State.becameHeld
  simp
@[simp] theorem State.deriveAll_keysClock (s : State) : (s.deriveAll).keysClock = s.keysClock := by
  unfold State.deriveAll
  exact State.keysClock_foldl _ (fun s a => s.becameHeld_keysClock _) _ s
@[simp] theorem State.freeEntry_keysClock (s : State) (e : Fin 64) : (s.freeEntry e).keysClock = s.keysClock := by
  unfold State.freeEntry
  simp
@[simp] theorem State.endRecording_keysClock (s : State) (e : Fin 64) (cutOff : Bool) : (s.endRecording e cutOff).keysClock = s.keysClock := by
  unfold State.endRecording
  split
  · split <;> simp
  · simp
@[simp] theorem State.endMove_keysClock (s : State) (e : Fin 64) : (s.endMove e).keysClock = s.keysClock := by
  unfold State.endMove
  split <;> simp
@[simp] theorem State.takeSorting_keysClock (s : State) (n : Fin 8) (z : Sorting) : (s.takeSorting n z).keysClock = s.keysClock := by
  unfold State.takeSorting
  simp
@[simp] theorem State.countAbsence_keysClock (s : State) (n : Fin 8) (seen : List Nat) : (s.countAbsence n seen).keysClock = s.keysClock := by
  unfold State.countAbsence
  dsimp only
  split <;> simp
@[simp] theorem State.closeTakesEffect_keysClock (s : State) (n : Fin 8) : (s.closeTakesEffect n).keysClock = s.keysClock := by
  unfold State.closeTakesEffect
  split
  · rfl
  · dsimp only
    split <;> simp
@[simp] theorem State.askClose_keysClock (s : State) (n : Fin 8) : (s.askClose n).keysClock = s.keysClock := by
  unfold State.askClose
  split
  · rfl
  · split
    · rfl
    · split <;> simp
@[simp] theorem State.formBatch_keysClock (s : State) (n : Fin 8) : (s.formBatch n).keysClock = s.keysClock := by
  unfold State.formBatch
  split
  · rfl
  · dsimp only
    split
    · rfl
    · split <;> simp
@[simp] theorem State.finishRecording_keysClock (s : State) (n : Fin 8) : (s.finishRecording n).keysClock = s.keysClock := by
  unfold State.finishRecording
  dsimp only
  split <;> simp
@[simp] theorem State.settleClosing_keysClock (s : State) (n : Fin 8) : (s.settleClosing n).keysClock = s.keysClock := by
  unfold State.settleClosing
  dsimp only
  split
  · split
    · simp
    · split <;> simp
  · rfl
@[simp] theorem State.completeTake_keysClock (s : State) (n : Fin 8) : (s.completeTake n).1.keysClock = s.keysClock := by
  unfold State.completeTake
  split
  · rfl
  · dsimp only
    split <;> simp
@[simp] theorem State.faultRecord_keysClock (s : State) (n : Fin 8) (f : SlotFault) : (s.faultRecord n f).keysClock = s.keysClock := by
  unfold State.faultRecord
  dsimp only
  split <;> simp
@[simp] theorem State.recordLoss_keysClock (s : State) (n : Fin 8) (loss : Nat) : (s.recordLoss n loss).keysClock = s.keysClock := by
  unfold State.recordLoss
  simp
@[simp] theorem State.overrun_keysClock (s : State) (n : Fin 8) : (s.overrun n).keysClock = s.keysClock := by
  unfold State.overrun
  cases h : (s.slot n).chunk <;> simp [apply_ite State.keysClock]
@[simp] theorem State.refreshRecord_keysClock (s : State) (n : Fin 8) : (s.refreshRecord n).keysClock = s.keysClock := by
  unfold State.refreshRecord
  dsimp only
  split
  · rfl
  · split
    · have h := s.completeTake_keysClock n
      split <;> simp_all
    · split <;> simp
@[simp] theorem State.putChunk_keysClock (s : State) (n : Fin 8) (c : OpenChunk) (e : Fin 64) : (s.putChunk n c e).keysClock = s.keysClock := by
  unfold State.putChunk
  dsimp only
  split <;> simp
@[simp] theorem State.recoveryRaise_keysClock (s : State) (e : Fin 64) (seq stamp : Nat) : (s.recoveryRaise e seq stamp).keysClock = s.keysClock := by
  unfold State.recoveryRaise
  split <;> simp
@[simp] theorem State.runWork_keysClock (s : State) (work : Work) : (s.runWork work).1.keysClock = s.keysClock := by
  unfold State.runWork
  rfl
@[simp] theorem State.countDelivered_keysClock (s : State) (n : Fin 8) (count : Nat) : (s.countDelivered n count).keysClock = s.keysClock := by
  unfold State.countDelivered
  simp
@[simp] theorem State.drainDeliver_keysClock (s : State) (n : Fin 8) : (s.drainDeliver n).keysClock = s.keysClock := by
  unfold State.drainDeliver
  split
  · split
    · dsimp only
      split
      · split
        · rename_i h
          have := congrArg (fun x : State × Bool => x.1.keysClock) h
          simp only [State.runWork_keysClock] at this
          simp only [State.countDelivered_keysClock, ← this]
          rfl
        · rename_i h
          have := congrArg (fun x : State × Bool => x.1.keysClock) h
          simp only [State.runWork_keysClock] at this
          rw [← this]
          rfl
      · rfl
    · rfl
  · rfl
@[simp] theorem State.readFrameTag_keysClock (s : State) (n : Fin 8) : (s.readFrameTag n).keysClock = s.keysClock := by
  unfold State.readFrameTag
  split
  · dsimp only
    split <;> simp
  · rfl
@[simp] theorem State.drainVerify_keysClock (s : State) (n : Fin 8) : (s.drainVerify n).keysClock = s.keysClock := by
  unfold State.drainVerify
  split
  · rw [State.readFrameTag_keysClock]
    rfl
  · rfl
@[simp] theorem State.finishFrame_keysClock (s : State) (n : Fin 8) (o : FrameOutcome) (packets remaining : Nat) (notice : Bool) :
    (s.finishFrame n o packets remaining notice).keysClock = s.keysClock := by
  unfold State.finishFrame
  split
  · rfl
  · simp [apply_ite State.keysClock]
@[simp] theorem State.endPlay_keysClock (s : State) (n : Fin 8) : (s.endPlay n).keysClock = s.keysClock := by
  unfold State.endPlay
  dsimp only
  split
  · simp
  · split <;> simp
@[simp] theorem State.completeMove_keysClock (s : State) (n : Fin 8) (e : Fin 64) : (s.completeMove n e).keysClock = s.keysClock := by
  unfold State.completeMove
  dsimp only
  split <;> simp
@[simp] theorem State.quitMove_keysClock (s : State) (n : Fin 8) : (s.quitMove n).keysClock = s.keysClock := by
  unfold State.quitMove
  dsimp only
  split <;> simp
@[simp] theorem State.afterFinish_keysClock (s : State) (n : Fin 8) : (s.afterFinish n).keysClock = s.keysClock := by
  unfold State.afterFinish
  dsimp only
  split
  · split
    · simp
    · split <;> simp
  · split <;> simp
@[simp] theorem State.endFrame_keysClock (s : State) (n : Fin 8) (o : FrameOutcome) (packets remaining : Nat) : (s.endFrame n o packets remaining).keysClock = s.keysClock := by
  unfold State.endFrame
  split <;> simp
@[simp] theorem State.advanceMoveMark_keysClock (s : State) (e : Fin 64) : (s.advanceMoveMark e).keysClock = s.keysClock := by
  unfold State.advanceMoveMark
  simp
@[simp] theorem State.playNext_keysClock (s : State) (n : Fin 8) : (s.playNext n).keysClock = s.keysClock := by
  unfold State.playNext
  dsimp only
  split
  · split
    · simp
    · split <;> simp
  · rfl
@[simp] theorem State.moveNext_keysClock (s : State) (n : Fin 8) : (s.moveNext n).keysClock = s.keysClock := by
  unfold State.moveNext
  dsimp only
  split
  · split
    · rfl
    · split <;> simp
  · rfl
@[simp] theorem State.permitFrame_keysClock (s : State) (n : Fin 8) (e : Fin 64) (g : Segment) (t : TagRead) (remaining : Nat) : (s.permitFrame n e g t remaining).keysClock = s.keysClock := by
  unfold State.permitFrame
  dsimp only
  split
  · simp
  · split <;> simp
  · simp
@[simp] theorem State.faultFrameSlot_keysClock (s : State) (n : Fin 8) (f : SlotFault) : (s.faultFrameSlot n f).keysClock = s.keysClock := by
  unfold State.faultFrameSlot
  dsimp only
  split
  · simp
  · split
    · simp
    · split <;> simp
@[simp] theorem State.faultSlot_keysClock (s : State) (n : Fin 8) (f : SlotFault) : (s.faultSlot n f).keysClock = s.keysClock := by
  unfold State.faultSlot
  split <;> simp
@[simp] theorem State.refreshSlot_keysClock (s : State) (n : Fin 8) : (s.refreshSlot n).keysClock = s.keysClock := by
  unfold State.refreshSlot
  dsimp only
  split
  · simp
  · split
    · simp
    · split <;> simp
    · simp
    · simp
@[simp] theorem State.startTake_keysClock (s : State) (n : Fin 8) : (s.startTake n).keysClock = s.keysClock := by
  unfold State.startTake
  dsimp only
  split <;> simp
@[simp] theorem State.endTake_keysClock (s : State) (n : Fin 8) : (s.endTake n).keysClock = s.keysClock := by
  unfold State.endTake
  have h := s.completeTake_keysClock n
  split <;> simp_all
@[simp] theorem State.sealedBatch_keysClock (s : State) (n : Fin 8) (bytes : List Byte) : (s.sealedBatch n bytes).keysClock = s.keysClock := by
  unfold State.sealedBatch
  split
  · rfl
  · dsimp only
    split <;> simp
@[simp] theorem State.closedChunk_keysClock (s : State) (n : Fin 8) : (s.closedChunk n).keysClock = s.keysClock := by
  unfold State.closedChunk
  split
  · split <;> simp
  · rfl
@[simp] theorem State.takeFrame_keysClock (s : State) (n : Fin 8) : (s.takeFrame n).keysClock = s.keysClock := by
  unfold State.takeFrame
  simp
@[simp] theorem State.delivered_keysClock (s : State) (n : Fin 8) (count : Nat) : (s.delivered n count).keysClock = s.keysClock := by
  unfold State.delivered
  dsimp only
  split
  · split <;> simp
  · simp
@[simp] theorem State.badRange_keysClock (s : State) (n : Fin 8) : (s.badRange n).keysClock = s.keysClock := by
  unfold State.badRange
  simp
@[simp] theorem State.reserveOutput_keysClock (s : State) (n : Fin 8) : (s.reserveOutput n).keysClock = s.keysClock := by
  unfold State.reserveOutput
  simp
@[simp] theorem State.resealed_keysClock (s : State) (n : Fin 8) (token : Key) (bytes : List Byte) : (s.resealed n token bytes).keysClock = s.keysClock := by
  unfold State.resealed
  simp
@[simp] theorem State.putOutput_keysClock (s : State) (n : Fin 8) (e : Fin 64) (count remaining : Nat) : (s.putOutput n e count remaining).keysClock = s.keysClock := by
  unfold State.putOutput
  simp
@[simp] theorem State.finalResealed_keysClock (s : State) (n : Fin 8) : (s.finalResealed n).keysClock = s.keysClock := by
  unfold State.finalResealed
  split
  · split <;> simp
  · rfl

end Sys2Proof.Machine
end

