-- ==== Sys2Proof/Laws/Ops.lean ====
section
/-! SUPPORT. Laws/Ops.lean: what each shared operation of Machine/Ops.lean does to slots, entries, flags and memory, said
once. -/

namespace Sys2Proof.Machine

/-! ## Byte counts -/

@[simp] theorem length_le (n v : Nat) : (le n v).length = n := by
  induction n generalizing v with
  | zero => rfl
  | succ n ih => simp [le, ih]

@[simp] theorem length_zeros (n : Nat) : (zeros n).length = n := by simp [zeros]

@[simp] theorem OutcomeEntry.length_image (o : OutcomeEntry) : o.image.length = 12 := by simp [OutcomeEntry.image]

/-! ## Commands that read recorder memory -/

/-- A command with recorder writes answers a next state exactly where they lie below 2^64, and it is the effect's. -/
theorem withWrites_next {w : Writes} {s t : State} {effect : State → State} :
    withWrites w s effect = .next t ↔ writesInSpace w = true ∧ t = effect (s.recorded w) := by
  unfold withWrites
  by_cases hw : writesInSpace w = true
  · rw [if_pos hw]
    constructor
    · intro h
      injection h with h
      exact ⟨hw, h.symm⟩
    · rintro ⟨_, rfl⟩
      rfl
  · rw [if_neg hw]
    constructor
    · intro h
      exact absurd h (by simp)
    · intro h
      exact absurd h.1 hw

/-- With recorder writes below 2^64 the command answers its effect. -/
theorem withWrites_of {w : Writes} {s : State} {effect : State → State} (h : writesInSpace w = true) :
    withWrites w s effect = .next (effect (s.recorded w)) := by
  simp [withWrites, h]

/-- A write list leaves every byte outside its blocks alone. -/
theorem Memory.get_recorder_outside {w : Writes} {a : Nat} (h : ∀ b ∈ w, a < b.1 ∨ b.1 + b.2.length ≤ a) (m : Memory) :
    (m.recorder w).get a = m.get a := by
  unfold Memory.recorder
  induction w generalizing m with
  | nil => rfl
  | cons b w ih =>
    rw [List.foldl_cons, ih (fun c hc => h c (List.mem_cons_of_mem _ hc))]
    exact Memory.get_write_outside (h b (by simp))

/-! ## Checked writes (R54) -/

/-- Every byte that checked writes change lies in a held writable window. -/
theorem writeAccesses_confined {windows : List Window} {a : Nat} (ha : ∀ x ∈ windows, x.writable = true → a < x.lo ∨ x.hi < a) :
    ∀ (accs : List (Nat × List Byte)) (m : Memory), (writeAccesses windows m accs).1.get a = m.get a
  | [], _ => rfl
  | (b, bs) :: rest, m => by
    unfold writeAccesses
    split
    · rename_i hc
      rw [writeAccesses_confined ha rest]
      apply Memory.get_write_outside
      unfold covers at hc
      simp only [Bool.not_true, Bool.false_or, List.any_eq_true, Bool.and_eq_true, decide_eq_true_eq] at hc
      obtain ⟨x, hx, ⟨h1, h2⟩, h3⟩ := hc
      have := ha x hx h3
      omega
    · rfl

/-- Checked writes keep the canonical form. -/
theorem writeAccesses_wf {windows : List Window} :
    ∀ (accs : List (Nat × List Byte)) {m : Memory}, m.wf = true → (writeAccesses windows m accs).1.wf = true
  | [], _, h => h
  | (b, bs) :: rest, m, h => by
    unfold writeAccesses
    split
    · exact writeAccesses_wf rest (Memory.wf_write h _ _)
    · exact h

/-- Cut-off writes change bytes of held writable windows only. -/
theorem cutAccesses_confined {windows : List Window} {a : Nat} (ha : ∀ x ∈ windows, x.writable = true → a < x.lo ∨ x.hi < a) :
    ∀ (accs : List (Nat × List Byte)) (made : Nat) (m : Memory), (cutAccesses windows made m accs).get a = m.get a
  | [], _, _ => rfl
  | (b, bs) :: rest, made, m => by
    unfold cutAccesses
    split
    · rename_i hc
      rw [cutAccesses_confined ha rest]
      apply Memory.get_write_outside
      unfold covers at hc
      simp only [Bool.not_true, Bool.false_or, List.any_eq_true, Bool.and_eq_true, decide_eq_true_eq] at hc
      obtain ⟨x, hx, ⟨h1, h2⟩, h3⟩ := hc
      have := ha x hx h3
      simp only [List.length_take]
      omega
    · rfl

/-- Cut-off writes keep the canonical form. -/
theorem cutAccesses_wf {windows : List Window} :
    ∀ (accs : List (Nat × List Byte)) (made : Nat) {m : Memory}, m.wf = true → (cutAccesses windows made m accs).wf = true
  | [], _, _, h => h
  | (b, bs) :: rest, made, m, h => by
    unfold cutAccesses
    split
    · exact cutAccesses_wf rest _ (Memory.wf_write h _ _)
    · exact h

/-! ## Fields of the board (R64) -/

/-- A field of the engine part lies in offsets 256 to 511 of the record. -/
theorem Engine.fieldAt_range (g : Engine) (f : SlotField) (h : ∀ p, f = .outcome p → p < 16) :
    256 ≤ (g.fieldAt f).1 ∧ (g.fieldAt f).1 + (g.fieldAt f).2.length ≤ 512 := by
  cases f with
  | outcome p =>
    have := h p rfl
    simp [Engine.fieldAt]
    omega
  | _ => simp [Engine.fieldAt]

/-- A field of the header written as it changes lies in offsets 128 to 163. -/
theorem Header.fieldAt_range (g : Header) (f : HeaderField) :
    128 ≤ (g.fieldAt f).1 ∧ (g.fieldAt f).1 + (g.fieldAt f).2.length ≤ 164 := by
  cases f <;> simp [Header.fieldAt]

/-- Outside STOPPED a changed field is written at once. -/
theorem State.showField_running {s : State} (h : s.part ≠ .stopped) (f : BoardField) : s.showField f = s.writeField f := by
  simp [State.showField, h]

/-- In STOPPED a changed field is marked for writing, once. -/
theorem State.showField_stopped {s : State} (h : s.part = .stopped) (f : BoardField) :
    s.showField f = if f ∈ s.held then s else { s with held := s.held ++ [f] } := by
  simp [State.showField, h]

/-- Outside STOPPED changed fields of a slot are written at once, in order. -/
theorem State.showSlot_running {s : State} (h : s.part ≠ .stopped) (n : Fin 8) (fs : List SlotField) :
    s.showSlot n fs = { s with mem := s.mem.recorder (fs.map fun f => s.boardAccess (.slot n f)) } := by
  unfold State.showSlot
  induction fs generalizing s with
  | nil => rfl
  | cons f fs ih =>
    rw [List.foldl_cons, State.showField_running h, ih (by simpa using h)]
    rfl

/-- Outside STOPPED changed fields of the header are written at once, in order. -/
theorem State.showHeader_running {s : State} (h : s.part ≠ .stopped) (fs : List HeaderField) :
    s.showHeader fs = { s with mem := s.mem.recorder (fs.map fun f => s.boardAccess (.header f)) } := by
  unfold State.showHeader
  induction fs generalizing s with
  | nil => rfl
  | cons f fs ih =>
    rw [List.foldl_cons, State.showField_running h, ih (by simpa using h)]
    rfl

/-- In STOPPED no field is written. -/
theorem State.showField_mem_stopped {s : State} (h : s.part = .stopped) (f : BoardField) : (s.showField f).mem = s.mem := by
  rw [State.showField_stopped h]
  split <;> rfl

/-- Showing fields of a slot changes memory and the held writes alone. -/
theorem State.showSlot_eq (s : State) (n : Fin 8) (fs : List SlotField) :
    s.showSlot n fs = { s with mem := (s.showSlot n fs).mem, held := (s.showSlot n fs).held } := by
  unfold State.showSlot
  induction fs generalizing s with
  | nil => rfl
  | cons f fs ih =>
    rw [List.foldl_cons]
    have h1 : s.showField (.slot n f) = { s with mem := (s.showField (.slot n f)).mem, held := (s.showField (.slot n f)).held } := by
      unfold State.showField
      split
      · split <;> rfl
      · rfl
    generalize s.showField (.slot n f) = u at h1 ⊢
    have h2 := ih u
    rw [h2]
    generalize (List.foldl (fun s f => s.showField (.slot n f)) u fs) = v at h2 ⊢
    rw [h1]

theorem State.showHeader_eq (s : State) (fs : List HeaderField) :
    s.showHeader fs = { s with mem := (s.showHeader fs).mem, held := (s.showHeader fs).held } := by
  unfold State.showHeader
  induction fs generalizing s with
  | nil => rfl
  | cons f fs ih =>
    rw [List.foldl_cons]
    have h1 : s.showField (.header f) = { s with mem := (s.showField (.header f)).mem, held := (s.showField (.header f)).held } := by
      unfold State.showField
      split
      · split <;> rfl
      · rfl
    generalize s.showField (.header f) = u at h1 ⊢
    have h2 := ih u
    rw [h2]
    generalize (List.foldl (fun s f => s.showField (.header f)) u fs) = v at h2 ⊢
    rw [h1]

section
variable (s : State) (n : Fin 8) (fs : List SlotField) (hs : List HeaderField) (g : Engine → Engine)

@[simp] theorem State.showSlot_slots : (s.showSlot n fs).slots = s.slots := by rw [State.showSlot_eq]
@[simp] theorem State.showSlot_slot (m : Fin 8) : (s.showSlot n fs).slot m = s.slot m := by
  rw [State.slot, State.showSlot_slots, State.slot]
@[simp] theorem State.showSlot_entries : (s.showSlot n fs).entries = s.entries := by rw [State.showSlot_eq]
@[simp] theorem State.showSlot_entry (e : Fin 64) : (s.showSlot n fs).entry e = s.entry e := by
  rw [State.entry, State.showSlot_entries, State.entry]
@[simp] theorem State.showSlot_flags : (s.showSlot n fs).flags = s.flags := by rw [State.showSlot_eq]
@[simp] theorem State.showSlot_heldCauses : (s.showSlot n fs).heldCauses = s.heldCauses := by rw [State.showSlot_eq]
@[simp] theorem State.showSlot_waiting : (s.showSlot n fs).waiting = s.waiting := by rw [State.showSlot_eq]
@[simp] theorem State.showSlot_flight : (s.showSlot n fs).flight = s.flight := by rw [State.showSlot_eq]
@[simp] theorem State.showSlot_part : (s.showSlot n fs).part = s.part := by rw [State.showSlot_eq]
@[simp] theorem State.showSlot_baseLow : (s.showSlot n fs).baseLow = s.baseLow := by rw [State.showSlot_eq]
@[simp] theorem State.showSlot_baseHigh : (s.showSlot n fs).baseHigh = s.baseHigh := by rw [State.showSlot_eq]
@[simp] theorem State.showSlot_clock : (s.showSlot n fs).clock = s.clock := by rw [State.showSlot_eq]
@[simp] theorem State.showSlot_pool : (s.showSlot n fs).pool = s.pool := by rw [State.showSlot_eq]
@[simp] theorem State.showSlot_drawing : (s.showSlot n fs).drawing = s.drawing := by rw [State.showSlot_eq]
@[simp] theorem State.showSlot_windows : (s.showSlot n fs).windows = s.windows := by rw [State.showSlot_eq]

@[simp] theorem State.showHeader_slots : (s.showHeader hs).slots = s.slots := by rw [State.showHeader_eq]
@[simp] theorem State.showHeader_slot (m : Fin 8) : (s.showHeader hs).slot m = s.slot m := by
  rw [State.slot, State.showHeader_slots, State.slot]
@[simp] theorem State.showHeader_entries : (s.showHeader hs).entries = s.entries := by rw [State.showHeader_eq]
@[simp] theorem State.showHeader_entry (e : Fin 64) : (s.showHeader hs).entry e = s.entry e := by
  rw [State.entry, State.showHeader_entries, State.entry]
@[simp] theorem State.showHeader_flags : (s.showHeader hs).flags = s.flags := by rw [State.showHeader_eq]
@[simp] theorem State.showHeader_header : (s.showHeader hs).header = s.header := by rw [State.showHeader_eq]
@[simp] theorem State.showHeader_partLatch : (s.showHeader hs).partLatch = s.partLatch := by rw [State.showHeader_eq]
@[simp] theorem State.showHeader_part : (s.showHeader hs).part = s.part := by rw [State.showHeader_eq]
@[simp] theorem State.showHeader_clock : (s.showHeader hs).clock = s.clock := by rw [State.showHeader_eq]
@[simp] theorem State.showHeader_image : (s.showHeader hs).image = s.image := by rw [State.showHeader_eq]
@[simp] theorem State.showHeader_query : (s.showHeader hs).query = s.query := by rw [State.showHeader_eq]
@[simp] theorem State.showHeader_ready : (s.showHeader hs).ready = s.ready := by rw [State.showHeader_eq]

/-- What setEngine does to the slots. -/
@[simp] theorem State.setEngine_slot_self : (s.setEngine n g fs).slot n = { s.slot n with eng := g (s.slot n).eng } := by
  simp [State.setEngine]

theorem State.setEngine_slot (m : Fin 8) :
    (s.setEngine n g fs).slot m = if m = n then { s.slot n with eng := g (s.slot n).eng } else s.slot m := by
  simp [State.setEngine, State.slot_modSlot]

@[simp] theorem State.setEngine_entries : (s.setEngine n g fs).entries = s.entries := by simp [State.setEngine]
@[simp] theorem State.setEngine_entry (e : Fin 64) : (s.setEngine n g fs).entry e = s.entry e := by simp [State.setEngine]
@[simp] theorem State.setEngine_flags : (s.setEngine n g fs).flags = s.flags := by simp [State.setEngine]
@[simp] theorem State.setEngine_heldCauses : (s.setEngine n g fs).heldCauses = s.heldCauses := by simp [State.setEngine]
@[simp] theorem State.setEngine_waiting : (s.setEngine n g fs).waiting = s.waiting := by simp [State.setEngine]
@[simp] theorem State.setEngine_flight : (s.setEngine n g fs).flight = s.flight := by simp [State.setEngine]
@[simp] theorem State.setEngine_part : (s.setEngine n g fs).part = s.part := by simp [State.setEngine]
@[simp] theorem State.setEngine_clock : (s.setEngine n g fs).clock = s.clock := by simp [State.setEngine]
@[simp] theorem State.setEngine_pool : (s.setEngine n g fs).pool = s.pool := by simp [State.setEngine]
@[simp] theorem State.setEngine_drawing : (s.setEngine n g fs).drawing = s.drawing := by simp [State.setEngine]
@[simp] theorem State.setEngine_windows : (s.setEngine n g fs).windows = s.windows := by simp [State.setEngine]

/-- What advancing marks does to the slots. -/
@[simp] theorem State.advance_slot_self (f : Slot → Slot) : (s.advance n f).slot n = f (s.slot n) := by simp [State.advance]

theorem State.advance_slot (f : Slot → Slot) (m : Fin 8) :
    (s.advance n f).slot m = if m = n then f (s.slot n) else s.slot m := by
  simp [State.advance, State.slot_setSlot]

@[simp] theorem State.advance_entries (f : Slot → Slot) : (s.advance n f).entries = s.entries := by simp [State.advance]
@[simp] theorem State.advance_flags (f : Slot → Slot) : (s.advance n f).flags = s.flags := by simp [State.advance]
@[simp] theorem State.advance_heldCauses (f : Slot → Slot) : (s.advance n f).heldCauses = s.heldCauses := by simp [State.advance]
@[simp] theorem State.advance_waiting (f : Slot → Slot) : (s.advance n f).waiting = s.waiting := by simp [State.advance]
@[simp] theorem State.advance_flight (f : Slot → Slot) : (s.advance n f).flight = s.flight := by simp [State.advance]
@[simp] theorem State.advance_part (f : Slot → Slot) : (s.advance n f).part = s.part := by simp [State.advance]
@[simp] theorem State.advance_clock (f : Slot → Slot) : (s.advance n f).clock = s.clock := by simp [State.advance]
@[simp] theorem State.advance_pool (f : Slot → Slot) : (s.advance n f).pool = s.pool := by simp [State.advance]
@[simp] theorem State.advance_drawing (f : Slot → Slot) : (s.advance n f).drawing = s.drawing := by simp [State.advance]
@[simp] theorem State.advance_windows (f : Slot → Slot) : (s.advance n f).windows = s.windows := by simp [State.advance]
@[simp] theorem State.advance_entry (f : Slot → Slot) (e : Fin 64) : (s.advance n f).entry e = s.entry e := by
  simp [State.advance]
end

/-! ## Records and memory -/

theorem State.slotAddr_eq (s : State) (n : Fin 8) : s.slotAddr n = s.boardBase + 2048 + 512 * n.val := rfl

@[simp] theorem State.boardBase_eq_of {s t : State} (h : t.kept = s.kept) : t.boardBase = s.boardBase := by
  have h1 := congrArg Kept.baseLow h
  have h2 := congrArg Kept.baseHigh h
  simp only [State.kept] at h1 h2
  simp [State.boardBase, h1, h2]

theorem State.inRecord_of {s t : State} (h : t.kept = s.kept) (n : Fin 8) (a : Nat) : t.inRecord n a ↔ s.inRecord n a := by
  simp [State.inRecord, State.slotAddr, State.boardBase_eq_of h]

theorem State.inHeader_of {s t : State} (h : t.kept = s.kept) (a : Nat) : t.inHeader a ↔ s.inHeader a := by
  simp [State.inHeader, State.boardBase_eq_of h]

/-- Showing fields of slot `n` leaves memory outside its engine part alone. -/
theorem State.showSlot_outside (s : State) (n : Fin 8) (fs : List SlotField) (hf : ∀ p, .outcome p ∈ fs → p < 16) {a : Nat}
    (ha : ¬ s.inRecord n a) : (s.showSlot n fs).mem.get a = s.mem.get a := by
  by_cases h : s.part = .stopped
  · have : ∀ u : State, u.part = .stopped → (u.showSlot n fs).mem = u.mem := by
      clear hf ha
      unfold State.showSlot
      induction fs with
      | nil => intro u _; rfl
      | cons f fs ih =>
        intro u hu
        rw [List.foldl_cons, ih]
        · exact State.showField_mem_stopped hu _
        · have := congrArg Kept.part (u.showField_kept (.slot n f))
          simp only [State.kept] at this
          rw [this, hu]
    rw [this s h]
  · rw [State.showSlot_running h]
    apply Memory.get_recorder_outside
    intro b hb
    obtain ⟨f, hf', rfl⟩ := List.mem_map.mp hb
    have hr := Engine.fieldAt_range (s.slot n).eng f (fun p hp => hf p (hp ▸ hf'))
    simp only [State.boardAccess, State.inRecord] at ha ⊢
    omega

/-- Showing fields of the header leaves memory outside its engine part alone. -/
theorem State.showHeader_outside (s : State) (fs : List HeaderField) {a : Nat} (ha : ¬ s.inHeader a) :
    (s.showHeader fs).mem.get a = s.mem.get a := by
  by_cases h : s.part = .stopped
  · have : ∀ u : State, u.part = .stopped → (u.showHeader fs).mem = u.mem := by
      unfold State.showHeader
      induction fs with
      | nil => intro u _; rfl
      | cons f fs ih =>
        intro u hu
        rw [List.foldl_cons, ih]
        · exact State.showField_mem_stopped hu _
        · have := congrArg Kept.part (u.showField_kept (.header f))
          simp only [State.kept] at this
          rw [this, hu]
    rw [this s h]
  · rw [State.showHeader_running h]
    apply Memory.get_recorder_outside
    intro b hb
    obtain ⟨f, _, rfl⟩ := List.mem_map.mp hb
    have hr := Header.fieldAt_range s.header f
    simp only [State.boardAccess, State.inHeader] at ha ⊢
    omega

theorem State.setEngine_outside (s : State) (n : Fin 8) (g : Engine → Engine) (fs : List SlotField)
    (hf : ∀ p, .outcome p ∈ fs → p < 16) {a : Nat} (ha : ¬ s.inRecord n a) :
    (s.setEngine n g fs).mem.get a = s.mem.get a := by
  unfold State.setEngine
  rw [State.showSlot_outside _ _ _ hf]
  · rfl
  · exact ha

theorem State.advance_outside (s : State) (n : Fin 8) (f : Slot → Slot) {a : Nat} (ha : ¬ s.inRecord n a) :
    (s.advance n f).mem.get a = s.mem.get a := by
  unfold State.advance
  dsimp only
  rw [State.showSlot_outside _ _ _ (by simp)]
  · rfl
  · exact ha

/-- Outside STOPPED no write is held. -/
theorem State.showSlot_held {s : State} (h : s.part ≠ .stopped) (n : Fin 8) (fs : List SlotField) :
    (s.showSlot n fs).held = s.held := by rw [State.showSlot_running h]

theorem State.setEngine_held {s : State} (h : s.part ≠ .stopped) (n : Fin 8) (g : Engine → Engine) (fs : List SlotField) :
    (s.setEngine n g fs).held = s.held := by
  unfold State.setEngine
  rw [State.showSlot_held]
  · rfl
  · exact h

theorem State.advance_held {s : State} (h : s.part ≠ .stopped) (n : Fin 8) (f : Slot → Slot) :
    (s.advance n f).held = s.held := by
  unfold State.advance
  dsimp only
  rw [State.showSlot_held]
  · rfl
  · exact h

/-! ## Causes -/

theorem State.notify_running {s : State} (h : s.part ≠ .stopped) (f : Flag) : s.notify f = s.raise f := by
  simp [State.notify, h]

section
variable (s : State) (f : Flag)
@[simp] theorem State.notify_slots : (s.notify f).slots = s.slots := by unfold State.notify; split <;> rfl
@[simp] theorem State.notify_slot (n : Fin 8) : (s.notify f).slot n = s.slot n := by unfold State.notify; split <;> rfl
@[simp] theorem State.notify_entries : (s.notify f).entries = s.entries := by unfold State.notify; split <;> rfl
@[simp] theorem State.notify_entry (e : Fin 64) : (s.notify f).entry e = s.entry e := by unfold State.notify; split <;> rfl
@[simp] theorem State.notify_mem : (s.notify f).mem = s.mem := by unfold State.notify; split <;> rfl
@[simp] theorem State.notify_held : (s.notify f).held = s.held := by unfold State.notify; split <;> rfl
@[simp] theorem State.notify_waiting : (s.notify f).waiting = s.waiting := by unfold State.notify; split <;> rfl
@[simp] theorem State.notify_flight : (s.notify f).flight = s.flight := by unfold State.notify; split <;> rfl
@[simp] theorem State.notify_part : (s.notify f).part = s.part := by unfold State.notify; split <;> rfl
@[simp] theorem State.notify_clock : (s.notify f).clock = s.clock := by unfold State.notify; split <;> rfl
@[simp] theorem State.notify_pool : (s.notify f).pool = s.pool := by unfold State.notify; split <;> rfl
@[simp] theorem State.notify_drawing : (s.notify f).drawing = s.drawing := by unfold State.notify; split <;> rfl
@[simp] theorem State.notify_header : (s.notify f).header = s.header := by unfold State.notify; split <;> rfl
@[simp] theorem State.notify_partLatch : (s.notify f).partLatch = s.partLatch := by unfold State.notify; split <;> rfl
@[simp] theorem State.notify_image : (s.notify f).image = s.image := by unfold State.notify; split <;> rfl
@[simp] theorem State.notify_query : (s.notify f).query = s.query := by unfold State.notify; split <;> rfl
end

/-! ## Results and answers (R58, R61) -/

section
variable (s : State) (n : Fin 8) (r : Result) (number : Mark)

@[simp] theorem State.writeResult_slot (m : Fin 8) : (s.writeResult n r).slot m =
    if m = n then { s.slot n with eng := { (s.slot n).eng with result := r } } else s.slot m := by
  unfold State.writeResult
  dsimp only
  split <;> simp [State.setEngine_slot]

@[simp] theorem State.writeResult_entries : (s.writeResult n r).entries = s.entries := by
  unfold State.writeResult
  dsimp only
  split <;> simp

@[simp] theorem State.writeResult_waiting : (s.writeResult n r).waiting = s.waiting := by
  unfold State.writeResult
  dsimp only
  split <;> simp

@[simp] theorem State.writeResult_flight : (s.writeResult n r).flight = s.flight := by
  unfold State.writeResult
  dsimp only
  split <;> simp

@[simp] theorem State.writeResult_part : (s.writeResult n r).part = s.part := by
  unfold State.writeResult
  dsimp only
  split <;> simp

theorem State.writeResult_outside {a : Nat} (ha : ¬ s.inRecord n a) : (s.writeResult n r).mem.get a = s.mem.get a := by
  unfold State.writeResult
  dsimp only
  split <;> simp [State.setEngine_outside _ _ _ _ _ ha]

theorem State.writeResult_flags {s : State} (h : s.part ≠ .stopped) :
    (s.writeResult n r).flags = if r = .none then s.flags else raiseFlag (slotFlag .result n) s.flags := by
  unfold State.writeResult
  dsimp only
  split
  · simp
  · rw [State.notify_running (by simpa using h)]
    simp [State.raise]

theorem State.writeResult_held {s : State} (h : s.part ≠ .stopped) :
    (s.writeResult n r).held = s.held ∧ (s.writeResult n r).heldCauses = s.heldCauses := by
  unfold State.writeResult
  dsimp only
  split
  · simp [State.setEngine_held h]
  · rw [State.notify_running (by simpa using h)]
    simp [State.setEngine_held h]

/-- Taking and answering an order changes the slot as R58 and R61 say, and no other. -/
@[simp] theorem State.answer_slot (m : Fin 8) :
    (s.answer n number r).slot m = if m = n then (s.slot n).answered number r else s.slot m := by
  unfold State.answer
  simp only [State.setEngine_slot, State.writeResult_slot, State.slot_modSlot]
  by_cases h : m = n <;> simp [h, Slot.answered]

@[simp] theorem State.answer_entries : (s.answer n number r).entries = s.entries := by simp [State.answer]

@[simp] theorem State.answer_entry (e : Fin 64) : (s.answer n number r).entry e = s.entry e := by
  rw [State.entry, State.answer_entries, State.entry]

@[simp] theorem State.answer_waiting : (s.answer n number r).waiting = s.waiting := by simp [State.answer]

@[simp] theorem State.answer_flight : (s.answer n number r).flight = s.flight := by simp [State.answer]

@[simp] theorem State.answer_part : (s.answer n number r).part = s.part := by simp [State.answer]

theorem State.answer_outside {a : Nat} (ha : ¬ s.inRecord n a) : (s.answer n number r).mem.get a = s.mem.get a := by
  unfold State.answer
  dsimp only
  rw [State.setEngine_outside _ _ _ _ (by simp), State.writeResult_outside, State.setEngine_outside _ _ _ _ (by simp)]
  · rfl
  · exact ha
  · rwa [State.inRecord_of]
    simp
  · rwa [State.inRecord_of]
    simp

theorem State.answer_flags {s : State} (h : s.part ≠ .stopped) :
    (s.answer n number r).flags = if r = .none then s.flags else raiseFlag (slotFlag .result n) s.flags := by
  unfold State.answer
  dsimp only
  rw [State.setEngine_flags, State.writeResult_flags n r (by simpa using h)]
  simp

theorem State.answer_held {s : State} (h : s.part ≠ .stopped) :
    (s.answer n number r).held = s.held ∧ (s.answer n number r).heldCauses = s.heldCauses := by
  unfold State.answer
  dsimp only
  rw [State.setEngine_held (by simpa using h), State.setEngine_heldCauses]
  have h1 := State.writeResult_held (s := (s.modSlot n fun x => { x with latch := number, openServed := none, closeServed := none }).setEngine n
    (fun g => { g with overtaken := g.overtaken + (number - (s.slot n).latch - 1) }) [.overtaken]) n r (by simpa using h)
  rw [h1.1, h1.2, State.setEngine_held (by simpa using h)]
  simp
end

/-! ## The in-step flag (R96) -/

theorem classify_inStep (watch : List Watch) (othersSeal : Bool) (z : Sorting) (p : List Byte) :
    (classify watch othersSeal z p).inStep = judgeStep z.inStep ((z.history ++ [packetSync p]).drop 1) := by
  unfold classify
  dsimp only
  split
  · rfl
  · split
    · rfl
    · split <;> rfl

theorem classify_stepMoved (watch : List Watch) (othersSeal : Bool) (z : Sorting) (p : List Byte) :
    (classify watch othersSeal z p).stepMoved =
      (z.stepMoved || judgeStep z.inStep ((z.history ++ [packetSync p]).drop 1) != z.inStep) := by
  unfold classify
  dsimp only
  split
  · rfl
  · split
    · rfl
    · split <;> rfl

/-- A packet after which no change of the flag is noted has left it as it was. -/
theorem classify_unmoved {watch : List Watch} {othersSeal : Bool} {z : Sorting} {p : List Byte}
    (h : (classify watch othersSeal z p).stepMoved = false) :
    z.stepMoved = false ∧ (classify watch othersSeal z p).inStep = z.inStep := by
  rw [classify_stepMoved, Bool.or_eq_false_iff, bne_eq_false_iff_eq] at h
  exact ⟨h.1, (classify_inStep ..).trans h.2⟩

/-- A take that notes no change of the flag leaves it as it was. -/
theorem classifyAll_unmoved {x : Slot} {ps : List (List Byte)} (h : (classifyAll x ps).stepMoved = false) :
    (classifyAll x ps).inStep = x.eng.inStep := by
  suffices hz : ∀ (ps : List (List Byte)) (z : Sorting), (ps.foldl (classify x.watch x.othersSeal) z).stepMoved = false →
      z.stepMoved = false ∧ (ps.foldl (classify x.watch x.othersSeal) z).inStep = z.inStep from (hz ps _ h).2
  intro ps
  induction ps with
  | nil => exact fun z h => ⟨h, rfl⟩
  | cons p ps ih =>
    intro z h
    obtain ⟨h1, h2⟩ := ih _ h
    obtain ⟨h3, h4⟩ := classify_unmoved h1
    exact ⟨h3, h2.trans h4⟩

/-! ## Part results and part answers (R58, R61) -/

section
variable (s : State) (number : Mark) (r : Result) (detail : Nat)

@[simp] theorem State.writePartResult_header :
    (s.writePartResult r detail).header = { s.header with result := r, detail := detail } := by
  unfold State.writePartResult
  dsimp only
  split <;> simp

@[simp] theorem State.writePartResult_partLatch : (s.writePartResult r detail).partLatch = s.partLatch := by
  unfold State.writePartResult
  dsimp only
  split <;> simp

@[simp] theorem State.writePartResult_image : (s.writePartResult r detail).image = s.image := by
  unfold State.writePartResult
  dsimp only
  split <;> simp

@[simp] theorem State.writePartResult_query : (s.writePartResult r detail).query = s.query := by
  unfold State.writePartResult
  dsimp only
  split <;> simp

@[simp] theorem State.writePartResult_slots : (s.writePartResult r detail).slots = s.slots := by
  unfold State.writePartResult
  dsimp only
  split <;> simp

@[simp] theorem State.writePartResult_entries : (s.writePartResult r detail).entries = s.entries := by
  unfold State.writePartResult
  dsimp only
  split <;> simp

/-- Taking and answering a part order changes the header as R58 and R61 say. -/
@[simp] theorem State.answerPart_header : (s.answerPart number r detail).header = s.partAnswered number r detail := by
  simp [State.answerPart, State.partAnswered]

@[simp] theorem State.answerPart_partLatch : (s.answerPart number r detail).partLatch = number := by simp [State.answerPart]

/-- It leaves an image operation and a QUERY in flight without a result to write. -/
theorem State.answerPart_overtakes : s.overtakes (s.answerPart number r detail) := by
  simp [State.answerPart, State.overtakes]

@[simp] theorem State.answerPart_slots : (s.answerPart number r detail).slots = s.slots := by simp [State.answerPart]

@[simp] theorem State.answerPart_entries : (s.answerPart number r detail).entries = s.entries := by simp [State.answerPart]

/-- A part order completes with its result where no later one has been taken, and with none otherwise. -/
theorem State.completePart_eq (number : Option Mark) : s.completePart number r detail =
    if number = some s.partLatch then s.writePartResult r detail else s := rfl
end

/-! ## Entries: derivation, judgement and ends (R1, R3, R4, R134 to R138) -/

theorem State.markLapse_slot (s : State) (ns : List (Fin 8)) (m : Fin 8) :
    (s.markLapse ns).slot m = if m ∈ ns then { s.slot m with lapseDue := true } else s.slot m := by
  unfold State.markLapse
  induction ns generalizing s with
  | nil => simp
  | cons k ns ih =>
    rw [List.foldl_cons, ih]
    simp only [State.slot_modSlot, List.mem_cons]
    by_cases h1 : m = k
    · subst h1
      by_cases h2 : m ∈ ns <;> simp [h2]
    · by_cases h2 : m ∈ ns <;> simp [h1, h2]

@[simp] theorem State.markLapse_entries (s : State) (ns : List (Fin 8)) : (s.markLapse ns).entries = s.entries := by
  unfold State.markLapse
  induction ns generalizing s with
  | nil => rfl
  | cons k ns ih => rw [List.foldl_cons, ih]; rfl

/-- Marking slots changes the slots alone. -/
theorem State.markLapse_eq (s : State) (ns : List (Fin 8)) : s.markLapse ns = { s with slots := (s.markLapse ns).slots } := by
  unfold State.markLapse
  induction ns generalizing s with
  | nil => rfl
  | cons k ns ih =>
    rw [List.foldl_cons]
    have h := ih (s.modSlot k fun x => { x with lapseDue := true })
    rw [h]
    rfl

/-- A lapse changes slots, entries and flags alone. -/
theorem State.lapse_eq (s : State) (e : Fin 64) :
    s.lapse e = { s with slots := (s.lapse e).slots, entries := (s.lapse e).entries, flags := (s.lapse e).flags } := by
  unfold State.lapse
  rw [State.markLapse_eq]
  rfl

theorem State.judge_eq (s : State) (e : Fin 64) :
    s.judge e = { s with slots := (s.judge e).slots, entries := (s.judge e).entries, flags := (s.judge e).flags } := by
  unfold State.judge
  split
  · exact s.lapse_eq e
  · rfl

theorem State.derive_eq (s : State) (e : Fin 64) :
    s.derive e = { s with slots := (s.derive e).slots, entries := (s.derive e).entries, flags := (s.derive e).flags } := by
  unfold State.derive
  rw [State.judge_eq]
  rfl

theorem State.judgeLastView_eq (s : State) (e : Fin 64) :
    s.judgeLastView e = { s with slots := (s.judgeLastView e).slots, entries := (s.judgeLastView e).entries,
                                 flags := (s.judgeLastView e).flags } := by
  unfold State.judgeLastView
  split
  · exact s.lapse_eq e
  · rfl

theorem State.becameHeld_eq (s : State) (e : Fin 64) :
    s.becameHeld e = { s with slots := (s.becameHeld e).slots, entries := (s.becameHeld e).entries,
                              flags := (s.becameHeld e).flags } := by
  unfold State.becameHeld
  rw [State.judgeLastView_eq, State.derive_eq]

theorem State.freeEntry_eq (s : State) (e : Fin 64) :
    s.freeEntry e = { s with slots := (s.freeEntry e).slots, entries := (s.freeEntry e).entries } := by
  unfold State.freeEntry
  rw [State.markLapse_eq]
  rfl

/-- The end of a recording changes slots, entries and flags alone. -/
theorem State.endRecording_eq (s : State) (e : Fin 64) (cutOff : Bool) :
    s.endRecording e cutOff = { s with slots := (s.endRecording e cutOff).slots, entries := (s.endRecording e cutOff).entries,
                                       flags := (s.endRecording e cutOff).flags } := by
  unfold State.endRecording
  split
  · split
    · rw [State.freeEntry_eq]
    · rw [State.becameHeld_eq]
      rfl
  · rfl

theorem State.endMove_eq (s : State) (e : Fin 64) :
    s.endMove e = { s with slots := (s.endMove e).slots, entries := (s.endMove e).entries, flags := (s.endMove e).flags } := by
  unfold State.endMove
  split
  · rw [State.becameHeld_eq]
    rfl
  · rfl

@[simp] theorem State.lapse_entry (s : State) (d e : Fin 64) :
    (s.lapse e).entry d = if d = e then (s.entry e).spent .lapsed else s.entry d := by
  simp only [State.lapse, State.raise_entry]
  rw [State.entry, State.markLapse_entries]
  exact State.entry_setEntry s d e _

theorem Entry.judged_of_deriveLapse {x : Entry} {t : Nat} (h : x.deriveLapse = some t) : x.judged = true := by
  unfold Entry.deriveLapse at h
  unfold Entry.judged
  split at h <;> simp_all

/-- A derivation gives the entry its lapse time and judges it at once. -/
@[simp] theorem State.derive_entry (s : State) (d e : Fin 64) :
    (s.derive e).entry d = if d = e then (s.entry e).derivedAt s.clock else s.entry d := by
  have hj : ({ s.entry e with lapseTime := (s.entry e).deriveLapse } : Entry).judged = (s.entry e).judged := rfl
  unfold State.derive State.judge State.lapseReached Entry.derivedAt
  simp only [State.entry_modEntry_self, hj, State.modEntry_clock]
  cases hl : (s.entry e).deriveLapse with
  | none => by_cases hd : d = e <;> simp [State.entry_modEntry, hd, hl]
  | some t =>
    by_cases ht : t ≤ s.clock
    · by_cases hd : d = e <;> simp [hd, ht, hl, Entry.judged_of_deriveLapse hl, State.entry_modEntry, Entry.spent, Entry.destroyKeys]
    · by_cases hd : d = e <;> simp [hd, ht, hl, Entry.judged_of_deriveLapse hl, State.entry_modEntry]

/-- The judgement of the last view. -/
@[simp] theorem State.judgeLastView_entry (s : State) (d e : Fin 64) :
    (s.judgeLastView e).entry d = if d = e then (s.entry e).viewedOut (s.playBound e) else s.entry d := by
  unfold State.judgeLastView Entry.viewedOut
  by_cases h1 : (s.entry e).lastViewTaken = true <;> by_cases h2 : (s.entry e).state = .held <;>
    by_cases h3 : s.playBound e = true <;> simp_all

theorem Entry.derivedAt_players (x : Entry) (c : Nat) : (x.derivedAt c).players = x.players := by
  unfold Entry.derivedAt
  split
  · rfl
  · split <;> rfl

/-- What decides whether a PLAY slot is bound: the play bindings and the modes of the slots. -/
theorem State.playBound_congr {s t : State} {e : Fin 64} (h1 : (t.entry e).players = (s.entry e).players)
    (h2 : ∀ n, (t.slot n).mode = (s.slot n).mode) : t.playBound e = s.playBound e := by
  unfold State.playBound
  rw [h1]
  congr 1
  funext n
  rw [h2]

theorem State.lapse_mode (s : State) (e : Fin 64) (n : Fin 8) : ((s.lapse e).slot n).mode = (s.slot n).mode := by
  simp only [State.lapse, State.raise_slot, State.markLapse_slot, State.setEntry_slot]
  split <;> rfl

theorem State.derive_mode (s : State) (e : Fin 64) (n : Fin 8) : ((s.derive e).slot n).mode = (s.slot n).mode := by
  unfold State.derive State.judge
  split
  · rw [State.lapse_mode]
    rfl
  · rfl

/-- An entry that has become HELD. -/
@[simp] theorem State.becameHeld_entry (s : State) (d e : Fin 64) : (s.becameHeld e).entry d =
    if d = e then ((s.entry e).derivedAt s.clock).viewedOut (s.playBound e) else s.entry d := by
  unfold State.becameHeld
  rw [State.judgeLastView_entry]
  have hp : (s.derive e).playBound e = s.playBound e :=
    State.playBound_congr (by simp [Entry.derivedAt_players]) (s.derive_mode e)
  by_cases hd : d = e <;> simp [hd, hp]

@[simp] theorem State.freeEntry_entry (s : State) (d e : Fin 64) :
    (s.freeEntry e).entry d = if d = e then (s.entry e).returned else s.entry d := by
  unfold State.freeEntry
  rw [State.entry, State.markLapse_entries]
  exact State.entry_setEntry s d e _

/-- The end of a recording (R4). -/
@[simp] theorem State.endRecording_entry (s : State) (d e : Fin 64) (cutOff : Bool) : (s.endRecording e cutOff).entry d =
    if d = e then (s.entry e).recordingEnded cutOff s.clock (s.playBound e) else s.entry d := by
  unfold State.endRecording Entry.recordingEnded
  by_cases h1 : (s.entry e).state = .live
  · by_cases h2 : (s.entry e).chunkCount = 0
    · simp [h1, h2]
    · have hp : (s.modEntry e fun x => x.endHeld cutOff).playBound e = s.playBound e :=
        State.playBound_congr (by simp [Entry.endHeld]) (fun n => rfl)
      by_cases hd : d = e <;> simp [h1, h2, hd, hp, State.entry_modEntry]
  · simp only [h1, if_false, ne_eq, not_false_eq_true, if_true]
    split <;> simp_all

/-- The end of a move that did not complete (R161). -/
@[simp] theorem State.endMove_entry (s : State) (d e : Fin 64) : (s.endMove e).entry d =
    if d = e then (s.entry e).moveEnded s.clock (s.playBound e) else s.entry d := by
  unfold State.endMove Entry.moveEnded
  by_cases h1 : (s.entry e).state = .moving
  · have hp : (s.modEntry e fun x => { x with state := .held }).playBound e = s.playBound e :=
      State.playBound_congr (by simp) (fun n => rfl)
    by_cases hd : d = e <;> simp [h1, hd, hp, State.entry_modEntry]
  · simp only [h1, if_false, ne_eq, not_false_eq_true, if_true]
    split <;> simp_all

/-! ## The release of a slot (R5) -/

/-- A release changes no slot. -/
@[simp] theorem State.release_slot (s : State) (n m : Fin 8) : (s.release n).slot m = s.slot m := by
  unfold State.release
  split <;> rfl

/-- A release clears the slot's binding and no other. -/
@[simp] theorem State.release_entry (s : State) (n : Fin 8) (e : Fin 64) :
    (s.release n).entry e = if (s.slot n).boundEntry = some e then (s.entry e).unbind n else s.entry e := by
  unfold State.release
  dsimp only
  cases h : (s.slot n).boundEntry with
  | none =>
    simp only [reduceCtorEq, if_false]
    rfl
  | some d =>
    have : ∀ u : State, ({ u.orphan n with waiting := u.waiting.filter (· ≠ n) } : State).entry e = u.entry e :=
      fun u => rfl
    rw [this]
    rw [State.entry_modEntry]
    by_cases he : e = d
    · simp [he]
    · simp [he, Ne.symm he]

@[simp] theorem State.release_flags (s : State) (n : Fin 8) : (s.release n).flags = s.flags := by
  unfold State.release
  split <;> rfl

@[simp] theorem State.release_mem (s : State) (n : Fin 8) : (s.release n).mem = s.mem := by
  unfold State.release
  split <;> rfl

@[simp] theorem State.release_held (s : State) (n : Fin 8) : (s.release n).held = s.held := by
  unfold State.release
  split <;> rfl

@[simp] theorem State.release_heldCauses (s : State) (n : Fin 8) : (s.release n).heldCauses = s.heldCauses := by
  unfold State.release
  split <;> rfl

@[simp] theorem State.release_part (s : State) (n : Fin 8) : (s.release n).part = s.part := by
  unfold State.release
  split <;> rfl

@[simp] theorem State.release_clock (s : State) (n : Fin 8) : (s.release n).clock = s.clock := by
  unfold State.release
  split <;> rfl

/-- The waiting list loses the slot. -/
@[simp] theorem State.release_waiting (s : State) (n : Fin 8) : (s.release n).waiting = s.waiting.filter (· ≠ n) := by
  unfold State.release
  split <;> rfl

/-- The slot's batch in flight is orphaned. -/
@[simp] theorem State.release_flight (s : State) (n : Fin 8) : (s.release n).flight = (s.orphan n).flight := by
  unfold State.release
  split <;> rfl

/-- A slot that returns to IDLE. -/
@[simp] theorem State.toIdle_slot (s : State) (n m : Fin 8) : (s.toIdle n).slot m =
    if m = n then (s.slot n).toIdle else s.slot m := by
  unfold State.toIdle
  rw [State.setEngine_slot]
  by_cases h : m = n <;> simp [h, Slot.bare, Slot.toIdle, State.slot_modSlot]

@[simp] theorem State.toIdle_entry (s : State) (n : Fin 8) (e : Fin 64) :
    (s.toIdle n).entry e = if (s.slot n).boundEntry = some e then (s.entry e).unbind n else s.entry e := by
  simp [State.toIdle]

@[simp] theorem State.toIdle_flags (s : State) (n : Fin 8) : (s.toIdle n).flags = s.flags := by simp [State.toIdle]

@[simp] theorem State.toIdle_waiting (s : State) (n : Fin 8) : (s.toIdle n).waiting = s.waiting.filter (· ≠ n) := by
  simp [State.toIdle]

@[simp] theorem State.toIdle_flight (s : State) (n : Fin 8) : (s.toIdle n).flight = (s.orphan n).flight := by
  simp [State.toIdle]

@[simp] theorem State.toIdle_part (s : State) (n : Fin 8) : (s.toIdle n).part = s.part := by simp [State.toIdle]

@[simp] theorem State.toIdle_clock (s : State) (n : Fin 8) : (s.toIdle n).clock = s.clock := by simp [State.toIdle]

@[simp] theorem State.toIdle_heldCauses (s : State) (n : Fin 8) : (s.toIdle n).heldCauses = s.heldCauses := by
  simp [State.toIdle]

theorem State.toIdle_held {s : State} (h : s.part ≠ .stopped) (n : Fin 8) : (s.toIdle n).held = s.held := by
  unfold State.toIdle
  rw [State.setEngine_held (by simpa using h)]
  simp

theorem State.toIdle_outside (s : State) (n : Fin 8) {a : Nat} (ha : ¬ s.inRecord n a) :
    (s.toIdle n).mem.get a = s.mem.get a := by
  unfold State.toIdle
  rw [State.setEngine_outside _ _ _ _ (by simp)]
  · simp
  · rwa [State.inRecord_of]
    simp

/-- The slot state as it comes to stand; all else of the slots stays. -/
@[simp] theorem State.setSlotState_slot (s : State) (n m : Fin 8) (st : SlotState) : (s.setSlotState n st).slot m =
    if m = n then { s.slot n with eng := { (s.slot n).eng with state := st } } else s.slot m := by
  unfold State.setSlotState
  split
  · rename_i h
    subst h
    by_cases hm : m = n <;> simp [hm]
  · rw [State.setEngine_slot]

@[simp] theorem State.setSlotState_entry (s : State) (n : Fin 8) (st : SlotState) (e : Fin 64) :
    (s.setSlotState n st).entry e = s.entry e := by
  unfold State.setSlotState
  split <;> simp

@[simp] theorem State.setSlotState_flags (s : State) (n : Fin 8) (st : SlotState) : (s.setSlotState n st).flags = s.flags := by
  unfold State.setSlotState
  split <;> simp

/-- What an ABORT does to a verify batch in flight touches only the slot's frame in hand. -/
theorem State.readFrameTag_slot (s : State) (n : Fin 8) :
    ∃ f, (s.readFrameTag n).slot n = { s.slot n with frame := f } ∧ ∀ m, m ≠ n → (s.readFrameTag n).slot m = s.slot m := by
  unfold State.readFrameTag
  split
  · rename_i f _
    dsimp only
    split
    · exact ⟨some { f with tag := some (readTag (s.mem.read ((s.slot n).frameBase f.pos) 64)) },
        by simp, fun m hm => by simp [State.slot_modSlot, hm]⟩
    · exact ⟨(s.slot n).frame, rfl, fun _ _ => rfl⟩
  · exact ⟨(s.slot n).frame, rfl, fun _ _ => rfl⟩

/-- A slot that faults. -/
@[simp] theorem State.toFaulted_slot (s : State) (n m : Fin 8) (f : SlotFault) : (s.toFaulted n f).slot m =
    if m = n then (s.slot n).toFaulted ((s.slot n).faultCode f) else s.slot m := by
  unfold State.toFaulted
  rw [State.notify_slot, State.setEngine_slot]
  by_cases h : m = n <;> simp [h, Slot.dropWork, Slot.toFaulted, State.slot_modSlot]

@[simp] theorem State.toFaulted_entry (s : State) (n : Fin 8) (f : SlotFault) (e : Fin 64) :
    (s.toFaulted n f).entry e = if (s.slot n).boundEntry = some e then (s.entry e).unbind n else s.entry e := by
  simp [State.toFaulted]

@[simp] theorem State.toFaulted_clock (s : State) (n : Fin 8) (f : SlotFault) : (s.toFaulted n f).clock = s.clock := by
  simp [State.toFaulted]

theorem State.toFaulted_flags {s : State} (h : s.part ≠ .stopped) (n : Fin 8) (f : SlotFault) :
    (s.toFaulted n f).flags = raiseFlag (slotFlag .fault n) s.flags := by
  unfold State.toFaulted
  rw [State.notify_running (by simpa using h)]
  simp [State.raise]

theorem State.toFaulted_outside (s : State) (n : Fin 8) (f : SlotFault) {a : Nat} (ha : ¬ s.inRecord n a) :
    (s.toFaulted n f).mem.get a = s.mem.get a := by
  unfold State.toFaulted
  rw [State.notify_mem, State.setEngine_outside _ _ _ _ (by simp)]
  · simp
  · rwa [State.inRecord_of]
    simp

/-! ## The taking of orders -/

/-- A row whose order is at hand takes it, and the sweep goes on. -/
theorem State.takeOrder_of {s : State} {n : Fin 8} {number : Mark} {row : OrderKind → Mode → Slot → Bool}
    {effect : State → Fin 8 → Mark → State} (hs : s.sweep = some (.order n number))
    (hr : row (orderKind (s.slotField n 4 1)) (modeOf (s.slotField n 5 1)) (s.slot n) = true) :
    s.takeOrder row effect = { effect s n number with sweep := s.afterSlot n } := by
  unfold State.takeOrder
  rw [hs]
  simp [hr]

/-- A part order row whose order is at hand takes it, and the end-of-sweep writes come next. -/
theorem State.takePartOrder_of {s : State} {kind : PartOrderKind} {effect : State → Mark → State}
    (hs : s.sweep = some .part) (hn : s.partOrderNumber ≠ s.partLatch) (hk : partOrderKind (s.headerField 100 1) = kind) :
    s.takePartOrder kind effect = { effect s s.partOrderNumber with sweep := some .ending } := by
  unfold State.takePartOrder
  rw [if_pos ⟨hs, hn, hk⟩]

end Sys2Proof.Machine
end

