-- ==== Sys2Proof/Laws/Marks.lean ====
section
/-! SUPPORT. Laws/Marks.lean: what an advance of the engine's marks leaves alone, and where it changes nothing (R63). -/

namespace Sys2Proof.Machine

section
variable (x : Slot) (k : Nat)

@[simp] theorem Slot.advanceA_latch : (x.advanceA k).latch = x.latch := rfl
@[simp] theorem Slot.advanceA_mode : (x.advanceA k).mode = x.mode := rfl
@[simp] theorem Slot.advanceA_geo : (x.advanceA k).geo = x.geo := rfl
@[simp] theorem Slot.advanceA_holdTime : (x.advanceA k).holdTime = x.holdTime := rfl
@[simp] theorem Slot.advanceA_notice : (x.advanceA k).notice = x.notice := rfl
@[simp] theorem Slot.advanceA_othersSeal : (x.advanceA k).othersSeal = x.othersSeal := rfl
@[simp] theorem Slot.advanceA_watch : (x.advanceA k).watch = x.watch := rfl
@[simp] theorem Slot.advanceA_viewA : (x.advanceA k).viewA = x.viewA := rfl
@[simp] theorem Slot.advanceA_viewB : (x.advanceA k).viewB = x.viewB := rfl
@[simp] theorem Slot.advanceA_viewC : (x.advanceA k).viewC = x.viewC := rfl
@[simp] theorem Slot.advanceA_streamPos : (x.advanceA k).streamPos = x.streamPos := rfl
@[simp] theorem Slot.advanceA_chunkPos : (x.advanceA k).chunkPos = x.chunkPos := rfl
@[simp] theorem Slot.advanceA_outPos : (x.advanceA k).outPos = x.outPos := rfl
@[simp] theorem Slot.advanceA_carry : (x.advanceA k).carry = x.carry := rfl
@[simp] theorem Slot.advanceA_chunk : (x.advanceA k).chunk = x.chunk := rfl
@[simp] theorem Slot.advanceA_take : (x.advanceA k).take = x.take := rfl
@[simp] theorem Slot.advanceA_lostTotal : (x.advanceA k).lostTotal = x.lostTotal := rfl
@[simp] theorem Slot.advanceA_lossDue : (x.advanceA k).lossDue = x.lossDue := rfl
@[simp] theorem Slot.advanceA_holdTimer : (x.advanceA k).holdTimer = x.holdTimer := rfl
@[simp] theorem Slot.advanceA_history : (x.advanceA k).history = x.history := rfl
@[simp] theorem Slot.advanceA_absence : (x.advanceA k).absence = x.absence := rfl
@[simp] theorem Slot.advanceA_frame : (x.advanceA k).frame = x.frame := rfl
@[simp] theorem Slot.advanceA_token : (x.advanceA k).token = x.token := rfl
@[simp] theorem Slot.advanceA_closeAsked : (x.advanceA k).closeAsked = x.closeAsked := rfl
@[simp] theorem Slot.advanceA_openServed : (x.advanceA k).openServed = x.openServed := rfl
@[simp] theorem Slot.advanceA_closeServed : (x.advanceA k).closeServed = x.closeServed := rfl
@[simp] theorem Slot.advanceA_lapseDue : (x.advanceA k).lapseDue = x.lapseDue := rfl
@[simp] theorem Slot.advanceA_owedB : (x.advanceA k).owedB = x.owedB := rfl
@[simp] theorem Slot.advanceA_owedC : (x.advanceA k).owedC = x.owedC := rfl
@[simp] theorem Slot.advanceA_eng_orderTaken : (x.advanceA k).eng.orderTaken = x.eng.orderTaken := rfl
@[simp] theorem Slot.advanceA_eng_result : (x.advanceA k).eng.result = x.eng.result := rfl
@[simp] theorem Slot.advanceA_eng_state : (x.advanceA k).eng.state = x.eng.state := rfl
@[simp] theorem Slot.advanceA_eng_fault : (x.advanceA k).eng.fault = x.eng.fault := rfl
@[simp] theorem Slot.advanceA_eng_bound : (x.advanceA k).eng.bound = x.eng.bound := rfl
@[simp] theorem Slot.advanceA_eng_overtaken : (x.advanceA k).eng.overtaken = x.eng.overtaken := rfl
@[simp] theorem Slot.advanceA_eng_inStep : (x.advanceA k).eng.inStep = x.eng.inStep := rfl
@[simp] theorem Slot.advanceA_eng_absent : (x.advanceA k).eng.absent = x.eng.absent := rfl
@[simp] theorem Slot.advanceA_eng_chunksDone : (x.advanceA k).eng.chunksDone = x.eng.chunksDone := rfl
@[simp] theorem Slot.advanceA_eng_packetsLost : (x.advanceA k).eng.packetsLost = x.eng.packetsLost := rfl
@[simp] theorem Slot.advanceA_eng_badPackets : (x.advanceA k).eng.badPackets = x.eng.badPackets := rfl
@[simp] theorem Slot.advanceA_eng_scrambled : (x.advanceA k).eng.scrambled = x.eng.scrambled := rfl
@[simp] theorem Slot.advanceA_eng_lastRemaining : (x.advanceA k).eng.lastRemaining = x.eng.lastRemaining := rfl
@[simp] theorem Slot.advanceA_eng_outcomes : (x.advanceA k).eng.outcomes = x.eng.outcomes := rfl
@[simp] theorem Slot.advanceA_eng_markB : (x.advanceA k).eng.markB = x.eng.markB := rfl
@[simp] theorem Slot.advanceA_eng_markC : (x.advanceA k).eng.markC = x.eng.markC := rfl
@[simp] theorem Slot.advanceA_boundEntry : (x.advanceA k).boundEntry = x.boundEntry := rfl

/-- With nothing held back and nothing to advance by, nothing changes. -/
theorem Slot.advanceA_none (h : x.owedA = 0) : x.advanceA 0 = x := by
  cases x
  simp_all [Slot.advanceA]

@[simp] theorem Slot.advanceB_latch : (x.advanceB k).latch = x.latch := rfl
@[simp] theorem Slot.advanceB_mode : (x.advanceB k).mode = x.mode := rfl
@[simp] theorem Slot.advanceB_geo : (x.advanceB k).geo = x.geo := rfl
@[simp] theorem Slot.advanceB_holdTime : (x.advanceB k).holdTime = x.holdTime := rfl
@[simp] theorem Slot.advanceB_notice : (x.advanceB k).notice = x.notice := rfl
@[simp] theorem Slot.advanceB_othersSeal : (x.advanceB k).othersSeal = x.othersSeal := rfl
@[simp] theorem Slot.advanceB_watch : (x.advanceB k).watch = x.watch := rfl
@[simp] theorem Slot.advanceB_viewA : (x.advanceB k).viewA = x.viewA := rfl
@[simp] theorem Slot.advanceB_viewB : (x.advanceB k).viewB = x.viewB := rfl
@[simp] theorem Slot.advanceB_viewC : (x.advanceB k).viewC = x.viewC := rfl
@[simp] theorem Slot.advanceB_streamPos : (x.advanceB k).streamPos = x.streamPos := rfl
@[simp] theorem Slot.advanceB_chunkPos : (x.advanceB k).chunkPos = x.chunkPos := rfl
@[simp] theorem Slot.advanceB_outPos : (x.advanceB k).outPos = x.outPos := rfl
@[simp] theorem Slot.advanceB_carry : (x.advanceB k).carry = x.carry := rfl
@[simp] theorem Slot.advanceB_chunk : (x.advanceB k).chunk = x.chunk := rfl
@[simp] theorem Slot.advanceB_take : (x.advanceB k).take = x.take := rfl
@[simp] theorem Slot.advanceB_lostTotal : (x.advanceB k).lostTotal = x.lostTotal := rfl
@[simp] theorem Slot.advanceB_lossDue : (x.advanceB k).lossDue = x.lossDue := rfl
@[simp] theorem Slot.advanceB_holdTimer : (x.advanceB k).holdTimer = x.holdTimer := rfl
@[simp] theorem Slot.advanceB_history : (x.advanceB k).history = x.history := rfl
@[simp] theorem Slot.advanceB_absence : (x.advanceB k).absence = x.absence := rfl
@[simp] theorem Slot.advanceB_frame : (x.advanceB k).frame = x.frame := rfl
@[simp] theorem Slot.advanceB_token : (x.advanceB k).token = x.token := rfl
@[simp] theorem Slot.advanceB_closeAsked : (x.advanceB k).closeAsked = x.closeAsked := rfl
@[simp] theorem Slot.advanceB_openServed : (x.advanceB k).openServed = x.openServed := rfl
@[simp] theorem Slot.advanceB_closeServed : (x.advanceB k).closeServed = x.closeServed := rfl
@[simp] theorem Slot.advanceB_lapseDue : (x.advanceB k).lapseDue = x.lapseDue := rfl
@[simp] theorem Slot.advanceB_owedA : (x.advanceB k).owedA = x.owedA := rfl
@[simp] theorem Slot.advanceB_owedC : (x.advanceB k).owedC = x.owedC := rfl
@[simp] theorem Slot.advanceB_eng_orderTaken : (x.advanceB k).eng.orderTaken = x.eng.orderTaken := rfl
@[simp] theorem Slot.advanceB_eng_result : (x.advanceB k).eng.result = x.eng.result := rfl
@[simp] theorem Slot.advanceB_eng_state : (x.advanceB k).eng.state = x.eng.state := rfl
@[simp] theorem Slot.advanceB_eng_fault : (x.advanceB k).eng.fault = x.eng.fault := rfl
@[simp] theorem Slot.advanceB_eng_bound : (x.advanceB k).eng.bound = x.eng.bound := rfl
@[simp] theorem Slot.advanceB_eng_overtaken : (x.advanceB k).eng.overtaken = x.eng.overtaken := rfl
@[simp] theorem Slot.advanceB_eng_inStep : (x.advanceB k).eng.inStep = x.eng.inStep := rfl
@[simp] theorem Slot.advanceB_eng_absent : (x.advanceB k).eng.absent = x.eng.absent := rfl
@[simp] theorem Slot.advanceB_eng_chunksDone : (x.advanceB k).eng.chunksDone = x.eng.chunksDone := rfl
@[simp] theorem Slot.advanceB_eng_packetsLost : (x.advanceB k).eng.packetsLost = x.eng.packetsLost := rfl
@[simp] theorem Slot.advanceB_eng_badPackets : (x.advanceB k).eng.badPackets = x.eng.badPackets := rfl
@[simp] theorem Slot.advanceB_eng_scrambled : (x.advanceB k).eng.scrambled = x.eng.scrambled := rfl
@[simp] theorem Slot.advanceB_eng_lastRemaining : (x.advanceB k).eng.lastRemaining = x.eng.lastRemaining := rfl
@[simp] theorem Slot.advanceB_eng_outcomes : (x.advanceB k).eng.outcomes = x.eng.outcomes := rfl
@[simp] theorem Slot.advanceB_eng_markA : (x.advanceB k).eng.markA = x.eng.markA := rfl
@[simp] theorem Slot.advanceB_eng_markC : (x.advanceB k).eng.markC = x.eng.markC := rfl
@[simp] theorem Slot.advanceB_boundEntry : (x.advanceB k).boundEntry = x.boundEntry := rfl

/-- With nothing held back and nothing to advance by, nothing changes. -/
theorem Slot.advanceB_none (h : x.owedB = 0) : x.advanceB 0 = x := by
  cases x
  simp_all [Slot.advanceB]

@[simp] theorem Slot.advanceC_latch : (x.advanceC k).latch = x.latch := rfl
@[simp] theorem Slot.advanceC_mode : (x.advanceC k).mode = x.mode := rfl
@[simp] theorem Slot.advanceC_geo : (x.advanceC k).geo = x.geo := rfl
@[simp] theorem Slot.advanceC_holdTime : (x.advanceC k).holdTime = x.holdTime := rfl
@[simp] theorem Slot.advanceC_notice : (x.advanceC k).notice = x.notice := rfl
@[simp] theorem Slot.advanceC_othersSeal : (x.advanceC k).othersSeal = x.othersSeal := rfl
@[simp] theorem Slot.advanceC_watch : (x.advanceC k).watch = x.watch := rfl
@[simp] theorem Slot.advanceC_viewA : (x.advanceC k).viewA = x.viewA := rfl
@[simp] theorem Slot.advanceC_viewB : (x.advanceC k).viewB = x.viewB := rfl
@[simp] theorem Slot.advanceC_viewC : (x.advanceC k).viewC = x.viewC := rfl
@[simp] theorem Slot.advanceC_streamPos : (x.advanceC k).streamPos = x.streamPos := rfl
@[simp] theorem Slot.advanceC_chunkPos : (x.advanceC k).chunkPos = x.chunkPos := rfl
@[simp] theorem Slot.advanceC_outPos : (x.advanceC k).outPos = x.outPos := rfl
@[simp] theorem Slot.advanceC_carry : (x.advanceC k).carry = x.carry := rfl
@[simp] theorem Slot.advanceC_chunk : (x.advanceC k).chunk = x.chunk := rfl
@[simp] theorem Slot.advanceC_take : (x.advanceC k).take = x.take := rfl
@[simp] theorem Slot.advanceC_lostTotal : (x.advanceC k).lostTotal = x.lostTotal := rfl
@[simp] theorem Slot.advanceC_lossDue : (x.advanceC k).lossDue = x.lossDue := rfl
@[simp] theorem Slot.advanceC_holdTimer : (x.advanceC k).holdTimer = x.holdTimer := rfl
@[simp] theorem Slot.advanceC_history : (x.advanceC k).history = x.history := rfl
@[simp] theorem Slot.advanceC_absence : (x.advanceC k).absence = x.absence := rfl
@[simp] theorem Slot.advanceC_frame : (x.advanceC k).frame = x.frame := rfl
@[simp] theorem Slot.advanceC_token : (x.advanceC k).token = x.token := rfl
@[simp] theorem Slot.advanceC_closeAsked : (x.advanceC k).closeAsked = x.closeAsked := rfl
@[simp] theorem Slot.advanceC_openServed : (x.advanceC k).openServed = x.openServed := rfl
@[simp] theorem Slot.advanceC_closeServed : (x.advanceC k).closeServed = x.closeServed := rfl
@[simp] theorem Slot.advanceC_lapseDue : (x.advanceC k).lapseDue = x.lapseDue := rfl
@[simp] theorem Slot.advanceC_owedA : (x.advanceC k).owedA = x.owedA := rfl
@[simp] theorem Slot.advanceC_owedB : (x.advanceC k).owedB = x.owedB := rfl
@[simp] theorem Slot.advanceC_eng_orderTaken : (x.advanceC k).eng.orderTaken = x.eng.orderTaken := rfl
@[simp] theorem Slot.advanceC_eng_result : (x.advanceC k).eng.result = x.eng.result := rfl
@[simp] theorem Slot.advanceC_eng_state : (x.advanceC k).eng.state = x.eng.state := rfl
@[simp] theorem Slot.advanceC_eng_fault : (x.advanceC k).eng.fault = x.eng.fault := rfl
@[simp] theorem Slot.advanceC_eng_bound : (x.advanceC k).eng.bound = x.eng.bound := rfl
@[simp] theorem Slot.advanceC_eng_overtaken : (x.advanceC k).eng.overtaken = x.eng.overtaken := rfl
@[simp] theorem Slot.advanceC_eng_inStep : (x.advanceC k).eng.inStep = x.eng.inStep := rfl
@[simp] theorem Slot.advanceC_eng_absent : (x.advanceC k).eng.absent = x.eng.absent := rfl
@[simp] theorem Slot.advanceC_eng_chunksDone : (x.advanceC k).eng.chunksDone = x.eng.chunksDone := rfl
@[simp] theorem Slot.advanceC_eng_packetsLost : (x.advanceC k).eng.packetsLost = x.eng.packetsLost := rfl
@[simp] theorem Slot.advanceC_eng_badPackets : (x.advanceC k).eng.badPackets = x.eng.badPackets := rfl
@[simp] theorem Slot.advanceC_eng_scrambled : (x.advanceC k).eng.scrambled = x.eng.scrambled := rfl
@[simp] theorem Slot.advanceC_eng_lastRemaining : (x.advanceC k).eng.lastRemaining = x.eng.lastRemaining := rfl
@[simp] theorem Slot.advanceC_eng_outcomes : (x.advanceC k).eng.outcomes = x.eng.outcomes := rfl
@[simp] theorem Slot.advanceC_eng_markA : (x.advanceC k).eng.markA = x.eng.markA := rfl
@[simp] theorem Slot.advanceC_eng_markB : (x.advanceC k).eng.markB = x.eng.markB := rfl
@[simp] theorem Slot.advanceC_boundEntry : (x.advanceC k).boundEntry = x.boundEntry := rfl

/-- With nothing held back and nothing to advance by, nothing changes. -/
theorem Slot.advanceC_none (h : x.owedC = 0) : x.advanceC 0 = x := by
  cases x
  simp_all [Slot.advanceC]

@[simp] theorem Slot.caughtUp_latch : x.caughtUp.latch = x.latch := rfl
@[simp] theorem Slot.caughtUp_mode : x.caughtUp.mode = x.mode := rfl
@[simp] theorem Slot.caughtUp_geo : x.caughtUp.geo = x.geo := rfl
@[simp] theorem Slot.caughtUp_holdTime : x.caughtUp.holdTime = x.holdTime := rfl
@[simp] theorem Slot.caughtUp_notice : x.caughtUp.notice = x.notice := rfl
@[simp] theorem Slot.caughtUp_othersSeal : x.caughtUp.othersSeal = x.othersSeal := rfl
@[simp] theorem Slot.caughtUp_watch : x.caughtUp.watch = x.watch := rfl
@[simp] theorem Slot.caughtUp_viewA : x.caughtUp.viewA = x.viewA := rfl
@[simp] theorem Slot.caughtUp_viewB : x.caughtUp.viewB = x.viewB := rfl
@[simp] theorem Slot.caughtUp_viewC : x.caughtUp.viewC = x.viewC := rfl
@[simp] theorem Slot.caughtUp_streamPos : x.caughtUp.streamPos = x.streamPos := rfl
@[simp] theorem Slot.caughtUp_chunkPos : x.caughtUp.chunkPos = x.chunkPos := rfl
@[simp] theorem Slot.caughtUp_outPos : x.caughtUp.outPos = x.outPos := rfl
@[simp] theorem Slot.caughtUp_carry : x.caughtUp.carry = x.carry := rfl
@[simp] theorem Slot.caughtUp_chunk : x.caughtUp.chunk = x.chunk := rfl
@[simp] theorem Slot.caughtUp_take : x.caughtUp.take = x.take := rfl
@[simp] theorem Slot.caughtUp_lostTotal : x.caughtUp.lostTotal = x.lostTotal := rfl
@[simp] theorem Slot.caughtUp_lossDue : x.caughtUp.lossDue = x.lossDue := rfl
@[simp] theorem Slot.caughtUp_holdTimer : x.caughtUp.holdTimer = x.holdTimer := rfl
@[simp] theorem Slot.caughtUp_history : x.caughtUp.history = x.history := rfl
@[simp] theorem Slot.caughtUp_absence : x.caughtUp.absence = x.absence := rfl
@[simp] theorem Slot.caughtUp_frame : x.caughtUp.frame = x.frame := rfl
@[simp] theorem Slot.caughtUp_token : x.caughtUp.token = x.token := rfl
@[simp] theorem Slot.caughtUp_closeAsked : x.caughtUp.closeAsked = x.closeAsked := rfl
@[simp] theorem Slot.caughtUp_openServed : x.caughtUp.openServed = x.openServed := rfl
@[simp] theorem Slot.caughtUp_closeServed : x.caughtUp.closeServed = x.closeServed := rfl
@[simp] theorem Slot.caughtUp_lapseDue : x.caughtUp.lapseDue = x.lapseDue := rfl
@[simp] theorem Slot.caughtUp_boundEntry : x.caughtUp.boundEntry = x.boundEntry := rfl
@[simp] theorem Slot.caughtUp_eng_orderTaken : x.caughtUp.eng.orderTaken = x.eng.orderTaken := rfl
@[simp] theorem Slot.caughtUp_eng_result : x.caughtUp.eng.result = x.eng.result := rfl
@[simp] theorem Slot.caughtUp_eng_state : x.caughtUp.eng.state = x.eng.state := rfl
@[simp] theorem Slot.caughtUp_eng_fault : x.caughtUp.eng.fault = x.eng.fault := rfl
@[simp] theorem Slot.caughtUp_eng_bound : x.caughtUp.eng.bound = x.eng.bound := rfl
@[simp] theorem Slot.caughtUp_eng_overtaken : x.caughtUp.eng.overtaken = x.eng.overtaken := rfl
@[simp] theorem Slot.caughtUp_eng_inStep : x.caughtUp.eng.inStep = x.eng.inStep := rfl
@[simp] theorem Slot.caughtUp_eng_absent : x.caughtUp.eng.absent = x.eng.absent := rfl
@[simp] theorem Slot.caughtUp_eng_chunksDone : x.caughtUp.eng.chunksDone = x.eng.chunksDone := rfl
@[simp] theorem Slot.caughtUp_eng_packetsLost : x.caughtUp.eng.packetsLost = x.eng.packetsLost := rfl
@[simp] theorem Slot.caughtUp_eng_badPackets : x.caughtUp.eng.badPackets = x.eng.badPackets := rfl
@[simp] theorem Slot.caughtUp_eng_scrambled : x.caughtUp.eng.scrambled = x.eng.scrambled := rfl
@[simp] theorem Slot.caughtUp_eng_lastRemaining : x.caughtUp.eng.lastRemaining = x.eng.lastRemaining := rfl
@[simp] theorem Slot.caughtUp_eng_outcomes : x.caughtUp.eng.outcomes = x.eng.outcomes := rfl

/-- A refresh with nothing held back leaves the marks alone. -/
theorem Slot.caughtUp_none (hA : x.owedA = 0) (hB : x.owedB = 0) (hC : x.owedC = 0) : x.caughtUp = x := by
  rw [Slot.caughtUp, Slot.advanceA_none x hA, Slot.advanceB_none x hB, Slot.advanceC_none x hC]

end

/-- An advance that changes nothing of the slot changes nothing. -/
theorem State.advance_same {s : State} {n : Fin 8} {f : Slot → Slot} (h : f (s.slot n) = s.slot n) : s.advance n f = s := by
  have hs : s.setSlot n (s.slot n) = s := by simp [State.setSlot, State.slot]
  unfold State.advance
  dsimp only
  rw [h, hs]
  simp [State.showSlot]

end Sys2Proof.Machine
end

