-- ==== Sys2Proof/Laws/Records.lean ====
section
/-! SUPPORT. Laws/Records.lean: the lengths of the records: a query record has 544 bytes, an image entry record 1,024, an
image batch 4,096 and an image header 512. -/

namespace Sys2Proof.Machine

@[simp] theorem bytes16_length (k : Key) : (bytes16 k).length = 16 := length_le ..

@[simp] theorem Chain.finish_length (key : Key) (c : Chain) : (c.finish key).length = 8 := by simp [Chain.finish]

@[simp] theorem segmentPart_length (i : Nat) (g : Segment) : (segmentPart i g).length = 32 := by simp [segmentPart]

@[simp] theorem segmentParts_length (k i : Nat) (gs : List Segment) : (segmentParts k i gs).length = 32 * k := by
  induction k generalizing i gs with
  | zero => cases gs <;> rfl
  | succ k ih => cases gs <;> simp [segmentParts, ih] <;> omega

@[simp] theorem queryRecord_length (e : Fin 64) (x : Entry) : (queryRecord e x).length = 544 := by simp [queryRecord]

@[simp] theorem Entry.keyPlaces_length (x : Entry) : x.keyPlaces.length = 17 := by simp [Entry.keyPlaces]

@[simp] theorem keyPlaceBytes_length (boxKey : Key) (generation recording p : Nat) (keys : List (Option Key)) :
    (keyPlaceBytes boxKey generation recording p keys).length = 16 * keys.length := by
  induction keys generalizing p with
  | nil => rfl
  | cons k ks ih => cases k <;> simp [keyPlaceBytes, ih] <;> omega

@[simp] theorem imageRecord_length (boxKey : Key) (generation recording : Nat) (x : Entry) :
    (imageRecord boxKey generation recording x).length = 1024 := by simp [imageRecord]

@[simp] theorem imageHeader_length (generation savedTime : Nat) : (imageHeader generation savedTime).length = 504 := by
  simp [imageHeader, imageMarker]

theorem batchRecords_length (boxKey : Key) (generation : Nat) (table : Vector Entry 64) (k : Nat) (h : k < 16) :
    (batchRecords boxKey generation table k).length = 4096 := by
  have h0 : 4 * k < 64 := by omega
  have h1 : 4 * k + 1 < 64 := by omega
  have h2 : 4 * k + 2 < 64 := by omega
  have h3 : 4 * k + 3 < 64 := by omega
  simp [batchRecords, List.range, List.range.loop, entryIndex, h0, h1, h2, h3]

end Sys2Proof.Machine
end

