-- ==== Sys2Proof/Tests/Slice0.lean ====
section
/-! SUPPORT. Tests/Slice0.lean: the smoke of WellFormed, tests against values of the manual and of FIPS 197, and for every
statement with hypotheses a state that meets them together. -/

namespace Sys2Proof.Tests

-- One theorem at a time: the kernel evaluates most of them, and each would hold a thread.
set_option Elab.async false

open Sys2Proof.Machine

/-! ## WellFormed -/

/-- Recorder writes that reach 2^64 are ill formed. -/
theorem test_ill_formed_writes : (Instr.slotStep [(2 ^ 64 - 1, [1, 2])]).wellFormed = false := by decide

/-- A START whose value also asks ENGINE RESET is no START (R50). -/
theorem test_ill_formed_control : (Instr.start 5 []).wellFormed = false := by decide

theorem test_well_formed_start : (Instr.start 1 [(4096, [1])]).wellFormed = true := by decide

/-- The two stops of contradicting operands. -/
theorem test_mismatch_refused : exec (.stop 1) State.reset = .refused .requestMismatch := by rfl

theorem test_space_fault : exec (.fresh [(2 ^ 64, [1])]) State.reset = .fault .noSuchAddress := by rfl

/-- The table gives no row bits. -/
theorem test_no_word : decodeTableWord 32 0 = none ∧ State.reset.withFetchWord 32 0 = State.reset := ⟨rfl, rfl⟩

/-! ## Values of the manual -/

/-- FIPS 197, Appendix B. -/
theorem test_aes_fips : Aes.encipher (pack16 [0x2b, 0x7e, 0x15, 0x16, 0x28, 0xae, 0xd2, 0xa6, 0xab, 0xf7, 0x15, 0x88, 0x09, 0xcf,
    0x4f, 0x3c]) (pack16 [0x32, 0x43, 0xf6, 0xa8, 0x88, 0x5a, 0x30, 0x8d, 0x31, 0x31, 0x98, 0xa2, 0xe0, 0x37, 0x07, 0x34]) =
    pack16 [0x39, 0x25, 0x84, 0x1d, 0x02, 0xdc, 0x09, 0xfb, 0xdc, 0x11, 0x85, 0x97, 0x19, 0x6a, 0x0b, 0x32] := by
  decide +kernel

/-- R28, the table of frame sizes. -/
theorem test_frame_sizes : [256, 512, 1024, 2048].map frameSize = [48640, 96768, 193024, 385536] := by decide

/-- R50: ENGINE RESET before STOP before START. -/
theorem test_control_order : [7, 3, 1, 0].map (fun n => controlRequest (BitVec.ofNat 32 n)) =
    [.engineReset, .stop, .start, .nothing] := by decide

/-- R58: a number moved back by one adds 2^32 − 2 to the count. -/
theorem test_overtaken_back : (Slot.reset.answered (0xFFFFFFFF : Mark) .done).eng.overtaken = 0xFFFFFFFE := by decide

/-- R174: FAULT of slot 3 comes before RESULT of slot 0, and its value is code 1 in bits 10 to 8. -/
theorem test_attention_value : { State.reset with flags := raiseFlag ⟨.result, 0⟩ [⟨.fault, 3⟩] }.attentionValue = 0x103 := by
  decide

/-- R146: of the offsets 5, 40, 42 the pair 40, 42 agrees, and the jump is its smaller. -/
theorem test_vote_jump : chooseJump (appendVote [5, 40] 42) = some 40 := by decide

/-- R146: a fourth offset pushes the oldest out, so that 5 and 6 do not meet. -/
theorem test_vote_oldest_leaves : chooseJump (appendVote [5, 40, 80] 6) = none := by decide

/-- R130: a frame whose age equals its hold limit is refused. -/
theorem test_permit_aged : permit 160 { Entry.free 0 with state := .held } ⟨0, 1, some 0, .never, some 1, none, none⟩ .play 0 100 =
    .refused .aged := by decide

/-- R133: the remaining seconds are the lesser of hold and expiry. -/
theorem test_permit_remaining : permit 130 { Entry.free 0 with state := .held, expiry := some 150 }
    ⟨0, 1, some 0, .never, some 1, none, none⟩ .play 0 100 = .permitted 20 := by decide

/-- R132: a ONCE chunk below the move mark is refused MOVED on a PLAY slot. -/
theorem test_permit_moved : permit 130 { Entry.free 0 with state := .held, moveMark := 3 }
    ⟨0, 9, some 0, .once, none, none, none⟩ .play 2 100 = .refused .moved := by decide

/-- R134: the horizon is the greatest of the segments' terms, 100 + 2 · 60. -/
theorem test_horizon : { Entry.free 0 with state := .held, segments := [⟨0, 1, some 0, .never, some 2, some 90, some 100⟩,
    ⟨1, 1, some 0, .never, some 1, some 130, some 130⟩] }.deriveLapse = some 220 := by decide

/-- R96: two bad packets among the last three leave step, and the third good one after them restores it. -/
theorem test_step_lost_and_back :
    judgeStep true [true, false, false] = false ∧ judgeStep false [false, true, true] = false ∧
      judgeStep false [true, true, true] = true := by decide

/-- R100: unit start, adaptation field of length 1 and the random-access indicator. -/
theorem test_access_point : accessPoint [0x47, 0x41, 0x00, 0x30, 0x01, 0x40] = true ∧
    accessPoint [0x47, 0x41, 0x00, 0x30, 0x00, 0x40] = false := by decide

/-- R66: a frame window that runs past the end of its memory window fails. -/
theorem test_window_edge : covers [⟨0, 4095, true⟩] true 4000 96 = true ∧ covers [⟨0, 4095, true⟩] true 4000 97 = false := by
  decide

/-- R1: generation 65,535 retires. -/
theorem test_retired : (Entry.free 65535).returned.state = .retired ∧ (Entry.free 65534).returned.generation = 65535 := by decide

/-! ## States -/

/-- A running, ready part with one memory window over the first megabyte and the board at 0. -/
def work : State := { State.reset with part := .running, ready := true, windows := [⟨0, 0xFFFFF, true⟩] }

/-- The order of slot 0, numbered 5, is at hand. -/
def atSlot : State := { work with sweep := some (.order 0 5) }

/-- The host part of slot record 0 with order 5: 256 packets of stream or packet window, two frames in each frame window. -/
def order (kind mode recording : Nat) (token : List Byte := []) : Writes :=
  [(2048, le 4 5 ++ le 1 kind ++ le 1 mode ++ le 1 recording ++ zeros 33 ++ le 8 0x10000 ++ le 4 256 ++ le 4 0 ++ le 8 0x20000 ++
    le 4 2 ++ le 4 0 ++ le 8 0x60000 ++ le 4 2 ++ le 4 0 ++ token)]

/-- The header's part order 5 with a 4-byte and two 8-byte values. -/
def partOrder (kind recording time image query : Nat) : Writes :=
  [(96, le 4 5 ++ le 1 kind ++ le 1 recording ++ zeros 2 ++ le 4 time ++ zeros 4 ++ le 8 image ++ le 8 query)]

/-- A segment of 2 chunks under key 7. -/
def twoChunks (cls : RuleClass) : Segment := ⟨0, 2, some 7, cls, if cls = .never then some 90 else none, some 1, some 2⟩

/-- An entry of L = 256 with two chunks. -/
def entryIn (st : EntryState) (cls : RuleClass := .openCopy) : Entry :=
  { Entry.free 0 with
    state := st, chunkLength := 256, chunkCount := 2, segments := [twoChunks cls]
    binding := if st = .live ∨ st = .moving then some 0 else none, nextKey := if st = .live then some 9 else none }

/-- A slot in use, bound to entry 0, with two frames in each window. -/
def slotIn (mode : Mode) (st : SlotState) : Slot :=
  { Slot.bare 0 { Engine.idle with state := st, bound := some 0 } with
    mode := mode, geo := ⟨0x10000, 256, 0x20000, 2, 0x60000, 2, 256⟩, holdTime := 5, notice := 1
    history := [true, true, true], absence := [0, 0, 0, 0], othersSeal := true }

/-- Slot 0 and entry 0 of a state set. -/
def busy (s : State) (x : Slot) (y : Entry) : State := (s.setSlot 0 x).setEntry 0 y

/-- One carried packet. -/
def packet : Carried := ⟨0x47 :: zeros 187, true, false, none⟩

/-- A chunk with a packet stored. -/
def chunk : OpenChunk :=
  { seq := 2, seg := 0, stamp := 3, pos := 0, stored := 1, key := 7, generation := 0, batch := [], closeAsked := false
    closed := false, lost := 0, points := [], overflow := false, scrambledMark := false, seen := [], chain := Chain.start }

/-- A tag of one packet, and a frame in hand with it. -/
def tag : TagRead := ⟨0, 0, 1, 1, zeros 56, zeros 8⟩

def frame : Frame :=
  { pos := 0, tag := some tag, key := 7, raiseDue := false, verified := 0, checks := [], chain := Chain.start
    permit := none, worked := 0, packets := 0, reserved := none, outChain := Chain.start }

def permitted : Frame := { frame with permit := some 60 }

/-- The command answers a next state with the property. -/
def gives (c : Instr) (s : State) (p : State → Bool) : Bool := match exec c s with | .next t => p t | _ => false

/-- Slots of each mode stand on their entries as the rules have it. -/
theorem test_binds_record : (busy work (slotIn .record .running) (entryIn .live)).bindsTo 0 0 := by
  simp only [State.bindsTo]
  decide +kernel

theorem test_binds_play : (busy work (slotIn .play .waiting) { entryIn .held with players := [0] }).bindsTo 0 0 := by
  simp only [State.bindsTo]
  decide +kernel

theorem test_binds_check : (busy work (slotIn .check .waiting) { entryIn .held with players := [0] }).bindsTo 0 0 := by
  simp only [State.bindsTo]
  decide +kernel

theorem test_binds_move : (busy work (slotIn .move .waiting) (entryIn .moving)).bindsTo 0 0 := by
  simp only [State.bindsTo]
  decide +kernel

theorem test_delivers_not (x : Slot) (y : Entry) : ¬ (busy work x y).delivers 0 := fun ⟨_, _, _, _, _, _, _, _, _, _, h⟩ => nomatch h

/-! ## Witnesses: registers and resets -/

theorem test_controls : controlRequest 4 = .engineReset ∧ controlRequest 1 = .start ∧ controlRequest 2 = .stop ∧
    controlRequest 0x110 = .nothing := by decide

/-- Window lists for the three judgements of START: one over the board, one that ends before it, one upside down. -/
theorem test_start_lists : (State.reset.recorded [(0, zeros 8 ++ le 8 0xFFFF ++ [3])]).windowList = [⟨0, 0xFFFF, true⟩] ∧
    (State.reset.recorded [(0, zeros 8 ++ le 8 0xFF ++ [3])]).windowList = [⟨0, 0xFF, true⟩] ∧
    (State.reset.recorded [(0, le 8 64 ++ le 8 0 ++ [1])]).windowList = [⟨64, 7, false⟩] ∧
    State.reset.part = .stopped := by decide +kernel

/-- R48, 3.10: the zero fields of the header are written as zero. -/
theorem test_header_zeroes : (State.reset.recorded [(133, [9, 9, 9]), (159, [9]), (1023, [9])]).writeHeaderZeros.mem.read 133 3 = zeros 3 ∧
    (State.reset.recorded [(133, [9, 9, 9]), (159, [9]), (1023, [9])]).writeHeaderZeros.mem.read 1023 1 = zeros 1 := by decide +kernel

/-- R64: a field marked while STOPPED is written with its value, and the cause held with it is raised. -/
theorem test_start_held : (match exec (.start 1 [(0, zeros 8 ++ le 8 0xFFFF ++ [3])])
      { busy State.reset (slotIn .record .running) (entryIn .live) with
        writeAll := false, writeVote := false, held := [.slot 0 .state], heldCauses := [slotFlag .absent 0] } with
    | .next t => decide (t.mem.read (2048 + 261) 1 = [2] ∧ t.mem.read (2048 + 263) 1 = [0] ∧ slotFlag .absent 0 ∈ t.flags)
    | _ => false) = true := by decide +kernel

theorem test_stop_states : work.part = .running ∧ State.reset.part ≠ .running ∧
    ({ work with part := .stopping } : State).flight = none ∧ ({ work with part := .stopping } : State).query = none ∧
    ({ work with part := .stopping } : State).sweep = none ∧ (∀ n, (({ work with part := .stopping } : State).slot n).take = none) :=
  ⟨rfl, by decide, rfl, rfl, rfl, by decide⟩

theorem test_sweep_states : work.part = .running ∧ work.sweep = none ∧ atSlot.sweep.isSome = true ∧
    ({ work with sweepTimer := some 2 } : State).sweepTimer = some 2 ∧
    ({ atSlot with sweepTimer := some 2 } : State).sweepTimer = some 2 ∧ State.reset.part ≠ .running ∧
    State.reset.sweepTimer = none := by decide

theorem test_flags_ok : flagsOk [⟨.fault, 3⟩, ⟨.result, 0⟩] := by unfold flagsOk; decide

/-! ## Witnesses: sweeps -/

/-- The order record of slot 0 read with F = 9 and D as 0. -/
def marks (fill : Nat) (done : Nat) : Writes := [(2048 + 52, le 4 fill), (2048 + 68, le 4 done)]

def stepping (x : Slot) (y : Entry) : State := busy { work with sweep := some (.slot 0) } x y

theorem test_step_states :
    (stepping (slotIn .record .running) (entryIn .live)).sweep = some (.slot 0) ∧
    ((stepping (slotIn .record .running) (entryIn .live)).recorded (marks 9 0)).readMarks 0 .record (slotIn .record .running) =
      { slotIn .record .running with viewA := 9 } ∧
    ({ slotIn .record .running with viewA := 9 } : Slot).marksBad = false ∧
    ({ slotIn .record .running with viewA := 9 } : Slot).overrunDue = false ∧
    ((stepping (slotIn .check .waiting) (entryIn .held)).recorded (marks 0 1)).readMarks 0 .check (slotIn .check .waiting) =
      { slotIn .check .waiting with viewB := 1 } ∧
    ({ slotIn .check .waiting with viewB := 1 } : Slot).marksBad = false ∧
    ({ work with sweep := some (.slot 0) } : State).sweep = some (.slot 0) ∧ (work.slot 0).eng.state = .idle := by
  decide +kernel

/-- A done mark ahead of the put mark of a RECORD slot, and a fill mark of 3 for the two frames of the others. -/
theorem test_mark_fault_states :
    ((stepping (slotIn .record .running) (entryIn .live)).recorded (marks 0 1)).readMarks 0 .record (slotIn .record .running) =
      { slotIn .record .running with viewB := 1 } ∧
    ({ slotIn .record .running with viewB := 1 } : Slot).marksBad = true ∧
    ([Mode.play, .check, .move].all fun m => (((stepping (slotIn m .waiting) (entryIn .held)).recorded (marks 0 3)).readMarks 0 m
      (slotIn m .waiting)).marksBad) = true ∧
    (slotIn .play .waiting).lapseDue = false ∧ (slotIn .play .waiting).take = none ∧ work.flight = none := by
  decide +kernel

/-- R123: the MARK fault of a PLAY slot keeps its views and window position, and FAULT is raised with code 2 in the record. -/
theorem test_play_mark_fault : gives (.slotStep (marks 0 3)) (stepping { slotIn .play .waiting with chunkPos := 1 }
      { entryIn .held with players := [0] }) (fun t => decide ((t.slot 0).eng.fault = .mark ∧ (t.slot 0).viewB = 3 ∧ (t.slot 0).chunkPos = 1 ∧
        (t.entry 0).players = [] ∧ t.mem.read (2048 + 261) 2 = [5, 2] ∧ slotFlag .fault 0 ∈ t.flags)) = true := by decide +kernel

/-- R76: a STALLED slot with room runs again. R114: a permitted frame is delivered with room, waits without, and is ABANDONED
without where a close is asked. -/
theorem test_refresh_states :
    gives (.slotStep (marks 0 0)) (stepping (slotIn .record .stalled) (entryIn .live)) (fun t => (t.slot 0).eng.state == .running) = true ∧
    (let x := { slotIn .play .waiting with frame := some permitted }
     let full := { x with eng := { x.eng with markA := 256, state := .delivering } }
     let y := { entryIn .held with players := [0] }
     gives (.slotStep (marks 0 1)) (stepping x y) (fun t => (t.slot 0).eng.state == .delivering) = true ∧
     gives (.slotStep (marks 0 1)) (stepping full y) (fun t => (t.slot 0).eng.state == .waiting) = true ∧
     gives (.slotStep (marks 0 1)) (stepping { full with closeAsked := true } y) (fun t => decide ((t.slot 0).eng.state = .idle ∧
       (t.slot 0).eng.outcomes[0]? = some ⟨0, .abandoned, 0, 0, 0, 1⟩ ∧ (t.entry 0).players = [])) = true) := by decide +kernel

/-- R160: without a free output frame a MOVE slot waits, and a close asked has its frame ABANDONED and its entry HELD. -/
theorem test_refresh_move :
    let x := { slotIn .move .verifying with frame := some permitted, eng := { (slotIn .move .verifying).eng with markC := 2 } }
    gives (.slotStep (marks 0 1)) (stepping x (entryIn .moving)) (fun t => (t.slot 0).eng.state == .waiting) = true ∧
    gives (.slotStep (marks 0 1)) (stepping { x with closeAsked := true } (entryIn .moving)) (fun t => decide
      ((t.slot 0).eng.state = .idle ∧ (t.entry 0).state = .held ∧ slotFlag .progress 0 ∈ t.flags)) = true := by decide +kernel

/-- R88, log 44: a slot whose entry has lapsed is not refreshed. -/
theorem test_lapsed_not_refreshed : gives (.slotStep (marks 0 1)) (stepping { slotIn .record .running with lapseDue := true }
      ((entryIn .live).spent .lapsed)) (fun t => decide ((t.slot 0).eng.state = .running ∧ (t.slot 0).viewB = 0)) = true := by decide +kernel

theorem test_overrun_states :
    ((stepping (slotIn .record .stalled) (entryIn .live)).recorded (marks 300 0)).readMarks 0 .record (slotIn .record .stalled) =
      { slotIn .record .stalled with viewA := 300 } ∧
    ({ slotIn .record .stalled with viewA := 300 } : Slot).marksBad = false ∧
    ({ slotIn .record .stalled with viewA := 300 } : Slot).overrunDue = true ∧
    ({ slotIn .record .running with viewA := 300, chunk := some chunk } : Slot).overrunDue = true ∧
    ({ slotIn .record .running with viewA := 300, chunk := some chunk } : Slot).marksBad = false ∧
    (slotIn .record .running).geo.streamSize < ahead (300 : Mark) (slotIn .record .running).placeA ∧
    (slotIn .record .running).lapseDue = false ∧ (slotIn .record .running).take = none ∧ chunk.closed = false ∧
    ({ chunk with closeAsked := true, closed := true } : OpenChunk).closed = true := by decide +kernel

/-- R81: 300 packets lost on a STALLED slot move T to F and are counted, and the slot runs again. -/
theorem test_overrun_counts : (match exec (.slotStep (marks 300 0)) (stepping (slotIn .record .stalled) (entryIn .live)) with
    | .next t => decide ((t.slot 0).eng.packetsLost = 300 ∧ (t.slot 0).eng.markA = 300 ∧ (t.slot 0).streamPos = 44 ∧
        (t.slot 0).eng.state = .running)
    | _ => false) = true := by decide +kernel

/-- R69: a directory entry that shows the five values already is not written; one that shows an absent lapse time is, also where the
lapse time is the value that the directory shows for an absent one. -/
theorem test_directory_revision :
    let y := { entryIn .held with lapseTime := some top32 }
    let s := busy work Slot.reset y
    let shown (c : Option Nat) : State := { s with directory := s.directory.set 0 ⟨some { y.directoryValues with lapseTime := c }, 4⟩ }
    ((shown (some top32)).writeDirectory 0).directory[0].revision = 4 ∧ ((shown none).writeDirectory 0).directory[0].revision = 5 ∧
      ((shown none).writeDirectory 0).mem.read (1024 + 12) 1 = [5] := by decide +kernel

theorem test_end_of_sweep_states : ({ work with sweep := some .ending } : State).sweep = some .ending ∧
    ({ work with sweep := some .part } : State).sweep = some .part ∧ (work.recorded []).partOrderNumber = work.partLatch ∧
    work.sweepPending = false := by decide +kernel

/-! ## Witnesses: orders of slots -/

theorem test_at_order (kind : OrderKind) (w : Writes) (h : writesInSpace w = true ∧
    orderKind ((atSlot.recorded w).slotField 0 4 1) = kind) (x : Slot) (y : Entry) :
    (busy atSlot x y).atOrder w 0 5 kind := by
  obtain ⟨h1, h2⟩ := h
  refine ⟨rfl, ?_, h1, h2⟩
  show PartState.running ≠ .stopped
  decide

theorem test_open_orders : writesInSpace (order 1 1 0) = true ∧
    orderKind ((atSlot.recorded (order 1 1 0)).slotField 0 4 1) = .openSlot ∧
    [1, 2, 3, 4].map (fun m => modeOf ((atSlot.recorded (order 1 m 0)).slotField 0 5 1)) = [.record, .play, .check, .move] := by
  decide +kernel

/-- The first check of an OPEN in every mode: a slot in use is BUSY. -/
theorem test_refused_opens (w : Writes) (mode : Mode) (h : mode ≠ .off) :
    firstFailing (((busy atSlot (slotIn .record .running) (entryIn .live)).recorded w).openChecks 0 mode) .busy := by
  have hs : (((busy atSlot (slotIn .record .running) (entryIn .live)).recorded w).slot 0).eng.state ≠ .idle := by
    show ((busy atSlot (slotIn .record .running) (entryIn .live)).slot 0).eng.state ≠ .idle
    decide +kernel
  cases mode with
  | off => exact absurd rfl h
  | record => exact ⟨[], _, _, rfl, hs, nofun⟩
  | play => exact ⟨[], _, _, rfl, hs, nofun⟩
  | check => exact ⟨[], _, _, rfl, hs, nofun⟩
  | move => exact ⟨[], _, _, rfl, hs, nofun⟩

/-- R108, R153: the answers to the four OPENs on a MOVING entry, by their codes: WRONG_STATE, BUSY, DONE and WRONG_STATE. -/
theorem test_open_moving : ([(Instr.recordOpen (order 1 1 0), 4), (.playOpen (order 1 2 0), 2), (.checkOpen (order 1 3 0), 1),
      (.moveOpen (order 1 4 0), 4)].all fun c => gives c.1 (busy atSlot Slot.reset (entryIn .moving)) fun t => (t.slot 0).eng.result.code == c.2) =
    true := by decide +kernel

/-- No check of a PLAY OPEN of a HELD entry fails. -/
theorem test_open_passes :
    noneFailing (((busy atSlot Slot.reset (entryIn .held)).recorded (order 1 2 0)).openChecks 0 .play) := by
  generalize hr : (busy atSlot Slot.reset (entryIn .held)).recorded (order 1 2 0) = r
  have h6 : r.slotField 0 6 1 = 0 := by rw [← hr]; decide +kernel
  have h48 : r.slotField 0 48 4 = 256 := by rw [← hr]; decide +kernel
  have h64 : r.slotField 0 64 1 = 2 := by rw [← hr]; decide +kernel
  have h40 : r.slotField 0 40 8 = 0x10000 := by rw [← hr]; decide +kernel
  have h56 : r.slotField 0 56 8 = 0x20000 := by rw [← hr]; decide +kernel
  have hs : (r.slot 0).eng.state = .idle := by rw [← hr]; decide +kernel
  have hl : r.ready = true ∧ r.loadInFlight = false := by rw [← hr]; decide +kernel
  have hw : r.windows = [⟨0, 0xFFFFF, true⟩] := by rw [← hr]; rfl
  have he : r.entry 0 = entryIn .held := by rw [← hr]; decide +kernel
  clear hr
  simp only [noneFailing, State.openChecks, List.cons_append, List.nil_append, List.forall_mem_cons, h6, h48, h64, h40, h56, hw, hs, hl,
    inWindow, badFrames]
  refine ⟨by decide, by decide, by decide, by decide, ?_, ?_, ?_, ?_, nofun⟩ <;>
    (rintro ⟨e, h, hp⟩
     obtain rfl : e = 0 := Fin.ext h
     rw [he] at hp
     revert hp
     decide)

theorem test_accepted_record : (atSlot.recorded (order 1 1 0)).checkRecordOpen 0 = .ok 0 := by decide +kernel

theorem test_accepted_play : ((busy atSlot Slot.reset (entryIn .held)).recorded (order 1 2 0)).checkPlayOpen 0 .play = .ok 0 ∧
    ((busy atSlot Slot.reset { entryIn .held with views := some 1 }).recorded (order 1 2 0)).checkPlayOpen 0 .play = .ok 0 ∧
    ((busy atSlot Slot.reset (entryIn .moving)).recorded (order 1 3 0)).checkPlayOpen 0 .check = .ok 0 := by decide +kernel

/-- R72: the slot record that an accepted OPEN leaves in memory shows OPENING and the bound recording. -/
theorem test_record_open_shows : (match exec (.recordOpen (order 1 1 0)) atSlot with
    | .next t => decide (t.mem.read (2048 + 260) 4 = [1, 1, 0, 0] ∧ t.waiting = [0] ∧ (t.entry 0).state = .live)
    | _ => false) = true := by decide +kernel

/-- R110: the last view is consumed. -/
theorem test_last_view : (match exec (.playOpen (order 1 2 0)) (busy atSlot Slot.reset { entryIn .held with views := some 1 }) with
    | .next t => decide ((t.entry 0).views = some 0 ∧ (t.entry 0).lastViewTaken = true)
    | _ => false) = true := by decide +kernel

/-- A token under the transfer key 0, its check as the cipher gives it. -/
def token : List Byte := zeros 16 ++ [211, 125, 13, 229, 93, 28, 187, 5]

theorem test_accepted_move :
    ∃ key, ({ busy atSlot Slot.reset (entryIn .held) with fused := ⟨0, 0⟩ }.recorded (order 1 4 0 token)).checkMoveOpen 0 =
      .ok (0, key) := by
  have h : (match ({ busy atSlot Slot.reset (entryIn .held) with fused := ⟨0, 0⟩ }.recorded (order 1 4 0 token)).checkMoveOpen 0 with
      | .ok (e, _) => e == 0
      | .error _ => false) = true := by decide +kernel
  split at h
  · rename_i e key heq
    exact ⟨key, by rw [heq, eq_of_beq h]⟩
  · exact absurd h (by decide)

theorem test_move_expiry : (∀ c, (entryIn .held).expiry = some c → work.clock < c) := fun _ h => nomatch h

/-- Orders of every kind at hand. -/
theorem test_order_kinds : [2, 3, 4, 5, 6, 9].map (fun k => orderKind ((atSlot.recorded (order k 0 0)).slotField 0 4 1)) =
    [.close, .abort, .rule, .rotate, .flush, .unknown] ∧
    modeOf ((atSlot.recorded (order 1 0 0)).slotField 0 5 1) = .off ∧ writesInSpace (order 2 0 0) = true := by decide +kernel

/-- Slots on which CLOSE and ABORT are taken: in OPENING, in RUNNING with a packet carried, in CLOSING. -/
theorem test_close_states :
    (slotIn .record .opening).boundEntry = some 0 ∧ (slotIn .record .opening).eng.state = .opening ∧
    (entryIn .live).state = .live ∧ (entryIn .live).binding = some 0 ∧ (slotIn .record .opening).take = none ∧
    ({ slotIn .record .running with carry := [packet] } : Slot).carry ≠ [] ∧
    (slotIn .record .closing).eng.state = .closing ∧ Slot.reset.eng.state = .idle := by decide +kernel

/-- R83: a CLOSE in OPENING is DONE at once; the entry keeps its chunks and is HELD; PROGRESS is pending. -/
theorem test_close_opening : (match exec (.recordClose (order 2 0 0)) (busy atSlot (slotIn .record .opening) (entryIn .live)) with
    | .next t => decide ((t.entry 0).state = .held ∧ (t.slot 0).eng.result = .done ∧ (t.slot 0).eng.state = .idle ∧
        ⟨.progress, 0⟩ ∈ t.flags)
    | _ => false) = true := by decide +kernel

/-- R84: an ABORT with no chunk put returns the entry to FREE with its generation advanced. -/
theorem test_abort_frees : (match exec (.recordAbort (order 3 0 0))
      (busy atSlot (slotIn .record .running) { entryIn .live with chunkCount := 0, segments := [⟨0, 0, some 7, .once, none, none, none⟩] }) with
    | .next t => decide ((t.entry 0).state = .free ∧ (t.entry 0).generation = 1 ∧ ⟨.progress, 0⟩ ∉ t.flags)
    | _ => false) = true := by decide +kernel

theorem test_frame_close_states :
    (slotIn .play .waiting).boundEntry = some 0 ∧ (slotIn .play .waiting).frame = none ∧
    (slotIn .play .waiting).closeAsked = false ∧ (slotIn .check .waiting).mode = .check ∧ (slotIn .move .waiting).mode = .move ∧
    (entryIn .moving).state = .moving ∧ (entryIn .moving).binding = some 0 ∧
    ({ slotIn .play .verifying with frame := some frame } : Slot).frame = some frame ∧ frame.permit = none ∧ frame.pos < 16 ∧
    ({ slotIn .move .waiting with closeAsked := true } : Slot).closeAsked = true ∧ work.flight = none := by decide +kernel

/-- R121: the frame in hand is recorded as ABANDONED, code 16, at its position, with take count 1. -/
theorem test_abort_abandons : (match exec (.playCheckAbort (order 3 0 0))
      (busy atSlot { slotIn .play .verifying with frame := some frame, viewB := 1 } { entryIn .held with players := [0] }) with
    | .next t => decide ((t.slot 0).eng.outcomes[0]? = some ⟨0, .abandoned, 0, 0, 0, 1⟩ ∧ (t.slot 0).eng.markB = 1 ∧
        (t.entry 0).players = [] ∧ t.mem.read (2048 + 320 + 4) 1 = [16])
    | _ => false) = true := by decide +kernel

/-- R161: an aborted move keeps its mark and the entry is HELD. -/
theorem test_move_abort : (match exec (.moveAbort (order 3 0 0))
      (busy atSlot (slotIn .move .waiting) { entryIn .moving .once with moveMark := 1 }) with
    | .next t => decide ((t.entry 0).state = .held ∧ (t.entry 0).moveMark = 1 ∧ (t.entry 0).binding = none)
    | _ => false) = true := by decide +kernel

theorem test_faulted_state : ((Slot.reset).toFaulted .mark).eng.state = .faulted := by decide +kernel

theorem test_rule_states : (slotIn .record .running).mode = .record ∧ (slotIn .record .running).chunk = none ∧
    (slotIn .record .running).boundEntry = some 0 ∧ (0 : Fin 8) ∉ (entryIn .live).players ∧ (slotIn .play .waiting).mode ≠ .record ∧
    (slotIn .record .closing).eng.state = .closing := by decide +kernel

/-- R20: an expiry of the order not later than the clock lapses the entry at once. -/
theorem test_rule_lapses : (match exec (.rule (order 4 0 0 ++ [(2048 + 12, le 4 50)]))
      { busy atSlot (slotIn .record .running) (entryIn .live) with clock := 50 } with
    | .next t => decide ((t.entry 0).state = .lapsed ∧ (t.slot 0).lapseDue = true ∧ (t.slot 0).eng.result = .done ∧
        partFlag .lapse ∈ t.flags)
    | _ => false) = true := by decide +kernel

theorem test_flush_states :
    ({ slotIn .record .running with chunk := some chunk } : Slot).chunk = some chunk ∧ chunk.closeAsked = false ∧
    chunk.batch = [] ∧ (slotIn .record .running).lossDue = 0 ∧
    ({ chunk with batch := [packet] } : OpenChunk).batch ≠ [] ∧ ({ chunk with closeAsked := true } : OpenChunk).closeAsked = true ∧
    ({ slotIn .record .running with chunk := some chunk, holdTimer := some 5 } : Slot).holdTimer.isSome = true ∧
    (slotIn .record .running).holdTimer = none := by decide +kernel

/-- R102: a watched entry that the third chunk in a row has not seen becomes absent, and ABSENT is raised. -/
theorem test_flush_absent : (match exec (.flush (order 6 0 0)) (busy atSlot
      { slotIn .record .running with chunk := some chunk, watch := [⟨17, .seal⟩, ⟨0, .drop⟩, ⟨0, .notUsed⟩, ⟨0, .notUsed⟩]
                                     absence := [2, 0, 0, 0] } (entryIn .live)) with
    | .next t => decide ((t.slot 0).absence = [3, 0, 0, 0] ∧ (t.slot 0).eng.absent = [true, false, false, false] ∧
        ⟨.absent, 0⟩ ∈ t.flags)
    | _ => false) = true := by decide +kernel

/-! ## Witnesses: part orders -/

def atPart : State := { work with sweep := some .part }

theorem test_part_orders (s : State) (hs : s.sweep = some .part ∧ s.part = .running ∧ s.boardBase = 0 ∧ s.partLatch = 0 ∧ s.mem = [])
    (k : Nat) (hk : k < 10) : s.atPartOrder (partOrder k 0 7 0x40000 0x80000) (partOrderKind k) := by
  have h : s.recorded (partOrder k 0 7 0x40000 0x80000) = { s with mem := atPart.mem.recorder (partOrder k 0 7 0x40000 0x80000) } := by
    rw [State.recorded, hs.2.2.2.2]
    rfl
  have hf : ∀ off len, (s.recorded (partOrder k 0 7 0x40000 0x80000)).headerField off len =
      (atPart.recorded (partOrder k 0 7 0x40000 0x80000)).headerField off len := by
    intro off len
    generalize partOrder k 0 7 0x40000 0x80000 = w at h ⊢
    have same : ∀ t u : State, t.boardBase = u.boardBase → t.mem = u.mem → t.headerField off len = u.headerField off len := by
      intro t u hb hm
      simp only [State.headerField, hb, hm]
    have hb : (0 : Nat) = atPart.boardBase := by decide +kernel
    exact same _ _ (hs.2.2.1.trans hb) (by rw [h]; rfl)
  refine ⟨hs.1, fun h' => PartState.noConfusion (hs.2.1.symm.trans h'), ?_, ?_, ?_⟩
  · clear hf h hs s
    revert k
    decide +kernel
  · rw [State.partOrderNumber, hf, hs.2.2.2.1]
    clear hf h hs s
    revert k
    decide +kernel
  · rw [hf]
    clear hf h hs s
    revert k
    decide +kernel

theorem test_part_states : atPart.sweep = some .part ∧ atPart.part = .running ∧ atPart.boardBase = 0 ∧ atPart.partLatch = 0 ∧
    atPart.mem = [] ∧ atPart.ready = true ∧ atPart.image = none ∧ atPart.cell < top32 ∧ atPart.loadInFlight = false ∧
    atPart.query = none ∧ (∀ n, (atPart.slot n).eng.state = .idle) := by decide +kernel

/-- The windows hold an image at 0x40000 and a query record at 0x80000. -/
theorem test_part_windows : (∃ x ∈ atPart.windows, x.writable = true ∧ x.lo ≤ 0x40000 ∧ 0x40000 + 66047 ≤ x.hi) ∧
    ∃ x ∈ atPart.windows, x.writable = true ∧ x.lo ≤ 0x80000 ∧ 0x80000 + 543 ≤ x.hi := by decide +kernel

/-- Reports of 7 against clocks of 9, 6 and 1. -/
theorem test_time_states : (atPart.recorded (partOrder 4 0 7 0 0)).headerField 104 4 = 7 ∧ 7 ≤ 9 + 2 ∧ 7 ≤ 6 + 2 ∧ 3 ≤ 7 - 1 := by
  decide +kernel

/-- R146, R147: a second report that agrees with the first jumps the clock by the smaller offset. -/
theorem test_time_jumps : (match exec (.time (partOrder 4 0 107 0 0)) ({ atPart with votes := [105], clock := 0 } : State) with
    | .next t => decide (t.clock = 105 ∧ t.votes = [] ∧ t.header.voteAction = .jumped ∧ t.header.detail = 105 ∧
        partFlag .lapse ∈ t.flags)
    | _ => false) = true := by decide +kernel

theorem test_erase_states : (entryIn .held).binding = none ∧ (entryIn .held).players = [] ∧ (entryIn .held).state = .held ∧
    (entryIn .live).binding ≠ none ∧ (entryIn .held).generation < 65535 ∧ 65535 ≤ (Entry.free 65535).generation := by decide +kernel

/-- R24, log 33: a LIVE or MOVING entry with no slot bound is answered BUSY. -/
theorem test_erase_unbound :
    let unbound (st : EntryState) : Entry := { entryIn st with binding := none }
    [EntryState.live, .moving].all (fun st => decide ((unbound st).binding = none ∧ (unbound st).players = [] ∧ (unbound st).state = st) &&
      gives (.erase (partOrder 5 0 0 0 0)) (atPart.setEntry 0 (unbound st)) (fun t => decide (t.header.result = .busy ∧
        (t.entry 0).state = st ∧ t.sweep = some .ending))) = true := by decide +kernel

theorem test_query_states : ({ work with query := some ⟨0x80000, [1, 2], some 5⟩ } : State).query = some ⟨0x80000, [1, 2], some 5⟩ ∧
    work.part ≠ .stopped ∧ (∃ x ∈ work.windows, x.writable = true ∧ x.lo ≤ 0x80000 ∧ 0x80000 + 2 ≤ x.hi + 1) ∧
    (entryIn .held).segments.length ≤ 16 := by decide +kernel

/-! ## Witnesses: keys, takes and chunks -/

theorem test_key_states : State.reset.drawing = true ∧ ({ work with drawing := false } : State).drawing = false ∧
    ({ busy work (slotIn .record .opening) (entryIn .live) with waiting := [0], pool := [1, 2, 3] } : State).waiting = 0 :: [] ∧
    (slotIn .record .opening).boundEntry = some 0 ∧ (entryIn .live).segments = twoChunks .openCopy :: [] := by decide +kernel

theorem test_take_states :
    min 16 ({ slotIn .record .running with viewA := 3 } : Slot).streamAvailable = 3 ∧
    (∃ y ∈ work.windows, y.lo ≤ 0x10000 ∧ 0x10000 + 188 * 3 ≤ y.hi + 1) ∧ (slotIn .record .running).carry = [] ∧
    (slotIn .record .running).take = none ∧ (slotIn .record .running).chunk = none ∧
    ({ slotIn .record .running with take := some ⟨0, 1, 0x47 :: zeros 187⟩ } : Slot).take = some ⟨0, 1, 0x47 :: zeros 187⟩ ∧
    writesInSpace [] = true := by decide +kernel

/-- R95, R99: of a good packet, a null packet and one with a bad sync byte the first is kept. -/
theorem test_take_keeps :
    let taken : Take := ⟨0, 3, 0x47 :: zeros 187 ++ (0x47 :: 0x1F :: 0xFF :: zeros 185) ++ zeros 188⟩
    (match exec (.takeComplete 0 []) (busy work { slotIn .record .running with take := some taken, viewA := 3 } (entryIn .live)) with
    | .next t => decide ((t.slot 0).carry = [packet] ∧ (t.slot 0).eng.badPackets = 1 ∧ (t.slot 0).eng.markA = 3 ∧
        (t.slot 0).streamPos = 3)
    | _ => false) = true := by decide +kernel

/-- R96, R64: two bad packets and three good ones take the slot out of step and back; the flag, as it was before, is written. -/
theorem test_step_there_and_back :
    let good := 0x47 :: zeros 187
    let taken : Take := ⟨0, 5, zeros 376 ++ good ++ good ++ good⟩
    let x := { slotIn .record .running with take := some taken, eng := { (slotIn .record .running).eng with inStep := true } }
    gives (.takeComplete 0 [(2048 + 268, [0x55])]) (busy work x (entryIn .live)) (fun t => decide ((t.slot 0).eng.inStep = true ∧
      (t.slot 0).eng.badPackets = 4 ∧ (t.slot 0).carry = [packet] ∧ t.mem.read (2048 + 268) 1 = [1])) = true ∧
    (work.sortedTake x taken).stepMoved = true := by decide +kernel

theorem test_sorting_states : (⟨[true, true, true], true, false, 0, 0, []⟩ : Sorting).history = [true, true, true] ∧
    ([⟨17, .index⟩] : List Watch)[0]? = some ⟨17, .index⟩ ∧ packetIdent (0x47 :: 0 :: 17 :: zeros 185) = 17 := by decide +kernel

theorem test_segment_states : (entryIn .live).segments = [] ++ [twoChunks .openCopy] ∧ (twoChunks .openCopy).count ≠ 0 ∧
    ({ entryIn .live with pendingRotation := true } : Entry).nextKey = some 9 ∧ (entryIn .held).nextKey = none := by decide +kernel

theorem test_open_states : ({ slotIn .record .running with carry := [packet] } : Slot).carry ≠ [] ∧
    (entryIn .live).chunkCount ≠ top32 ∧
    (slotIn .record .running).geo.frames - ahead (slotIn .record .running).placeB (slotIn .record .running).viewB = 2 ∧
    (entryIn .live).decideSegment.segments.getLast? = some (twoChunks .openCopy) ∧ (twoChunks .openCopy).key = some 7 ∧
    2 - ahead (2 : Mark) (slotIn .record .running).viewB = 0 := by decide +kernel

/-- R74: the carried packet is placed and the hold timer starts. -/
theorem test_chunk_opens : (match exec (.chunkOpen 0) (busy work { slotIn .record .running with carry := [packet] } (entryIn .live)) with
    | .next t => decide ((t.slot 0).carry = [] ∧ (t.slot 0).holdTimer = some 5 ∧
        ((t.slot 0).chunk.map fun c => (c.seq, c.batch.length)) = some (2, 1))
    | _ => false) = true := by decide +kernel

/-- A sealing batch of no packet in flight over a chunk whose L is 256, and over one whose L is 1. -/
theorem test_sealing_states (key : Key) :
    (storedBytes key 0 2 1 []).length = 0 ∧ (∃ y ∈ work.windows, y.writable = true ∧ y.lo ≤ 0x20000 + 64 + 188 ∧
      0x20000 + 64 + 188 + 0 ≤ y.hi + 1) ∧ (slotIn .record .running).carry = [] ∧ chunk.closeAsked = false ∧
    chunk.stored + chunk.batch.length < 256 ∧ 1 ≤ chunk.stored + chunk.batch.length := ⟨rfl, by decide⟩

theorem test_closing_states (key : Key) (acc : Chain) :
    ((zeros 56) ++ acc.finish key).length = 64 ∧
    (∃ v ∈ work.windows, v.writable = true ∧ v.lo ≤ 0x20000 ∧ 0x20000 + 64 ≤ v.hi + 1) ∧
    (∃ v ∈ work.windows, v.writable = true ∧ v.lo ≤ 0x20000 + 64 + 188 * 1 ∧
      0x20000 + 64 + 188 * 1 + paddingLength 256 1 ≤ v.hi + 1) ∧
    (entryIn .live).segments = [] ++ [twoChunks .openCopy] := by
  refine ⟨?_, by decide, by decide, rfl⟩
  simp [Chain.finish, bytes16]

/-! ## Witnesses: the arbiter and frames -/

theorem test_grant_states :
    (busy work { slotIn .check .verifying with frame := some frame } (entryIn .held)).nextWork (.slot 0) = some .verify ∧
    turnsAfter work.lastGranted (.slot 0) = 0 ∧ work.part = .running ∧ work.flight = none := by decide +kernel

theorem test_frame_states : (slotIn .play .waiting).eng.state = .waiting ∧ (slotIn .play .waiting).frame = none ∧
    (slotIn .play .waiting).closeAsked = false ∧ 1 ≤ ahead (1 : Mark) (slotIn .play .waiting).placeB := by decide +kernel

/-- A frame of zeros has no marker; the last range of a frame of one packet; a CHECK permit. -/
theorem test_verify_states :
    checkTag (entryIn .held) 0 .check (work.mem.read 0x20000 64) = .refused .noMarker ∧
    (∃ v ∈ work.windows, v.lo ≤ 0x20000 ∧ 0x20000 + 64 ≤ v.hi + 1) ∧
    (∃ v ∈ work.windows, v.lo ≤ 0x20000 + 64 + 188 * (16 * 0) ∧ 0x20000 + 64 + 188 * (16 * 0) + 188 ≤ v.hi + 1) ∧
    frame.tag = some tag ∧ (tag.count + 15) / 16 ≤ frame.verified + 1 ∧ ¬ (40 + 15) / 16 ≤ frame.verified + 1 ∧
    (entryIn .held).judged = true ∧ (entryIn .held).segments[tag.seg]? = some (twoChunks .openCopy) ∧
    permit 1 (entryIn .held) (twoChunks .openCopy) .check 0 1 = .permitted 65535 ∧
    permit 5400 (entryIn .held .never) (twoChunks .never) .check 0 0 = .refused .aged := by decide +kernel

/-- A tag check that agrees is met by a tag whose check is the value itself. -/
theorem test_verify_agrees (chain : Chain) (key : Key) (t : TagRead) :
    ∃ u : TagRead, u.bytes = t.bytes ∧ u.count = t.count ∧ (chain.feed (frameCheckKey key) u.bytes).finish (frameCheckKey key) = u.check :=
  ⟨{ t with check := (chain.feed (frameCheckKey key) t.bytes).finish (frameCheckKey key) }, rfl, rfl, rfl⟩

/-- R115: a frame without marker is recorded NO_MARKER, code 6, and the slot waits. -/
theorem test_no_marker : (match exec (.verifyBatch []) { busy work { slotIn .check .verifying with frame := some { frame with tag := none } }
      (entryIn .held) with flight := some ⟨.slot 0, .verify, false⟩ } with
    | .next t => decide ((t.slot 0).eng.outcomes[0]? = some ⟨0, .noMarker, 0, 0, 0, 1⟩ ∧ (t.slot 0).eng.state = .waiting)
    | _ => false) = true := by decide +kernel

/-- A deliver or re-seal batch of one packet whose batch check agrees is met by the check of its own bytes; the packet has 188
bytes. -/
theorem test_deliver_states (key : Key) (bytes : List Byte) :
    (∃ expect, chainedCheck (frameCheckKey key) bytes = expect) ∧ (∃ expect, chainedCheck (frameCheckKey key) bytes ≠ expect) ∧
    (slotIn .play .delivering).boundEntry = some 0 ∧ permitted.permit = some 60 ∧ permitted.tag = some tag ∧ permitted.packets = 0 ∧
    (∃ v ∈ work.windows, v.lo ≤ 0x20000 + 64 + 188 * 0 ∧ 0x20000 + 64 + 188 * 0 + 188 * 0 ≤ v.hi + 1) ∧
    (∃ v ∈ work.windows, v.writable = true ∧ v.lo ≤ 0x10000 + 188 * 0 ∧ 0x10000 + 188 * 0 + 0 ≤ v.hi + 1) ∧
    (overPackets (openPacket key 0 0) 0 (packetsOf [] 0)).length = 0 ∧
    (overPackets (convertPacket key key 0 0) 0 (packetsOf [] 0)).length = 0 :=
  ⟨⟨_, rfl⟩, ⟨0 :: chainedCheck (frameCheckKey key) bytes, fun h => by simpa using congrArg List.length h⟩, by decide, rfl, rfl, rfl,
    by decide, by decide, rfl, rfl⟩

theorem test_reseal_states : (slotIn .move .waiting).mode = .move ∧ (slotIn .move .waiting).boundEntry = some 0 ∧
    (entryIn .moving).state = .moving ∧ permitted.reserved = none ∧ permitted.pos < 16 ∧
    0 < (slotIn .move .waiting).geo.outFrames - ahead (slotIn .move .waiting).placeC (slotIn .move .waiting).viewC ∧
    (entryIn .moving).moveMark ≠ (entryIn .moving).chunkCount ∧ (entryIn .moving).moveMark + 1 ≠ (entryIn .moving).chunkCount := by
  decide

/-! ## Witnesses: closes and stops of the part, batches granted, judged and refused -/

/-- R77, R83: a CLOSE with a chunk open and nothing carried closes the chunk, and waits for a sealing batch that is formed. -/
theorem test_close_with_chunk :
    gives (.recordClose (order 2 0 0)) (busy atSlot { slotIn .record .running with chunk := some chunk } (entryIn .live)) (fun t =>
      decide ((t.slot 0).eng.state = .closing ∧ (t.slot 0).chunk = some { chunk with closeAsked := true, closed := true })) = true ∧
    gives (.recordClose (order 2 0 0)) (busy atSlot { slotIn .record .running with chunk := some { chunk with batch := [packet] } }
      (entryIn .live)) (fun t => decide ((t.slot 0).eng.state = .closing ∧ ((t.slot 0).chunk.map (·.closed)) = some false)) = true := by
  decide +kernel

/-- R115, R121: an ABORT with the first verify batch in flight shows the sequence of the tag that it reads. -/
theorem test_abort_reads_tag : gives (.playCheckAbort (order 3 0 0 ++ [(0x20000 + 8, le 4 77)]))
    { busy atSlot { slotIn .check .verifying with frame := some { frame with tag := none } } { entryIn .held with players := [0] } with
      flight := some ⟨.slot 0, .verify, false⟩ } (fun t => decide (t.flight = none ∧ (t.slot 0).eng.state = .idle ∧
        (t.slot 0).eng.outcomes[0]? = some ⟨77, .abandoned, 0, 0, 0, 1⟩)) = true := by decide +kernel

/-- Frames and windows above 0x10000 lie in no engine part of slot record 0. -/
theorem test_outside_record (a : Nat) (h : 0x10000 ≤ a) : ¬ work.inRecord 0 a := by
  have hb : work.slotAddr 0 = 2048 := by decide +kernel
  rw [State.inRecord, hb]
  omega

/-- R82, R87: ROTATE sets pending rotation and leaves the open chunk; a CLOSING slot is BUSY and a PLAY slot WRONG_STATE. -/
theorem test_rotate :
    gives (.rotate (order 5 0 0)) (busy atSlot { slotIn .record .running with chunk := some chunk } (entryIn .live)) (fun t => decide
      ((t.slot 0).eng.result = .done ∧ (t.entry 0).pendingRotation = true ∧ (t.slot 0).chunk = some chunk)) = true ∧
    gives (.rotate (order 5 0 0)) (busy atSlot (slotIn .record .closing) (entryIn .live)) (fun t => (t.slot 0).eng.result == .busy) = true ∧
    gives (.rotate (order 5 0 0)) (busy atSlot (slotIn .play .waiting) (entryIn .held)) (fun t => (t.slot 0).eng.result == .wrongState) =
      true := by decide +kernel

/-- R82: FLUSH on a CLOSING slot is BUSY and on a PLAY slot WRONG_STATE. -/
theorem test_flush_refused :
    gives (.flush (order 6 0 0)) (busy atSlot (slotIn .record .closing) (entryIn .live)) (fun t => (t.slot 0).eng.result == .busy) = true ∧
    gives (.flush (order 6 0 0)) (busy atSlot (slotIn .play .waiting) (entryIn .held)) (fun t => (t.slot 0).eng.result == .wrongState) =
      true := by decide +kernel

/-- R59, R60: orders of unknown kind are answered UNKNOWN, code 14, and an OPEN of unknown mode on a slot in use BUSY. -/
theorem test_unknown_orders :
    gives (.unknownOrder (order 9 0 0)) atSlot (fun t => decide ((t.slot 0).eng.result = .unknown ∧ t.mem.read (2048 + 260) 1 = [14])) = true ∧
    gives (.unknownOrder (order 1 9 0)) (busy atSlot (slotIn .play .waiting) (entryIn .held)) (fun t => (t.slot 0).eng.result == .busy) =
      true ∧
    gives (.unknownPartOrder (partOrder 9 0 0 0 0)) { work with sweep := some .part } (fun t => decide
      (t.header.result = .unknown ∧ t.header.detail = 0 ∧ t.sweep = some .ending)) = true := by decide +kernel

/-- R64, R173: in STOPPED the hold timer marks the absent flags it changes and holds ABSENT; the hand-over of keys marks the state,
the reservation of an output frame too, and a LAPSED fault marks its code and holds FAULT. -/
theorem test_stopped_marks :
    gives (.holdTimerExpiry 0) (busy State.reset { slotIn .record .running with
        chunk := some chunk, holdTimer := some 1, watch := [⟨17, .seal⟩], absence := [2, 0, 0, 0] } (entryIn .live)) (fun t => decide
      (BoardField.slot 0 .absent ∈ t.held ∧ slotFlag .absent 0 ∈ t.heldCauses ∧ t.flags = [])) = true ∧
    gives .keyHandover { busy State.reset (slotIn .record .opening) (entryIn .live) with waiting := [0], pool := [1, 2] } (fun t => decide
      (BoardField.slot 0 .state ∈ t.held ∧ (t.slot 0).eng.state = .running)) = true ∧
    gives (.outputReservation 0) (busy State.reset { slotIn .move .waiting with frame := some permitted } (entryIn .moving)) (fun t =>
      decide (BoardField.slot 0 .state ∈ t.held ∧ (t.slot 0).eng.state = .delivering)) = true ∧
    gives (.slotFaultLapsed 0 []) (busy State.reset { slotIn .record .running with lapseDue := true } ((entryIn .live).spent .lapsed))
      (fun t => decide (BoardField.slot 0 .fault ∈ t.held ∧ slotFlag .fault 0 ∈ t.heldCauses ∧ t.flags = [])) = true := by decide +kernel

/-- R73, R104: a refused read of a take faults the slot with WINDOW, T and history as they were; behind a backward fill mark there
is nothing to take (log 45); of a take of 3 from position 255 of 256 the second access reads 2. -/
theorem test_take_window :
    gives (.takeStart 0 []) (busy { work with windows := [] } { slotIn .record .running with viewA := 3, history := [true, false, true] }
      (entryIn .live)) (fun t => decide ((t.slot 0).eng.fault = .window ∧ (t.slot 0).eng.markA = 0 ∧
        (t.slot 0).history = [true, false, true] ∧ (t.entry 0).state = .held)) = true ∧
    gives (.takeStart 0 []) (busy work { slotIn .record .running with viewA := 0xFFFFFFF0 } (entryIn .live)) (fun t =>
      (t.slot 0).take == none) = true ∧ 3 - min 3 (256 - 255) = 2 := by decide +kernel

/-- The ways on from a sealing batch of one packet: the chunk stays open, is full at L = 256, was asked to close, or is the last of
a CLOSING slot. -/
theorem test_sealing_ways :
    (storedBytes 7 0 2 1 [{ packet with sealed := false }]).length = 188 ∧
    inWindow work.windows true (0x20000 + 64 + 188) 188 ∧ ¬ inWindow [] true (0x20000 + 64 + 188) 188 ∧
    ¬ (slotIn .record .running).geo.chunkLength ≤ chunk.stored + 1 ∧
    (slotIn .record .running).geo.chunkLength ≤ ({ chunk with stored := 255 } : OpenChunk).stored + 1 ∧
    (slotIn .record .closing).eng.state = .closing ∧ (slotIn .record .closing).carry = [] ∧ (slotIn .record .closing).take = none ∧
    ({ slotIn .record .running with carry := [packet] } : Slot).carry ≠ [] ∧ chunk.points.length ≤ 8 := by
  refine ⟨by rfl, ⟨⟨0, 0xFFFFF, true⟩, by decide, by decide, by decide, by decide⟩, fun ⟨_, h, _⟩ => (nomatch h), ?_⟩
  decide +kernel

/-- What stands in the way of the frame put at a closing batch: an entry that has lapsed; and a CLOSING slot with nothing more. -/
theorem test_closing_ways : ((entryIn .live).spent .lapsed).state ≠ .live ∧ (slotIn .record .closing).eng.state = .closing ∧
    (slotIn .record .closing).take = none ∧ (slotIn .record .closing).carry = [] ∧ (entryIn .live).binding = some 0 ∧
    ¬ (slotIn .record .running).eng.state = .closing ∧ (slotIn .record .running).lapseDue = false := by decide +kernel

/-- The batches that slots stand ready with, and a closed chunk whose fields fit its tag. -/
theorem test_ready_work :
    (busy work { slotIn .record .running with chunk := some { chunk with batch := [packet] } } (entryIn .live)).nextWork (.slot 0) =
      some (.sealing 0x20000 1 [packet] 7 0 2) ∧
    (busy work { slotIn .record .running with chunk := some chunk } (entryIn .live)).nextWork (.slot 0) = none ∧
    (busy work { slotIn .play .delivering with frame := some permitted } (entryIn .held)).nextWork (.slot 0) =
      some (.deliver 0x20000 0 1 7 0 0 [] 0x10000 256 0) ∧
    (busy work { slotIn .move .delivering with frame := some { permitted with reserved := some 1 }, token := some 9 }
      (entryIn .moving)).nextWork (.slot 0) = some (.reseal 0x20000 0 1 7 0 0 [] 9 (0x60000 + frameSize 256)) ∧
    ({ chunk with closed := true } : OpenChunk).fits := by
  refine ⟨by decide +kernel, by decide +kernel, by decide +kernel, by decide +kernel, ?_⟩
  unfold OpenChunk.fits
  decide

/-- The tag of one packet of zeros in the frame at 0x20000, its check as the cipher gives it. -/
def checked : TagRead :=
  { tag with
    check := ((Chain.start.feed (frameCheckKey 7) (work.mem.read (0x20000 + 64) 188)).feed (frameCheckKey 7) (zeros 56)).finish
      (frameCheckKey 7) }

/-- A slot with that frame in hand and its verify batch in flight. -/
def verifying (mode : Mode) (y : Entry) : State :=
  { busy work { slotIn mode .verifying with frame := some { frame with tag := some checked } } y with
    flight := some ⟨.slot 0, .verify, false⟩ }

/-- A frame with its tag in hand whose range reads as `bytes` and whose check agrees verifies. -/
theorem verifies_of (s : State) (n : Fin 8) (e : Fin 64) (f : Frame) (t : TagRead) (bytes : List Byte) (hf : f.tag = some t)
    (hb : s.mem.read ((s.slot n).rangeAt f) (188 * min 16 (t.count - 16 * f.verified)) = bytes)
    (hw : inWindow s.windows false ((s.slot n).rangeAt f) (188 * min 16 (t.count - 16 * f.verified)))
    (hl : (t.count + 15) / 16 ≤ f.verified + 1)
    (hc : (((f.chain.feed (frameCheckKey f.key) bytes).feed (frameCheckKey f.key) t.bytes).finish (frameCheckKey f.key)) = t.check) :
    s.verifies n e f (f.withRange bytes) t :=
  ⟨f, Or.inl ⟨hf, rfl⟩, hw, by rw [hb], hl, hc⟩

/-- A verified frame is judged on a slot of each mode, its segment of class NEVER or ONCE. -/
theorem test_judges (mode : Mode) (y : Entry)
    (h : (mode = .play ∨ mode = .check) ∧ y = entryIn .held .never ∨ mode = .move ∧ y = entryIn .moving .once) :
    ∃ g, g.reserved = none ∧ g.worked = 0 ∧
      (verifying mode y).judges [] 0 0 g checked (twoChunks (if mode = .move then .once else .never)) := by
  refine ⟨{ frame with tag := some checked }.withRange (work.mem.read (0x20000 + 64) 188), rfl, rfl, ?_, rfl, rfl, ?_,
    ⟨{ frame with tag := some checked }, rfl, by decide, ?_⟩, ?_⟩
  · rcases h with ⟨rfl | rfl, rfl⟩ | ⟨rfl, rfl⟩ <;> decide
  · rcases h with ⟨rfl | rfl, rfl⟩ | ⟨rfl, rfl⟩ <;> (simp only [State.bindsTo]; decide +kernel)
  · refine verifies_of _ _ _ _ _ _ rfl rfl ⟨⟨0, 0xFFFFF, true⟩, List.mem_singleton.mpr rfl, nofun, ?_, ?_⟩ (by decide)
      (by simp only [checked, frame, tag])
    · show 0 ≤ _
      exact Nat.zero_le _
    · show 0x20000 + 0 * frameSize 256 + 64 + 188 * (16 * 0) + 188 * min 16 (1 - 16 * 0) ≤ 0xFFFFF + 1
      decide
  · rcases h with ⟨rfl | rfl, rfl⟩ | ⟨rfl, rfl⟩ <;> exact ⟨by decide +kernel, by decide +kernel⟩

/-- R128, log 33: a frame whose check value agrees on an entry that is LAPSED, MOVED, FREE or RETIRED by then. -/
theorem test_verifies_gone (y : Entry) (h : y ∈ [(entryIn .held).spent .lapsed, (entryIn .held).spent .moved, Entry.free 1,
      { Entry.free 1 with state := .retired }]) :
    y.judged = false ∧ (verifying .check y).bindsTo 0 0 ∧ ∃ g, (verifying .check y).verifies 0 0 { frame with tag := some checked } g checked := by
  refine ⟨?_, ?_, { frame with tag := some checked }.withRange (work.mem.read (0x20000 + 64) 188), ?_⟩
  · simp only [List.mem_cons, List.not_mem_nil, or_false] at h
    rcases h with rfl | rfl | rfl | rfl <;> decide
  · simp only [List.mem_cons, List.not_mem_nil, or_false] at h
    rcases h with rfl | rfl | rfl | rfl <;> (simp only [State.bindsTo]; decide +kernel)
  · refine verifies_of _ _ _ _ _ _ rfl rfl ⟨⟨0, 0xFFFFF, true⟩, List.mem_singleton.mpr rfl, nofun, ?_, ?_⟩ (by decide)
      (by simp only [checked, frame, tag])
    · show 0 ≤ _
      exact Nat.zero_le _
    · show 0x20000 + 0 * frameSize 256 + 64 + 188 * (16 * 0) + 188 * min 16 (1 - 16 * 0) ≤ 0xFFFFF + 1
      decide

/-- A frame of zeros fails the first tag check. -/
theorem test_first_tag_check : firstFailing ((entryIn .held).tagChecks 0 .check (work.mem.read 0x20000 64)) .noMarker :=
  ⟨[], _, _, rfl, Or.inl (by decide +kernel), nofun⟩

/-- A tag in hand is known at the next verify batch, with a range in the windows and one outside them. -/
theorem test_tag_known : (busy work { slotIn .check .verifying with frame := some frame } (entryIn .held)).tagKnown 0 0 frame frame tag ∧
    inWindow work.windows false 0x20040 188 ∧ ¬ inWindow [] false 0x20040 188 :=
  ⟨Or.inl ⟨rfl, rfl⟩, ⟨⟨0, 0xFFFFF, true⟩, by decide, by decide, by decide, by decide⟩, fun ⟨_, h, _⟩ => nomatch h⟩

/-- R112: tags that fail the checks in turn: NO_MARKER, WRONG_RECORDING, BAD_LENGTH, NO_SEGMENT, OUT_OF_ORDER, NOT_YET, BEYOND_END. -/
theorem test_tag_checks :
    let t (rec seq seg count : Nat) := tagBytes 1 rec 0 seq seg 0 count 0 0 [] ++ zeros 8
    checkTag (entryIn .held) 0 .play (zeros 64) = .refused .noMarker ∧
    checkTag (entryIn .held) 0 .play (t 3 0 0 1) = .refused .wrongRecording ∧
    checkTag (entryIn .held) 0 .play (t 0 0 0 257) = .refused .badLength ∧
    checkTag (entryIn .held) 0 .play (t 0 0 1 1) = .refused .noSegment ∧
    checkTag (entryIn .moving) 0 .move (t 0 1 0 1) = .refused .outOfOrder ∧
    checkTag (entryIn .live) 0 .play (t 0 2 0 1) = .refused .notYet ∧
    checkTag (entryIn .held) 0 .play (t 0 2 0 1) = .refused .beyondEnd ∧
    checkTag { entryIn .held with interrupted := true } 0 .play (t 0 2 0 1) = .passed 7 true := by decide +kernel

/-- R23: a chunk of sequence 4 and stamp 9 raises an interrupted entry of two chunks to five. -/
theorem test_recovery_raise :
    let s := (busy work Slot.reset { entryIn .held with interrupted := true }).recoveryRaise 0 4 9
    (s.entry 0).chunkCount = 5 ∧ (s.entry 0).segments = [{ twoChunks .openCopy with count := 5, lastStamp := some 9 }] := by
  decide +kernel

/-- R54: batches whose accesses the windows refuse fault their slots with WINDOW, and end a LOAD with WINDOW. -/
theorem test_batch_windows :
    let s (mode : Mode) (y : Entry) (work' : Work) : State :=
      { busy work { slotIn mode .delivering with frame := some { permitted with reserved := some 0 } } y with
        windows := [], flight := some ⟨.slot 0, work', false⟩ }
    let faulted (t : State) : Bool := decide ((t.slot 0).eng.fault = .window ∧ (t.slot 0).eng.state = .faulted ∧ t.flight = none)
    gives (.deliverBatch []) (s .play { entryIn .held with players := [0] } (.deliver 0x20000 0 1 7 0 0 (zeros 8) 0x10000 256 0)) faulted = true ∧
    gives (.resealBatch []) (s .move (entryIn .moving) (.reseal 0x20000 0 1 7 0 0 (zeros 8) 9 0x60000)) faulted = true ∧
    gives (.finalResealBatch) (s .move (entryIn .moving) (.finalReseal 0x60000 256 1 (zeros 56) 9 Chain.start)) faulted = true ∧
    gives (.loadHeaderBatch []) { work with
        windows := [], partLatch := 5, image := some (.load (some 5) 0x40000 none [] 0 Chain.start), flight := some ⟨.image, .loadHeader, false⟩ }
      (fun t => decide (t.image = none ∧ t.header.result = .window)) = true := by decide +kernel

/-- R159: the last re-sealed chunk of an entry that is all ONCE completes the move: MOVED, DONE for the OPEN, PROGRESS. -/
theorem test_move_completes :
    let x := { slotIn .move .delivering with frame := some { permitted with reserved := some 0 }, openServed := some 0 }
    let x := { x with geo := { x.geo with chunkLength := 1 } }
    gives .finalResealBatch { busy work x { entryIn .moving .once with moveMark := 1 } with
        flight := some ⟨.slot 0, .finalReseal 0x60000 1 1 (zeros 56) 9 Chain.start, false⟩ }
      (fun t => decide ((t.entry 0).state = .moved ∧ (t.entry 0).binding = none ∧ (t.slot 0).eng.state = .idle ∧
        (t.slot 0).eng.result = .done ∧ (t.slot 0).eng.markC = 1 ∧ slotFlag .progress 0 ∈ t.flags)) = true := by decide +kernel

/-! ## Witnesses: fields written, takes and batches that others complete, orders overtaken -/

/-- A running part whose slot has its state changed by a step, every position in its list, with no batch in flight. -/
theorem test_positions : (stepping (slotIn .record .stalled) (entryIn .live)).positionsOk ∧
    (stepping (slotIn .record .stalled) (entryIn .live)).part ≠ .stopped ∧
    (stepping (slotIn .record .stalled) (entryIn .live)).flight = none := by
  refine ⟨⟨by decide +kernel, by decide +kernel, fun n f h => ?_, nofun⟩, by decide, rfl⟩
  have hf : ∀ n, ((stepping (slotIn .record .stalled) (entryIn .live)).slot n).frame = none := by decide +kernel
  exact nomatch (hf n).symm.trans h

/-- R64: the state that a step of that part changes is read back from the board. -/
theorem test_changed_field : (match step { stepping (slotIn .record .stalled) (entryIn .live) with pending := [.slotStep (marks 0 0)] } with
    | .next t => decide (t.part = .running ∧ (t.slot 0).eng.state = .running ∧ t.mem.read (2048 + 261) 1 = [2])
    | _ => false) = true := by decide +kernel

/-- A take of 3 packets from position 255 of 256, of which two stand at the start of the stream window. -/
def wrapping : Take := ⟨255, 3, 0x47 :: zeros 187⟩

def taking : Slot := { slotIn .record .running with take := some wrapping, viewA := 3 }

/-- Windows that hold the second access of that take, and none. -/
theorem test_take_reads : (busy work taking (entryIn .live)).takeReads taking wrapping ∧
    ¬ ({ busy work taking (entryIn .live) with windows := [] } : State).takeReads taking wrapping := by
  simp only [State.takeReads, inWindow]
  decide +kernel

/-- R81, R84, R88, R104: a take in progress completes first at a MARK fault, an overrun, an ABORT and a LAPSED fault, and T advances;
where its second access is refused T stays, the overrun faults the slot with WINDOW, and the others report none (log 41). -/
theorem test_take_completes_first :
    let at_ (x : Slot) (y : Entry) (ws : List Window) : State := { stepping x y with windows := ws }
    let order_ (ws : List Window) : State := { busy atSlot taking (entryIn .live) with windows := ws }
    let gone := (entryIn .live).spent .lapsed
    let ended (mark : Mark) (code : SlotFault) (t : State) : Bool :=
      decide ((t.slot 0).eng.markA = mark ∧ (t.slot 0).eng.fault = code ∧ (t.slot 0).take = none)
    gives (.slotStep (marks 3 1)) (at_ taking (entryIn .live) work.windows) (ended 3 .mark) = true ∧
    gives (.slotStep (marks 3 1)) (at_ taking (entryIn .live) []) (ended 0 .mark) = true ∧
    gives (.slotStep (marks 300 0)) (at_ taking (entryIn .live) work.windows) (ended 300 .none) = true ∧
    gives (.slotStep (marks 300 0)) (at_ taking (entryIn .live) []) (ended 0 .window) = true ∧
    gives (.recordAbort (order 3 0 0)) (order_ work.windows) (ended 3 .none) = true ∧
    gives (.recordAbort (order 3 0 0)) (order_ []) (fun t => ended 0 .none t && (t.slot 0).eng.state == .idle &&
      !t.flags.contains (slotFlag .fault 0)) = true ∧
    gives (.slotFaultLapsed 0 []) (at_ { taking with lapseDue := true } gone work.windows) (ended 3 .lapsed) = true ∧
    gives (.slotFaultLapsed 0 []) (at_ { taking with lapseDue := true } gone []) (ended 0 .lapsed) = true := by decide +kernel

/-- R63, R79: a put with D moved back leaves P at the frame count ahead of D and the position advanced, and the refresh that
reads D forward again has P follow; a take with F moved back leaves T at F (log 42). -/
theorem test_marks_held_back :
    let put : Slot := { slotIn .record .running with eng := { (slotIn .record .running).eng with markB := 2 }, chunkPos := 1 }
    let closing := { busy work { put with chunk := some { chunk with closed := true, pos := 1 } } (entryIn .live) with
      flight := some ⟨.slot 0, .closing 0x20000 256 1 (zeros 56) 7 Chain.start, false⟩ }
    gives .closingBatch closing (fun t =>
      decide ((t.slot 0).eng.markB = 2 ∧ (t.slot 0).owedB = 1 ∧ (t.slot 0).chunkPos = 0 ∧ (t.entry 0).chunkCount = 3)) = true ∧
    gives (.slotStep (marks 0 1)) (stepping { put with owedB := 1 } (entryIn .live)) (fun t =>
      decide ((t.slot 0).eng.markB = 3 ∧ (t.slot 0).owedB = 0 ∧ t.mem.read (2048 + 276) 1 = [3])) = true ∧
    gives (.takeComplete 0 []) (busy work { taking with viewA := 1 } (entryIn .live)) (fun t =>
      decide ((t.slot 0).eng.markA = 1 ∧ (t.slot 0).owedA = 2 ∧ (t.slot 0).streamAvailable = 0)) = true := by decide +kernel

/-- A mark with its limit ahead of it, and one at it. -/
theorem test_limit_states : ({ taking with viewA := 1 } : Slot).owedA = 0 ∧ taking.mode ≠ .play ∧
    (ahead taking.viewA taking.eng.markA < 2 ^ 31 ∧ 3 ≤ ahead taking.viewA taking.eng.markA) ∧
    ahead (slotIn .play .waiting).eng.markA (slotIn .play .waiting).viewA + 256 ≤ (slotIn .play .waiting).geo.streamSize ∧
    ahead (slotIn .record .running).eng.markB (slotIn .record .running).viewB + 2 ≤ (slotIn .record .running).geo.frames ∧
    ahead (slotIn .move .waiting).eng.markC (slotIn .move .waiting).viewC + 2 ≤ (slotIn .move .waiting).geo.outFrames := by
  decide +kernel

/-- A PLAY slot with a deliver batch in flight. -/
def flying (ws : List Window) (x : Slot) : State :=
  { busy { work with sweep := some (.order 0 5) } x { entryIn .held with players := [0] } with
    windows := ws, flight := some ⟨.slot 0, .deliver 0x20000 0 1 7 0 0 (zeros 8) 0x10000 256 0, false⟩ }

theorem test_flying (ws : List Window) (x : Slot) : (flying ws x).delivers 0 := ⟨_, _, _, _, _, _, _, _, _, _, rfl⟩

/-- R121, R123, log 41: a deliver batch in flight whose read is refused counts nothing at an ABORT, which ends the frame ABANDONED
and the slot IDLE, and leaves the codes MARK and LAPSED as they are. -/
theorem test_deliver_refused_at_end :
    let x := { slotIn .play .delivering with frame := some permitted }
    gives (.playCheckAbort (order 3 0 0)) (flying [] x) (fun t => decide ((t.slot 0).eng.state = .idle ∧ (t.slot 0).eng.fault = .none ∧
      (t.slot 0).eng.markA = 0 ∧ (t.slot 0).eng.outcomes[0]? = some ⟨0, .abandoned, 0, 0, 0, 1⟩ ∧ t.flight = none ∧
      slotFlag .fault 0 ∉ t.flags)) = true ∧
    gives (.slotStep (marks 0 3)) { flying [] x with sweep := some (.slot 0) } (fun t => decide ((t.slot 0).eng.fault = .mark ∧
      (t.slot 0).eng.markA = 0 ∧ t.flight = none)) = true ∧
    gives (.slotFaultLapsed 0 []) ((flying [] { x with lapseDue := true }).setEntry 0 (Entry.free 1)) (fun t => decide
      ((t.slot 0).eng.fault = .lapsed ∧ (t.entry 0).state = .free ∧ t.flight = none)) = true := by decide +kernel

/-- R57, R123: a PLAY slot whose entry has lapsed is still refreshed, and a wrong mark faults it with MARK. -/
theorem test_lapsed_player_refreshed : gives (.slotStep (marks 0 3)) (stepping { slotIn .play .waiting with lapseDue := true }
      ((entryIn .held).spent .lapsed)) (fun t => decide ((t.slot 0).eng.fault = .mark ∧ (t.slot 0).viewB = 3)) = true := by decide +kernel

/-- R120, R160: a CLOSE that finds a permitted frame in hand: with room it goes on, without it is ABANDONED at once (log 39). -/
theorem test_close_permitted :
    let y := { entryIn .held with players := [0] }
    let play := { slotIn .play .waiting with frame := some permitted }
    let move := { slotIn .move .waiting with frame := some permitted }
    let full (x : Slot) : Slot := { x with eng := { x.eng with markA := 256, markC := 2 } }
    let goes (st : SlotState) (t : State) : Bool := decide ((t.slot 0).eng.state = st ∧ (t.slot 0).closeAsked = true ∧ (t.slot 0).eng.result = .none)
    let ends (t : State) : Bool := decide ((t.slot 0).eng.state = .idle ∧ (t.slot 0).eng.result = .done ∧
      (t.slot 0).eng.outcomes[0]? = some ⟨0, .abandoned, 0, 0, 0, 1⟩ ∧ slotFlag .progress 0 ∈ t.flags)
    gives (.playCheckClose (order 2 0 0)) (busy atSlot play y) (goes .delivering) = true ∧
    gives (.playCheckClose (order 2 0 0)) (busy atSlot (full play) y) ends = true ∧
    gives (.playCheckClose (order 2 0 0)) (flying work.windows (full play)) (goes .waiting) = true ∧
    gives (.moveClose (order 2 0 0)) (busy atSlot move (entryIn .moving)) (goes .waiting) = true ∧
    gives (.moveClose (order 2 0 0)) (busy atSlot { full move with frame := some { permitted with reserved := some 1 } } (entryIn .moving))
      (goes .waiting) = true ∧
    gives (.moveClose (order 2 0 0)) (busy atSlot (full move) (entryIn .moving)) ends = true := by decide +kernel

/-- R25: the refusals of QUERY: NOT_READY, BUSY, BAD_OPERAND, WINDOW. -/
theorem test_query_refused :
    let refused (recording addr : Nat) (s : State) (r : Result) : Bool :=
      gives (.query (partOrder 6 recording 0 0 addr)) s fun t => t.header.result == r && t.query.isSome == s.query.isSome
    refused 64 0xFFF00 { atPart with ready := false } .notReady = true ∧
    refused 64 0xFFF00 { atPart with query := some ⟨0x80000, [1], some 4⟩ } .busy = true ∧
    refused 64 0xFFF00 { atPart with image := some (.load (some 4) 0x40000 none [] 0 Chain.start) } .busy = true ∧
    refused 64 0xFFF00 atPart .badOperand = true ∧ refused 63 0xFFF00 atPart .window = true ∧
    firstFailing [(atPart.ready = false, Result.notReady), (63 < 64, .badOperand)] .badOperand := by
  refine ⟨by decide +kernel, by decide +kernel, by decide +kernel, by decide +kernel, by decide +kernel, [_], _, _, rfl, by decide, ?_⟩
  intro q hq
  rw [List.mem_singleton.mp hq]
  decide

/-- R61: a later part order leaves a SAVE and a QUERY in flight without a result to write, whatever number it has. -/
theorem test_overtaken :
    gives (.unknownPartOrder (partOrder 9 0 0 0 0))
      { atPart with image := some (.save (some 5) 0x40000 atPart.entries 0 1 0 Chain.start), query := some ⟨0x80000, [1, 2], some 5⟩ }
      (fun t => decide (t.partLatch = 5 ∧ t.image = some (.save none 0x40000 atPart.entries 0 1 0 Chain.start) ∧
        t.query = some ⟨0x80000, [1, 2], none⟩)) = true ∧
    gives .queryWriteComplete { work with partLatch := 5, query := some ⟨0x80000, [1, 2], none⟩ } (fun t => decide
      (t.header.result = .none ∧ t.flags = [] ∧ t.mem.read 0x80000 2 = [1, 2])) = true := by decide +kernel

/-- R74, R83: a take that completes on an open chunk has its packet placed at once; on a CLOSING slot that keeps none it has the chunk
closed, and with no chunk the recording ended. -/
theorem test_take_carries_on :
    let one : Take := ⟨0, 1, 0x47 :: zeros 187⟩
    let dropped : Take := ⟨0, 1, zeros 188⟩
    let x := { slotIn .record .running with take := some one, chunk := some chunk, eng := { (slotIn .record .running).eng with inStep := true } }
    let closing := { slotIn .record .closing with take := some dropped, closeServed := some 0 }
    gives (.takeComplete 0 []) (busy work x (entryIn .live)) (fun t => decide ((t.slot 0).carry = [] ∧
      (t.slot 0).chunk.map (·.batch) = some [packet])) = true ∧
    gives (.takeComplete 0 []) (busy work { closing with chunk := some chunk } (entryIn .live)) (fun t => decide
      ((t.slot 0).chunk.map (·.closed) = some true ∧ (t.slot 0).eng.state = .closing)) = true ∧
    gives (.takeComplete 0 []) (busy work closing (entryIn .live)) (fun t => decide ((t.slot 0).eng.state = .idle ∧
      (t.slot 0).eng.result = .done ∧ (t.entry 0).state = .held ∧ slotFlag .progress 0 ∈ t.flags)) = true := by decide +kernel

/-- R22, R75, R83: the chunk open of a CLOSING slot, which waits without room; the count limit, which ends the recording; and an open in
STOPPED, which marks what it changes (log 21). -/
theorem test_chunk_open_ways :
    let x := { slotIn .record .closing with carry := [packet] }
    let full := { x with eng := { x.eng with markB := 2 } }
    gives (.chunkOpen 0) (busy work x (entryIn .live)) (fun t => decide ((t.slot 0).holdTimer = none ∧ (t.slot 0).chunk.isSome = true ∧
      (t.slot 0).eng.state = .closing)) = true ∧
    exec (.chunkOpen 0) (busy work full (entryIn .live)) = .next (busy work full (entryIn .live)) ∧
    gives (.chunkOpen 0) (busy work { x with closeServed := some 0 } { entryIn .live with chunkCount := top32 }) (fun t => decide
      ((t.slot 0).eng.state = .idle ∧ (t.slot 0).eng.result = .done ∧ (t.entry 0).state = .held)) = true ∧
    gives (.chunkOpen 0) (busy State.reset { slotIn .record .running with carry := [packet], eng := { x.eng with state := .running, markB := 2 } }
      (entryIn .live)) (fun t => decide ((t.slot 0).eng.state = .stalled ∧ BoardField.slot 0 .state ∈ t.held)) = true := by
  refine ⟨by decide +kernel, ?_, by decide +kernel, by decide +kernel⟩
  rfl

/-- R36, R54, log 41: a batch of a released slot that the windows refuse faults nothing. -/
theorem test_released_batch_refused :
    let s (w : Work) : State := { work with windows := [], flight := some ⟨.slot 0, w, true⟩ }
    let nothing (t : State) : Bool := decide (t.flight = none ∧ t.slots = work.slots ∧ t.flags = [] ∧ t.mem = work.mem)
    gives .sealingBatch (s (.sealing 0x20000 1 [packet] 7 0 2)) nothing = true ∧
    gives (.deliverBatch []) (s (.deliver 0x20000 0 1 7 0 0 (zeros 8) 0x10000 256 0)) nothing = true ∧
    gives (.resealBatch []) (s (.reseal 0x20000 0 1 7 0 0 (zeros 8) 9 0x60000)) nothing = true := by decide +kernel

/-- R138, R170: an expiry that the saved time has reached lapses an entry of a LOAD. -/
theorem test_load_lapses : ({ entryIn .held with expiry := some 8 }.derivedAt 9).state = .lapsed ∧
    ({ entryIn .held with expiry := some 8 } : Entry).cutOff.state = .held := by decide +kernel

/-! ## Witnesses: image, clock, lapse -/

theorem test_image_states (key : Key) (chain : Chain) :
    (imageHeader 1 0 ++ chain.finish key).length = 512 ∧
    (∃ v ∈ work.windows, v.writable = true ∧ v.lo ≤ 0x40000 ∧ 0x40000 + 512 ≤ v.hi + 1) ∧
    (∃ v ∈ work.windows, v.lo ≤ 0x40000 + 512 + 4096 * 15 ∧ 0x40000 + 512 + 4096 * 15 + 4096 ≤ v.hi + 1) := by
  exact ⟨by simp, by decide, by decide⟩

/-- An entry record is 1,024 bytes, so four fit the window from 0x40000 + 512. -/
theorem test_save_states (key : Key) : (batchRecords key 1 State.reset.entries 0).length = 4096 ∧
    ∃ v ∈ work.windows, v.writable = true ∧ v.lo ≤ 0x40000 + 512 + 4096 * 0 ∧ 0x40000 + 512 + 4096 * 0 + 4096 ≤ v.hi + 1 :=
  ⟨batchRecords_length key 1 _ 0 (by decide), by decide⟩

/-- R44: a header of zeros ends the LOAD with IMAGE_BAD, code 12. -/
theorem test_load_bad_header : (match exec (.loadHeaderBatch [])
      { work with partLatch := 5, image := some (.load (some 5) 0x40000 none [] 0 Chain.start), flight := some ⟨.image, .loadHeader, false⟩ } with
    | .next t => decide (t.image = none ∧ t.header.result = .imageBad ∧ t.mem.read 132 1 = [12])
    | _ => false) = true := by decide +kernel

/-- R168: the header batch advances the cell in the state that shows DONE. -/
theorem test_save_header (header : List Byte) : ∃ v ∈ work.windows, v.writable = true ∧ v.lo ≤ 0x40000 ∧
    (header.length ≤ 512 → 0x40000 + header.length ≤ v.hi + 1) := ⟨⟨0, 0xFFFFF, true⟩, by decide, rfl, by decide, by dsimp only; omega⟩

/-- R136: a tick that reaches a lapse time lapses the entry and makes its slot's fault due. -/
theorem test_tick_lapses : (match exec .clockTick { busy work (slotIn .record .running)
      { entryIn .live with expiry := some 8, lapseTime := some 8 } with clock := 7 } with
    | .next t => decide (t.clock = 8 ∧ (t.entry 0).state = .lapsed ∧ (t.entry 0).nextKey = none ∧ (t.slot 0).lapseDue = true)
    | _ => false) = true := by decide +kernel

theorem test_lapsed_states : ({ slotIn .record .running with lapseDue := true } : Slot).lapseDue = true ∧
    (slotIn .record .running).boundEntry = some 0 ∧ ((entryIn .live).spent .lapsed).state = .lapsed ∧
    (slotIn .record .running).take = none ∧ (slotIn .play .waiting).lapseDue = false := by decide +kernel

/-- R88: the LAPSED fault writes code 3 and the state FAULTED, and the entry stays LAPSED. -/
theorem test_lapsed_fault : (match exec (.slotFaultLapsed 0 []) (busy work { slotIn .record .running with lapseDue := true }
      ((entryIn .live).spent .lapsed)) with
    | .next t => decide ((t.entry 0).state = .lapsed ∧ (t.entry 0).binding = none ∧ t.mem.read (2048 + 261) 2 = [5, 3] ∧
        ⟨.fault, 0⟩ ∈ t.flags)
    | _ => false) = true := by decide +kernel

/-- A received packet, and an entry that fits its record. -/
theorem test_packet_state : packet.bytes.length = 188 ∧ byteAt packet.bytes 0 = 0x47 := by decide +kernel

theorem test_entry_fits : (entryIn .held .never).fits := by
  refine ⟨by decide, by decide, by decide, by decide, by decide, nofun, nofun, by decide, nofun, by decide, ?_⟩
  intro g hg
  obtain rfl : g = twoChunks .never := by simpa [entryIn] using hg
  exact ⟨by decide, by decide, ⟨fun _ => ⟨90, rfl, by decide⟩, fun h => absurd rfl h⟩, fun h => absurd h (by decide),
    fun _ => ⟨1, 2, rfl, rfl, by decide, by decide⟩⟩

/-! ## Witnesses: invariants -/

theorem test_reset_invariants : State.reset.mem.wf = true ∧ State.reset.clockOk ∧ State.reset.lapseOk ∧ State.reset.poolOk ∧
    flagsOk State.reset.flags ∧ votesOk State.reset.votes ∧ State.reset.segmentsOk ∧ State.reset.keysOk ∧
    State.reset.positionsOk ∧ State.reset.unreadyOk := by
  have he : ∀ e, State.reset.entry e = Entry.free 0 := by decide +kernel
  have hx : ∀ n, State.reset.slot n = Slot.reset := by decide +kernel
  refine ⟨by decide, ⟨by decide, ?_⟩, ?_, ⟨by decide, by decide⟩, List.Pairwise.nil, ⟨by decide, nofun, List.Pairwise.nil⟩, ?_, ?_, ?_, ?_⟩
  · intro n f t hf
    rw [hx] at hf
    exact nomatch hf
  · intro e
    rw [he]
    exact ⟨rfl, nofun⟩
  · intro e
    rw [he]
    exact nofun
  · intro e _
    rw [he]
    exact ⟨rfl, nofun⟩
  · refine ⟨?_, ?_, ?_, nofun⟩
    · intro n
      rw [hx]
      rfl
    · intro n
      rw [hx]
      exact Or.inl ⟨Or.inl rfl, rfl, rfl⟩
    · intro n f hf
      rw [hx] at hf
      exact nomatch hf
  · refine fun _ => ⟨he, rfl, nofun, fun n => ?_⟩
    rw [hx]
    exact ⟨rfl, rfl, rfl⟩

/-- R166: FRESH on the part as the reset left it, its part order at hand, makes it READY with the table as it was. -/
theorem test_fresh_of_reset :
    let s := { State.reset with part := .running, sweep := some .part }
    s.atPartOrder (partOrder 1 0 7 0x40000 0x80000) .fresh ∧ s.unreadyOk ∧ s.loadInFlight = false ∧
      gives (.fresh (partOrder 1 0 7 0x40000 0x80000)) s (fun t => decide (t.ready = true ∧ t.entries = State.reset.entries)) =
        true := by
  refine ⟨test_part_orders _ ⟨rfl, rfl, rfl, rfl, rfl⟩ 1 (by decide), test_reset_invariants.2.2.2.2.2.2.2.2.2, rfl, by decide +kernel⟩

/-- A step of the reset state, with a command waiting, that answers a next state. -/
theorem test_step_answers : ∃ t, step { State.reset with pending := [.clockTick] } = .next t :=
  ⟨_, rfl⟩

end Sys2Proof.Tests
end

