-- ==== Sys2Proof/Proofs/Entries.lean ====
section
/-! Proofs: what each change of an entry does to its segment list and its keys (R1, R3, R14, R22). -/

namespace Sys2Proof.Machine

/-! ## Segment lists -/

/-- The chunks of a segment: the first, and how many. -/
def Segment.extent (g : Segment) : Nat × Nat := (g.first, g.count)

theorem segmentsFrom_congr {gs hs : List Segment} (h : hs.map Segment.extent = gs.map Segment.extent) (first last : Nat) :
    segmentsFrom first hs last ↔ segmentsFrom first gs last := by
  induction gs generalizing hs first with
  | nil => simp_all
  | cons g gs ih =>
    cases hs with
    | nil => simp at h
    | cons k hs =>
      simp only [List.map_cons, List.cons.injEq, Segment.extent, Prod.mk.injEq] at h
      simp only [segmentsFrom, h.1.1, h.1.2, ih h.2]

theorem segmentsFrom_append {gs hs : List Segment} {first last : Nat} :
    segmentsFrom first (gs ++ hs) last ↔ ∃ mid, segmentsFrom first gs mid ∧ segmentsFrom mid hs last := by
  induction gs generalizing first with
  | nil => simp [segmentsFrom]
  | cons g gs ih => simp [segmentsFrom, ih, and_assoc]

theorem segmentsFrom_concat {gs : List Segment} {g : Segment} {first last : Nat} :
    segmentsFrom first (gs ++ [g]) last ↔ segmentsFrom first gs g.first ∧ g.first + g.count = last := by
  simp only [segmentsFrom_append, segmentsFrom]
  constructor
  · rintro ⟨mid, h1, rfl, h2⟩
    exact ⟨h1, h2⟩
  · rintro ⟨h1, h2⟩
    exact ⟨_, h1, rfl, h2⟩

theorem all_counts_congr {gs hs : List Segment} (h : hs.map Segment.extent = gs.map Segment.extent) :
    (∀ g ∈ hs, 0 < g.count) ↔ ∀ g ∈ gs, 0 < g.count := by
  have hm : ∀ l : List Segment, (∀ g ∈ l, 0 < g.count) ↔ ∀ p ∈ l.map Segment.extent, 0 < p.2 := by
    simp [Segment.extent]
  rw [hm, hm, h]

@[simp] theorem modifyLast_concat {α : Type} (f : α → α) (l : List α) (a : α) : modifyLast f (l ++ [a]) = l ++ [f a] := by
  induction l with
  | nil => rfl
  | cons b l ih => cases l <;> simp_all [modifyLast]

@[simp] theorem growLast_concat (k stamp : Nat) (l : List Segment) (g : Segment) :
    growLast k stamp (l ++ [g]) = l ++ [growSegment k stamp g] := by
  induction l with
  | nil => rfl
  | cons b l ih => cases l <;> simp_all [growLast]

@[simp] theorem dropEmptyLast_concat (l : List Segment) (g : Segment) :
    dropEmptyLast (l ++ [g]) = if g.count = 0 then l else l ++ [g] := by
  simp [dropEmptyLast]

theorem map_modifyLast {α β : Type} (f : α → α) (p : α → β) (h : ∀ a, p (f a) = p a) (l : List α) :
    (modifyLast f l).map p = l.map p := by
  rcases List.eq_nil_or_concat l with rfl | ⟨l, a, rfl⟩
  · rfl
  · simp [h]

theorem map_growLast {β : Type} (k stamp : Nat) (p : Segment → β) (h : ∀ g, p (growSegment k stamp g) = p g)
    (l : List Segment) : (growLast k stamp l).map p = l.map p := by
  rcases List.eq_nil_or_concat l with rfl | ⟨l, a, rfl⟩
  · rfl
  · simp [h]

/-! ## Keys -/

/-- An entry in a state that holds no keys holds none (R1, R3). -/
def Entry.keysOk (x : Entry) : Prop := x.judged = false → x.keyless

theorem Entry.keyless_iff (x : Entry) :
    x.keyless ↔ x.nextKey = none ∧ ∀ k ∈ x.segments.map Segment.key, k = none := by
  simp [Entry.keyless]

theorem Entry.keyless_free (k : Nat) : (Entry.free k).keyless := ⟨rfl, nofun⟩

theorem Entry.keyless_spent (x : Entry) (st : EntryState) : (x.spent st).keyless := by
  simp [Entry.keyless, Entry.spent, Entry.destroyKeys]

theorem Entry.judged_iff (x : Entry) : x.judged = true ↔ x.state = .live ∨ x.state = .held ∨ x.state = .moving := by
  simp [Entry.judged, or_assoc]

theorem Entry.judged_congr {x y : Entry} (h : y.state = x.state) : y.judged = x.judged := by
  simp [Entry.judged, h]

/-! ## Changes of an entry that keep it sound -/

/-- The change from `x` to `y` keeps the segments dividing the chunks and ended entries without keys. -/
structure Entry.KeepsSound (x y : Entry) : Prop where
  segments : x.segmentsOk → y.segmentsOk
  keys : x.keysOk → y.keysOk

namespace Entry.KeepsSound

theorem refl (x : Entry) : x.KeepsSound x := ⟨id, id⟩

theorem trans {x y z : Entry} (h : x.KeepsSound y) (h' : y.KeepsSound z) : x.KeepsSound z :=
  ⟨h'.segments ∘ h.segments, h'.keys ∘ h.keys⟩

/-- An entry that ends, its keys gone, is sound whatever it was. -/
theorem of_ended {x y : Entry} (h : y.judged = false) (hk : y.keyless) : x.KeepsSound y :=
  ⟨fun _ hj => by simp [h] at hj, fun _ _ => hk⟩

/-- An entry in a state that may hold keys is sound once its segments are. -/
theorem of_judged {x y : Entry} (h : y.judged = true) (hs : x.segmentsOk → y.segmentsOk) : x.KeepsSound y :=
  ⟨hs, fun _ hj => by simp [h] at hj⟩

end Entry.KeepsSound

theorem Entry.segmentsOk_congr {x y : Entry} (hst : y.state = x.state)
    (hgs : y.segments.map Segment.extent = x.segments.map Segment.extent) (hc : y.chunkCount = x.chunkCount) :
    y.segmentsOk ↔ x.segmentsOk := by
  have hl : y.segments.length = x.segments.length := by simpa using congrArg List.length hgs
  have hd : y.segments.dropLast.map Segment.extent = x.segments.dropLast.map Segment.extent := by
    simp [List.map_dropLast, hgs]
  simp only [Entry.segmentsOk, Entry.judged_congr hst, hl, hc, hst, segmentsFrom_congr hgs, all_counts_congr hd,
    all_counts_congr hgs]

/-- A change that leaves state, chunks and keys alone keeps an entry sound. -/
theorem Entry.KeepsSound.of_same {x y : Entry} (hst : y.state = x.state)
    (hgs : y.segments.map Segment.extent = x.segments.map Segment.extent)
    (hk : y.segments.map Segment.key = x.segments.map Segment.key) (hc : y.chunkCount = x.chunkCount)
    (hn : y.nextKey = x.nextKey) : x.KeepsSound y :=
  ⟨(Entry.segmentsOk_congr hst hgs hc).2, by
    simp only [Entry.keysOk, Entry.judged_congr hst, Entry.keyless_iff, hk, hn, imp_self]⟩

/-- What soundness of the segments says of a list written with its last segment apart. -/
theorem Entry.segmentsOk_concat {x : Entry} {init : List Segment} {last : Segment} (h : x.segments = init ++ [last]) :
    x.segmentsOk ↔ (x.judged = true → init.length < 16 ∧ segmentsFrom 0 init last.first ∧
      last.first + last.count = x.chunkCount ∧ (∀ g ∈ init, 0 < g.count) ∧ (x.state ≠ .live → 0 < last.count)) := by
  simp only [Entry.segmentsOk, h, segmentsFrom_concat, List.length_append, List.length_singleton, List.dropLast_concat,
    List.mem_append, List.mem_singleton]
  refine imp_congr_right fun _ => ⟨?_, ?_⟩
  · rintro ⟨-, h2, ⟨h3, h4⟩, h5, h6⟩
    exact ⟨by omega, h3, h4, h5, fun hl => h6 hl last (.inr rfl)⟩
  · rintro ⟨h2, h3, h4, h5, h6⟩
    refine ⟨by omega, by omega, ⟨h3, h4⟩, h5, fun hl g hg => ?_⟩
    rcases hg with hg | rfl
    · exact h5 g hg
    · exact h6 hl

/-- An entry in LIVE, HELD or MOVING with sound segments has a last one. -/
theorem Entry.exists_concat {x : Entry} (h : x.segmentsOk) (hj : x.judged = true) :
    ∃ init last, x.segments = init ++ [last] := by
  rcases List.eq_nil_or_concat x.segments with h0 | h1
  · have := (h hj).1
    simp [h0] at this
  · simpa using h1

/-! ### The changes of the model -/

theorem Entry.keepsSound_unbind (x : Entry) (n : Fin 8) : x.KeepsSound (x.unbind n) := .of_same rfl rfl rfl rfl rfl

theorem Entry.keepsSound_spent (x : Entry) {st : EntryState} (h : st = .lapsed ∨ st = .moved) :
    x.KeepsSound (x.spent st) :=
  .of_ended (by rcases h with rfl | rfl <;> rfl) (x.keyless_spent st)

theorem Entry.returned_state (x : Entry) : x.returned.judged = false ∧ x.returned.keyless := by
  unfold Entry.returned
  split <;> exact ⟨rfl, rfl, nofun⟩

theorem Entry.keepsSound_returned (x : Entry) : x.KeepsSound x.returned :=
  .of_ended x.returned_state.1 x.returned_state.2

theorem Entry.keepsSound_lapseTime (x : Entry) (t : Option Nat) : x.KeepsSound { x with lapseTime := t } :=
  .of_same rfl rfl rfl rfl rfl

/-- A LIVE entry with chunks becomes HELD without its empty last segment (R4). -/
theorem Entry.keepsSound_endHeld {x : Entry} (hl : x.state = .live) (hc : x.chunkCount ≠ 0) (cutOff : Bool) :
    x.KeepsSound (x.endHeld cutOff) := by
  have hj : x.judged = true := x.judged_iff.2 (.inl hl)
  refine .of_judged ((Entry.judged_iff _).2 (.inr (.inl rfl))) fun hs => ?_
  obtain ⟨init, last, hgs⟩ := Entry.exists_concat hs hj
  obtain ⟨h16, hfrom, hlast, hpos, -⟩ := (Entry.segmentsOk_concat hgs).1 hs hj
  by_cases h0 : last.count = 0
  · rcases List.eq_nil_or_concat init with rfl | ⟨front, g, rfl⟩
    · simp only [segmentsFrom] at hfrom
      omega
    · rw [List.concat_eq_append] at hgs h16 hfrom hpos
      rw [segmentsFrom_concat] at hfrom
      refine (Entry.segmentsOk_concat (init := front) (last := g) (by simp only [Entry.endHeld, hgs, dropEmptyLast_concat, h0, if_true])).2 fun _ => ?_
      refine ⟨by simp at h16; omega, hfrom.1, ?_, fun k hk => hpos k (by simp [hk]), fun _ => hpos g (by simp)⟩
      show g.first + g.count = x.chunkCount
      omega
  · refine (Entry.segmentsOk_concat (init := init) (last := last) (by simp [Entry.endHeld, hgs, h0])).2 fun _ => ?_
    exact ⟨h16, hfrom, hlast, hpos, fun _ => by omega⟩

/-- HELD and MOVING are the same to the segments (R154, R161). -/
theorem Entry.keepsSound_between {x y : Entry} (hx : x.state = .held ∨ x.state = .moving)
    (hy : y.state = .held ∨ y.state = .moving) (hgs : y.segments = x.segments) (hc : y.chunkCount = x.chunkCount) :
    x.KeepsSound y := by
  have hjx : x.judged = true := x.judged_iff.2 (.inr hx)
  have hlx : x.state ≠ .live := by rcases hx with h | h <;> simp [h]
  refine .of_judged (y.judged_iff.2 (.inr hy)) fun hs _ => ?_
  obtain ⟨h1, h2, h3, h4, h5⟩ := hs hjx
  rw [hgs, hc]
  exact ⟨h1, h2, h3, h4, fun _ => h5 hlx⟩

theorem Entry.keepsSound_cutOff (x : Entry) : x.KeepsSound x.cutOff := by
  unfold Entry.cutOff
  split
  next hl =>
    split
    · exact x.keepsSound_returned
    next hc => exact Entry.keepsSound_endHeld hl hc true
  next hm => exact Entry.keepsSound_between (.inr hm) (.inl rfl) rfl rfl
  next => exact .refl x

theorem Entry.keepsSound_opened (x : Entry) (n : Fin 8) (chunkLength rotation : Nat) (rule : Rule) :
    x.KeepsSound (x.opened n chunkLength rotation rule) := by
  refine .of_judged rfl fun _ => ?_
  refine (Entry.segmentsOk_concat (init := []) (last := ⟨0, 0, none, rule.classHold.cls, rule.classHold.hold, none, none⟩) rfl).2 fun _ => ?_
  exact ⟨by simp, rfl, rfl, nofun, fun h => absurd rfl h⟩

theorem Entry.keepsSound_mergePending (x : Entry) : x.KeepsSound x.mergePending := by
  unfold Entry.mergePending
  split
  · exact .refl x
  next rule _ =>
    exact .of_same rfl (map_modifyLast (mergeRule rule) _ (fun _ => rfl) _) (map_modifyLast (mergeRule rule) _ (fun _ => rfl) _)
      rfl rfl

/-- A segment appended after a last one that holds chunks divides the chunks as before (R16). -/
theorem Entry.keepsSound_appendSegment {x : Entry} {last : Segment} {key : Key} (hl : x.state = .live)
    (hlast : x.segments.getLast? = some last) (hc : last.count ≠ 0) (h16 : x.segments.length < 16) :
    x.KeepsSound (x.appendSegment last key) := by
  have hj : x.judged = true := x.judged_iff.2 (.inl hl)
  refine .of_judged ((Entry.judged_congr (x := x) rfl).trans hj) fun hs => ?_
  refine (Entry.segmentsOk_concat (init := x.segments) rfl).2 fun _ => ?_
  obtain ⟨-, -, hfrom, hpos, -⟩ := hs hj
  refine ⟨h16, hfrom, rfl, fun g hg => ?_, fun h => absurd hl h⟩
  obtain ⟨init, hgs⟩ := List.getLast?_eq_some_iff.1 hlast
  rw [hgs, List.dropLast_concat] at hpos
  rw [hgs, List.mem_append, List.mem_singleton] at hg
  rcases hg with hg | rfl
  · exact hpos g hg
  · omega

@[simp] theorem Entry.mergePending_state (x : Entry) : x.mergePending.state = x.state := by
  unfold Entry.mergePending
  split <;> rfl

@[simp] theorem Entry.decideSegment_state (x : Entry) : x.decideSegment.state = x.state := by
  unfold Entry.decideSegment
  split
  · rfl
  · split
    · split <;> rfl
    · split
      · rfl
      · split
        · split
          · rfl
          · exact x.mergePending_state
        · exact x.mergePending_state

/-- The segment decision keeps a LIVE entry sound (R15). -/
theorem Entry.keepsSound_decideSegment {x : Entry} (hl : x.state = .live) : x.KeepsSound x.decideSegment := by
  unfold Entry.decideSegment
  split
  · exact .refl x
  next last hlast =>
    split
    · split
      · exact .of_same rfl rfl rfl rfl rfl
      next rule _ =>
        exact .of_same rfl (map_modifyLast (replaceRule rule) _ (fun _ => rfl) _)
          (map_modifyLast (replaceRule rule) _ (fun _ => rfl) _) rfl rfl
    next hc =>
      split
      · exact .refl x
      · split
        next h16 =>
          split
          · exact Entry.keepsSound_appendSegment hl hlast hc h16
          · exact x.keepsSound_mergePending
        · exact x.keepsSound_mergePending.trans (.of_same rfl rfl rfl rfl rfl)

/-- A chunk counted into the last segment (R22). -/
theorem Entry.keepsSound_countChunk (x : Entry) (stamp : Nat) : x.KeepsSound (x.countChunk stamp) := by
  refine ⟨fun hs hj => ?_, ?_⟩
  · have hj' : x.judged = true := hj
    obtain ⟨init, last, hgs⟩ := Entry.exists_concat hs hj'
    obtain ⟨h16, hfrom, hlast, hpos, -⟩ := (Entry.segmentsOk_concat hgs).1 hs hj'
    refine (Entry.segmentsOk_concat (init := init) ((congrArg _ hgs).trans (modifyLast_concat _ _ _))).2 ?_ hj
    exact fun _ => ⟨h16, hfrom, by simp only [Entry.countChunk]; omega, hpos, fun _ => by simp⟩
  · simp only [Entry.keysOk, Entry.keyless_iff]
    rw [show (x.countChunk stamp).segments.map Segment.key = x.segments.map Segment.key from
      map_modifyLast (fun g : Segment =>
          { g with count := g.count + 1, lastStamp := some stamp, firstStamp := some (g.firstStamp.getD stamp) })
        _ (fun _ => rfl) _]
    exact id

/-- The recovery raise grows the last segment to hold the chunk (R23). -/
theorem Entry.keepsSound_raiseCount {x : Entry} {seq : Nat} (h : x.chunkCount ≤ seq) (stamp : Nat) :
    x.KeepsSound (x.raiseCount seq stamp) := by
  refine ⟨fun hs hj => ?_, ?_⟩
  · have hj' : x.judged = true := hj
    obtain ⟨init, last, hgs⟩ := Entry.exists_concat hs hj'
    obtain ⟨h16, hfrom, hlast, hpos, -⟩ := (Entry.segmentsOk_concat hgs).1 hs hj'
    refine (Entry.segmentsOk_concat (init := init) ((congrArg _ hgs).trans (growLast_concat _ _ _ _))).2 ?_ hj
    exact fun _ => ⟨h16, hfrom, by simp only [Entry.raiseCount, growSegment]; omega, hpos,
      fun _ => by simp only [growSegment]; omega⟩
  · simp only [Entry.keysOk, Entry.keyless_iff]
    rw [show (x.raiseCount seq stamp).segments.map Segment.key = x.segments.map Segment.key from
      map_growLast _ _ _ (fun _ => rfl) _]
    exact id

/-- Keys handed to a LIVE entry (R11, R12). -/
theorem Entry.keepsSound_keyed {x y : Entry} (hl : x.state = .live) (hst : y.state = x.state)
    (hgs : y.segments.map Segment.extent = x.segments.map Segment.extent) (hc : y.chunkCount = x.chunkCount) :
    x.KeepsSound y :=
  .of_judged (y.judged_iff.2 (.inl (hst.trans hl))) (Entry.segmentsOk_congr hst hgs hc).2

theorem Entry.keepsSound_consumeView (x : Entry) : x.KeepsSound x.consumeView := by
  unfold Entry.consumeView
  split
  · exact .refl x
  · exact .of_same rfl rfl rfl rfl rfl

end Sys2Proof.Machine
end

