-- ==== Sys2Proof/Proofs/Keeps.lean ====
section
/-! Proofs: what every operation keeps of the key pool, the pending flags and the table, said once for each operation as a
step forward from a fixed state. -/

namespace Sys2Proof.Machine

/-! ## Pending flags (R172, R174) -/

theorem Flag.value_injective {f g : Flag} (h : f.value = g.value) : f = g := by
  obtain ⟨c, m⟩ := f
  obtain ⟨d, n⟩ := g
  have hm := m.isLt
  have hn := n.isLt
  simp only [Flag.value] at h
  have hc : c = d := by cases c <;> cases d <;> simp only [Cause.code] at h <;> first | rfl | omega
  subst hc
  rw [Fin.ext (by omega : m.val = n.val)]

@[simp] theorem mem_raiseFlag (f g : Flag) (fs : List Flag) : g ∈ raiseFlag f fs ↔ g = f ∨ g ∈ fs := by
  induction fs with
  | nil => simp [raiseFlag]
  | cons a fs ih =>
    unfold raiseFlag
    split
    · simp
    · split
      next hv => simp [Flag.value_injective hv]
      · rw [List.mem_cons, ih, List.mem_cons]
        exact or_left_comm

/-- A flag raised takes its place among the others (R172). -/
theorem flagsOk_raiseFlag {fs : List Flag} (h : flagsOk fs) (f : Flag) : flagsOk (raiseFlag f fs) := by
  induction fs with
  | nil => exact List.pairwise_singleton _ _
  | cons a fs ih =>
    obtain ⟨ha, hfs⟩ := List.pairwise_cons.1 h
    unfold raiseFlag
    split
    next hlt =>
      refine List.pairwise_cons.2 ⟨fun b hb => ?_, h⟩
      rcases List.mem_cons.1 hb with rfl | hb
      · exact hlt
      · exact hlt.trans (ha b hb)
    · split
      · exact h
      · refine List.pairwise_cons.2 ⟨fun b hb => ?_, ih hfs⟩
        rcases (mem_raiseFlag f b fs).1 hb with rfl | hb
        · omega
        · exact ha b hb

/-! ## The relation -/

/-- Between `s` and `t` the pool, the flags and the table have stayed well formed. -/
structure State.Keeps (s t : State) : Prop where
  pool : s.poolOk → t.poolOk
  flags : flagsOk s.flags → flagsOk t.flags
  segments : s.segmentsOk → t.segmentsOk
  keys : s.keysOk → t.keysOk

theorem State.poolOk_congr {s t : State} (hp : t.pool = s.pool) (hd : t.drawing = s.drawing) : t.poolOk ↔ s.poolOk := by
  simp [State.poolOk, hp, hd]

theorem State.entry_congr {s t : State} (h : t.entries = s.entries) (e : Fin 64) : t.entry e = s.entry e := by
  simp [State.entry, h]

/-- A draw starts exactly where the pool needs one (R10). -/
theorem State.startDraw_poolOk {s : State} (h : s.pool.length ≤ 4) (hd : s.drawing = true → s.pool.length < 4) :
    s.startDraw.poolOk := by
  refine ⟨h, ?_⟩
  simp only [State.startDraw, Bool.or_eq_true, decide_eq_true_eq]
  exact ⟨fun h => h.elim hd id, .inr⟩

namespace State.Keeps

variable {s t u : State}

theorem refl (s : State) : s.Keeps s := ⟨id, id, id, id⟩

theorem trans (h : s.Keeps t) (h' : t.Keeps u) : s.Keeps u :=
  ⟨h'.pool ∘ h.pool, h'.flags ∘ h.flags, h'.segments ∘ h.segments, h'.keys ∘ h.keys⟩

/-- What changes neither pool nor flags nor table keeps them. -/
theorem of_same (h : s.Keeps t) (hp : u.pool = t.pool) (hd : u.drawing = t.drawing) (hf : u.flags = t.flags)
    (he : u.entries = t.entries) : s.Keeps u :=
  ⟨fun hs => (State.poolOk_congr hp hd).2 (h.pool hs), fun hs => hf ▸ h.flags hs,
    fun hs e => State.entry_congr he e ▸ h.segments hs e, fun hs e => State.entry_congr he e ▸ h.keys hs e⟩

theorem ite {c : Prop} [Decidable c] (h : s.Keeps t) (h' : s.Keeps u) : s.Keeps (if c then t else u) := by
  split
  · exact h
  · exact h'

theorem raise (h : s.Keeps t) (f : Flag) : s.Keeps (t.raise f) :=
  ⟨h.pool, fun hs => flagsOk_raiseFlag (h.flags hs) f, h.segments, h.keys⟩

theorem setEntry (h : s.Keeps t) {e : Fin 64} {x : Entry} (hx : (t.entry e).KeepsSound x) : s.Keeps (t.setEntry e x) := by
  refine ⟨h.pool, h.flags, fun hs d => ?_, fun hs d => ?_⟩
  · rw [State.entry_setEntry]
    split
    · exact hx.segments (h.segments hs e)
    · exact h.segments hs d
  · rw [State.entry_setEntry]
    split
    · exact hx.keys (h.keys hs e)
    · exact h.keys hs d

theorem modEntry (h : s.Keeps t) {e : Fin 64} {g : Entry → Entry} (hx : (t.entry e).KeepsSound (g (t.entry e))) :
    s.Keeps (t.modEntry e g) := h.setEntry hx

theorem foldl {α : Type} {op : State → α → State} (hop : ∀ {t} a, s.Keeps t → s.Keeps (op t a)) (l : List α)
    (h : s.Keeps t) : s.Keeps (l.foldl op t) := by
  induction l generalizing t with
  | nil => exact h
  | cons a l ih => exact ih (hop a h)

/-! ## Slots, fields, results -/

theorem modSlot (h : s.Keeps t) (n : Fin 8) (g : Slot → Slot) : s.Keeps (t.modSlot n g) := h.of_same rfl rfl rfl rfl

theorem setSlot (h : s.Keeps t) (n : Fin 8) (x : Slot) : s.Keeps (t.setSlot n x) := h.of_same rfl rfl rfl rfl

theorem setEngine (h : s.Keeps t) (n : Fin 8) (g : Engine → Engine) (fs : List SlotField) : s.Keeps (t.setEngine n g fs) :=
  h.of_same (by simp) (by simp) (by simp) (by simp)

theorem showHeader (h : s.Keeps t) (fs : List HeaderField) : s.Keeps (t.showHeader fs) := by
  rw [State.showHeader_eq]
  exact h.of_same rfl rfl rfl rfl

theorem advance (h : s.Keeps t) (n : Fin 8) (f : Slot → Slot) : s.Keeps (t.advance n f) :=
  h.of_same (by simp) (by simp) (by simp) (by simp)

theorem setSlotState (h : s.Keeps t) (n : Fin 8) (st : SlotState) : s.Keeps (t.setSlotState n st) := by
  unfold State.setSlotState
  split
  · exact h
  · exact h.setEngine _ _ _

theorem notify (h : s.Keeps t) (f : Flag) : s.Keeps (t.notify f) := by
  unfold State.notify
  split
  · exact h.of_same rfl rfl rfl rfl
  · exact h.raise f

theorem writeResult (h : s.Keeps t) (n : Fin 8) (r : Result) : s.Keeps (t.writeResult n r) := by
  unfold State.writeResult
  dsimp only
  split
  · exact h.setEngine _ _ _
  · exact (h.setEngine _ _ _).notify _

theorem answer (h : s.Keeps t) (n : Fin 8) (number : Mark) (r : Result) : s.Keeps (t.answer n number r) := by
  unfold State.answer
  exact (((h.modSlot n _).setEngine n _ _).writeResult n r).setEngine n _ _

theorem completeOrder (h : s.Keeps t) (n : Fin 8) (number : Option Mark) : s.Keeps (t.completeOrder n number) := by
  unfold State.completeOrder
  split
  · exact h.writeResult n _
  · exact h

theorem writePartResult (h : s.Keeps t) (r : Result) (detail : Nat) : s.Keeps (t.writePartResult r detail) := by
  have h' : s.Keeps { t with header := { t.header with result := r, detail := detail } } := h.of_same rfl rfl rfl rfl
  unfold State.writePartResult
  dsimp only
  split
  · exact h'.showHeader _
  · exact (h'.showHeader _).notify _

theorem answerPart (h : s.Keeps t) (number : Mark) (r : Result) (detail : Nat) : s.Keeps (t.answerPart number r detail) := by
  unfold State.answerPart
  extract_lets skipped header s1 s2
  have h1 : s.Keeps s1 := h.of_same rfl rfl rfl rfl
  have h2 : s.Keeps s2 := (h1.showHeader _).writePartResult r detail
  exact (h2.of_same rfl rfl rfl rfl : s.Keeps { s2 with header := { s2.header with orderTaken := number } }).showHeader _

theorem completePart (h : s.Keeps t) (number : Option Mark) (r : Result) (detail : Nat) :
    s.Keeps (t.completePart number r detail) := by
  unfold State.completePart
  split
  · exact h.writePartResult r detail
  · exact h

/-! ## Ends of entries -/

theorem markLapse (h : s.Keeps t) (ns : List (Fin 8)) : s.Keeps (t.markLapse ns) :=
  h.foldl (fun _ h => h.modSlot _ _) ns

theorem lapse (h : s.Keeps t) (e : Fin 64) : s.Keeps (t.lapse e) :=
  ((h.setEntry ((t.entry e).keepsSound_spent (.inl rfl))).markLapse _).raise _

theorem judge (h : s.Keeps t) (e : Fin 64) : s.Keeps (t.judge e) := by
  unfold State.judge
  split
  · exact h.lapse e
  · exact h

theorem derive (h : s.Keeps t) (e : Fin 64) : s.Keeps (t.derive e) := (h.modEntry ((t.entry e).keepsSound_lapseTime _)).judge e

theorem judgeAll (h : s.Keeps t) : s.Keeps t.judgeAll := h.foldl (fun e h => h.judge e) allEntries

theorem advanceClock (h : s.Keeps t) (c : Nat) : s.Keeps (t.advanceClock c) :=
  (h.of_same rfl rfl rfl rfl : s.Keeps { t with clock := c }).judgeAll

theorem judgeLastView (h : s.Keeps t) (e : Fin 64) : s.Keeps (t.judgeLastView e) := by
  unfold State.judgeLastView
  split
  · exact h.lapse e
  · exact h

theorem becameHeld (h : s.Keeps t) (e : Fin 64) : s.Keeps (t.becameHeld e) := (h.derive e).judgeLastView e

theorem deriveAll (h : s.Keeps t) : s.Keeps t.deriveAll := h.foldl (fun e h => h.becameHeld e) allEntries

theorem freeEntry (h : s.Keeps t) (e : Fin 64) : s.Keeps (t.freeEntry e) :=
  (h.setEntry (t.entry e).keepsSound_returned).markLapse _

theorem endRecording (h : s.Keeps t) (e : Fin 64) (cutOff : Bool) : s.Keeps (t.endRecording e cutOff) := by
  unfold State.endRecording
  split
  next hl =>
    split
    · exact h.freeEntry e
    next hc => exact (h.modEntry (Entry.keepsSound_endHeld hl hc cutOff)).becameHeld e
  · exact h

theorem endMove (h : s.Keeps t) (e : Fin 64) : s.Keeps (t.endMove e) := by
  unfold State.endMove
  split
  next hm => exact (h.modEntry (Entry.keepsSound_between (.inr hm) (.inl rfl) rfl rfl)).becameHeld e
  · exact h

/-- Where a slot is bound, its entry ends as given; else nothing does. -/
theorem onBound (h : s.Keeps t) {o : Option (Fin 64)} {f : Fin 64 → State} (hf : ∀ e, s.Keeps (f e)) :
    s.Keeps (match o with | none => t | some e => f e) := by
  cases o with
  | none => exact h
  | some e => exact hf e

theorem release (h : s.Keeps t) (n : Fin 8) : s.Keeps (t.release n) := by
  unfold State.release
  dsimp only
  split
  · exact h.of_same rfl rfl rfl rfl
  next e _ =>
    have h1 : s.Keeps (t.modEntry e fun x => x.unbind n) := h.modEntry ((t.entry e).keepsSound_unbind n)
    exact h1.of_same rfl rfl rfl rfl

theorem toIdle (h : s.Keeps t) (n : Fin 8) : s.Keeps (t.toIdle n) := ((h.release n).modSlot n _).setEngine n _ _

theorem toFaulted (h : s.Keeps t) (n : Fin 8) (f : SlotFault) : s.Keeps (t.toFaulted n f) :=
  (((h.release n).modSlot n _).setEngine n _ _).notify _

/-! ## Recordings -/

theorem takeSorting (h : s.Keeps t) (n : Fin 8) (z : Sorting) : s.Keeps (t.takeSorting n z) := by
  unfold State.takeSorting
  exact (h.modSlot n _).setEngine n _ _

theorem countAbsence (h : s.Keeps t) (n : Fin 8) (seen : List Nat) : s.Keeps (t.countAbsence n seen) := by
  unfold State.countAbsence
  dsimp only
  split
  · exact ((h.modSlot n _).setEngine n _ _).notify _
  · exact h.modSlot n _

theorem closeTakesEffect (h : s.Keeps t) (n : Fin 8) : s.Keeps (t.closeTakesEffect n) := by
  unfold State.closeTakesEffect
  split
  · exact h
  · dsimp only
    split
    · exact (h.modSlot n _).countAbsence n _
    · exact ((h.modSlot n _).setEngine n _ _).countAbsence n _

theorem askClose (h : s.Keeps t) (n : Fin 8) : s.Keeps (t.askClose n) := by
  unfold State.askClose
  split
  · exact h
  · split
    · exact h
    · split
      · exact h.closeTakesEffect n
      · exact h.modSlot n _

theorem formBatch (h : s.Keeps t) (n : Fin 8) : s.Keeps (t.formBatch n) := by
  unfold State.formBatch
  split
  · exact h
  · dsimp only
    split
    · exact h
    · split
      · exact h.modSlot n _
      · exact (h.modSlot n _).setEngine n _ _

theorem finishRecording (h : s.Keeps t) (n : Fin 8) : s.Keeps (t.finishRecording n) :=
  (((h.toIdle n).onBound fun e => (h.toIdle n).endRecording e false).completeOrder n _).notify _

theorem settleClosing (h : s.Keeps t) (n : Fin 8) : s.Keeps (t.settleClosing n) := by
  unfold State.settleClosing
  dsimp only
  split
  · split
    · exact h.finishRecording n
    · split
      · exact h.askClose n
      · exact h
  · exact h

theorem completeTake (h : s.Keeps t) (n : Fin 8) : s.Keeps (t.completeTake n).1 := by
  unfold State.completeTake
  split
  · exact h
  · dsimp only
    split
    · exact ((h.modSlot n _).advance n _).takeSorting n _
    · exact (h.modSlot n _ : s.Keeps (t.modSlot n fun x => { x with take := none }))

theorem faultRecord (h : s.Keeps t) (n : Fin 8) (f : SlotFault) : s.Keeps (t.faultRecord n f) :=
  ((h.completeTake n).toFaulted n f).onBound fun e => ((h.completeTake n).toFaulted n f).endRecording e false

theorem recordLoss (h : s.Keeps t) (n : Fin 8) (loss : Nat) : s.Keeps (t.recordLoss n loss) :=
  (h.modSlot n _).setEngine n _ _

theorem overrun (h : s.Keeps t) (n : Fin 8) : s.Keeps (t.overrun n) := by
  unfold State.overrun
  extract_lets x loss s1 s2 waits s3
  have h2 : s.Keeps s2 := (h.modSlot n _).setEngine n _ _
  have h3 : s.Keeps s3 := ite ((h2.modSlot n _).askClose n) (h2.recordLoss n loss)
  exact ite (h3.setSlotState n _) h3

theorem refreshRecord (h : s.Keeps t) (n : Fin 8) : s.Keeps (t.refreshRecord n) := by
  have hc := h.completeTake n
  unfold State.refreshRecord
  dsimp only
  split
  · exact h
  · split
    · split
      next u hu =>
        rw [hu] at hc
        exact hc.overrun n
      next u hu =>
        rw [hu] at hc
        exact hc.faultRecord n _
    · split
      · exact h.setSlotState n _
      · exact h

/-- A next key taken from the pool, and the draw that may follow (R10, R12). -/
theorem refillNextKey (h : s.Keeps t) {e : Fin 64} (hl : (t.entry e).state = .live) : s.Keeps (t.refillNextKey e) := by
  unfold State.refillNextKey
  split
  next key pool _ hp _ =>
    have h1 := h.modEntry (e := e) (g := fun x => { x with nextKey := some key })
      (Entry.keepsSound_keyed hl rfl rfl rfl)
    refine ⟨fun hs => State.startDraw_poolOk ?_ ?_, h1.flags, h1.segments, h1.keys⟩
    all_goals have := (h.pool hs).1
    all_goals simp only [hp, List.length_cons] at this
    · show pool.length ≤ 4
      omega
    · intro _
      show pool.length < 4
      omega
  · exact h

theorem openChunk (h : s.Keeps t) {n : Fin 8} (hl : ∀ e, (t.slot n).boundEntry = some e → (t.entry e).state = .live) :
    s.Keeps (t.openChunk n) := by
  unfold State.openChunk
  dsimp only
  split
  · exact h
  next e he =>
    have hle := hl e he
    split
    · exact (h.modSlot n _).finishRecording n
    · split
      · split
        · exact h.setSlotState n _
        · exact h
      · split
        · exact h
        · split
          · exact h
          · refine (refillNextKey (h.setEntry (Entry.keepsSound_decideSegment hle)) ?_).modSlot n _ |>.formBatch n
            rw [State.entry_setEntry_self, Entry.decideSegment_state, hle]

theorem putChunk (h : s.Keeps t) (n : Fin 8) (c : OpenChunk) (e : Fin 64) : s.Keeps (t.putChunk n c e) := by
  unfold State.putChunk
  extract_lets s1 s2 s3 s4 x
  have h2 : s.Keeps s2 := (h.modSlot n _).advance n _
  have h3 : s.Keeps s3 := h2.modEntry ((s2.entry e).keepsSound_countChunk c.stamp)
  have h4 : s.Keeps s4 := h3.setEngine n _ _
  exact ite (h4.notify _) h4

theorem closedChunk (h : s.Keeps t) (n : Fin 8) : s.Keeps (t.closedChunk n) := by
  unfold State.closedChunk
  split
  · split
    · exact (h.putChunk n _ _).settleClosing n
    · exact h.modSlot n _
  · exact h

theorem sealedBatch (h : s.Keeps t) (n : Fin 8) (bytes : List Byte) : s.Keeps (t.sealedBatch n bytes) := by
  unfold State.sealedBatch
  split
  · exact h
  · dsimp only
    split
    · exact ((h.modSlot n _).closeTakesEffect n).settleClosing n
    · exact ((h.modSlot n _).formBatch n).settleClosing n

theorem startTake (h : s.Keeps t) (n : Fin 8) : s.Keeps (t.startTake n) := by
  unfold State.startTake
  dsimp only
  split
  · exact h.modSlot n _
  · exact h.faultRecord n _

theorem endTake (h : s.Keeps t) (n : Fin 8) : s.Keeps (t.endTake n) := by
  have hc := h.completeTake n
  unfold State.endTake
  split
  next u hu =>
        rw [hu] at hc
        exact (hc.formBatch n).settleClosing n
  next u hu =>
        rw [hu] at hc
        exact hc.faultRecord n _

/-! ## Frames -/

theorem runWork (h : s.Keeps t) (work : Work) : s.Keeps (t.runWork work).1 := h.of_same rfl rfl rfl rfl

theorem recoveryRaise (h : s.Keeps t) (e : Fin 64) (seq stamp : Nat) : s.Keeps (t.recoveryRaise e seq stamp) := by
  unfold State.recoveryRaise
  split
  next hr => exact (h.modEntry (Entry.keepsSound_raiseCount hr.2.2 stamp)).derive e
  · exact h

theorem countDelivered (h : s.Keeps t) (n : Fin 8) (count : Nat) : s.Keeps (t.countDelivered n count) := by
  unfold State.countDelivered
  exact (h.modSlot n _).advance n _

theorem drainDeliver (h : s.Keeps t) (n : Fin 8) : s.Keeps (t.drainDeliver n) := by
  have h0 : s.Keeps { t with flight := none } := h.of_same rfl rfl rfl rfl
  unfold State.drainDeliver
  split
  next base pos count key gen seq expect winBase winSize winPos _ =>
    split
    · dsimp only
      split
      · have hw := h0.runWork (.deliver base pos count key gen seq expect winBase winSize winPos)
        split
        next u hu =>
          rw [hu] at hw
          exact hw.countDelivered n count
        next u hu =>
          rw [hu] at hw
          exact hw
      · exact h0
    · exact h
  · exact h

theorem readFrameTag (h : s.Keeps t) (n : Fin 8) : s.Keeps (t.readFrameTag n) := by
  unfold State.readFrameTag
  split
  · dsimp only
    split
    · exact h.modSlot n _
    · exact h
  · exact h

theorem drainVerify (h : s.Keeps t) (n : Fin 8) : s.Keeps (t.drainVerify n) := by
  unfold State.drainVerify
  split
  · exact (h.of_same rfl rfl rfl rfl : s.Keeps { t with flight := none }).readFrameTag n
  · exact h

theorem finishFrame (h : s.Keeps t) (n : Fin 8) (o : FrameOutcome) (packets remaining : Nat) (notice : Bool) :
    s.Keeps (t.finishFrame n o packets remaining notice) := by
  unfold State.finishFrame
  split
  · exact h
  · extract_lets x entry s1 s2 s3 s4 s5 y
    have h3 : s.Keeps s3 := ((h.modSlot n _).setEngine n _ _).advance n _
    have h4 : s.Keeps s4 := ite (h3.setEngine n _ _) h3
    have h5 : s.Keeps s5 := ite (h4.setEngine n _ _) h4
    exact ite (h5.notify _) h5

theorem endPlay (h : s.Keeps t) (n : Fin 8) : s.Keeps (t.endPlay n) := by
  have hi := h.toIdle n
  refine ((hi.onBound fun e => ?_).completeOrder n _).notify _
  split
  · exact hi.judgeLastView e
  · exact hi

theorem completeMove (h : s.Keeps t) (n : Fin 8) (e : Fin 64) : s.Keeps (t.completeMove n e) := by
  unfold State.completeMove
  dsimp only
  split
  · exact ((((h.modEntry ((t.entry e).keepsSound_spent (.inr rfl))).toIdle n).completeOrder n _).completeOrder n _).notify _
  · exact ((((h.endMove e).toIdle n).completeOrder n _).completeOrder n _).notify _

theorem quitMove (h : s.Keeps t) (n : Fin 8) : s.Keeps (t.quitMove n) :=
  (h.toIdle n).onBound fun e => (h.toIdle n).endMove e

theorem afterFinish (h : s.Keeps t) (n : Fin 8) : s.Keeps (t.afterFinish n) := by
  unfold State.afterFinish
  dsimp only
  split
  · split
    · exact h.completeMove n _
    · split
      · exact ((h.quitMove n).completeOrder n _).notify _
      · exact h.setSlotState n _
  · split
    · exact h.endPlay n
    · exact h.setSlotState n _

theorem endFrame (h : s.Keeps t) (n : Fin 8) (o : FrameOutcome) (packets remaining : Nat) :
    s.Keeps (t.endFrame n o packets remaining) := by
  unfold State.endFrame
  split
  · exact h
  · exact (h.finishFrame n o packets remaining true).afterFinish n

theorem advanceMoveMark (h : s.Keeps t) (e : Fin 64) : s.Keeps (t.advanceMoveMark e) :=
  h.modEntry (.of_same rfl rfl rfl rfl rfl)

theorem playNext (h : s.Keeps t) (n : Fin 8) : s.Keeps (t.playNext n) := by
  unfold State.playNext
  dsimp only
  split
  · split
    · exact h.setSlotState n _
    · split
      · exact h.endFrame n _ _ _
      · exact h.setSlotState n _
  · exact h

theorem moveNext (h : s.Keeps t) (n : Fin 8) : s.Keeps (t.moveNext n) := by
  unfold State.moveNext
  dsimp only
  split
  · split
    · exact h
    · split
      · exact h.endFrame n _ _ _
      · exact h.setSlotState n _
  · exact h

theorem permitFrame (h : s.Keeps t) (n : Fin 8) (e : Fin 64) (g : Segment) (tag : TagRead) (remaining : Nat) :
    s.Keeps (t.permitFrame n e g tag remaining) := by
  unfold State.permitFrame
  dsimp only
  split
  · exact (h.modSlot n _).playNext n
  · split
    · exact (h.modSlot n _).moveNext n
    · exact (h.advanceMoveMark e).endFrame n _ _ _
  · exact h.endFrame n _ _ _

theorem frameVerified (h : s.Keeps t) (n : Fin 8) (e : Fin 64) (tag : TagRead) (raiseDue : Bool) :
    s.Keeps (t.frameVerified n e tag raiseDue) := by
  unfold State.frameVerified
  extract_lets s1 x
  have h1 : s.Keeps s1 := ite (h.recoveryRaise e _ _) h
  split
  next s2 _ _ g _ _ =>
    extract_lets s3
    have h2 : s.Keeps s2 := h1.of_same rfl rfl rfl rfl
    have h3 : s.Keeps s3 := by
      unfold s3
      split
      · exact h2.endFrame n _ _ _
      · exact h2.permitFrame n e g tag _
    exact ite h3.judgeAll h3
  · exact h1.endFrame n _ _ _

theorem faultFrameSlot (h : s.Keeps t) (n : Fin 8) (f : SlotFault) : s.Keeps (t.faultFrameSlot n f) := by
  have hf := (h.drainDeliver n).toFaulted n f
  refine hf.onBound fun e => ?_
  split
  · exact hf.judgeLastView e
  · split
    · exact hf.endMove e
    · exact hf

theorem faultSlot (h : s.Keeps t) (n : Fin 8) (f : SlotFault) : s.Keeps (t.faultSlot n f) := by
  unfold State.faultSlot
  split
  · exact h.faultRecord n f
  · exact h.faultFrameSlot n f

theorem refreshSlot (h : s.Keeps t) (n : Fin 8) : s.Keeps (t.refreshSlot n) := by
  unfold State.refreshSlot
  extract_lets s1
  have h1 : s.Keeps s1 := h.setSlot n _
  split
  · exact h1.faultSlot n _
  next s2 _ =>
    have h2 : s.Keeps s2 := h1.advance n _
    split
    · exact h2.refreshRecord n
    · exact ite h2 (h2.playNext n)
    · exact h2.moveNext n
    · exact h2

theorem takeFrame (h : s.Keeps t) (n : Fin 8) : s.Keeps (t.takeFrame n) := (h.modSlot n _).setSlotState n _

theorem verifyRange (h : s.Keeps t) (n : Fin 8) (e : Fin 64) (f : Frame) (tag : TagRead) :
    s.Keeps (t.verifyRange n e f tag) := by
  unfold State.verifyRange
  dsimp only
  split
  · split
    · exact h.modSlot n _
    · split
      · exact (h.modSlot n _).frameVerified n e tag _
      · exact (h.modSlot n _).endFrame n _ _ _
  · exact h.faultFrameSlot n _

theorem verifyFrame (h : s.Keeps t) (n : Fin 8) (e : Fin 64) (f : Frame) : s.Keeps (t.verifyFrame n e f) := by
  unfold State.verifyFrame
  dsimp only
  split
  · exact h.verifyRange n e f _
  · split
    · split
      · exact (h.modSlot n _).endFrame n _ _ _
      · exact h.verifyRange n e _ _
    · exact h.faultFrameSlot n _

theorem delivered (h : s.Keeps t) (n : Fin 8) (count : Nat) : s.Keeps (t.delivered n count) := by
  have hc := h.countDelivered n count
  unfold State.delivered
  dsimp only
  split
  · split
    · exact hc.playNext n
    · exact hc.endFrame n _ _ _
  · exact hc

theorem badRange (h : s.Keeps t) (n : Fin 8) : s.Keeps (t.badRange n) := h.endFrame n _ _ _

theorem putOutput (h : s.Keeps t) (n : Fin 8) (e : Fin 64) (count remaining : Nat) :
    s.Keeps (t.putOutput n e count remaining) :=
  (((h.modSlot n _).advance n _).advanceMoveMark e).endFrame n _ _ _

theorem finalResealed (h : s.Keeps t) (n : Fin 8) : s.Keeps (t.finalResealed n) := by
  unfold State.finalResealed
  split
  · split
    · exact h.putOutput n _ _ _
    · exact h
  · exact h

end State.Keeps

end Sys2Proof.Machine
end

