-- ==== Sys2Proof/Proofs/CommandsKeep.lean ====
section
/-! Proofs: every command keeps the key pool, the pending flags and the table well formed. -/

namespace Sys2Proof.Machine

/-- A MOVE OPEN is accepted on a HELD entry alone (R153). -/
theorem State.checkMoveOpen_held {s : State} {n : Fin 8} {e : Fin 64} {key : Key} (h : s.checkMoveOpen n = .ok (e, key)) :
    (s.entry e).state = .held := by
  unfold State.checkMoveOpen at h
  dsimp only at h
  (repeat' split at h) <;> simp_all

namespace State.Keeps

variable {s t : State}

/-! ## The forms of commands -/

theorem recorded (h : s.Keeps t) (w : Writes) : s.Keeps (t.recorded w) := h.of_same rfl rfl rfl rfl

theorem of_withWrites {w : Writes} {effect : State → State} (hx : ∀ {r : State}, s.Keeps r → s.Keeps (effect r))
    (h : withWrites w s effect = .next t) : s.Keeps t := by
  obtain ⟨-, rfl⟩ := withWrites_next.1 h
  exact hx ((refl s).recorded w)

theorem takeOrder (h : s.Keeps t) {row : OrderKind → Mode → Slot → Bool} {effect : State → Fin 8 → Mark → State}
    (hx : ∀ n number, s.Keeps (effect t n number)) : s.Keeps (t.takeOrder row effect) := by
  unfold State.takeOrder
  split
  next n number _ => exact ite ((hx n number).of_same rfl rfl rfl rfl) h
  · exact h

theorem takePartOrder (h : s.Keeps t) {kind : PartOrderKind} {effect : State → Mark → State}
    (hx : ∀ number, s.Keeps (effect t number)) : s.Keeps (t.takePartOrder kind effect) := by
  unfold State.takePartOrder
  exact ite ((hx _).of_same rfl rfl rfl rfl) h

/-! ## Sweeps -/

theorem writeField (h : s.Keeps t) (f : BoardField) : s.Keeps (t.writeField f) := h.of_same rfl rfl rfl rfl

theorem writeHeld (h : s.Keeps t) (own : BoardField → Bool) : s.Keeps (t.writeHeld own) :=
  h.foldl (fun f h => h.writeField f) _

theorem writeRecord (h : s.Keeps t) (n : Fin 8) : s.Keeps (t.writeRecord n) := h.of_same rfl rfl rfl rfl

theorem writeHeaderZeros (h : s.Keeps t) : s.Keeps t.writeHeaderZeros := by
  unfold State.writeHeaderZeros
  refine h.foldl (op := fun u (z : Nat × Nat) => { u with mem := u.mem.write (u.boardBase + z.1) (zeros z.2) }) (fun z h => ?_) _
  exact h.of_same rfl rfl rfl rfl

theorem flushHeld (h : s.Keeps t) : s.Keeps t.flushHeld := by
  unfold State.flushHeld
  extract_lets s1 s2 s3 s4
  have h1 : s.Keeps s1 :=
    ite (h.foldl (fun n h => h.writeRecord n) allSlots) (h.foldl (fun n h => h.writeHeld (Machine.inRecord n)) allSlots)
  have h2 : s.Keeps s2 := ite (h1.foldl (fun f h => h.writeField (.header f)) _).writeHeaderZeros (h1.writeHeld Machine.inHeader)
  have h3 : s.Keeps s3 := ite (h2.foldl (fun f h => h.writeField (.header f)) _) h2
  have h4 : s.Keeps s4 := h3.foldl (fun f h => h.raise f) _
  exact h4.of_same rfl rfl rfl rfl

theorem beginSweep (h : s.Keeps t) : s.Keeps t.beginSweep := by
  unfold State.beginSweep
  exact h.flushHeld.of_same rfl rfl rfl rfl

theorem requestSweep (h : s.Keeps t) : s.Keeps t.requestSweep := by
  unfold State.requestSweep
  split
  · exact h.beginSweep
  · exact h.of_same rfl rfl rfl rfl

theorem compareOrder (h : s.Keeps t) (n : Fin 8) : s.Keeps (t.compareOrder n) := by
  unfold State.compareOrder
  exact ite (h.of_same rfl rfl rfl rfl) (h.of_same rfl rfl rfl rfl)

theorem stepSlot (h : s.Keeps t) (n : Fin 8) : s.Keeps (t.stepSlot n) := by
  unfold State.stepSlot
  exact ite ((h.refreshSlot n).compareOrder n) (h.compareOrder n)

theorem writeDirectory (h : s.Keeps t) (e : Fin 64) : s.Keeps (t.writeDirectory e) := by
  unfold State.writeDirectory
  exact ite h (h.of_same rfl rfl rfl rfl)

theorem writeMirrors (h : s.Keeps t) : s.Keeps t.writeMirrors := h.of_same rfl rfl rfl rfl

theorem endSweep (h : s.Keeps t) : s.Keeps t.endSweep := by
  unfold State.endSweep
  have hd : s.Keeps (allEntries.foldl State.writeDirectory t).writeMirrors :=
    (h.foldl (fun e h => h.writeDirectory e) allEntries).writeMirrors
  generalize (allEntries.foldl State.writeDirectory t).writeMirrors = u at hd
  have h1 : s.Keeps { u with sweep := none } := hd.of_same rfl rfl rfl rfl
  exact ite (h1.of_same rfl rfl rfl rfl : s.Keeps { u with sweep := none, sweepPending := false }).beginSweep h1

/-! ## Orders of slots -/

theorem acceptRecord (h : s.Keeps t) (n : Fin 8) (e : Fin 64) : s.Keeps (t.acceptRecord n e) := by
  unfold State.acceptRecord
  extract_lets chunkLength g x y s1 s2 s3
  have h1 : s.Keeps s1 := h.modEntry ((t.entry e).keepsSound_opened n _ _ _)
  have h3 : s.Keeps s3 := (h1.setSlot n _).setEngine n _ _
  clear_value s3
  exact (h3.of_same rfl rfl rfl rfl : s.Keeps { s3 with waiting := s3.waiting ++ [n] }).derive e


theorem setUpFrameSlot (h : s.Keeps t) (n : Fin 8) (e : Fin 64) (mode : Mode) (token : Option Key)
    (openServed : Option Mark) : s.Keeps (t.setUpFrameSlot n e mode token openServed) := by
  unfold State.setUpFrameSlot
  exact (h.setSlot n _).setEngine n _ _

theorem acceptPlay (h : s.Keeps t) (n : Fin 8) (e : Fin 64) (mode : Mode) : s.Keeps (t.acceptPlay n e mode) := by
  unfold State.acceptPlay
  extract_lets s1 s2
  have h1 : s.Keeps s1 := h.setUpFrameSlot n e mode none none
  clear_value s1
  have h2 : s.Keeps s2 := h1.modEntry (.of_same rfl rfl rfl rfl rfl)
  exact ite (h2.modEntry (s2.entry e).keepsSound_consumeView) h2

theorem openPlay (h : s.Keeps t) (n : Fin 8) (number : Mark) (mode : Mode) : s.Keeps (t.openPlay n number mode) := by
  unfold State.openPlay
  split
  · exact h.answer n number _
  · exact (h.answer n number _).acceptPlay n _ mode

theorem acceptMove (h : s.Keeps t) {n : Fin 8} {e : Fin 64} (he : (t.entry e).state = .held) (key : Key) (number : Mark) :
    s.Keeps (t.acceptMove n e key number) := by
  have h1 := h.setUpFrameSlot n e .move (some key) (some number)
  have he1 : ((t.setUpFrameSlot n e .move (some key) (some number)).entry e).state = .held := by
    simpa [State.setUpFrameSlot] using he
  unfold State.acceptMove
  generalize t.setUpFrameSlot n e .move (some key) (some number) = u at h1 he1
  exact (h1.modEntry (Entry.keepsSound_between (.inl he1) (.inr rfl) rfl rfl)).derive e

theorem closeRecord (h : s.Keeps t) (n : Fin 8) (number : Mark) : s.Keeps (t.closeRecord n number) := by
  unfold State.closeRecord
  dsimp only
  split
  · exact h.answer n number _
  · exact h.answer n number _
  · split
    · exact (h.answer n number _).finishRecording n
    · exact (((h.answer n number _).modSlot n _).setSlotState n _).settleClosing n

theorem abortRecord (h : s.Keeps t) (n : Fin 8) (number : Mark) : s.Keeps (t.abortRecord n number) := by
  unfold State.abortRecord
  have h1 := ((h.answer n number .done).completeTake n).toIdle n
  exact ite (h.answer n number _) (h1.onBound fun e => h1.endRecording e false)

theorem askFrameClose (h : s.Keeps t) (n : Fin 8) (number : Mark) : s.Keeps (t.askFrameClose n number) := by
  unfold State.askFrameClose
  exact (h.answer n number _).modSlot n _

theorem closePlay (h : s.Keeps t) (n : Fin 8) (number : Mark) : s.Keeps (t.closePlay n number) := by
  unfold State.closePlay
  exact ite (h.answer n number _) (ite (h.answer n number _) (ite ((h.answer n number _).endPlay n)
    (ite (h.askFrameClose n number) ((h.askFrameClose n number).playNext n))))

theorem closeMove (h : s.Keeps t) (n : Fin 8) (number : Mark) : s.Keeps (t.closeMove n number) := by
  unfold State.closeMove
  exact ite (h.answer n number _) (ite (h.answer n number _) (ite (((h.answer n number _).quitMove n).notify _)
    ((h.askFrameClose n number).moveNext n)))

theorem abortPlay (h : s.Keeps t) (n : Fin 8) (number : Mark) : s.Keeps (t.abortPlay n number) := by
  unfold State.abortPlay
  have h1 := ((h.answer n number .done).drainVerify n).drainDeliver n
  refine ite (h.answer n number _) (onBound ((h1.finishFrame n _ _ _ _).toIdle n) fun e => ?_)
  exact ite (((h1.finishFrame n _ _ _ _).toIdle n).judgeLastView e) ((h1.finishFrame n _ _ _ _).toIdle n)

theorem abortMove (h : s.Keeps t) (n : Fin 8) (number : Mark) : s.Keeps (t.abortMove n number) := by
  unfold State.abortMove
  exact ite (h.answer n number _) ((((h.answer n number _).drainVerify n).finishFrame n _ _ _ _).quitMove n)

theorem answerRule (h : s.Keeps t) (n : Fin 8) (number : Mark) {effect : State → State}
    (hx : ∀ {u : State}, s.Keeps u → s.Keeps (effect u)) : s.Keeps (t.answerRule n number effect) := by
  unfold State.answerRule
  exact ite (hx (h.answer n number _)) (h.answer n number _)

theorem applyRule (h : s.Keeps t) (n : Fin 8) : s.Keeps (t.applyRule n) := by
  unfold State.applyRule
  extract_lets rule s1
  have h1 : s.Keeps s1 := h.askClose n
  split
  · exact h1
  next e _ =>
    have h2 : s.Keeps (s1.modEntry e fun x => x.tighten rule) := h1.modEntry (.of_same rfl rfl rfl rfl rfl)
    exact ite (ite h2 (h2.derive e)) h1

theorem applyRotate (h : s.Keeps t) (n : Fin 8) : s.Keeps (t.applyRotate n) := by
  unfold State.applyRotate
  split
  · exact h
  · exact ite (h.modEntry (.of_same rfl rfl rfl rfl rfl)) h

/-! ## Part orders -/

theorem voteReport (h : s.Keeps t) (d : Nat) : s.Keeps (t.voteReport d).1 := by
  unfold State.voteReport
  dsimp only
  split <;> dsimp only
  · exact h.of_same rfl rfl rfl rfl
  · have h1 : s.Keeps { t with votes := [] } := h.of_same rfl rfl rfl rfl
    exact (h1.raise _).advanceClock _

theorem timeReport (h : s.Keeps t) (report : Nat) : s.Keeps (t.timeReport report).1 := by
  have h1 : s.Keeps { t with votes := [] } := h.of_same rfl rfl rfl rfl
  unfold State.timeReport
  split
  · exact h1
  · split
    · dsimp only
      exact h1.advanceClock _
    · exact h.voteReport _

theorem eraseEntry (h : s.Keeps t) (number : Mark) (recording : Nat) : s.Keeps (t.eraseEntry number recording) := by
  unfold State.eraseEntry
  refine ite (h.answerPart _ _ _) (ite (h.answerPart _ _ _) ?_)
  split
  · exact h.answerPart _ _ _
  next e _ => exact ite ((h.freeEntry e).answerPart _ _ _) (h.answerPart _ _ _)

theorem finishQuery (h : s.Keeps t) (q : Query) : s.Keeps (t.finishQuery q) := by
  unfold State.finishQuery
  exact (h.of_same rfl rfl rfl rfl : s.Keeps { t with mem := _, query := none }).completePart _ _ _

/-! ## Keys -/

/-- Two keys leave the pool and a draw may start (R10, R11). -/
theorem handOver (h : s.Keeps t) {n : Fin 8} {e : Fin 64} {k₁ k₂ : Key} {rest : List Key} (hp : t.pool = k₁ :: k₂ :: rest)
    (hl : (t.entry e).state = .live) : s.Keeps (t.handOver n e k₁ k₂ rest) := by
  unfold State.handOver
  extract_lets s1
  have h1 : s.Keeps s1 := by
    refine ⟨fun hs => State.startDraw_poolOk ?_ ?_, h.flags, h.segments, h.keys⟩
    all_goals have := (h.pool hs).1
    all_goals simp only [hp, List.length_cons] at this
    · show rest.length ≤ 4
      omega
    · intro _
      show rest.length < 4
      omega
  refine (h1.modEntry (Entry.keepsSound_keyed hl rfl ?_ rfl)).setSlotState n _
  cases (s1.entry e).segments <;> rfl

/-- A key that a draw has prepared joins the pool (R10). -/
theorem drawn (h : s.Keeps t) (hd : t.drawing = true) (key : Key) :
    s.Keeps { t with pool := t.pool ++ [key], drawing := false }.startDraw := by
  refine ⟨fun hs => State.startDraw_poolOk ?_ nofun, h.flags, h.segments, h.keys⟩
  have := (h.pool hs).2.1 hd
  simp only [List.length_append, List.length_singleton]
  omega

/-! ## Images -/

theorem endImage (h : s.Keeps t) (number : Option Mark) (r : Result) (detail : Nat) :
    s.Keeps (t.endImage number r detail) := by
  unfold State.endImage
  exact (h.of_same rfl rfl rfl rfl : s.Keeps { t with image := none }).completePart _ _ _

end State.Keeps

/-! ## Resets -/

@[simp] theorem length_mapVector_get {α β : Type} {n : Nat} (f : α → β) (v : Vector α n) (i : Fin n) :
    (mapVector f v)[i] = f v[i] := by
  simp [mapVector]

@[simp] theorem State.entry_reset (e : Fin 64) : State.reset.entry e = Entry.free 0 := by
  simp [State.entry, State.reset]

@[simp] theorem State.slot_reset (n : Fin 8) : State.reset.slot n = Slot.reset := by
  simp [State.slot, State.reset]

theorem State.engineCleared_entry (s : State) (mem : Memory) (e : Fin 64) :
    (s.engineCleared mem).entry e = { (s.entry e).cutOff with binding := none, players := [] } :=
  length_mapVector_get _ _ _

/-- An engine reset cuts every entry off and drops the flags (R27, R176). -/
theorem State.Keeps.engineCleared {s t : State} (h : s.Keeps t) (mem : Memory) : s.Keeps (t.engineCleared mem) := by
  have he : ∀ e, (t.entry e).KeepsSound ((t.engineCleared mem).entry e) := fun e => by
    rw [State.engineCleared_entry]
    exact (t.entry e).keepsSound_cutOff.trans (.of_same rfl rfl rfl rfl rfl)
  exact ⟨h.pool, fun _ => List.Pairwise.nil, fun hs e => (he e).segments (h.segments hs e),
    fun hs e => (he e).keys (h.keys hs e)⟩

/-- What a full reset leaves is well formed, whatever was before. -/
theorem State.Keeps.of_reset (s : State) {t : State} (hp : t.pool = []) (hd : t.drawing = true) (hf : t.flags = [])
    (he : ∀ e, t.entry e = Entry.free 0) : s.Keeps t := by
  refine ⟨fun _ => by simp [State.poolOk, hp, hd], fun _ => hf ▸ List.Pairwise.nil, fun _ e => ?_, fun _ e _ => ?_⟩
  · rw [he]
    exact nofun
  · rw [he]
    exact Entry.keyless_free 0

end Sys2Proof.Machine
end

