-- ==== Sys2Proof/Proofs/StepKeeps.lean ====
section
/-! Proofs: a step keeps the key pool, the pending flags and the table well formed, command by command. -/

namespace Sys2Proof.Machine

namespace State.Keeps

variable {s t : State}

/-! ## Resets, registers and sweeps -/

theorem exec_engineReset {v : BitVec 32} {a b : Nat} (h : exec (.engineReset v a b) s = .next t) : s.Keeps t := by
  simp only [exec, execEngineReset] at h
  split at h
  · have h1 : s.Keeps (s.loadControl v) := (refl s).of_same rfl rfl rfl rfl
    have h2 := (h1.engineCleared (s.cutMemory a b)).deriveAll
    exact (Host.Outcome.next.inj h) ▸ h2
  · cases h

theorem startPart (h : s.Keeps t) : s.Keeps t.startPart := by
  unfold State.startPart
  refine ite ?_ h
  split
  · refine beginSweep (t := { t with windows := _, refusal := _, part := _, sweepTimer := _, sweepPending := _ }) ?_
    exact h.of_same rfl rfl rfl rfl
  · exact h.of_same rfl rfl rfl rfl

theorem exec_start {v : BitVec 32} {w : Writes} (h : exec (.start v w) s = .next t) : s.Keeps t := by
  simp only [exec, execStart] at h
  split at h
  · exact of_withWrites (fun {r} h => (h.of_same rfl rfl rfl rfl : s.Keeps (r.loadControl v)).startPart) h
  · cases h

theorem stopPart (h : s.Keeps t) : s.Keeps t.stopPart := by
  unfold State.stopPart
  exact ite (h.of_same rfl rfl rfl rfl) h

theorem exec_stop {v : BitVec 32} (h : exec (.stop v) s = .next t) : s.Keeps t := by
  simp only [exec, execStop] at h
  split at h
  · cases h
    exact ((refl s).of_same rfl rfl rfl rfl : s.Keeps (s.loadControl v)).stopPart
  · cases h

theorem exec_loadDivisor {v : BitVec 32} (h : exec (.loadDivisorAndAttnEnable v) s = .next t) : s.Keeps t := by
  simp only [exec, execLoadDivisorAndAttnEnable] at h
  split at h <;> cases h
  exact (refl s).of_same rfl rfl rfl rfl

theorem exec_attentionRead (h : exec .attentionRead s = .next t) : s.Keeps t := by
  cases h
  refine ⟨id, fun hs => ?_, id, id⟩
  exact List.Pairwise.sublist (List.tail_sublist _) hs

theorem exec_sweepTimerExpiry (h : exec .sweepTimerExpiry s = .next t) : s.Keeps t := by
  cases h
  split
  · exact refl s
  · refine requestSweep ?_
    exact (refl s).of_same rfl rfl rfl rfl

theorem exec_slotStep {w : Writes} (h : exec (.slotStep w) s = .next t) : s.Keeps t := by
  unfold exec execSlotStep at h
  refine of_withWrites (fun {r} h => ?_) h
  split
  next n _ => exact h.stepSlot n
  · exact h

/-! ## Orders -/

theorem exec_recordOpen {w : Writes} (h : exec (.recordOpen w) s = .next t) : s.Keeps t := by
  refine of_withWrites (fun {r} h => h.takeOrder fun n number => ?_) h
  split
  · exact h.answer n number _
  next e _ => exact (h.answer n number _).acceptRecord n e

theorem exec_moveOpen {w : Writes} (h : exec (.moveOpen w) s = .next t) : s.Keeps t := by
  refine of_withWrites (fun {r} h => h.takeOrder fun n number => ?_) h
  split
  · exact h.answer n number _
  next e key hc =>
    refine (h.answer n number .none).acceptMove ?_ key number
    rw [State.answer_entry]
    exact State.checkMoveOpen_held hc

theorem exec_faultedSlotReturn {w : Writes} (h : exec (.faultedSlotReturn w) s = .next t) : s.Keeps t :=
  of_withWrites (fun h => h.takeOrder fun n number => (h.answer n number _).toIdle n) h

theorem exec_unknownOrder {w : Writes} (h : exec (.unknownOrder w) s = .next t) : s.Keeps t :=
  of_withWrites (fun h => h.takeOrder fun n number => ite (h.answer n number _) (h.answer n number _)) h

/-- A part order that only starts something in flight, or is refused. -/
theorem answeredWith (h : s.Keeps t) (number : Mark) (r : Result) (detail : Nat) {g : State → State}
    (hg : ∀ u, (g u).pool = u.pool ∧ (g u).drawing = u.drawing ∧ (g u).flags = u.flags ∧ (g u).entries = u.entries) :
    s.Keeps (g (t.answerPart number r detail)) := by
  obtain ⟨hp, hd, hf, he⟩ := hg (t.answerPart number r detail)
  exact (h.answerPart number r detail).of_same hp hd hf he

theorem exec_fresh {w : Writes} (h : exec (.fresh w) s = .next t) : s.Keeps t := by
  refine of_withWrites (fun {r} h => h.takePartOrder fun number => ?_) h
  dsimp only
  split
  · exact h.answeredWith number r.freshResult 0 (g := fun u => { u with ready := true }) fun _ => ⟨rfl, rfl, rfl, rfl⟩
  · exact h.answerPart number r.freshResult 0

theorem exec_save {w : Writes} (h : exec (.save w) s = .next t) : s.Keeps t := by
  refine of_withWrites (fun {r} h => h.takePartOrder fun number => ?_) h
  dsimp only
  split
  · exact h.answerPart number _ 0
  · exact h.answeredWith number .none 0
      (g := fun u => { u with image := some (.save (some number) (r.headerField 112 8) r.entries r.clock (r.cell + 1) 0 Chain.start) })
      fun _ => ⟨rfl, rfl, rfl, rfl⟩

theorem exec_load {w : Writes} (h : exec (.load w) s = .next t) : s.Keeps t := by
  refine of_withWrites (fun {r} h => h.takePartOrder fun number => ?_) h
  dsimp only
  split
  · exact h.answerPart number _ 0
  · exact h.answeredWith number .none 0
      (g := fun u => { u with image := some (.load (some number) (r.headerField 112 8) none [] 0 Chain.start) })
      fun _ => ⟨rfl, rfl, rfl, rfl⟩

theorem showVote (h : s.Keeps t) (a : VoteAction) : s.Keeps (t.showVote a) := by
  unfold State.showVote
  have h1 : s.Keeps { t with header := { t.header with voteAction := a, voteClock := t.clock } } := h.of_same rfl rfl rfl rfl
  exact h1.showHeader _

theorem exec_time {w : Writes} (h : exec (.time w) s = .next t) : s.Keeps t :=
  of_withWrites (fun {r} h => h.takePartOrder fun number =>
    ((h.timeReport (r.headerField 104 4)).showVote _).answerPart number _ _) h

theorem exec_query {w : Writes} (h : exec (.query w) s = .next t) : s.Keeps t := by
  refine of_withWrites (fun {r} h => h.takePartOrder fun number => ?_) h
  dsimp only
  split
  · exact h.answerPart number _ 0
  next e _ =>
    exact h.answeredWith number .none 0
      (g := fun u => { u with query := some ⟨r.headerField 120 8, queryRecord e (r.entry e), some number⟩ })
      fun _ => ⟨rfl, rfl, rfl, rfl⟩

/-! ## Keys -/

theorem exec_keyDrawComplete {key : Key} (h : exec (.keyDrawComplete key) s = .next t) : s.Keeps t := by
  simp only [exec, execKeyDrawComplete, Host.Outcome.next.injEq] at h
  subst h
  split
  next hd => exact (refl s).drawn hd key
  · exact refl s

theorem exec_keyHandover (h : exec .keyHandover s = .next t) : s.Keeps t := by
  simp only [exec, execKeyHandover, Host.Outcome.next.injEq] at h
  subst h
  split
  next hp =>
    split
    · exact refl s
    · split
      next hl => exact (refl s).handOver hp hl
      · exact refl s
  · exact refl s

/-! ## Batches -/

theorem freeCipher (h : s.Keeps t) : s.Keeps t.freeCipher := h.of_same rfl rfl rfl rfl

theorem exec_chunkOpen {n : Fin 8} (h : exec (.chunkOpen n) s = .next t) : s.Keeps t := by
  simp only [exec, execChunkOpen, Host.Outcome.next.injEq] at h
  subst h
  split
  next hd =>
    refine (refl s).openChunk fun e he => ?_
    simp only [State.openDue, State.boundLive, he, Bool.and_eq_true, beq_iff_eq] at hd
    exact hd.2
  · exact refl s

theorem exec_sealingBatch (h : exec .sealingBatch s = .next t) : s.Keeps t := by
  simp only [exec, execSealingBatch, Host.Outcome.next.injEq] at h
  subst h
  split
  next n base pos pkts key gen seq orphan _ =>
    have hw := (refl s).freeCipher.runWork (.sealing base pos pkts key gen seq)
    exact ite hw (ite (ite hw (hw.sealedBatch n _)) (hw.faultRecord n _))
  · exact refl s

theorem exec_closingBatch (h : exec .closingBatch s = .next t) : s.Keeps t := by
  simp only [exec, execClosingBatch, Host.Outcome.next.injEq] at h
  subst h
  split
  next n base len count tag key chain orphan _ =>
    have hw := (refl s).freeCipher.runWork (.closing base len count tag key chain)
    exact ite hw (ite (hw.closedChunk n) (hw.faultRecord n _))
  · exact refl s

theorem exec_verifyBatch {w : Writes} (h : exec (.verifyBatch w) s = .next t) : s.Keeps t := by
  unfold exec execVerifyBatch at h
  refine of_withWrites (fun {r} h => ?_) h
  split
  · dsimp only
    split
    · exact h.freeCipher.verifyFrame _ _ _
    · exact h.freeCipher
  · exact h

theorem exec_deliverBatch {w : Writes} (h : exec (.deliverBatch w) s = .next t) : s.Keeps t := by
  unfold exec execDeliverBatch at h
  refine of_withWrites (fun {r} h => ?_) h
  split
  next n base pos count key gen seq expect winBase winSize winPos orphan _ =>
    have hw := h.freeCipher.runWork (.deliver base pos count key gen seq expect winBase winSize winPos)
    dsimp only
    refine ite hw ?_
    split
    · exact hw.faultFrameSlot n _
    · exact hw.badRange n
    · exact ite (hw.delivered n count) (hw.faultFrameSlot n _)
  · exact h

theorem exec_resealBatch {w : Writes} (h : exec (.resealBatch w) s = .next t) : s.Keeps t := by
  unfold exec execResealBatch at h
  refine of_withWrites (fun {r} h => ?_) h
  split
  next n base pos count key gen seq expect token out orphan _ =>
    have hw := h.freeCipher.runWork (.reseal base pos count key gen seq expect token out)
    dsimp only
    refine ite hw ?_
    split
    · exact hw.faultFrameSlot n _
    · exact hw.badRange n
    · exact ite (hw.modSlot n _) (hw.faultFrameSlot n _)
  · exact h

theorem exec_finalResealBatch (h : exec .finalResealBatch s = .next t) : s.Keeps t := by
  simp only [exec, execFinalResealBatch, Host.Outcome.next.injEq] at h
  subst h
  split
  next n out len count tag token chain orphan _ =>
    have hw := (refl s).freeCipher.runWork (.finalReseal out len count tag token chain)
    exact ite hw (ite (hw.finalResealed n) (hw.faultFrameSlot n _))
  · exact refl s

theorem exec_outputReservation {n : Fin 8} (h : exec (.outputReservation n) s = .next t) : s.Keeps t := by
  simp only [exec, execOutputReservation, Host.Outcome.next.injEq] at h
  subst h
  exact ite (((refl s).modSlot n _).setSlotState n _) (refl s)

theorem exec_cipherGrant (h : exec .cipherGrant s = .next t) : s.Keeps t := by
  simp only [exec, execCipherGrant, State.grant, Host.Outcome.next.injEq] at h
  subst h
  refine ite ?_ (refl s)
  split
  · exact refl s
  · exact (refl s).of_same rfl rfl rfl rfl

/-! ## Images -/

theorem exec_saveEntryBatch (h : exec .saveEntryBatch s = .next t) : s.Keeps t := by
  simp only [exec, execSaveEntryBatch, Host.Outcome.next.injEq] at h
  subst h
  split
  · split
    · exact (refl s).of_same rfl rfl rfl rfl
    · refine endImage ?_ _ _ _
      exact (refl s).of_same rfl rfl rfl rfl
  · exact refl s

theorem exec_saveHeaderBatch (h : exec .saveHeaderBatch s = .next t) : s.Keeps t := by
  simp only [exec, execSaveHeaderBatch, Host.Outcome.next.injEq] at h
  subst h
  split
  · split
    · refine endImage ?_ _ _ _
      exact (refl s).of_same rfl rfl rfl rfl
    · refine endImage ?_ _ _ _
      exact (refl s).of_same rfl rfl rfl rfl
  · exact refl s

theorem exec_loadHeaderBatch {w : Writes} (h : exec (.loadHeaderBatch w) s = .next t) : s.Keeps t := by
  unfold exec execLoadHeaderBatch at h
  refine of_withWrites (fun {r} h => ?_) h
  split
  · refine ite (ite ?_ (h.freeCipher.endImage _ _ _)) (h.freeCipher.endImage _ _ _)
    exact h.of_same rfl rfl rfl rfl
  · exact h

theorem exec_slotFaultLapsed {n : Fin 8} {w : Writes} (h : exec (.slotFaultLapsed n w) s = .next t) : s.Keeps t :=
  of_withWrites (fun h => ite (h.faultSlot n _) h) h

end State.Keeps

open State.Keeps in
/-- Every command but the entry batches of a LOAD keeps the pool, the flags and the table well formed. -/
theorem exec_keeps {i : Instr} {s t : State} (hi : ∀ w, i ≠ .loadEntryBatch w) (h : exec i s = .next t) : s.Keeps t := by
  cases i with
  | fullReset a b =>
    cases h
    exact of_reset s rfl rfl rfl State.entry_reset
  | engineReset => exact exec_engineReset h
  | start => exact exec_start h
  | stop => exact exec_stop h
  | stopDrainEnd =>
    cases h
    exact ite ((refl s).of_same rfl rfl rfl rfl) (refl s)
  | loadDivisorAndAttnEnable => exact exec_loadDivisor h
  | sweepRequest =>
    cases h
    exact ite (refl s).requestSweep (refl s)
  | attentionRead => exact exec_attentionRead h
  | boardBaseLowWrite =>
    cases h
    exact ite ((refl s).of_same rfl rfl rfl rfl) (refl s)
  | boardBaseHighWrite =>
    cases h
    exact ite ((refl s).of_same rfl rfl rfl rfl) (refl s)
  | registerWriteIgnored =>
    cases h
    exact refl s
  | sweepTimerExpiry => exact exec_sweepTimerExpiry h
  | slotStep => exact exec_slotStep h
  | endOfSweepWrites => exact of_withWrites (fun h => ite h.endSweep h) h
  | recordOpen => exact exec_recordOpen h
  | playOpen => exact of_withWrites (fun h => h.takeOrder fun n number => h.openPlay n number _) h
  | checkOpen => exact of_withWrites (fun h => h.takeOrder fun n number => h.openPlay n number _) h
  | moveOpen => exact exec_moveOpen h
  | recordClose => exact of_withWrites (fun h => h.takeOrder fun n number => h.closeRecord n number) h
  | recordAbort => exact of_withWrites (fun h => h.takeOrder fun n number => h.abortRecord n number) h
  | playCheckClose => exact of_withWrites (fun h => h.takeOrder fun n number => h.closePlay n number) h
  | playCheckAbort => exact of_withWrites (fun h => h.takeOrder fun n number => h.abortPlay n number) h
  | moveClose => exact of_withWrites (fun h => h.takeOrder fun n number => h.closeMove n number) h
  | moveAbort => exact of_withWrites (fun h => h.takeOrder fun n number => h.abortMove n number) h
  | faultedSlotReturn => exact exec_faultedSlotReturn h
  | rule => exact of_withWrites (fun h => h.takeOrder fun n number => h.answerRule n number fun h => h.applyRule n) h
  | rotate => exact of_withWrites (fun h => h.takeOrder fun n number => h.answerRule n number fun h => h.applyRotate n) h
  | flush => exact of_withWrites (fun h => h.takeOrder fun n number => h.answerRule n number fun h => h.askClose n) h
  | unknownOrder => exact exec_unknownOrder h
  | fresh => exact exec_fresh h
  | save => exact exec_save h
  | load => exact exec_load h
  | time => exact exec_time h
  | erase => exact of_withWrites (fun h => h.takePartOrder fun number => h.eraseEntry number _) h
  | query => exact exec_query h
  | queryWriteComplete =>
    cases h
    split
    · exact refl s
    · exact (refl s).finishQuery _
  | unknownPartOrder => exact of_withWrites (fun h => h.takePartOrder fun number => h.answerPart number _ _) h
  | keyDrawComplete => exact exec_keyDrawComplete h
  | keyHandover => exact exec_keyHandover h
  | takeStart n => exact of_withWrites (fun h => ite (h.startTake n) h) h
  | takeComplete n => exact of_withWrites (fun h => ite (h.endTake n) h) h
  | chunkOpen => exact exec_chunkOpen h
  | holdTimerExpiry n =>
    cases h
    exact ite ((refl s).askClose n) (refl s)
  | cipherGrant => exact exec_cipherGrant h
  | sealingBatch => exact exec_sealingBatch h
  | closingBatch => exact exec_closingBatch h
  | frameTake n =>
    cases h
    exact ite ((refl s).takeFrame n) (refl s)
  | verifyBatch => exact exec_verifyBatch h
  | deliverBatch => exact exec_deliverBatch h
  | outputReservation => exact exec_outputReservation h
  | resealBatch => exact exec_resealBatch h
  | finalResealBatch => exact exec_finalResealBatch h
  | saveEntryBatch => exact exec_saveEntryBatch h
  | saveHeaderBatch => exact exec_saveHeaderBatch h
  | loadHeaderBatch => exact exec_loadHeaderBatch h
  | loadEntryBatch w => exact absurd rfl (hi w)
  | clockTick =>
    have h1 : s.Keeps { s with tickPhase := 0 } := (refl s).of_same rfl rfl rfl rfl
    exact (Host.Outcome.next.inj h) ▸ h1.advanceClock _
  | slotFaultLapsed => exact exec_slotFaultLapsed h

end Sys2Proof.Machine
end

