-- ==== Sys2Proof/Proofs/Unit.lean ====
section
/-! Proofs: which commands move readiness, the generation cell and the vote window (R146, R165, R166, R168, R171). -/

namespace Sys2Proof.Machine

/-! ## Readiness, cell, keys and vote window -/

/-- Readiness, the generation cell, the fused keys and the vote window. -/
def Kept.unit (k : Kept) : Bool × Nat × Fused × List Nat := (k.ready, k.cell, k.fused, k.votes)

def State.unit (s : State) : Bool × Nat × Fused × List Nat := s.kept.unit

theorem State.unit_eq_iff (s t : State) :
    t.unit = s.unit ↔ t.ready = s.ready ∧ t.cell = s.cell ∧ t.fused = s.fused ∧ t.votes = s.votes := by
  simp [State.unit, Kept.unit, State.kept]

theorem State.unit_of_kept {s t : State} (h : t.kept = s.kept) : t.unit = s.unit := congrArg Kept.unit h

theorem State.unit_foldl {α : Type} {op : State → α → State} (h : ∀ s a, (op s a).unit = s.unit) (l : List α) (s : State) :
    (l.foldl op s).unit = s.unit := by
  induction l generalizing s with
  | nil => rfl
  | cons a l ih => rw [List.foldl_cons, ih, h]

/-! ### The forms of commands -/

theorem withWrites_unit {w : Writes} {effect : State → State} {s t : State} (hx : ∀ r, (effect r).unit = r.unit)
    (h : withWrites w s effect = .next t) : t.unit = s.unit := by
  obtain ⟨-, rfl⟩ := withWrites_next.1 h
  rw [hx]
  rfl

theorem State.takeOrder_unit {row : OrderKind → Mode → Slot → Bool} {effect : State → Fin 8 → Mark → State} {s : State}
    (hx : ∀ n number, (effect s n number).unit = s.unit) : (s.takeOrder row effect).unit = s.unit := by
  unfold State.takeOrder
  split
  next n number _ =>
    split
    · exact hx n number
    · rfl
  · rfl

theorem State.takePartOrder_unit {kind : PartOrderKind} {effect : State → Mark → State} {s : State}
    (hx : ∀ number, (effect s number).unit = s.unit) : (s.takePartOrder kind effect).unit = s.unit := by
  unfold State.takePartOrder
  split
  · exact hx _
  · rfl

/-! ### Sweeps -/

theorem State.writeHeld_kept (s : State) (own : BoardField → Bool) : (s.writeHeld own).kept = s.kept :=
  State.kept_foldl _ (fun s f => s.writeField_kept f) _ s

theorem State.flushHeld_unit (s : State) : s.flushHeld.unit = s.unit := by
  unfold State.flushHeld
  extract_lets s1 s2 s3 s4
  have h1 : s1.kept = s.kept := by
    unfold s1
    split
    · exact State.kept_foldl _ (fun s n => s.writeRecord_kept n) _ s
    · exact State.kept_foldl _ (fun s n => s.writeHeld_kept _) _ s
  have h2 : s2.kept = s1.kept := by
    unfold s2
    split
    · rw [State.writeHeaderZeros_kept]
      exact State.kept_foldl _ (fun s f => s.writeField_kept _) _ s1
    · exact s1.writeHeld_kept _
  have h3 : s3.kept = s2.kept := by
    unfold s3
    split
    · exact State.kept_foldl _ (fun s f => s.writeField_kept _) _ s2
    · rfl
  have h4 : s4.kept = s3.kept := State.kept_foldl _ (fun s f => s.raise_kept f) _ s3
  have h5 : s4.unit = s.unit := State.unit_of_kept (h4.trans (h3.trans (h2.trans h1)))
  clear_value s4
  exact h5

theorem State.beginSweep_unit (s : State) : s.beginSweep.unit = s.unit := s.flushHeld_unit

theorem State.requestSweep_unit (s : State) : s.requestSweep.unit = s.unit := by
  unfold State.requestSweep
  split
  · exact s.beginSweep_unit
  · rfl

theorem State.compareOrder_unit (s : State) (n : Fin 8) : (s.compareOrder n).unit = s.unit := by
  unfold State.compareOrder
  split <;> rfl

theorem State.stepSlot_unit (s : State) (n : Fin 8) : (s.stepSlot n).unit = s.unit := by
  unfold State.stepSlot
  split
  · rw [State.compareOrder_unit]
    exact State.unit_of_kept (s.refreshSlot_kept n)
  · exact s.compareOrder_unit n

theorem State.writeDirectory_unit (s : State) (e : Fin 64) : (s.writeDirectory e).unit = s.unit := by
  unfold State.writeDirectory
  dsimp only
  split <;> rfl

theorem State.writeMirrors_unit (s : State) : s.writeMirrors.unit = s.unit := rfl

theorem State.endSweep_unit (s : State) : s.endSweep.unit = s.unit := by
  have hd : (allEntries.foldl State.writeDirectory s).writeMirrors.unit = s.unit :=
    (State.writeMirrors_unit _).trans (State.unit_foldl (fun s e => s.writeDirectory_unit e) allEntries s)
  unfold State.endSweep
  generalize (allEntries.foldl State.writeDirectory s).writeMirrors = u at hd
  dsimp only
  split
  · rw [State.beginSweep_unit]
    exact hd
  · exact hd

/-! ### Orders of slots -/

theorem State.acceptRecord_kept (s : State) (n : Fin 8) (e : Fin 64) : (s.acceptRecord n e).kept = s.kept := by
  unfold State.acceptRecord
  extract_lets chunkLength g x y s1 s2 s3
  have h3 : s3.kept = s.kept := (State.setEngine_kept ..).trans ((State.setSlot_kept ..).trans (State.modEntry_kept ..))
  clear_value s3
  rw [State.derive_kept]
  exact h3

theorem State.setUpFrameSlot_kept (s : State) (n : Fin 8) (e : Fin 64) (mode : Mode) (token : Option Key)
    (openServed : Option Mark) : (s.setUpFrameSlot n e mode token openServed).kept = s.kept := by
  unfold State.setUpFrameSlot
  exact (State.setEngine_kept ..).trans (State.setSlot_kept ..)

theorem State.acceptPlay_kept (s : State) (n : Fin 8) (e : Fin 64) (mode : Mode) : (s.acceptPlay n e mode).kept = s.kept := by
  unfold State.acceptPlay
  dsimp only
  split <;> simp [State.setUpFrameSlot_kept]

theorem State.acceptMove_kept (s : State) (n : Fin 8) (e : Fin 64) (key : Key) (number : Mark) :
    (s.acceptMove n e key number).kept = s.kept := by
  simp [State.acceptMove, State.setUpFrameSlot_kept]

theorem State.openPlay_kept (s : State) (n : Fin 8) (number : Mark) (mode : Mode) :
    (s.openPlay n number mode).kept = s.kept := by
  unfold State.openPlay
  split <;> simp [State.acceptPlay_kept]

theorem State.closeRecord_kept (s : State) (n : Fin 8) (number : Mark) : (s.closeRecord n number).kept = s.kept := by
  unfold State.closeRecord
  dsimp only
  split
  · simp
  · simp
  · split <;> simp

theorem State.abortRecord_kept (s : State) (n : Fin 8) (number : Mark) : (s.abortRecord n number).kept = s.kept := by
  unfold State.abortRecord
  dsimp only
  split
  · simp
  · split <;> simp

theorem State.askFrameClose_kept (s : State) (n : Fin 8) (number : Mark) : (s.askFrameClose n number).kept = s.kept := by
  simp [State.askFrameClose]

theorem State.closePlay_kept (s : State) (n : Fin 8) (number : Mark) : (s.closePlay n number).kept = s.kept := by
  unfold State.closePlay
  dsimp only
  split
  · simp
  · split
    · simp
    · split
      · simp
      · split <;> simp [State.askFrameClose_kept]

theorem State.closeMove_kept (s : State) (n : Fin 8) (number : Mark) : (s.closeMove n number).kept = s.kept := by
  unfold State.closeMove
  dsimp only
  split
  · simp
  · split
    · simp
    · split <;> simp [State.askFrameClose_kept]

theorem State.abortPlay_kept (s : State) (n : Fin 8) (number : Mark) : (s.abortPlay n number).kept = s.kept := by
  unfold State.abortPlay
  dsimp only
  split
  · simp
  · split
    · simp
    · split <;> simp

theorem State.abortMove_kept (s : State) (n : Fin 8) (number : Mark) : (s.abortMove n number).kept = s.kept := by
  unfold State.abortMove
  split <;> simp

theorem State.answerRule_kept (s : State) (n : Fin 8) (number : Mark) {effect : State → State}
    (hx : ∀ u, (effect u).kept = u.kept) : (s.answerRule n number effect).kept = s.kept := by
  unfold State.answerRule
  dsimp only
  split <;> simp [hx]

theorem State.applyRule_kept (s : State) (n : Fin 8) : (s.applyRule n).kept = s.kept := by
  unfold State.applyRule
  dsimp only
  split
  · simp
  · split
    · split <;> simp
    · simp

theorem State.applyRotate_kept (s : State) (n : Fin 8) : (s.applyRotate n).kept = s.kept := by
  unfold State.applyRotate
  split
  · rfl
  · split <;> simp

/-! ### Part orders -/

theorem State.showHeader_kept (s : State) (fs : List HeaderField) : (s.showHeader fs).kept = s.kept :=
  State.kept_foldl _ (fun s _ => s.showField_kept _) fs s

theorem State.notify_unit (s : State) (f : Flag) : (s.notify f).unit = s.unit := State.unit_of_kept (s.notify_kept f)

theorem State.showHeader_unit (s : State) (fs : List HeaderField) : (s.showHeader fs).unit = s.unit :=
  State.unit_of_kept (s.showHeader_kept fs)

theorem State.writePartResult_unit (s : State) (r : Result) (detail : Nat) : (s.writePartResult r detail).unit = s.unit := by
  have h : ({ s with header := { s.header with result := r, detail := detail } } : State).unit = s.unit := rfl
  unfold State.writePartResult
  dsimp only
  split
  · rw [State.showHeader_unit, h]
  · rw [State.notify_unit, State.showHeader_unit, h]

theorem State.answerPart_unit (s : State) (number : Mark) (r : Result) (detail : Nat) :
    (s.answerPart number r detail).unit = s.unit := by
  unfold State.answerPart
  extract_lets skipped header s1 s2
  have h1 : s1.unit = s.unit := rfl
  have h2 : s2.unit = s1.unit := (State.writePartResult_unit ..).trans (State.showHeader_unit ..)
  clear_value s2
  exact (State.showHeader_unit ..).trans (h2.trans h1)

theorem State.setImage_unit (s : State) (o : Option ImageOp) : ({ s with image := o } : State).unit = s.unit := rfl

theorem State.setQuery_unit (s : State) (q : Option Query) : ({ s with query := q } : State).unit = s.unit := rfl

theorem State.completePart_unit (s : State) (number : Option Mark) (r : Result) (detail : Nat) :
    (s.completePart number r detail).unit = s.unit := by
  unfold State.completePart
  split
  · exact s.writePartResult_unit r detail
  · rfl

theorem State.endImage_unit (s : State) (number : Option Mark) (r : Result) (detail : Nat) :
    (s.endImage number r detail).unit = s.unit := State.completePart_unit ..

theorem State.finishQuery_unit (s : State) (q : Query) : (s.finishQuery q).unit = s.unit := by
  unfold State.finishQuery
  exact State.completePart_unit ..

theorem State.eraseEntry_unit (s : State) (number : Mark) (recording : Nat) :
    (s.eraseEntry number recording).unit = s.unit := by
  unfold State.eraseEntry
  split
  · exact s.answerPart_unit ..
  · split
    · exact s.answerPart_unit ..
    · split
      · exact s.answerPart_unit ..
      · dsimp only
        split
        · exact (State.answerPart_unit ..).trans (State.unit_of_kept (s.freeEntry_kept _))
        · exact s.answerPart_unit ..

/-! ### Commands -/

/-- What a checked batch does after its writes leaves the unit fields alone. -/
theorem unit_of_ran {s t : State} {work : Work} (h : t.kept = (s.freeCipher.runWork work).1.kept) : t.unit = s.unit :=
  State.unit_of_kept (h.trans (State.runWork_kept ..))

theorem exec_unit_sealingBatch {s t : State} (h : exec .sealingBatch s = .next t) : t.unit = s.unit := by
  simp only [exec, execSealingBatch, Host.Outcome.next.injEq] at h
  subst h
  split
  · split
    · exact unit_of_ran rfl
    · split
      · split
        · exact unit_of_ran rfl
        · exact unit_of_ran (State.sealedBatch_kept ..)
      · exact unit_of_ran (State.faultRecord_kept ..)
  · rfl

theorem exec_unit_closingBatch {s t : State} (h : exec .closingBatch s = .next t) : t.unit = s.unit := by
  simp only [exec, execClosingBatch, Host.Outcome.next.injEq] at h
  subst h
  split
  · split
    · exact unit_of_ran rfl
    · split
      · exact unit_of_ran (State.closedChunk_kept ..)
      · exact unit_of_ran (State.faultRecord_kept ..)
  · rfl

theorem exec_unit_finalResealBatch {s t : State} (h : exec .finalResealBatch s = .next t) : t.unit = s.unit := by
  simp only [exec, execFinalResealBatch, Host.Outcome.next.injEq] at h
  subst h
  split
  · split
    · exact unit_of_ran rfl
    · split
      · exact unit_of_ran (State.finalResealed_kept ..)
      · exact unit_of_ran (State.faultFrameSlot_kept ..)
  · rfl

theorem exec_unit_verifyBatch {w : Writes} {s t : State} (h : exec (.verifyBatch w) s = .next t) : t.unit = s.unit := by
  unfold exec execVerifyBatch at h
  refine withWrites_unit (fun r => ?_) h
  split
  · dsimp only
    split
    · exact State.unit_of_kept (State.verifyFrame_kept ..)
    · rfl
  · rfl

theorem exec_unit_deliverBatch {w : Writes} {s t : State} (h : exec (.deliverBatch w) s = .next t) : t.unit = s.unit := by
  unfold exec execDeliverBatch at h
  refine withWrites_unit (fun r => ?_) h
  split
  · dsimp only
    split
    · exact unit_of_ran rfl
    · split
      · exact unit_of_ran (State.faultFrameSlot_kept ..)
      · exact unit_of_ran (State.badRange_kept ..)
      · split
        · exact unit_of_ran (State.delivered_kept ..)
        · exact unit_of_ran (State.faultFrameSlot_kept ..)
  · rfl

theorem exec_unit_resealBatch {w : Writes} {s t : State} (h : exec (.resealBatch w) s = .next t) : t.unit = s.unit := by
  unfold exec execResealBatch at h
  refine withWrites_unit (fun r => ?_) h
  split
  · dsimp only
    split
    · exact unit_of_ran rfl
    · split
      · exact unit_of_ran (State.faultFrameSlot_kept ..)
      · exact unit_of_ran (State.badRange_kept ..)
      · split
        · exact unit_of_ran (State.resealed_kept ..)
        · exact unit_of_ran (State.faultFrameSlot_kept ..)
  · rfl

theorem exec_unit_saveEntryBatch {s t : State} (h : exec .saveEntryBatch s = .next t) : t.unit = s.unit := by
  simp only [exec, execSaveEntryBatch, Host.Outcome.next.injEq] at h
  subst h
  split
  · split
    · rfl
    · exact State.endImage_unit ..
  · rfl

theorem exec_unit_loadHeaderBatch {w : Writes} {s t : State} (h : exec (.loadHeaderBatch w) s = .next t) :
    t.unit = s.unit := by
  unfold exec execLoadHeaderBatch at h
  refine withWrites_unit (fun r => ?_) h
  split
  · dsimp only
    split
    · split
      · rfl
      · exact State.endImage_unit ..
    · exact State.endImage_unit ..
  · rfl

theorem exec_unit_start {v : BitVec 32} {w : Writes} {s t : State} (h : exec (.start v w) s = .next t) : t.unit = s.unit := by
  simp only [exec, execStart] at h
  split at h
  · refine withWrites_unit (fun r => ?_) h
    unfold State.startPart
    split
    · split
      · exact State.beginSweep_unit _
      · rfl
    · rfl
  · cases h

theorem exec_unit_recordOpen {w : Writes} {s t : State} (h : exec (.recordOpen w) s = .next t) : t.unit = s.unit := by
  refine withWrites_unit (fun r => State.takeOrder_unit fun n number => ?_) h
  split
  · exact State.unit_of_kept (State.answer_kept ..)
  · exact State.unit_of_kept ((State.acceptRecord_kept ..).trans (State.answer_kept ..))

theorem exec_unit_playOpen {w : Writes} {s t : State} (h : exec (.playOpen w) s = .next t) : t.unit = s.unit := by
  exact withWrites_unit (fun r => State.takeOrder_unit fun n number => State.unit_of_kept (r.openPlay_kept ..)) h

theorem exec_unit_checkOpen {w : Writes} {s t : State} (h : exec (.checkOpen w) s = .next t) : t.unit = s.unit := by
  exact withWrites_unit (fun r => State.takeOrder_unit fun n number => State.unit_of_kept (r.openPlay_kept ..)) h

theorem exec_unit_moveOpen {w : Writes} {s t : State} (h : exec (.moveOpen w) s = .next t) : t.unit = s.unit := by
  refine withWrites_unit (fun r => State.takeOrder_unit fun n number => ?_) h
  split
  · exact State.unit_of_kept (State.answer_kept ..)
  · exact State.unit_of_kept ((State.acceptMove_kept ..).trans (State.answer_kept ..))

theorem exec_unit_recordClose {w : Writes} {s t : State} (h : exec (.recordClose w) s = .next t) : t.unit = s.unit := by
  exact withWrites_unit (fun r => State.takeOrder_unit fun n number => State.unit_of_kept (r.closeRecord_kept ..)) h

theorem exec_unit_recordAbort {w : Writes} {s t : State} (h : exec (.recordAbort w) s = .next t) : t.unit = s.unit := by
  exact withWrites_unit (fun r => State.takeOrder_unit fun n number => State.unit_of_kept (r.abortRecord_kept ..)) h

theorem exec_unit_playCheckClose {w : Writes} {s t : State} (h : exec (.playCheckClose w) s = .next t) : t.unit = s.unit := by
  exact withWrites_unit (fun r => State.takeOrder_unit fun n number => State.unit_of_kept (r.closePlay_kept ..)) h

theorem exec_unit_playCheckAbort {w : Writes} {s t : State} (h : exec (.playCheckAbort w) s = .next t) : t.unit = s.unit := by
  exact withWrites_unit (fun r => State.takeOrder_unit fun n number => State.unit_of_kept (r.abortPlay_kept ..)) h

theorem exec_unit_moveClose {w : Writes} {s t : State} (h : exec (.moveClose w) s = .next t) : t.unit = s.unit := by
  exact withWrites_unit (fun r => State.takeOrder_unit fun n number => State.unit_of_kept (r.closeMove_kept ..)) h

theorem exec_unit_moveAbort {w : Writes} {s t : State} (h : exec (.moveAbort w) s = .next t) : t.unit = s.unit := by
  exact withWrites_unit (fun r => State.takeOrder_unit fun n number => State.unit_of_kept (r.abortMove_kept ..)) h

theorem exec_unit_faultedSlotReturn {w : Writes} {s t : State} (h : exec (.faultedSlotReturn w) s = .next t)
    : t.unit = s.unit := by
  refine withWrites_unit (fun r => State.takeOrder_unit fun n number => ?_) h
  exact State.unit_of_kept (((r.answer n number .done).toIdle_kept n).trans (r.answer_kept n number .done))

theorem exec_unit_rule {w : Writes} {s t : State} (h : exec (.rule w) s = .next t) : t.unit = s.unit := by
  exact withWrites_unit (fun r => State.takeOrder_unit fun n number =>
    State.unit_of_kept (State.answerRule_kept _ n number fun u => u.applyRule_kept n)) h

theorem exec_unit_rotate {w : Writes} {s t : State} (h : exec (.rotate w) s = .next t) : t.unit = s.unit := by
  exact withWrites_unit (fun r => State.takeOrder_unit fun n number =>
    State.unit_of_kept (State.answerRule_kept _ n number fun u => u.applyRotate_kept n)) h

theorem exec_unit_flush {w : Writes} {s t : State} (h : exec (.flush w) s = .next t) : t.unit = s.unit := by
  exact withWrites_unit (fun r => State.takeOrder_unit fun n number =>
    State.unit_of_kept (State.answerRule_kept _ n number fun u => u.askClose_kept n)) h

theorem exec_unit_unknownOrder {w : Writes} {s t : State} (h : exec (.unknownOrder w) s = .next t) : t.unit = s.unit := by
  refine withWrites_unit (fun r => State.takeOrder_unit fun n number => ?_) h
  split <;> exact State.unit_of_kept (State.answer_kept ..)

theorem exec_unit_save {w : Writes} {s t : State} (h : exec (.save w) s = .next t) : t.unit = s.unit := by
  refine withWrites_unit (fun r => State.takePartOrder_unit fun number => ?_) h
  dsimp only
  split
  · exact r.answerPart_unit ..
  · exact (State.setImage_unit ..).trans (r.answerPart_unit ..)

theorem exec_unit_load {w : Writes} {s t : State} (h : exec (.load w) s = .next t) : t.unit = s.unit := by
  refine withWrites_unit (fun r => State.takePartOrder_unit fun number => ?_) h
  dsimp only
  split
  · exact r.answerPart_unit ..
  · exact (State.setImage_unit ..).trans (r.answerPart_unit ..)

theorem exec_unit_query {w : Writes} {s t : State} (h : exec (.query w) s = .next t) : t.unit = s.unit := by
  refine withWrites_unit (fun r => State.takePartOrder_unit fun number => ?_) h
  dsimp only
  split
  · exact r.answerPart_unit ..
  · exact (State.setQuery_unit ..).trans (r.answerPart_unit ..)

/-- The commands that can move readiness, the cell or the vote window. -/
def movesUnit : Instr → Bool
  | .fullReset .. | .fresh _ | .loadEntryBatch _ | .saveHeaderBatch | .time _ => true
  | _ => false

/-- Every other command leaves readiness, the cell, the fused keys and the vote window alone. -/
theorem exec_unit {i : Instr} {s t : State} (hi : movesUnit i = false) (h : exec i s = .next t) : t.unit = s.unit := by
  cases i with
  | fullReset => cases hi
  | engineReset v a b =>
    simp only [exec, execEngineReset] at h
    split at h
    · rw [← Host.Outcome.next.inj h]
      rw [State.unit_of_kept (State.deriveAll_kept _)]
      rfl
    · cases h
  | start => exact exec_unit_start h
  | stop v =>
    simp only [exec, execStop] at h
    split at h
    · cases h
      unfold State.stopPart
      split <;> rfl
    · cases h
  | stopDrainEnd =>
    cases h
    split <;> rfl
  | loadDivisorAndAttnEnable v =>
    simp only [exec, execLoadDivisorAndAttnEnable] at h
    split at h <;> cases h
    rfl
  | sweepRequest =>
    cases h
    split
    · exact s.requestSweep_unit
    · rfl
  | attentionRead => cases h; rfl
  | boardBaseLowWrite =>
    cases h
    split <;> rfl
  | boardBaseHighWrite =>
    cases h
    split <;> rfl
  | registerWriteIgnored => cases h; rfl
  | sweepTimerExpiry =>
    cases h
    split
    · rfl
    · exact State.requestSweep_unit _
  | slotStep w =>
    unfold exec execSlotStep at h
    refine withWrites_unit (fun r => ?_) h
    split
    · exact r.stepSlot_unit _
    · rfl
  | endOfSweepWrites w =>
    unfold exec execEndOfSweepWrites at h
    refine withWrites_unit (fun r => ?_) h
    split
    · exact r.endSweep_unit
    · rfl
  | recordOpen => exact exec_unit_recordOpen h
  | playOpen => exact exec_unit_playOpen h
  | checkOpen => exact exec_unit_checkOpen h
  | moveOpen => exact exec_unit_moveOpen h
  | recordClose => exact exec_unit_recordClose h
  | recordAbort => exact exec_unit_recordAbort h
  | playCheckClose => exact exec_unit_playCheckClose h
  | playCheckAbort => exact exec_unit_playCheckAbort h
  | moveClose => exact exec_unit_moveClose h
  | moveAbort => exact exec_unit_moveAbort h
  | faultedSlotReturn => exact exec_unit_faultedSlotReturn h
  | rule => exact exec_unit_rule h
  | rotate => exact exec_unit_rotate h
  | flush => exact exec_unit_flush h
  | unknownOrder => exact exec_unit_unknownOrder h
  | fresh => cases hi
  | save => exact exec_unit_save h
  | load => exact exec_unit_load h
  | time => cases hi
  | erase w =>
    exact withWrites_unit (fun r => State.takePartOrder_unit fun number => r.eraseEntry_unit ..) h
  | query => exact exec_unit_query h
  | queryWriteComplete =>
    cases h
    split
    · rfl
    · exact s.finishQuery_unit _
  | unknownPartOrder w =>
    exact withWrites_unit (fun r => State.takePartOrder_unit fun number => r.answerPart_unit ..) h
  | keyDrawComplete =>
    cases h
    split <;> rfl
  | keyHandover =>
    cases h
    split
    · split
      · rfl
      · split
        · exact State.unit_of_kept (s.handOver_kept ..)
        · rfl
    · rfl
  | takeStart n w =>
    unfold exec execTakeStart at h
    refine withWrites_unit (fun r => ?_) h
    split
    · exact State.unit_of_kept (r.startTake_kept n)
    · rfl
  | takeComplete n w =>
    unfold exec execTakeComplete at h
    refine withWrites_unit (fun r => ?_) h
    split
    · exact State.unit_of_kept (r.endTake_kept n)
    · rfl
  | chunkOpen n =>
    cases h
    split
    · exact State.unit_of_kept (s.openChunk_kept n)
    · rfl
  | holdTimerExpiry n =>
    cases h
    split
    · exact State.unit_of_kept (s.askClose_kept n)
    · rfl
  | cipherGrant =>
    cases h
    split
    · unfold State.grant
      split <;> rfl
    · rfl
  | sealingBatch => exact exec_unit_sealingBatch h
  | closingBatch => exact exec_unit_closingBatch h
  | frameTake n =>
    cases h
    split
    · exact State.unit_of_kept (s.takeFrame_kept n)
    · rfl
  | verifyBatch => exact exec_unit_verifyBatch h
  | deliverBatch => exact exec_unit_deliverBatch h
  | outputReservation n =>
    cases h
    split
    · exact State.unit_of_kept (s.reserveOutput_kept n)
    · rfl
  | resealBatch => exact exec_unit_resealBatch h
  | finalResealBatch => exact exec_unit_finalResealBatch h
  | saveEntryBatch => exact exec_unit_saveEntryBatch h
  | saveHeaderBatch => cases hi
  | loadHeaderBatch => exact exec_unit_loadHeaderBatch h
  | loadEntryBatch => cases hi
  | clockTick =>
    rw [← Host.Outcome.next.inj h, State.unit_of_kept (State.advanceClock_kept _ _)]
    rfl
  | slotFaultLapsed n w =>
    unfold exec execSlotFaultLapsed at h
    refine withWrites_unit (fun r => ?_) h
    split
    · exact State.unit_of_kept (r.faultSlot_kept n _)
    · rfl

end Sys2Proof.Machine
end

