-- ==== Sys2Proof/Proofs/Unready.lean ====
section
/-! Proofs: while the part is NOT_READY no command moves its table or opens a slot (R26, R165). -/

namespace Sys2Proof.Machine

/-! ## Slots, entries, waiting list and batch -/

/-- The slots, the table, the waiting list and the batch in flight. -/
def State.body (s : State) : Vector Slot 8 × Vector Entry 64 × List (Fin 8) × Option Flight :=
  (s.slots, s.entries, s.waiting, s.flight)

theorem State.body_foldl {α : Type} {op : State → α → State} (h : ∀ s a, (op s a).body = s.body) (l : List α) (s : State) :
    (l.foldl op s).body = s.body := by
  induction l generalizing s with
  | nil => rfl
  | cons a l ih => rw [List.foldl_cons, ih, h]

theorem State.showHeader_body (s : State) (fs : List HeaderField) : (s.showHeader fs).body = s.body := by
  rw [State.showHeader_eq]
  rfl

theorem State.notify_body (s : State) (f : Flag) : (s.notify f).body = s.body := by
  unfold State.notify
  split <;> rfl

theorem State.writePartResult_body (s : State) (r : Result) (detail : Nat) : (s.writePartResult r detail).body = s.body := by
  have h : ({ s with header := { s.header with result := r, detail := detail } } : State).body = s.body := rfl
  unfold State.writePartResult
  dsimp only
  split
  · rw [State.showHeader_body, h]
  · rw [State.notify_body, State.showHeader_body, h]

theorem State.answerPart_body (s : State) (number : Mark) (r : Result) (detail : Nat) :
    (s.answerPart number r detail).body = s.body := by
  unfold State.answerPart
  extract_lets skipped header s1 s2
  have h1 : s1.body = s.body := rfl
  have h2 : s2.body = s1.body := (State.writePartResult_body ..).trans (State.showHeader_body ..)
  clear_value s2
  exact (State.showHeader_body ..).trans (h2.trans h1)

theorem State.setImage_body (s : State) (o : Option ImageOp) : ({ s with image := o } : State).body = s.body := rfl

theorem State.setReady_body (s : State) (b : Bool) : ({ s with ready := b } : State).body = s.body := rfl

theorem State.loadControl_body (s : State) (v : BitVec 32) : (s.loadControl v).body = s.body := rfl

theorem State.completePart_body (s : State) (number : Option Mark) (r : Result) (detail : Nat) :
    (s.completePart number r detail).body = s.body := by
  unfold State.completePart
  split
  · exact s.writePartResult_body r detail
  · rfl

theorem State.endImage_body (s : State) (number : Option Mark) (r : Result) (detail : Nat) :
    (s.endImage number r detail).body = s.body := by
  unfold State.endImage
  exact State.completePart_body ..

theorem State.finishQuery_body (s : State) (q : Query) : (s.finishQuery q).body = s.body := by
  unfold State.finishQuery
  exact State.completePart_body ..

theorem State.writeHeld_body (s : State) (own : BoardField → Bool) : (s.writeHeld own).body = s.body :=
  State.body_foldl (op := State.writeField) (fun _ _ => rfl) _ s

theorem State.writeHeaderZeros_body (s : State) : s.writeHeaderZeros.body = s.body := by
  unfold State.writeHeaderZeros
  exact State.body_foldl (op := fun u (z : Nat × Nat) => { u with mem := u.mem.write (u.boardBase + z.1) (zeros z.2) })
    (fun _ _ => rfl) _ s

theorem State.flushHeld_body (s : State) : s.flushHeld.body = s.body := by
  unfold State.flushHeld
  extract_lets s1 s2 s3 s4
  have h1 : s1.body = s.body := by
    unfold s1
    split
    · exact State.body_foldl (op := State.writeRecord) (fun _ _ => rfl) _ s
    · exact State.body_foldl (fun s n => s.writeHeld_body _) _ s
  have h2 : s2.body = s1.body := by
    unfold s2
    split
    · rw [State.writeHeaderZeros_body]
      exact State.body_foldl (op := fun u f => u.writeField (.header f)) (fun _ _ => rfl) _ s1
    · exact s1.writeHeld_body _
  have h3 : s3.body = s2.body := by
    unfold s3
    split
    · exact State.body_foldl (op := fun u f => u.writeField (.header f)) (fun _ _ => rfl) _ s2
    · rfl
  have h4 : s4.body = s3.body := State.body_foldl (op := State.raise) (fun _ _ => rfl) _ s3
  have h5 : s4.body = s.body := h4.trans (h3.trans (h2.trans h1))
  clear_value s4
  exact h5

theorem State.beginSweep_body (s : State) : s.beginSweep.body = s.body := s.flushHeld_body

theorem State.requestSweep_body (s : State) : s.requestSweep.body = s.body := by
  unfold State.requestSweep
  split
  · exact s.beginSweep_body
  · rfl

theorem State.compareOrder_body (s : State) (n : Fin 8) : (s.compareOrder n).body = s.body := by
  unfold State.compareOrder
  split <;> rfl

theorem State.writeDirectory_body (s : State) (e : Fin 64) : (s.writeDirectory e).body = s.body := by
  unfold State.writeDirectory
  dsimp only
  split <;> rfl

theorem State.endSweep_body (s : State) : s.endSweep.body = s.body := by
  have hm : ∀ u : State, u.writeMirrors.body = u.body := fun _ => rfl
  have hd : (allEntries.foldl State.writeDirectory s).writeMirrors.body = s.body :=
    (hm _).trans (State.body_foldl (fun s e => s.writeDirectory_body e) allEntries s)
  unfold State.endSweep
  generalize (allEntries.foldl State.writeDirectory s).writeMirrors = u at hd
  dsimp only
  split
  · rw [State.beginSweep_body]
    exact hd
  · exact hd

theorem State.startPart_body (s : State) : s.startPart.body = s.body := by
  unfold State.startPart
  split
  · split
    · exact State.beginSweep_body _
    · rfl
  · rfl

/-! ## A blank part -/

/-- An IDLE slot without working state. -/
def Slot.blank (x : Slot) : Prop := x = Slot.bare x.latch x.eng ∧ x.eng.state = .idle ∧ x.eng.bound = none

/-- A part that has nothing open and a table as the full reset left it. -/
structure State.Blank (s : State) : Prop where
  entries : ∀ e, s.entry e = Entry.free 0
  waiting : s.waiting = []
  flight : ∀ f, s.flight = some f → f.requester = .image
  slots : ∀ n, (s.slot n).blank

theorem State.unreadyOk_iff (s : State) : s.unreadyOk ↔ (s.ready = false → s.Blank) :=
  imp_congr_right fun _ => ⟨fun ⟨h1, h2, h3, h4⟩ => ⟨h1, h2, h3, h4⟩, fun ⟨h1, h2, h3, h4⟩ => ⟨h1, h2, h3, h4⟩⟩

theorem Slot.blank_bare {k : Mark} {g : Engine} (h : g.state = .idle) (hb : g.bound = none) : (Slot.bare k g).blank :=
  ⟨rfl, h, hb⟩

namespace Slot.blank

variable {x : Slot} (h : x.blank)
include h

theorem mode : x.mode = .off := by
  rw [h.1]
  rfl

theorem take : x.take = none := by
  rw [h.1]
  rfl

theorem holdTimer : x.holdTimer = none := by
  rw [h.1]
  rfl

theorem boundEntry : x.boundEntry = none := by simp [Slot.boundEntry, h.2.1]

theorem answered (number : Mark) (r : Result) : (x.answered number r).blank := by
  refine ⟨?_, h.2.1, h.2.2⟩
  rw [h.1]
  rfl

end Slot.blank

namespace State.Blank

variable {s t : State}

/-- A part with the slots, table, waiting list and batch of a blank one is blank. -/
theorem of_body (h : s.Blank) (hb : t.body = s.body) : t.Blank := by
  simp only [State.body, Prod.mk.injEq] at hb
  obtain ⟨hs, he, hw, hf⟩ := hb
  refine ⟨fun e => ?_, hw.trans h.waiting, fun f => hf ▸ h.flight f, fun n => ?_⟩
  · rw [State.entry_congr he]
    exact h.entries e
  · rw [State.slot, hs]
    exact h.slots n

theorem answer (h : s.Blank) (n : Fin 8) (number : Mark) (r : Result) : (s.answer n number r).Blank := by
  refine ⟨fun e => ?_, ?_, fun f => ?_, fun m => ?_⟩
  · rw [State.answer_entry]
    exact h.entries e
  · rw [State.answer_waiting]
    exact h.waiting
  · rw [State.answer_flight]
    exact h.flight f
  · rw [State.answer_slot]
    split
    · exact (h.slots n).answered number r
    · exact h.slots m

theorem answerPart (h : s.Blank) (number : Mark) (r : Result) (detail : Nat) : (s.answerPart number r detail).Blank :=
  h.of_body (s.answerPart_body number r detail)

/-! ### The clock and the lapse -/

theorem judge (h : s.Blank) (e : Fin 64) : s.judge e = s := by
  simp [State.judge, State.lapseReached, h.entries, Entry.judged, Entry.free]

theorem judgeAll (h : s.Blank) : s.judgeAll = s := by
  unfold State.judgeAll
  induction allEntries with
  | nil => rfl
  | cons e l ih => rw [List.foldl_cons, h.judge e, ih]

theorem advanceClock (h : s.Blank) (c : Nat) : (s.advanceClock c).Blank := by
  have h1 : ({ s with clock := c } : State).Blank := h.of_body rfl
  unfold State.advanceClock
  rwa [h1.judgeAll]

theorem becameHeld (h : s.Blank) (e : Fin 64) : (s.becameHeld e).Blank := by
  have h1 : (s.modEntry e fun x => { x with lapseTime := x.deriveLapse }).Blank := by
    refine ⟨fun d => ?_, h.waiting, h.flight, h.slots⟩
    rw [State.entry_modEntry, h.entries]
    split
    · rfl
    · exact h.entries d
  unfold State.becameHeld State.derive
  rw [h1.judge]
  unfold State.judgeLastView
  rw [h1.entries e]
  exact h1

theorem deriveAll (h : s.Blank) : s.deriveAll.Blank := by
  unfold State.deriveAll
  induction allEntries generalizing s with
  | nil => exact h
  | cons e l ih => exact ih (h.becameHeld e)

/-! ### The forms of commands -/

theorem of_withWrites {w : Writes} {effect : State → State} (h : s.Blank) (hr : s.ready = false)
    (hx : ∀ r : State, r.Blank → r.ready = false → (effect r).Blank) (ht : withWrites w s effect = .next t) : t.Blank := by
  obtain ⟨-, rfl⟩ := withWrites_next.1 ht
  exact hx _ (h.of_body rfl) hr

theorem takeOrder (h : s.Blank) {row : OrderKind → Mode → Slot → Bool} {effect : State → Fin 8 → Mark → State}
    (hx : ∀ n number, (∃ k m, row k m (s.slot n) = true) → (effect s n number).Blank) : (s.takeOrder row effect).Blank := by
  unfold State.takeOrder
  split
  next n number _ =>
    split
    next hrow => exact (hx n number ⟨_, _, hrow⟩).of_body rfl
    · exact h
  · exact h

theorem takePartOrder (h : s.Blank) {kind : PartOrderKind} {effect : State → Mark → State}
    (hx : ∀ number, (effect s number).Blank) : (s.takePartOrder kind effect).Blank := by
  unfold State.takePartOrder
  split
  · exact (hx _).of_body rfl
  · exact h

/-! ### Orders -/

theorem openReady (hr : s.ready = false) : s.openReady = false := by simp [State.openReady, hr]

theorem openPlay (h : s.Blank) (hr : s.ready = false) (n : Fin 8) (number : Mark) (mode : Mode) :
    (s.openPlay n number mode).Blank := by
  have hc : s.checkPlayOpen n mode = .error .notReady := by
    simp [State.checkPlayOpen, (h.slots n).2.1, openReady hr]
  unfold State.openPlay
  rw [hc]
  exact h.answer n number _

theorem closeRecord (h : s.Blank) (n : Fin 8) (number : Mark) : (s.closeRecord n number).Blank := by
  simp only [State.closeRecord, (h.slots n).2.1]
  exact h.answer n number _

theorem abortRecord (h : s.Blank) (n : Fin 8) (number : Mark) : (s.abortRecord n number).Blank := by
  simp only [State.abortRecord, (h.slots n).2.1, if_true]
  exact h.answer n number _

theorem closePlay (h : s.Blank) (n : Fin 8) (number : Mark) : (s.closePlay n number).Blank := by
  simp only [State.closePlay, (h.slots n).2.1, if_true]
  exact h.answer n number _

theorem closeMove (h : s.Blank) (n : Fin 8) (number : Mark) : (s.closeMove n number).Blank := by
  simp only [State.closeMove, (h.slots n).2.1, if_true]
  exact h.answer n number _

theorem abortPlay (h : s.Blank) (n : Fin 8) (number : Mark) : (s.abortPlay n number).Blank := by
  simp only [State.abortPlay, (h.slots n).2.1, if_true]
  exact h.answer n number _

theorem abortMove (h : s.Blank) (n : Fin 8) (number : Mark) : (s.abortMove n number).Blank := by
  simp only [State.abortMove, (h.slots n).2.1, if_true]
  exact h.answer n number _

theorem answerRule (h : s.Blank) (n : Fin 8) (number : Mark) (effect : State → State) :
    (s.answerRule n number effect).Blank := by
  have hr : (s.slot n).ruleAnswer = .wrongState := by simp [Slot.ruleAnswer, (h.slots n).mode]
  simp only [State.answerRule, hr, reduceCtorEq, if_false]
  exact h.answer n number _

/-! ### Batches -/

/-- No batch of a slot is in flight. -/
theorem not_slot_flight (h : s.Blank) {n : Fin 8} {work : Work} {o : Bool} : s.flight ≠ some ⟨.slot n, work, o⟩ :=
  fun hf => nomatch h.flight _ hf

theorem nextWork_slot (h : s.Blank) (n : Fin 8) : s.nextWork (.slot n) = none := by
  simp [State.nextWork, (h.slots n).boundEntry]

/-- The arbiter can grant the Image Unit alone. -/
theorem firstReady (h : s.Blank) {rs : List Requester} {r : Requester} {work : Work} (hf : s.firstReady rs = some (r, work)) :
    r = .image := by
  induction rs with
  | nil => cases hf
  | cons a rs ih =>
    cases a with
    | slot n =>
      simp only [State.firstReady, h.nextWork_slot n] at hf
      exact ih hf
    | image =>
      simp only [State.firstReady] at hf
      split at hf
      · cases hf
        rfl
      · exact ih hf

theorem grant (h : s.Blank) : s.grant.Blank := by
  unfold State.grant
  split
  · exact h
  next r work hf =>
    refine ⟨h.entries, h.waiting, fun f hff => ?_, h.slots⟩
    cases hff
    exact h.firstReady hf

end State.Blank

/-! ## Commands -/

section
variable {s t : State} (h : s.Blank) (hr : s.ready = false)
include h hr

omit hr in
theorem blank_engineReset {v : BitVec 32} {a b : Nat} (ht : exec (.engineReset v a b) s = .next t) : t.Blank := by
  simp only [exec, execEngineReset] at ht
  split at ht
  · rw [← Host.Outcome.next.inj ht]
    refine State.Blank.deriveAll ⟨fun e => ?_, rfl, nofun, fun n => ?_⟩
    · rw [State.engineCleared_entry]
      show ({ (s.entry e).cutOff with binding := none, players := [] } : Entry) = _
      rw [h.entries]
      rfl
    · have hs : (((s.loadControl v).engineCleared (s.cutMemory a b)).slot n) = Slot.reset := by
        simp [State.slot, State.engineCleared]
      rw [hs]
      exact Slot.blank_bare rfl rfl
  · cases ht

theorem blank_start {v : BitVec 32} {w : Writes} (ht : exec (.start v w) s = .next t) : t.Blank := by
  simp only [exec, execStart] at ht
  split at ht
  · exact h.of_withWrites hr (fun r h _ => h.of_body ((State.startPart_body _).trans (r.loadControl_body v))) ht
  · cases ht

omit hr in
theorem blank_stop {v : BitVec 32} (ht : exec (.stop v) s = .next t) : t.Blank := by
  simp only [exec, execStop] at ht
  split at ht
  · rw [← Host.Outcome.next.inj ht]
    unfold State.stopPart
    split <;> exact h.of_body rfl
  · cases ht

omit hr in
theorem blank_loadDivisor {v : BitVec 32} (ht : exec (.loadDivisorAndAttnEnable v) s = .next t) : t.Blank := by
  simp only [exec, execLoadDivisorAndAttnEnable] at ht
  split at ht <;> cases ht
  exact h.of_body rfl

theorem blank_slotStep {w : Writes} (ht : exec (.slotStep w) s = .next t) : t.Blank := by
  unfold exec execSlotStep at ht
  refine h.of_withWrites hr (fun r h _ => ?_) ht
  split
  next n _ =>
    have hn : (r.slot n).refreshes = false := by simp [Slot.refreshes, (h.slots n).2.1]
    simp only [State.stepSlot, hn, Bool.false_eq_true, if_false]
    exact h.of_body (r.compareOrder_body n)
  · exact h

theorem blank_endOfSweepWrites {w : Writes} (ht : exec (.endOfSweepWrites w) s = .next t) : t.Blank := by
  unfold exec execEndOfSweepWrites at ht
  refine h.of_withWrites hr (fun r h _ => ?_) ht
  split
  · exact h.of_body r.endSweep_body
  · exact h

theorem blank_recordOpen {w : Writes} (ht : exec (.recordOpen w) s = .next t) : t.Blank := by
  refine h.of_withWrites hr (fun r h hr => h.takeOrder fun n number _ => ?_) ht
  have hc : r.checkRecordOpen n = .error .notReady := by
    simp [State.checkRecordOpen, (h.slots n).2.1, State.Blank.openReady hr]
  rw [hc]
  exact h.answer n number _

theorem blank_moveOpen {w : Writes} (ht : exec (.moveOpen w) s = .next t) : t.Blank := by
  refine h.of_withWrites hr (fun r h hr => h.takeOrder fun n number _ => ?_) ht
  have hc : r.checkMoveOpen n = .error .notReady := by
    simp [State.checkMoveOpen, (h.slots n).2.1, State.Blank.openReady hr]
  rw [hc]
  exact h.answer n number _

/-- No slot is FAULTED, so the row's order is not at hand. -/
theorem blank_faultedSlotReturn {w : Writes} (ht : exec (.faultedSlotReturn w) s = .next t) : t.Blank := by
  refine h.of_withWrites hr (fun r h _ => h.takeOrder fun n number hrow => ?_) ht
  obtain ⟨k, m, hrow⟩ := hrow
  simp [(h.slots n).2.1] at hrow

theorem blank_unknownOrder {w : Writes} (ht : exec (.unknownOrder w) s = .next t) : t.Blank := by
  refine h.of_withWrites hr (fun r h _ => h.takeOrder fun n number _ => ?_) ht
  split <;> exact h.answer n number _

theorem blank_save {w : Writes} (ht : exec (.save w) s = .next t) : t.Blank := by
  refine h.of_withWrites hr (fun r h hr => h.takePartOrder fun number => ?_) ht
  have hc : r.saveRefusal (r.headerField 112 8) = some .notReady := by simp [State.saveRefusal, hr]
  simp only [hc]
  exact h.answerPart number _ 0

theorem blank_load {w : Writes} (ht : exec (.load w) s = .next t) : t.Blank := by
  refine h.of_withWrites hr (fun r h _ => h.takePartOrder fun number => ?_) ht
  dsimp only
  split
  · exact h.answerPart number _ 0
  · exact (h.answerPart number .none 0).of_body (State.setImage_body ..)

theorem blank_fresh {w : Writes} (ht : exec (.fresh w) s = .next t) : t.Blank := by
  refine h.of_withWrites hr (fun r h _ => h.takePartOrder fun number => ?_) ht
  dsimp only
  split
  · exact (h.answerPart number _ 0).of_body (State.setReady_body ..)
  · exact h.answerPart number _ 0

theorem blank_time {w : Writes} (ht : exec (.time w) s = .next t) : t.Blank := by
  refine h.of_withWrites hr (fun r h _ => h.takePartOrder fun number => ?_) ht
  have hv : (r.timeReport (r.headerField 104 4)).1.Blank := by
    unfold State.timeReport State.voteReport
    split
    · exact h.of_body rfl
    · split
      · dsimp only
        exact (h.of_body rfl : ({ r with votes := [] } : State).Blank).advanceClock _
      · dsimp only
        split <;> dsimp only
        · exact h.of_body rfl
        · exact (h.of_body rfl : ({ r with votes := [] }.raise (partFlag .lapse)).Blank).advanceClock _
  generalize r.timeReport (r.headerField 104 4) = q at hv
  refine State.Blank.answerPart (hv.of_body ?_) ..
  exact State.showHeader_body ..

theorem blank_erase {w : Writes} (ht : exec (.erase w) s = .next t) : t.Blank := by
  refine h.of_withWrites hr (fun r h hr => h.takePartOrder fun number => ?_) ht
  simp only [State.eraseEntry, hr, Bool.not_false, if_true]
  exact h.answerPart number _ 0

theorem blank_query {w : Writes} (ht : exec (.query w) s = .next t) : t.Blank := by
  refine h.of_withWrites hr (fun r h hr => h.takePartOrder fun number => ?_) ht
  have hc : r.checkQuery (r.headerField 101 1) (r.headerField 120 8) = .error .notReady := by simp [State.checkQuery, hr]
  simp only [hc]
  exact h.answerPart number _ 0

omit hr in
theorem blank_keyDrawComplete {key : Key} (ht : exec (.keyDrawComplete key) s = .next t) : t.Blank := by
  cases ht
  split
  · exact h.of_body rfl
  · exact h

omit hr in
theorem blank_keyHandover (ht : exec .keyHandover s = .next t) : t.Blank := by
  simp only [exec, execKeyHandover, h.waiting, Host.Outcome.next.injEq] at ht
  exact ht ▸ h

theorem blank_takeStart {n : Fin 8} {w : Writes} (ht : exec (.takeStart n w) s = .next t) : t.Blank := by
  unfold exec execTakeStart at ht
  refine h.of_withWrites hr (fun r h _ => ?_) ht
  have hd : r.takeDue n = false := by simp [State.takeDue, (h.slots n).2.1]
  simpa [hd] using h

theorem blank_takeComplete {n : Fin 8} {w : Writes} (ht : exec (.takeComplete n w) s = .next t) : t.Blank := by
  unfold exec execTakeComplete at ht
  refine h.of_withWrites hr (fun r h _ => ?_) ht
  simpa [(h.slots n).take] using h

omit hr in
theorem blank_chunkOpen {n : Fin 8} (ht : exec (.chunkOpen n) s = .next t) : t.Blank := by
  have hd : s.openDue n = false := by simp [State.openDue, (h.slots n).mode]
  simp only [exec, execChunkOpen, hd, Bool.false_eq_true, if_false, Host.Outcome.next.injEq] at ht
  exact ht ▸ h

omit hr in
theorem blank_holdTimerExpiry {n : Fin 8} (ht : exec (.holdTimerExpiry n) s = .next t) : t.Blank := by
  simp only [exec, execHoldTimerExpiry, (h.slots n).holdTimer, Option.isSome_none, Bool.false_eq_true, if_false,
    Host.Outcome.next.injEq] at ht
  exact ht ▸ h

omit hr in
theorem blank_frameTake {n : Fin 8} (ht : exec (.frameTake n) s = .next t) : t.Blank := by
  have hd : s.frameDue n = false := by simp [State.frameDue, (h.slots n).2.1]
  simp only [exec, execFrameTake, hd, Bool.false_eq_true, if_false, Host.Outcome.next.injEq] at ht
  exact ht ▸ h

omit hr in
theorem blank_outputReservation {n : Fin 8} (ht : exec (.outputReservation n) s = .next t) : t.Blank := by
  have hd : s.reserveDue n = false := by simp [State.reserveDue, (h.slots n).mode]
  simp only [exec, execOutputReservation, hd, Bool.false_eq_true, if_false, Host.Outcome.next.injEq] at ht
  exact ht ▸ h

theorem blank_slotFaultLapsed {n : Fin 8} {w : Writes} (ht : exec (.slotFaultLapsed n w) s = .next t) : t.Blank := by
  unfold exec execSlotFaultLapsed at ht
  refine h.of_withWrites hr (fun r h _ => ?_) ht
  simpa [(h.slots n).2.1] using h

omit hr in
/-- A batch of a slot completes nothing, there being none in flight. -/
theorem blank_sealingBatch (ht : exec .sealingBatch s = .next t) : t.Blank := by
  cases ht
  split
  next hf => exact absurd hf h.not_slot_flight
  · exact h

omit hr in
theorem blank_closingBatch (ht : exec .closingBatch s = .next t) : t.Blank := by
  cases ht
  split
  next hf => exact absurd hf h.not_slot_flight
  · exact h

omit hr in
theorem blank_finalResealBatch (ht : exec .finalResealBatch s = .next t) : t.Blank := by
  cases ht
  split
  next hf => exact absurd hf h.not_slot_flight
  · exact h

theorem blank_verifyBatch {w : Writes} (ht : exec (.verifyBatch w) s = .next t) : t.Blank := by
  unfold exec execVerifyBatch at ht
  refine h.of_withWrites hr (fun r h _ => ?_) ht
  split
  next hf => exact absurd hf h.not_slot_flight
  · exact h

theorem blank_deliverBatch {w : Writes} (ht : exec (.deliverBatch w) s = .next t) : t.Blank := by
  unfold exec execDeliverBatch at ht
  refine h.of_withWrites hr (fun r h _ => ?_) ht
  split
  next hf => exact absurd hf h.not_slot_flight
  · exact h

theorem blank_resealBatch {w : Writes} (ht : exec (.resealBatch w) s = .next t) : t.Blank := by
  unfold exec execResealBatch at ht
  refine h.of_withWrites hr (fun r h _ => ?_) ht
  split
  next hf => exact absurd hf h.not_slot_flight
  · exact h

omit hr in
/-- An image batch ends with no batch in flight, and moves no slot and no entry. -/
theorem blank_noFlight {u : State} (he : u.entries = s.entries) (hs : u.slots = s.slots) (hw : u.waiting = s.waiting)
    (hf : u.flight = none) : u.Blank :=
  State.Blank.of_body (s := { s with flight := none }) ⟨h.entries, h.waiting, nofun, h.slots⟩
    (by simp [State.body, he, hs, hw, hf])

omit hr in
theorem blank_saveEntryBatch (ht : exec .saveEntryBatch s = .next t) : t.Blank := by
  cases ht
  split
  · split
    · exact blank_noFlight h rfl rfl rfl rfl
    next m _ =>
      exact (blank_noFlight h rfl rfl rfl rfl : ({ s.freeCipher with mem := m } : State).Blank).of_body
        (State.endImage_body ..)
  · exact h

omit hr in
theorem blank_saveHeaderBatch (ht : exec .saveHeaderBatch s = .next t) : t.Blank := by
  cases ht
  split
  next gen _ _ _ _ =>
    split
    next m _ =>
      exact (blank_noFlight h rfl rfl rfl rfl : ({ s.freeCipher with mem := m, cell := gen } : State).Blank).of_body
        (State.endImage_body ..)
    next m _ =>
      exact (blank_noFlight h rfl rfl rfl rfl : ({ s.freeCipher with mem := m } : State).Blank).of_body
        (State.endImage_body ..)
  · exact h

theorem blank_loadHeaderBatch {w : Writes} (ht : exec (.loadHeaderBatch w) s = .next t) : t.Blank := by
  unfold exec execLoadHeaderBatch at ht
  refine h.of_withWrites hr (fun r h hr => ?_) ht
  split
  · have h1 : r.freeCipher.Blank := blank_noFlight h rfl rfl rfl rfl
    dsimp only
    split
    · split
      · exact h1.of_body rfl
      · exact h1.of_body (State.endImage_body ..)
    · exact h1.of_body (State.endImage_body ..)
  · exact h

end

end Sys2Proof.Machine
end

