-- ==== Sys2Proof/Proofs/WholeMachine.lean ====
section
/-! Proofs: the invariants that every step of the machine keeps. -/

namespace Sys2Proof.Machine

/-- A step is the command at the front of the queue, or nothing. -/
theorem step_cases {s t : State} (h : step s = .next t) :
    t = s ∨ ∃ c rest, s.pending = c :: rest ∧ exec c { s with pending := rest } = .next t := by
  unfold step at h
  split at h
  · exact .inl (Host.Outcome.next.inj h).symm
  next c rest hp => exact .inr ⟨c, rest, hp, h⟩

/-! ## Fields read from memory -/

theorem ofLe_lt (bs : List Byte) : ofLe bs < 256 ^ bs.length := by
  induction bs with
  | nil => simp [ofLe]
  | cons b bs ih =>
    have hb := b.isLt
    simp only [ofLe, List.length_cons, pow_succ]
    omega

theorem State.headerField_lt (s : State) (off len : Nat) : s.headerField off len < 256 ^ len := by
  simpa [State.headerField] using ofLe_lt (s.mem.read (s.boardBase + off) len)

/-! ## The vote window (R146) -/

theorem optMin_eq_none {a b : Option Nat} : optMin a b = none ↔ a = none ∧ b = none := by
  cases a <;> cases b <;> simp [optMin]

theorem foldl_agreeing_eq_none {a : Nat} (l : List Nat) (m : Option Nat) :
    l.foldl (fun m b => optMin m (agreeing a b)) m = none ↔ m = none ∧ ∀ b ∈ l, agreeing a b = none := by
  induction l generalizing m with
  | nil => simp
  | cons b l ih => simp [ih, optMin_eq_none, and_assoc]

/-- No jump is chosen exactly where no two offsets agree. -/
theorem chooseJump_eq_none (l : List Nat) : chooseJump l = none ↔ l.Pairwise fun a b => agreeing a b = none := by
  induction l with
  | nil => simp [chooseJump]
  | cons a l ih => simp [chooseJump, optMin_eq_none, foldl_agreeing_eq_none, ih]

theorem agreeing_eq_none {a b : Nat} : agreeing a b = none ↔ a + 2 < b ∨ b + 2 < a := by
  simp only [agreeing, ite_eq_right_iff, reduceCtorEq, imp_false]
  omega

theorem appendVote_length {votes : List Nat} (h : votes.length ≤ 3) (d : Nat) : (appendVote votes d).length ≤ 3 := by
  unfold appendVote
  split <;> simp <;> omega

theorem mem_appendVote {votes : List Nat} {d v : Nat} (h : v ∈ appendVote votes d) : v ∈ votes ∨ v = d := by
  unfold appendVote at h
  rw [List.mem_append, List.mem_singleton] at h
  refine h.imp_left fun h => ?_
  split at h
  · exact h
  · exact List.mem_of_mem_drop h

theorem votesOk_nil : votesOk [] := ⟨by simp, nofun, List.Pairwise.nil⟩

/-- A window with one more offset, of which no pair agrees, keeps its shape. -/
theorem votesOk_appendVote {votes : List Nat} (h : votesOk votes) {d : Nat} (hd : 3 ≤ d ∧ d ≤ top32)
    (hj : chooseJump (appendVote votes d) = none) : votesOk (appendVote votes d) := by
  obtain ⟨hlen, hrange, -⟩ := h
  refine ⟨appendVote_length hlen d, fun v hv => ?_, ?_⟩
  · rcases mem_appendVote hv with hv | rfl
    · exact hrange v hv
    · exact hd
  · simpa only [agreeing_eq_none] using (chooseJump_eq_none _).1 hj

theorem State.unit_fields {s t : State} (h : t.unit = s.unit) :
    t.ready = s.ready ∧ t.cell = s.cell ∧ t.fused = s.fused ∧ t.votes = s.votes := (State.unit_eq_iff s t).1 h

theorem State.advanceClock_votes (s : State) (c : Nat) : (s.advanceClock c).votes = s.votes :=
  (State.unit_fields (State.unit_of_kept (s.advanceClock_kept c))).2.2.2

/-- A time report keeps the vote window's shape (R144 to R147). -/
theorem State.timeReport_votesOk {s : State} (h : votesOk s.votes) {report : Nat} (hr : report ≤ top32) :
    votesOk (s.timeReport report).1.votes := by
  unfold State.timeReport
  split
  · exact votesOk_nil
  · split
    · dsimp only
      rw [State.advanceClock_votes]
      exact votesOk_nil
    next h1 h2 =>
      unfold State.voteReport
      dsimp only
      split
      next hj => exact votesOk_appendVote h ⟨by omega, by omega⟩ hj
      · dsimp only
        rw [State.advanceClock_votes]
        exact votesOk_nil

theorem State.timeReport_kept (s : State) (report : Nat) :
    (s.timeReport report).1.kept = { s.kept with votes := (s.timeReport report).1.votes } := by
  unfold State.timeReport
  split
  · rfl
  · split
    · dsimp only
      rw [State.advanceClock_votes, State.advanceClock_kept]
      rfl
    · unfold State.voteReport
      dsimp only
      split
      · rfl
      · dsimp only
        rw [State.advanceClock_votes, State.advanceClock_kept]
        rfl

theorem State.showVote_unit (s : State) (a : VoteAction) : (s.showVote a).unit = s.unit := by
  unfold State.showVote
  exact (State.showHeader_unit ..).trans rfl

/-! ## The commands that move readiness, the cell or the vote window -/

section
variable {s t : State}

/-- What holds of a state and of the part order's effect on it, whatever the sweep, holds after the row. -/
theorem withWrites_takePartOrder_elim {P : State → Prop} {w : Writes} {kind : PartOrderKind}
    {effect : State → Mark → State} (h : withWrites w s (fun s => s.takePartOrder kind effect) = .next t)
    (hP : ∀ {u : State} {a}, P u → P { u with sweep := a }) (h0 : P (s.recorded w))
    (hx : ∀ number, P (effect (s.recorded w) number)) : P t := by
  obtain ⟨-, rfl⟩ := withWrites_next.1 h
  unfold State.takePartOrder
  split
  · exact hP (hx _)
  · exact h0

/-- The answer to TIME: the report, the vote fields and the part result. -/
theorem State.answerTime_unit (s : State) {report : Nat} (hr : report ≤ top32) (a : VoteAction) (number : Mark)
    (detail : Nat) :
    let u := ((s.timeReport report).1.showVote a).answerPart number .done detail
    u.ready = s.ready ∧ u.cell = s.cell ∧ u.fused = s.fused ∧ (votesOk s.votes → votesOk u.votes) := by
  have hv := fun hv => State.timeReport_votesOk (s := s) hv hr
  have hk := s.timeReport_kept report
  generalize (s.timeReport report).1 = u at hv hk ⊢
  obtain ⟨a1, a2, a3, a4⟩ := State.unit_fields
    ((State.answerPart_unit (u.showVote a) number .done detail).trans (u.showVote_unit a))
  exact ⟨a1.trans (congrArg Kept.ready hk), a2.trans (congrArg Kept.cell hk), a3.trans (congrArg Kept.fused hk),
    fun h => a4.symm ▸ hv h⟩

theorem exec_time_unit {w : Writes} (h : exec (.time w) s = .next t) :
    t.ready = s.ready ∧ t.cell = s.cell ∧ t.fused = s.fused ∧ (votesOk s.votes → votesOk t.votes) := by
  have h : execTime w s = .next t := h
  unfold execTime at h
  refine withWrites_takePartOrder_elim (P := fun t => t.ready = s.ready ∧ t.cell = s.cell ∧ t.fused = s.fused ∧
    (votesOk s.votes → votesOk t.votes)) h id ⟨rfl, rfl, rfl, id⟩ fun number => ?_
  have hr : (s.recorded w).headerField 104 4 ≤ top32 := Nat.le_of_lt_succ ((s.recorded w).headerField_lt 104 4)
  exact (s.recorded w).answerTime_unit hr ((s.recorded w).timeReport _).2 number _

/-- FRESH makes the part READY or leaves it so (R166). -/
theorem exec_fresh_unit {w : Writes} (h : exec (.fresh w) s = .next t) :
    (s.ready = true → t.ready = true) ∧ t.cell = s.cell ∧ t.fused = s.fused ∧ t.votes = s.votes := by
  have h : execFresh w s = .next t := h
  unfold execFresh at h
  refine withWrites_takePartOrder_elim (P := fun t => (s.ready = true → t.ready = true) ∧ t.cell = s.cell ∧ t.fused = s.fused ∧ t.votes = s.votes) h id
    ⟨id, rfl, rfl, rfl⟩ fun number => ?_
  have ha := State.unit_fields ((s.recorded w).answerPart_unit number (s.recorded w).freshResult 0)
  dsimp only
  generalize (s.recorded w).answerPart number (s.recorded w).freshResult 0 = u at ha
  obtain ⟨a1, a2, a3, a4⟩ := ha
  split
  · exact ⟨fun _ => rfl, a2, a3, a4⟩
  · exact ⟨fun h => a1.trans h, a2, a3, a4⟩

/-- The header batch of a SAVE moves the generation cell alone (R168). -/
theorem exec_saveHeaderBatch_unit (h : exec .saveHeaderBatch s = .next t) :
    t.ready = s.ready ∧ t.fused = s.fused ∧ t.votes = s.votes := by
  have hu : ∀ (m : Memory) (c : Nat) number r detail,
      let u := ({ s.freeCipher with mem := m, cell := c } : State).endImage number r detail
      u.ready = s.ready ∧ u.fused = s.fused ∧ u.votes = s.votes := fun m c number r detail => by
    obtain ⟨h1, -, h3, h4⟩ := State.unit_fields (State.endImage_unit { s.freeCipher with mem := m, cell := c } number r detail)
    exact ⟨h1, h3, h4⟩
  simp only [exec, execSaveHeaderBatch, Host.Outcome.next.injEq] at h
  subst h
  split
  · split
    · exact hu _ _ _ _ _
    · exact hu _ s.cell _ _ _
  · exact ⟨rfl, rfl, rfl⟩

/-- The entry batch of a LOAD that is not its last, or is refused: nothing but the image operation, the part result and
the cipher changes; the last one of a good image completes the LOAD (R44, R170). -/
theorem exec_loadEntryBatch_cases {w : Writes} (h : exec (.loadEntryBatch w) s = .next t) :
    (t.unit = s.unit ∧ (s.Blank → t.Blank) ∧ s.Keeps t) ∨
      ∃ number header staging, t = (s.recorded w).freeCipher.completeLoad number header staging := by
  unfold exec execLoadEntryBatch at h
  obtain ⟨-, rfl⟩ := withWrites_next.1 h
  have hk : s.Keeps (s.recorded w) := (State.Keeps.refl s).recorded w
  have hb : s.Blank → (s.recorded w).freeCipher.Blank := fun h =>
    blank_noFlight (h.of_body rfl : (s.recorded w).Blank) rfl rfl rfl rfl
  have hend : ∀ number r detail, let u := (s.recorded w).freeCipher.endImage number r detail
      u.unit = s.unit ∧ (s.Blank → u.Blank) ∧ s.Keeps u := fun number r detail =>
    ⟨(State.endImage_unit ..).trans rfl, fun h => (hb h).of_body (State.endImage_body ..), hk.freeCipher.endImage _ _ _⟩
  split
  · dsimp only
    split
    · split
      · refine .inl ⟨rfl, fun h => (hb h).of_body rfl, ?_⟩
        exact hk.freeCipher.of_same rfl rfl rfl rfl
      · unfold State.judgeImage
        dsimp only
        split
        · exact .inl (hend _ _ _)
        · split
          · exact .inl (hend _ _ _)
          · exact .inr ⟨_, _, _, rfl⟩
    · exact .inl (hend _ _ _)
  · exact .inl ⟨rfl, fun h => h.of_body rfl, hk⟩

/-- A LOAD that completes makes the part READY and leaves cell, keys and vote window alone (R170). -/
theorem State.completeLoad_unit (s : State) (number : Option Mark) (header : List Byte) (staging : List (List Byte)) :
    let t := s.completeLoad number header staging
    t.ready = true ∧ t.cell = s.cell ∧ t.fused = s.fused ∧ t.votes = s.votes := by
  unfold State.completeLoad
  dsimp only
  have hu := State.deriveAll_kept { s with
    entries := loadedTable s.fused.boxKey (field header 8 4) staging, clock := max s.clock (field header 12 4) }
  generalize State.deriveAll _ = u at hu ⊢
  obtain ⟨-, h2, h3, h4⟩ := State.unit_fields (State.unit_of_kept hu)
  obtain ⟨e1, e2, e3, e4⟩ := State.unit_fields (State.endImage_unit { u with ready := true } number .done (field header 8 4))
  exact ⟨e1, e2.trans h2, e3.trans h3, e4.trans h4⟩

/-- The pool and the flags stay well formed over the completion of a LOAD; the table is the image's. -/
theorem State.completeLoad_keeps (s : State) (number : Option Mark) (header : List Byte) (staging : List (List Byte)) :
    let t := s.completeLoad number header staging
    (s.poolOk → t.poolOk) ∧ (flagsOk s.flags → flagsOk t.flags) := by
  have h := (State.Keeps.refl { s with
    entries := loadedTable s.fused.boxKey (field header 8 4) staging, clock := max s.clock (field header 12 4) }).deriveAll
  unfold State.completeLoad
  dsimp only
  generalize hv : ({ s with
    entries := loadedTable s.fused.boxKey (field header 8 4) staging
    clock := max s.clock (field header 12 4) } : State) = v at h ⊢
  generalize v.deriveAll = u at h ⊢
  have h' := ((h.of_same rfl rfl rfl rfl : v.Keeps { u with ready := true }).endImage number .done (field header 8 4))
  subst hv
  exact ⟨h'.pool, h'.flags⟩

end

/-! ## The obligations -/

/-- The votes' shape is kept by every command. -/
theorem exec_votesOk {i : Instr} {s t : State} (h : exec i s = .next t) (hv : votesOk s.votes) : votesOk t.votes := by
  cases hi : movesUnit i with
  | false => exact (State.unit_fields (exec_unit hi h)).2.2.2 ▸ hv
  | true =>
    cases i with
    | fullReset =>
      cases h
      exact votesOk_nil
    | fresh => exact (exec_fresh_unit h).2.2.2 ▸ hv
    | time => exact (exec_time_unit h).2.2.2 hv
    | saveHeaderBatch => exact (exec_saveHeaderBatch_unit h).2.2 ▸ hv
    | loadEntryBatch w =>
      rcases exec_loadEntryBatch_cases h with ⟨hu, -, -⟩ | ⟨number, header, staging, rfl⟩
      · exact (State.unit_fields hu).2.2.2 ▸ hv
      · rw [(State.completeLoad_unit (s.recorded w).freeCipher number header staging).2.2.2]
        exact hv
    | _ => cases hi

/-- The pool and the flags stay well formed over every command. -/
theorem exec_poolOk_flagsOk {i : Instr} {s t : State} (h : exec i s = .next t) :
    (s.poolOk → t.poolOk) ∧ (flagsOk s.flags → flagsOk t.flags) := by
  by_cases hi : ∃ w, i = .loadEntryBatch w
  · obtain ⟨w, rfl⟩ := hi
    rcases exec_loadEntryBatch_cases h with ⟨-, -, hk⟩ | ⟨number, header, staging, rfl⟩
    · exact ⟨hk.pool, hk.flags⟩
    · obtain ⟨hp, hf⟩ := State.completeLoad_keeps (s.recorded w).freeCipher number header staging
      have hk := ((State.Keeps.refl s).recorded w).freeCipher
      exact ⟨fun h => hp (hk.pool h), fun h => hf (hk.flags h)⟩
  · have hk := exec_keeps (fun w hw => hi ⟨w, hw⟩) h
    exact ⟨hk.pool, hk.flags⟩

/-- Settles O57: the invariants are kept by each shared operation, and so by every command that is built of them. -/
theorem poolFlagsAndVotesHold : Obligations.PoolFlagsAndVotesHold := by
  intro s t h
  rcases step_cases h with rfl | ⟨c, rest, -, hc⟩
  · exact ⟨id, id, id⟩
  · obtain ⟨hp, hf⟩ := exec_poolOk_flagsOk hc
    exact ⟨fun h => hp h, fun h => hf h, fun h => exec_votesOk hc h⟩

/-- Settles O58: every change that a command makes to an entry is one that keeps it sound. -/
theorem entriesStaySound : Obligations.EntriesStaySound := by
  intro s t hl h
  rcases step_cases h with rfl | ⟨c, rest, hp, hc⟩
  · exact ⟨id, id⟩
  · have hnot : ∀ w, c ≠ .loadEntryBatch w := fun w hw => hl w (by rw [hp, hw]; rfl)
    have hk := exec_keeps hnot hc
    exact ⟨fun h => hk.segments h, fun h => hk.keys h⟩

/-- A full reset leaves the part blank, whatever it was. -/
theorem blank_fullReset {a b : Nat} {s t : State} (h : exec (.fullReset a b) s = .next t) : t.Blank := by
  cases h
  refine ⟨State.entry_reset, rfl, nofun, fun n => ?_⟩
  show (State.reset.slot n).blank
  rw [State.slot_reset]
  exact Slot.blank_bare rfl rfl

/-- A part that is NOT_READY and blank stays blank as long as it stays NOT_READY. -/
theorem exec_blank {i : Instr} {s t : State} (h : s.Blank) (hr : s.ready = false) (ht : exec i s = .next t)
    (htr : t.ready = false) : t.Blank := by
  cases i with
  | fullReset => exact blank_fullReset ht
  | engineReset => exact blank_engineReset h ht
  | start => exact blank_start h hr ht
  | stop => exact blank_stop h ht
  | stopDrainEnd =>
    cases ht
    split
    · exact h.of_body rfl
    · exact h
  | loadDivisorAndAttnEnable => exact blank_loadDivisor h ht
  | sweepRequest =>
    cases ht
    split
    · exact h.of_body s.requestSweep_body
    · exact h
  | attentionRead =>
    cases ht
    exact h.of_body rfl
  | boardBaseLowWrite =>
    cases ht
    split
    · exact h.of_body rfl
    · exact h
  | boardBaseHighWrite =>
    cases ht
    split
    · exact h.of_body rfl
    · exact h
  | registerWriteIgnored =>
    cases ht
    exact h
  | sweepTimerExpiry =>
    cases ht
    split
    · exact h
    · exact h.of_body (State.requestSweep_body _)
  | slotStep => exact blank_slotStep h hr ht
  | endOfSweepWrites => exact blank_endOfSweepWrites h hr ht
  | recordOpen => exact blank_recordOpen h hr ht
  | playOpen =>
    exact h.of_withWrites hr (fun r h hr => h.takeOrder fun n number _ => h.openPlay hr n number _) ht
  | checkOpen =>
    exact h.of_withWrites hr (fun r h hr => h.takeOrder fun n number _ => h.openPlay hr n number _) ht
  | moveOpen => exact blank_moveOpen h hr ht
  | recordClose => exact h.of_withWrites hr (fun r h _ => h.takeOrder fun n number _ => h.closeRecord n number) ht
  | recordAbort => exact h.of_withWrites hr (fun r h _ => h.takeOrder fun n number _ => h.abortRecord n number) ht
  | playCheckClose => exact h.of_withWrites hr (fun r h _ => h.takeOrder fun n number _ => h.closePlay n number) ht
  | playCheckAbort => exact h.of_withWrites hr (fun r h _ => h.takeOrder fun n number _ => h.abortPlay n number) ht
  | moveClose => exact h.of_withWrites hr (fun r h _ => h.takeOrder fun n number _ => h.closeMove n number) ht
  | moveAbort => exact h.of_withWrites hr (fun r h _ => h.takeOrder fun n number _ => h.abortMove n number) ht
  | faultedSlotReturn => exact blank_faultedSlotReturn h hr ht
  | rule => exact h.of_withWrites hr (fun r h _ => h.takeOrder fun n number _ => h.answerRule n number _) ht
  | rotate => exact h.of_withWrites hr (fun r h _ => h.takeOrder fun n number _ => h.answerRule n number _) ht
  | flush => exact h.of_withWrites hr (fun r h _ => h.takeOrder fun n number _ => h.answerRule n number _) ht
  | unknownOrder => exact blank_unknownOrder h hr ht
  | fresh => exact blank_fresh h hr ht
  | save => exact blank_save h hr ht
  | load => exact blank_load h hr ht
  | time => exact blank_time h hr ht
  | erase => exact blank_erase h hr ht
  | query => exact blank_query h hr ht
  | queryWriteComplete =>
    cases ht
    split
    · exact h
    · exact h.of_body (s.finishQuery_body _)
  | unknownPartOrder =>
    exact h.of_withWrites hr (fun r h _ => h.takePartOrder fun number => h.answerPart number _ _) ht
  | keyDrawComplete => exact blank_keyDrawComplete h ht
  | keyHandover => exact blank_keyHandover h ht
  | takeStart => exact blank_takeStart h hr ht
  | takeComplete => exact blank_takeComplete h hr ht
  | chunkOpen => exact blank_chunkOpen h ht
  | holdTimerExpiry => exact blank_holdTimerExpiry h ht
  | cipherGrant =>
    cases ht
    split
    · exact h.grant
    · exact h
  | sealingBatch => exact blank_sealingBatch h ht
  | closingBatch => exact blank_closingBatch h ht
  | frameTake => exact blank_frameTake h ht
  | verifyBatch => exact blank_verifyBatch h hr ht
  | deliverBatch => exact blank_deliverBatch h hr ht
  | outputReservation => exact blank_outputReservation h ht
  | resealBatch => exact blank_resealBatch h hr ht
  | finalResealBatch => exact blank_finalResealBatch h ht
  | saveEntryBatch => exact blank_saveEntryBatch h ht
  | saveHeaderBatch => exact blank_saveHeaderBatch h ht
  | loadHeaderBatch => exact blank_loadHeaderBatch h hr ht
  | loadEntryBatch w =>
    rcases exec_loadEntryBatch_cases ht with ⟨-, hb, -⟩ | ⟨number, header, staging, rfl⟩
    · exact hb h
    · rw [(State.completeLoad_unit _ number header staging).1] at htr
      cases htr
  | clockTick =>
    rw [← Host.Outcome.next.inj ht]
    exact (h.of_body rfl : ({ s with tickPhase := 0 } : State).Blank).advanceClock _
  | slotFaultLapsed => exact blank_slotFaultLapsed h hr ht

/-- What each command does to readiness, the cell and the fused keys. -/
theorem exec_readiness {i : Instr} {s t : State} (h : exec i s = .next t) :
    (s.ready = false → t.ready = true → ∃ w, i = .fresh w ∨ i = .loadEntryBatch w) ∧
      (s.ready = true → t.ready = false → ∃ a b, i = .fullReset a b) ∧
      (t.cell ≠ s.cell → i = .saveHeaderBatch) ∧ t.fused = s.fused := by
  have same : t.ready = s.ready → t.fused = s.fused → (t.cell ≠ s.cell → i = .saveHeaderBatch) →
      (s.ready = false → t.ready = true → ∃ w, i = .fresh w ∨ i = .loadEntryBatch w) ∧
      (s.ready = true → t.ready = false → ∃ a b, i = .fullReset a b) ∧
      (t.cell ≠ s.cell → i = .saveHeaderBatch) ∧ t.fused = s.fused := fun hr hf hc =>
    ⟨fun h1 h2 => by simp [hr, h1] at h2, fun h1 h2 => by simp [hr, h1] at h2, hc, hf⟩
  cases hi : movesUnit i with
  | false =>
    obtain ⟨h1, h2, h3, -⟩ := State.unit_fields (exec_unit hi h)
    exact same h1 h3 fun hc => absurd h2 hc
  | true =>
    cases i with
    | fullReset a b =>
      cases h
      exact ⟨fun _ => nofun, fun _ _ => ⟨a, b, rfl⟩, fun hc => absurd rfl hc, rfl⟩
    | fresh w =>
      obtain ⟨h1, h2, h3, -⟩ := exec_fresh_unit h
      exact ⟨fun _ _ => ⟨w, .inl rfl⟩, fun hs ht => by simp [h1 hs] at ht, fun hc => absurd h2 hc, h3⟩
    | time =>
      obtain ⟨h1, h2, h3, -⟩ := exec_time_unit h
      exact same h1 h3 fun hc => absurd h2 hc
    | saveHeaderBatch =>
      obtain ⟨h1, h3, -⟩ := exec_saveHeaderBatch_unit h
      exact same h1 h3 fun _ => rfl
    | loadEntryBatch w =>
      rcases exec_loadEntryBatch_cases h with ⟨hu, -, -⟩ | ⟨number, header, staging, rfl⟩
      · obtain ⟨h1, h2, h3, -⟩ := State.unit_fields hu
        exact same h1 h3 fun hc => absurd h2 hc
      · obtain ⟨h1, h2, h3, -⟩ := State.completeLoad_unit (s.recorded w).freeCipher number header staging
        exact ⟨fun _ _ => ⟨w, .inr rfl⟩, fun _ h => by simp [h1] at h, fun hc => absurd h2 hc, h3⟩
    | _ => cases hi

/-- Settles O59: what moves readiness and the cell is read off the commands, and a part that is NOT_READY is blank. -/
theorem readinessAndCellMove : Obligations.ReadinessAndCellMove := by
  intro s t h
  rcases step_cases h with rfl | ⟨c, rest, hp, hc⟩
  · exact ⟨fun h1 h2 => by simp [h1] at h2, fun h1 h2 => by simp [h1] at h2, fun h => absurd rfl h, rfl, id⟩
  · obtain ⟨h1, h2, h3, h4⟩ := exec_readiness hc
    have hhead : s.pending.head? = some c := by rw [hp]; rfl
    rw [hhead]
    refine ⟨fun hs ht => ?_, fun hs ht => ?_, fun hcell => congrArg some (h3 hcell), h4, fun hu => ?_⟩
    · obtain ⟨w, hw⟩ := h1 hs ht
      exact ⟨w, hw.imp (congrArg some) (congrArg some)⟩
    · obtain ⟨a, b, hab⟩ := h2 hs ht
      exact ⟨a, b, congrArg some hab⟩
    · rw [State.unreadyOk_iff] at hu ⊢
      intro ht
      cases hs : s.ready with
      | false =>
        have hb : ({ s with pending := rest } : State).Blank := (hu hs).of_body rfl
        exact exec_blank hb hs hc ht
      | true =>
        obtain ⟨a, b, rfl⟩ := h2 hs ht
        exact blank_fullReset hc

end Sys2Proof.Machine
end

