-- ==== Sys2Proof/Proofs/Rules.lean ====
section
/-! Proofs: rules as they are clamped, merged and decided at a chunk open, and the state after a full reset (R9, R15 to
R19, R26). -/

namespace Sys2Proof.Machine

/-! ## Clamps (R9) -/

theorem clampClassHold_beyond {cls : Nat} (h : 3 < cls) (hold : Nat) : clampClassHold cls hold = ⟨.never, some 90⟩ := by
  obtain ⟨k, rfl⟩ := Nat.exists_eq_add_of_lt h
  rw [show 3 + k + 1 = k + 4 by omega]
  rfl

theorem clampHold_pos {hold : Nat} (h : 1 ≤ hold) : clampHold hold = min hold 1023 := if_neg (by omega)

theorem clampViews_le {v : Nat} (h : v ≤ 255) :
    clampViews v = if v = 0 then none else if v = 255 then some 254 else some v := by
  unfold clampViews
  split
  · rfl
  · split
    next hv => rw [hv]; rfl
    · rw [min_eq_left (by omega)]

theorem clampLength_beyond {code : Nat} (h : 3 < code) : clampLength code = 512 := by
  obtain ⟨k, rfl⟩ := Nat.exists_eq_add_of_lt h
  rw [show 3 + k + 1 = k + 4 by omega]
  rfl

/-- The choice of an entry never answers EXPIRED. -/
theorem State.chooseEntry_error {s : State} {number : Nat} {r : Result} (h : s.chooseEntry number = .error r) :
    r ≠ .expired := by
  unfold State.chooseEntry at h
  split at h
  · split at h
    · cases h
      nofun
    · cases h
  · split at h
    · cases h
      nofun
    · split at h
      · cases h
      · cases h
        nofun

/-- A RECORD OPEN is refused EXPIRED for the expiry its rule has, and for no other reason. -/
theorem State.checkRecordOpen_expired {s : State} {n : Fin 8} (h : s.checkRecordOpen n = .error .expired) :
    (s.ruleFields n).expiry ≠ none := by
  intro hn
  unfold State.checkRecordOpen at h
  dsimp only at h
  split at h
  · cases h
  · split at h
    · cases h
    · split at h
      · cases h
      · split at h
        · cases h
        · split at h
          next r hr =>
            cases h
            exact State.chooseEntry_error hr rfl
          · rw [hn] at h
            cases h

/-- Settles O49: each clamp case by case, the rule fields read at their places, and an expiry of 0 is none. -/
theorem ruleFieldsClamped : Obligations.RuleFieldsClamped := by
  refine ⟨fun hold => ⟨rfl, rfl, rfl, rfl, ?_, ?_, ?_, fun cls h => clampClassHold_beyond h hold⟩,
    fun v h => clampViews_le h, fun t _ => rfl, fun p => ?_,
    ⟨rfl, rfl, rfl, rfl, fun code h => clampLength_beyond h⟩,
    fun s n => ⟨rfl, rfl, rfl, fun h0 hx => State.checkRecordOpen_expired hx ?_⟩⟩
  · rintro rfl
    rfl
  · intro h1 h2
    simp only [clampClassHold, clampHold_pos h1, min_eq_left h2]
  · intro h
    simp only [clampClassHold, clampHold_pos (show 1 ≤ hold by omega), min_eq_right h.le]
  · unfold clampRotation
    split <;> omega
  · simp [State.ruleFields, h0, clampExpiry]

/-! ## Merges (R18) -/

/-- The stricter class of a merge. -/
theorem mergeRule_cls (r : ClassHold) (g : Segment) :
    (mergeRule r g).cls = if g.cls.code < r.cls.code then r.cls else g.cls := rfl

theorem mergeRule_hold (r : ClassHold) (g : Segment) :
    (mergeRule r g).hold = if (mergeRule r g).cls = .never then optMin g.hold r.hold else none := rfl

/-- A rule that is no stricter than a segment without a hold leaves it as it is. -/
theorem mergeRule_weaker {r : ClassHold} {g : Segment} (hn : g.cls ≠ .never) (hh : g.hold = none)
    (hc : r.cls.code ≤ g.cls.code) : mergeRule r g = g := by
  unfold mergeRule
  rw [if_neg (by omega)]
  dsimp only
  rw [if_neg hn, ← hh]

/-- Settles O50: a merge is the maximum of the classes and the minimum of the holds. -/
theorem mergeTowardsStricter : Obligations.MergeTowardsStricter := by
  refine ⟨fun g r => ⟨rfl, ?_, ?_, ?_, fun h => if_neg h, ?_, ?_, ?_, mergeRule_weaker⟩, fun x => ?_,
    fun first count key a b => ⟨rfl, rfl, rfl, rfl, rfl⟩⟩
  · rw [mergeRule_cls]
    split
    · exact .inr rfl
    · exact .inl rfl
  · rw [mergeRule_cls]
    split <;> omega
  · rw [mergeRule_cls]
    split <;> omega
  · intro h a b ha hb
    rw [mergeRule_hold, if_pos h, ha, hb]
    rfl
  · intro h hg
    rw [mergeRule_hold, if_pos h, hg]
    cases r.hold <;> rfl
  · intro h hr
    rw [mergeRule_hold, if_pos h, hr]
    cases g.hold <;> rfl
  · unfold Entry.mergePending
    split <;> exact ⟨rfl, rfl⟩

/-! ## The segment decision (R15) -/

section
variable {x : Entry} {init : List Segment} {last : Segment}

theorem Entry.mergePending_concat (h : x.segments = init ++ [last]) : x.mergePending =
    { x with segments := init ++ [match x.pendingRule with | none => last | some q => mergeRule q last] } := by
  cases hr : x.pendingRule with
  | none =>
    simp only [Entry.mergePending, hr]
    rw [← h, ← hr]
  | some q =>
    simp only [Entry.mergePending, hr, h, modifyLast_concat]

/-- Case 1: an empty last segment takes a pending rule outright. -/
theorem Entry.decideSegment_empty (h : x.segments = init ++ [last]) (h0 : last.count = 0) : x.decideSegment =
    { x with
      segments := init ++
        [match x.pendingRule with | none => last | some q => { last with cls := q.cls, hold := q.hold }]
      pendingRule := none, pendingRotation := false } := by
  have hl : x.segments.getLast? = some last := by rw [h, List.getLast?_concat]
  unfold Entry.decideSegment
  cases hr : x.pendingRule with
  | none =>
    simp only [hl, if_pos h0]
    rw [← h]
  | some q =>
    simp only [hl, if_pos h0]
    rw [h, modifyLast_concat]
    rfl

theorem Entry.rotationWanted_eq (x : Entry) (last : Segment) :
    x.rotationWanted last = (decide (x.rotation ≠ 0 ∧ x.rotation ≤ last.count) || x.pendingRotation) := by
  have hne : (x.rotation != 0) = decide (x.rotation ≠ 0) := Bool.eq_iff_iff.2 (by simp only [bne_iff_ne, decide_eq_true_eq])
  rw [Entry.rotationWanted, hne, Bool.decide_and]

/-- The decision on a last segment that holds chunks. -/
theorem Entry.decideSegment_used (h : x.segments = init ++ [last]) (h0 : last.count ≠ 0) : x.decideSegment =
    if !x.rotationWanted last && x.pendingRule.isNone then x
    else if x.segments.length < 16 then
      match x.nextKey with
      | some key => x.appendSegment last key
      | none => x.mergePending
    else
      { x.mergePending with
        pendingRule := none
        rotationHeld := x.rotationHeld || x.rotationWanted last
        pendingRotation := false } := by
  have hl : x.segments.getLast? = some last := by rw [h, List.getLast?_concat]
  unfold Entry.decideSegment
  simp only [hl, if_neg h0] <;> rfl

theorem Entry.appendSegment_eq (x : Entry) (last : Segment) (key : Key) : x.appendSegment last key =
    { x with
      segments := x.segments ++
        [{ first := x.chunkCount, count := 0, key := some key
           cls := match x.pendingRule with | none => last.cls | some q => q.cls
           hold := match x.pendingRule with | none => last.hold | some q => q.hold
           firstStamp := none, lastStamp := none }]
      nextKey := none, pendingRule := none, pendingRotation := false } := by
  unfold Entry.appendSegment
  cases x.pendingRule <;> rfl

end

/-- Settles O35: the cases of the decision by what the last segment holds, what is wanted, and what there is room for. -/
theorem segmentDecision : Obligations.SegmentDecision := by
  intro x init last h
  dsimp only
  rw [← Entry.rotationWanted_eq]
  refine ⟨Entry.decideSegment_empty h, fun h0 hw hr => ?_, fun h0 hx => ?_⟩
  · rw [Entry.decideSegment_used h h0, if_pos (by simp [hw, hr])]
  · have hn : ¬ (!x.rotationWanted last && x.pendingRule.isNone) = true := by
      rcases hx with hx | hx
      · simp [hx]
      · simp [Option.isNone_iff_eq_none, hx]
    rw [Entry.decideSegment_used h h0, if_neg hn]
    refine ⟨fun key hl hk => ?_, fun hl => ?_, fun hl hk => ?_⟩
    · rw [if_pos hl, hk]
      exact x.appendSegment_eq last key
    · rw [if_neg (by omega), Entry.mergePending_concat h] <;> rfl
    · rw [if_pos hl, Entry.mergePending_concat h]
      split
      next key hkey => rw [hk] at hkey; cases hkey
      · rfl

/-! ## The reset state (R26, R165) -/

/-- The invariants about a table whose entries are FREE and slots that are bare hold at once. -/
theorem reset_invariants : State.reset.clockOk ∧ State.reset.lapseOk ∧ State.reset.poolOk ∧ flagsOk State.reset.flags ∧
    votesOk State.reset.votes ∧ State.reset.segmentsOk ∧ State.reset.keysOk ∧ State.reset.positionsOk ∧
    State.reset.unreadyOk := by
  refine ⟨⟨Nat.zero_le _, fun n f t hf => ?_⟩, fun e => ?_, ⟨Nat.zero_le _, by decide⟩, List.Pairwise.nil, votesOk_nil,
    fun e => ?_, fun e _ => ?_, ⟨fun n => ?_, fun n => .inl ?_, fun n f hf => ?_, nofun⟩, fun _ => ⟨fun e => ?_, rfl, nofun, fun n => ?_⟩⟩
  · rw [State.slot_reset] at hf
    cases hf
  · rw [State.entry_reset]
    exact ⟨rfl, nofun⟩
  · rw [State.entry_reset]
    exact nofun
  · rw [State.entry_reset]
    exact Entry.keyless_free 0
  · rw [State.slot_reset]
    rfl
  · rw [State.slot_reset]
    exact ⟨.inl rfl, rfl, rfl⟩
  · rw [State.slot_reset] at hf
    cases hf
  · exact State.entry_reset e
  · rw [State.slot_reset]
    exact ⟨rfl, rfl, rfl⟩

/-- Settles O3: the fields are the reset state's own, and the invariants hold of empty tables. -/
theorem resetValues : Obligations.ResetValues := by
  refine ⟨rfl, rfl, rfl, rfl, rfl, rfl, rfl, rfl, rfl, rfl, rfl, State.slot_reset, State.entry_reset, rfl, rfl, rfl, rfl,
    rfl, rfl, rfl, rfl, rfl, rfl, rfl, rfl, rfl, rfl, rfl, rfl, rfl, rfl, reset_invariants⟩

end Sys2Proof.Machine
end

