-- ==== Sys2Proof/Proofs/Frames.lean ====
section
/-! Proofs: what the operations on a slot of a part that is not STOPPED leave alone, said once for each operation; what a
lapse marks; and what a part answer leaves alone. -/

namespace Sys2Proof.Machine

/-! ## The two frames -/

/-- From `s` to `t`, the part not being STOPPED, nothing has changed but slots, entries, the waiting list, the batch in
flight, memory in record `n` and the flags `fs`, which may have been raised. -/
structure State.Frame (s t : State) (n : Fin 8) (fs : List Flag) : Prop where
  running : s.part ≠ .stopped
  kept : t.kept = s.kept
  keysClock : t.keysClock = s.keysClock
  held : t.held = s.held
  causes : t.heldCauses = s.heldCauses
  mem : ∀ a, ¬ s.inRecord n a → t.mem.get a = s.mem.get a
  flags : s.flagsBut t fs
  raised : ∀ f ∈ s.flags, f ∈ t.flags

/-- And of slots, entries, waiting list and batch only slot `n` has changed. -/
structure State.Own (s t : State) (n : Fin 8) (fs : List Flag) : Prop extends State.Frame s t n fs where
  slots : s.sameSlotsBut t n
  entries : t.entries = s.entries
  waiting : t.waiting = s.waiting
  flight : t.flight = s.flight

section
variable {s t u : State} {n : Fin 8} {fs gs : List Flag}

theorem State.flagsBut.trans (h : s.flagsBut u fs) (h' : u.flagsBut t gs) (hg : gs ⊆ fs) : s.flagsBut t fs :=
  fun f hf => (h' f fun h => hf (hg h)).trans (h f hf)

theorem State.flagsBut.mono (h : s.flagsBut t gs) (hg : gs ⊆ fs) : s.flagsBut t fs := fun f hf => h f fun h => hf (hg h)

namespace State.Frame

theorem refl (hr : s.part ≠ .stopped) : s.Frame s n fs := ⟨hr, rfl, rfl, rfl, rfl, fun _ _ => rfl, fun _ _ => .rfl, fun _ => id⟩

theorem part (h : s.Frame t n fs) : t.part = s.part := congrArg Kept.part h.kept

theorem running' (h : s.Frame t n fs) : t.part ≠ .stopped := h.part ▸ h.running

theorem clock (h : s.Frame t n fs) : t.clock = s.clock := congrArg (·.2.2) h.keysClock

theorem windows (h : s.Frame t n fs) : t.windows = s.windows := congrArg Kept.windows h.kept

theorem sameKeysAndClock (h : s.Frame t n fs) : s.sameKeysAndClock t := (State.sameKeysAndClock_iff s t).2 h.keysClock

theorem trans (h : s.Frame u n fs) (h' : u.Frame t n gs) (hg : gs ⊆ fs) : s.Frame t n fs where
  running := h.running
  kept := h'.kept.trans h.kept
  keysClock := h'.keysClock.trans h.keysClock
  held := h'.held.trans h.held
  causes := h'.causes.trans h.causes
  mem a ha := (h'.mem a fun h1 => ha ((State.inRecord_of h.kept n a).1 h1)).trans (h.mem a ha)
  flags := h.flags.trans h'.flags hg
  raised f hf := h'.raised f (h.raised f hf)

theorem mono (h : s.Frame t n gs) (hg : gs ⊆ fs) : s.Frame t n fs := { h with flags := h.flags.mono hg }

/-- A change of slots, entries, waiting list or batch alone. -/
theorem of_same (hr : s.part ≠ .stopped) (hk : t.kept = s.kept) (hc : t.keysClock = s.keysClock) (hh : t.held = s.held)
    (hcs : t.heldCauses = s.heldCauses) (hm : t.mem = s.mem) (hf : t.flags = s.flags) : s.Frame t n fs :=
  ⟨hr, hk, hc, hh, hcs, fun _ _ => by rw [hm], fun _ _ => by rw [hf], fun _ h => by rwa [hf]⟩

/-- What an order's taking leaves alone, once the sweep goes on. -/
theorem orderFrame (h : s.Frame t n fs) : s.orderFrame { t with sweep := s.afterSlot n } n :=
  ⟨congrArg (fun k : Kept => { k with sweep := s.afterSlot n }) h.kept, h.sameKeysAndClock, h.held, h.causes, h.mem⟩

end State.Frame

namespace State.Own

theorem refl (hr : s.part ≠ .stopped) : s.Own s n fs := ⟨.refl hr, fun _ _ => rfl, rfl, rfl, rfl⟩

theorem trans (h : s.Own u n fs) (h' : u.Own t n gs) (hg : gs ⊆ fs) : s.Own t n fs where
  toFrame := h.toFrame.trans h'.toFrame hg
  slots m hm := (h'.slots m hm).trans (h.slots m hm)
  entries := h'.entries.trans h.entries
  waiting := h'.waiting.trans h.waiting
  flight := h'.flight.trans h.flight

theorem mono (h : s.Own t n gs) (hg : gs ⊆ fs) : s.Own t n fs := { h with toFrame := h.toFrame.mono hg }

theorem entry (h : s.Own t n fs) (e : Fin 64) : t.entry e = s.entry e := State.entry_congr h.entries e

end State.Own
end

/-! ## Operations on one slot -/

section
variable {s : State} (n : Fin 8)

theorem State.setSlot_own (hr : s.part ≠ .stopped) (x : Slot) : s.Own (s.setSlot n x) n [] :=
  ⟨.of_same hr rfl rfl rfl rfl rfl rfl, fun _ hm => State.slot_setSlot_ne s x hm, rfl, rfl, rfl⟩

theorem State.modSlot_own (hr : s.part ≠ .stopped) (g : Slot → Slot) : s.Own (s.modSlot n g) n [] :=
  State.setSlot_own n hr _

theorem State.setEngine_own (hr : s.part ≠ .stopped) (g : Engine → Engine) (fs : List SlotField)
    (hf : ∀ p, .outcome p ∈ fs → p < 16) : s.Own (s.setEngine n g fs) n [] where
  running := hr
  kept := by simp
  keysClock := by simp
  held := State.setEngine_held hr ..
  causes := by simp
  mem _ ha := State.setEngine_outside _ _ _ _ hf ha
  flags _ _ := by simp
  raised _ h := by simpa using h
  slots m hm := by simp [State.setEngine_slot, hm]
  entries := by simp
  waiting := by simp
  flight := by simp

theorem State.advance_own (hr : s.part ≠ .stopped) (f : Slot → Slot) : s.Own (s.advance n f) n [] where
  running := hr
  kept := by simp
  keysClock := by simp
  held := State.advance_held hr ..
  causes := by simp
  mem _ ha := State.advance_outside _ _ _ ha
  flags _ _ := by simp
  raised _ h := by simpa using h
  slots m hm := by simp [State.advance_slot, hm]
  entries := by simp
  waiting := by simp
  flight := by simp

theorem State.setSlotState_own (hr : s.part ≠ .stopped) (st : SlotState) : s.Own (s.setSlotState n st) n [] := by
  unfold State.setSlotState
  split
  · exact .refl hr
  · exact State.setEngine_own n hr _ _ (by simp)

theorem State.notify_own (hr : s.part ≠ .stopped) (f : Flag) : s.Own (s.notify f) n [f] where
  running := hr
  kept := by simp
  keysClock := by simp
  held := by simp
  causes := by rw [State.notify_running hr]; rfl
  mem _ _ := by simp
  flags g hg := by
    rw [State.notify_running hr]
    simp only [State.raise, mem_raiseFlag]
    exact or_iff_right fun h => hg (List.mem_singleton.2 h)
  raised g hg := by
    rw [State.notify_running hr]
    simp [State.raise, hg]
  slots m _ := by simp
  entries := by simp
  waiting := by simp
  flight := by simp

/-- A cause noted while the part is not STOPPED is pending. -/
theorem State.mem_notify_flags (hr : s.part ≠ .stopped) (f g : Flag) : g ∈ (s.notify f).flags ↔ g = f ∨ g ∈ s.flags := by
  rw [State.notify_running hr]
  exact mem_raiseFlag f g s.flags

theorem State.writeResult_own (hr : s.part ≠ .stopped) (r : Result) : s.Own (s.writeResult n r) n [slotFlag .result n] := by
  unfold State.writeResult
  have h := State.setEngine_own n hr (fun g => { g with result := r }) [.result] (by simp)
  dsimp only
  split
  · exact h.mono (by simp)
  · exact (h.mono (by simp)).trans (State.notify_own n h.running' _) (by simp)

theorem State.answer_own (hr : s.part ≠ .stopped) (number : Mark) (r : Result) :
    s.Own (s.answer n number r) n [slotFlag .result n] where
  running := hr
  kept := by simp
  keysClock := by simp
  held := (State.answer_held n r number hr).1
  causes := (State.answer_held n r number hr).2
  mem _ ha := State.answer_outside _ _ _ _ ha
  flags g hg := by
    rw [State.answer_flags n r number hr]
    split
    · exact .rfl
    · rw [mem_raiseFlag]
      exact or_iff_right fun h => hg (List.mem_singleton.2 h)
  raised g hg := by
    rw [State.answer_flags n r number hr]
    split
    · exact hg
    · simp [hg]
  slots m hm := by simp [hm]
  entries := by simp
  waiting := by simp
  flight := by simp

/-- An answer other than NONE raises RESULT. -/
theorem State.answer_raises (hr : s.part ≠ .stopped) (number : Mark) {r : Result} (h : r ≠ .none) :
    slotFlag .result n ∈ (s.answer n number r).flags := by
  rw [State.answer_flags n r number hr, if_neg h]
  simp

theorem State.answer_none_flags (hr : s.part ≠ .stopped) (number : Mark) : (s.answer n number .none).flags = s.flags := by
  rw [State.answer_flags n _ number hr, if_pos rfl]

/-- A result to come later: NONE raises nothing. -/
theorem State.answer_none_own (hr : s.part ≠ .stopped) (number : Mark) : s.Own (s.answer n number .none) n [] :=
  { State.answer_own n hr number .none with
    flags := fun g _ => by rw [State.answer_none_flags n hr number] }

theorem State.completeOrder_own (hr : s.part ≠ .stopped) (number : Option Mark) :
    s.Own (s.completeOrder n number) n [slotFlag .result n] := by
  unfold State.completeOrder
  split
  · exact State.writeResult_own n hr _
  · exact .refl hr

/-- The slot after DONE has been written where the latch holds the number. -/
theorem State.completeOrder_slot (s : State) (number : Option Mark) :
    (s.completeOrder n number).slot n = (s.slot n).served number := by
  unfold State.completeOrder Slot.served
  split <;> simp

theorem State.completeOrder_raises (hr : s.part ≠ .stopped) {number : Option Mark} (h : number = some (s.slot n).latch) :
    slotFlag .result n ∈ (s.completeOrder n number).flags := by
  unfold State.completeOrder
  rw [if_pos h, State.writeResult_flags n .done hr, if_neg nofun]
  simp

end

/-! ## Operations on entries -/

section
variable {s : State} (n : Fin 8) (e : Fin 64)

theorem State.setEntry_frame (hr : s.part ≠ .stopped) (x : Entry) : s.Frame (s.setEntry e x) n [] :=
  .of_same hr rfl rfl rfl rfl rfl rfl

theorem State.modEntry_frame (hr : s.part ≠ .stopped) (g : Entry → Entry) : s.Frame (s.modEntry e g) n [] :=
  State.setEntry_frame n e hr _

theorem State.markLapse_frame (hr : s.part ≠ .stopped) (ns : List (Fin 8)) : s.Frame (s.markLapse ns) n [] := by
  rw [State.markLapse_eq]
  exact .of_same hr rfl rfl rfl rfl rfl rfl

theorem State.raise_frame (hr : s.part ≠ .stopped) (f : Flag) : s.Frame (s.raise f) n [f] := by
  rw [← State.notify_running hr]
  exact (State.notify_own n hr f).toFrame

theorem State.lapse_frame (hr : s.part ≠ .stopped) : s.Frame (s.lapse e) n [partFlag .lapse] := by
  unfold State.lapse
  have h1 : s.Frame _ n _ := State.setEntry_frame n e hr ((s.entry e).spent .lapsed)
  have h2 := h1.trans (State.markLapse_frame n h1.running' (s.entry e).boundSlots) (by simp)
  exact (h2.mono (by simp)).trans (State.raise_frame n h2.running' _) (by simp)

theorem State.judge_frame (hr : s.part ≠ .stopped) : s.Frame (s.judge e) n [partFlag .lapse] := by
  unfold State.judge
  split
  · exact State.lapse_frame n e hr
  · exact .refl hr

theorem State.derive_frame (hr : s.part ≠ .stopped) : s.Frame (s.derive e) n [partFlag .lapse] := by
  have h := State.modEntry_frame n e hr fun x => { x with lapseTime := x.deriveLapse }
  exact (h.mono (by simp)).trans (State.judge_frame n e h.running') (by simp)

theorem State.judgeLastView_frame (hr : s.part ≠ .stopped) : s.Frame (s.judgeLastView e) n [partFlag .lapse] := by
  unfold State.judgeLastView
  split
  · exact State.lapse_frame n e hr
  · exact .refl hr

theorem State.becameHeld_frame (hr : s.part ≠ .stopped) : s.Frame (s.becameHeld e) n [partFlag .lapse] := by
  have h := State.derive_frame n e hr
  exact h.trans (State.judgeLastView_frame n e h.running') (by simp)

theorem State.freeEntry_frame (hr : s.part ≠ .stopped) : s.Frame (s.freeEntry e) n [] := by
  have h := State.setEntry_frame n e hr (s.entry e).returned
  exact h.trans (State.markLapse_frame n h.running' _) (by simp)

theorem State.endRecording_frame (hr : s.part ≠ .stopped) (cutOff : Bool) :
    s.Frame (s.endRecording e cutOff) n [partFlag .lapse] := by
  unfold State.endRecording
  split
  · split
    · exact (State.freeEntry_frame n e hr).mono (by simp)
    · have h := State.modEntry_frame n e hr fun x => x.endHeld cutOff
      exact (h.mono (by simp)).trans (State.becameHeld_frame n e h.running') (by simp)
  · exact .refl hr

theorem State.endMove_frame (hr : s.part ≠ .stopped) : s.Frame (s.endMove e) n [partFlag .lapse] := by
  unfold State.endMove
  split
  · have h := State.modEntry_frame n e hr fun x => { x with state := .held }
    exact (h.mono (by simp)).trans (State.becameHeld_frame n e h.running') (by simp)
  · exact .refl hr

/-! ## The release of a slot -/

theorem State.release_frame (hr : s.part ≠ .stopped) : s.Frame (s.release n) n [] :=
  .of_same hr (by simp) (by simp) (by simp) (by simp) (by simp) (by simp)

theorem State.toIdle_frame (hr : s.part ≠ .stopped) : s.Frame (s.toIdle n) n [] where
  running := hr
  kept := by simp
  keysClock := by simp
  held := State.toIdle_held hr n
  causes := by simp
  mem _ ha := State.toIdle_outside s n ha
  flags _ _ := by simp
  raised _ h := by simpa using h

theorem State.toFaulted_frame (hr : s.part ≠ .stopped) (f : SlotFault) :
    s.Frame (s.toFaulted n f) n [slotFlag .fault n] := by
  unfold State.toFaulted
  have h1 := State.release_frame n hr
  have h2 := h1.trans (State.modSlot_own n h1.running' Slot.dropWork).toFrame (by simp)
  have h3 := h2.trans (State.setEngine_own n h2.running'
    (fun g => { g with state := .faulted, fault := (s.slot n).faultCode f }) [.fault, .state] (by simp)).toFrame (by simp)
  exact (h3.mono (by simp)).trans (State.notify_own n h3.running' _).toFrame (by simp)

end

/-! ## What a lapse marks (R123, R139) -/

/-- From `s` to `t` slots are as they were, but that the LAPSED fault of those bound to entry `e` is due where the entry has
gone, which it stays. -/
structure State.MarksBound (s t : State) (e : Fin 64) : Prop where
  slots : ∀ m, t.slot m =
    { s.slot m with
      lapseDue := (s.slot m).lapseDue || ((t.entry e).gone && !(s.entry e).gone && (s.entry e).boundSlots.contains m) }
  gone : (s.entry e).gone = true → (t.entry e).gone = true

/-- The same with the players of the entry marked. -/
structure State.Marks (s t : State) (e : Fin 64) : Prop where
  slots : ∀ m, t.slot m =
    { s.slot m with
      lapseDue := (s.slot m).lapseDue || ((t.entry e).gone && !(s.entry e).gone && (s.entry e).players.contains m) }
  gone : (s.entry e).gone = true → (t.entry e).gone = true

section
variable {s t u : State} {e : Fin 64}

theorem State.MarksBound.of_slots (h : ∀ m, t.slot m = s.slot m) (hg : (t.entry e).gone = (s.entry e).gone) :
    s.MarksBound t e :=
  ⟨fun m => by rw [h, hg]; simp, fun h => hg ▸ h⟩

theorem State.Marks.of_slots (h : ∀ m, t.slot m = s.slot m) (hg : (t.entry e).gone = (s.entry e).gone) : s.Marks t e :=
  ⟨fun m => by rw [h, hg]; simp, fun h => hg ▸ h⟩

/-- Of an entry without binding the players are marked. -/
theorem State.MarksBound.unbound (h : s.MarksBound t e) (hb : (s.entry e).binding = none) : s.Marks t e :=
  ⟨fun m => by rw [h.slots m, Entry.boundSlots, hb]; simp, h.gone⟩

theorem State.MarksBound.trans (h : s.MarksBound u e) (h' : u.MarksBound t e)
    (hp : (u.entry e).boundSlots = (s.entry e).boundSlots) : s.MarksBound t e where
  slots m := by
    rw [h'.slots m, h.slots m, hp]
    have h1 := h.gone
    have h2 := h'.gone
    revert h1 h2
    cases (s.entry e).gone <;> cases (u.entry e).gone <;> cases (t.entry e).gone <;> simp
  gone h0 := h'.gone (h.gone h0)

/-- An entry that goes from the table marks the slots bound to it. -/
theorem State.MarksBound.of_gone (hs : (s.entry e).gone = false) {x : Entry} (hx : x.gone = true)
    (ht : ∀ m, t.slot m = ((s.setEntry e x).markLapse (s.entry e).boundSlots).slot m) (hte : t.entry e = x) :
    s.MarksBound t e where
  slots m := by
    rw [ht, State.markLapse_slot, hte, hx, hs]
    by_cases hm : m ∈ (s.entry e).boundSlots <;> simp [hm]
  gone h := by rw [hs] at h; cases h

theorem Entry.gone_of_judged {x : Entry} (h : x.judged = true) : x.gone = false := by
  rcases (Entry.judged_iff x).1 h with h | h | h <;> simp [Entry.gone, h]

theorem State.lapse_marks (hj : (s.entry e).judged = true) : s.MarksBound (s.lapse e) e :=
  .of_gone (Entry.gone_of_judged hj) (x := (s.entry e).spent .lapsed) rfl (fun _ => rfl) (by simp)

theorem State.judge_marks (s : State) (e : Fin 64) : s.MarksBound (s.judge e) e := by
  unfold State.judge
  split
  next h =>
    unfold State.lapseReached at h
    exact State.lapse_marks (Bool.and_eq_true_iff.1 h).1
  · exact .of_slots (fun _ => rfl) rfl

theorem State.derive_marks (s : State) (e : Fin 64) : s.MarksBound (s.derive e) e := by
  unfold State.derive
  refine State.MarksBound.trans (u := s.modEntry e fun x => { x with lapseTime := x.deriveLapse }) ?_
    (State.judge_marks _ e) (by simp [Entry.boundSlots])
  exact .of_slots (fun _ => rfl) (by simp [Entry.gone])

theorem State.judgeLastView_marks (s : State) (e : Fin 64) : s.MarksBound (s.judgeLastView e) e := by
  unfold State.judgeLastView
  split
  next h =>
    simp only [Bool.and_eq_true, beq_iff_eq] at h
    obtain ⟨⟨-, hh⟩, -⟩ := h
    exact State.lapse_marks ((Entry.judged_iff _).2 (.inr (.inl hh)))
  · exact .of_slots (fun _ => rfl) rfl

theorem Entry.derivedAt_binding (x : Entry) (c : Nat) : (x.derivedAt c).binding = x.binding := by
  unfold Entry.derivedAt
  split
  · rfl
  · split <;> rfl

theorem State.becameHeld_marks (s : State) (e : Fin 64) : s.MarksBound (s.becameHeld e) e := by
  unfold State.becameHeld
  refine (State.derive_marks s e).trans (State.judgeLastView_marks _ e) ?_
  simp [Entry.boundSlots, Entry.derivedAt_binding, Entry.derivedAt_players]

theorem Entry.returned_gone (x : Entry) : x.returned.gone = true := by
  unfold Entry.returned
  split <;> rfl

theorem State.endRecording_marks (hb : (s.entry e).binding = none) (cutOff : Bool) : s.Marks (s.endRecording e cutOff) e := by
  refine State.MarksBound.unbound ?_ hb
  unfold State.endRecording
  split
  next hl =>
    split
    · exact .of_gone (by simp [Entry.gone, hl]) (x := (s.entry e).returned) (Entry.returned_gone _) (fun _ => rfl) (by simp)
    · refine State.MarksBound.trans (u := s.modEntry e fun x => x.endHeld cutOff) ?_ (State.becameHeld_marks _ e)
        (by simp [Entry.endHeld, Entry.boundSlots, hb])
      exact .of_slots (fun _ => rfl) (by simp only [State.entry_modEntry_self, Entry.gone, Entry.endHeld, hl]; rfl)
  · exact .of_slots (fun _ => rfl) rfl

theorem State.endMove_marks (s : State) (e : Fin 64) : s.MarksBound (s.endMove e) e := by
  unfold State.endMove
  split
  next hl =>
    refine State.MarksBound.trans (u := s.modEntry e fun x => { x with state := .held }) ?_ (State.becameHeld_marks _ e)
      (by simp [Entry.boundSlots])
    exact .of_slots (fun _ => rfl) (by simp only [State.entry_modEntry_self, Entry.gone, hl]; rfl)
  · exact .of_slots (fun _ => rfl) rfl

/-- Marks made by the entry operation that follows an operation on slot `n` alone, the entry without slot `n`. -/
theorem State.Marks.playersMarked {n : Fin 8} (h : u.Marks t e) (hs : s.sameSlotsBut u n)
    (he : u.entry e = (s.entry e).unbind n) : s.playersMarked t n e := by
  intro m hm
  have hg : (u.entry e).gone = (s.entry e).gone := by rw [he]; rfl
  have hp : (u.entry e).players.contains m = (s.entry e).players.contains m := by
    rw [he, Bool.eq_iff_iff]
    simp [Entry.unbind, hm]
  rw [h.slots m, hs m hm, hg, hp]

/-- Slot `n` itself is not marked by an entry that no longer has it bound. -/
theorem State.Marks.slot_unbound {n : Fin 8} (h : u.Marks t e) (hn : n ∉ (u.entry e).players) : t.slot n = u.slot n := by
  rw [h.slots n]
  simp [hn]

theorem Entry.not_mem_unbind (x : Entry) (n : Fin 8) : n ∉ (x.unbind n).players := by simp [Entry.unbind]

theorem Entry.unbind_binding {x : Entry} {n : Fin 8} (h : x.binding = some n ∨ x.binding = none) :
    (x.unbind n).binding = none := by
  rcases h with h | h <;> simp [Entry.unbind, h]

end

end Sys2Proof.Machine
end

