-- ==== Sys2Proof/Proofs/Taking.lean ====
section
/-! Proofs: the taking of slot orders and part orders, and the windows of the Link Port. -/

namespace Sys2Proof.Machine

/-! ## Windows (R54) -/

theorem covers_iff (windows : List Window) (write : Bool) (a len : Nat) :
    covers windows write a len = true ↔ inWindow windows write a len := by
  simp only [covers, List.any_eq_true, Bool.and_eq_true, decide_eq_true_eq, Bool.or_eq_true, Bool.not_eq_true', inWindow]
  refine exists_congr fun x => and_congr_right fun _ => ?_
  cases write
  · simp
  · simp
    tauto

theorem covers_eq_false_iff (windows : List Window) (write : Bool) (a len : Nat) :
    covers windows write a len = false ↔ ¬ inWindow windows write a len := by
  rw [← covers_iff, Bool.not_eq_true]

/-- One access that the windows allow, or refuse. -/
theorem writeAccesses_one (windows : List Window) (m : Memory) (a : Nat) (bs : List Byte) :
    writeAccesses windows m [(a, bs)] =
      if covers windows true a bs.length then (m.write a bs, true) else (m, false) := rfl

/-! ## Checks in order -/

section
variable {α : Type} {p : Prop} {a r : α} {checks : List (Prop × α)}

theorem firstFailing_nil : ¬ firstFailing ([] : List (Prop × α)) r := by
  rintro ⟨before, p, after, h, -⟩
  simp at h

theorem firstFailing_cons : firstFailing ((p, a) :: checks) r ↔ p ∧ r = a ∨ ¬ p ∧ firstFailing checks r := by
  constructor
  · rintro ⟨before, q, after, h, hq, hb⟩
    cases before with
    | nil =>
      simp only [List.nil_append, List.cons.injEq, Prod.mk.injEq] at h
      obtain ⟨⟨rfl, rfl⟩, -⟩ := h
      exact .inl ⟨hq, rfl⟩
    | cons c before =>
      simp only [List.cons_append, List.cons.injEq] at h
      obtain ⟨rfl, rfl⟩ := h
      exact .inr ⟨hb _ List.mem_cons_self, before, q, after, rfl, hq, fun d hd => hb d (List.mem_cons_of_mem _ hd)⟩
  · rintro (⟨hp, rfl⟩ | ⟨hp, before, q, after, rfl, hq, hb⟩)
    · exact ⟨[], p, checks, rfl, hp, nofun⟩
    · refine ⟨(p, a) :: before, q, after, rfl, hq, fun d hd => ?_⟩
      rcases List.mem_cons.1 hd with rfl | hd
      · exact hp
      · exact hb d hd

theorem noneFailing_nil : noneFailing ([] : List (Prop × α)) := nofun

theorem noneFailing_cons : noneFailing ((p, a) :: checks) ↔ ¬ p ∧ noneFailing checks := by
  simp [noneFailing]

end

/-! ## Slot orders -/

section
variable {s : State} {w : Writes} {n : Fin 8} {number : Mark} {kind : OrderKind}

/-- The order at hand is taken by the row it belongs to, and the sweep goes on. -/
theorem State.atOrder.take (h : s.atOrder w n number kind) {row : OrderKind → Mode → Slot → Bool}
    {effect : State → Fin 8 → Mark → State}
    (hrow : row kind (modeOf ((s.recorded w).slotField n 5 1)) (s.slot n) = true) :
    withWrites w s (fun s => s.takeOrder row effect) =
      .next { effect (s.recorded w) n number with sweep := (s.recorded w).afterSlot n } := by
  obtain ⟨hs, -, hw, hk⟩ := h
  rw [withWrites_of hw, State.takeOrder_of (s := s.recorded w) hs (by rw [hk]; exact hrow)]

/-- The command of that row answers a next state, of which what is shown of the effect holds. -/
theorem State.atOrder.answers (h : s.atOrder w n number kind) {row : OrderKind → Mode → Slot → Bool}
    {effect : State → Fin 8 → Mark → State} {P : State → Prop}
    (hrow : row kind (modeOf ((s.recorded w).slotField n 5 1)) (s.slot n) = true)
    (hP : ∀ u, u = effect (s.recorded w) n number → P { u with sweep := (s.recorded w).afterSlot n }) :
    ∃ t, withWrites w s (fun s => s.takeOrder row effect) = .next t ∧ P t :=
  ⟨_, h.take hrow, hP _ rfl⟩

theorem State.atOrder.running (h : s.atOrder w n number kind) : (s.recorded w).part ≠ .stopped := h.2.1

end

@[simp] theorem Slot.answered_boundEntry (x : Slot) (number : Mark) (r : Result) :
    (x.answered number r).boundEntry = x.boundEntry := rfl

section
variable {s t : State} {n : Fin 8} {fs : List Flag}

/-- An order that is answered, and changes nothing else. -/
theorem State.answer_all (hr : s.part ≠ .stopped) (n : Fin 8) (number : Mark) {r : Result} (h : r ≠ .none) :
    let t := s.answer n number r
    t.slot n = (s.slot n).answered number r ∧ s.Own t n [slotFlag .result n] ∧ slotFlag .result n ∈ t.flags :=
  ⟨by simp, State.answer_own n hr number r, State.answer_raises n hr number h⟩

/-! ## Part orders -/

/-- Header fields shown while the part is not STOPPED are written at once, and nothing else changes. -/
theorem State.showHeader_writes (hr : s.part ≠ .stopped) (hs : List HeaderField) :
    ∃ m : Memory, (∀ a, ¬ s.inHeader a → m.get a = s.mem.get a) ∧ s.showHeader hs = { s with mem := m } :=
  ⟨(s.showHeader hs).mem, fun _ ha => State.showHeader_outside s hs ha, by rw [State.showHeader_running hr]⟩

/-- A part result written while the part is not STOPPED. -/
theorem State.writePartResult_running (hr : s.part ≠ .stopped) (r : Result) (detail : Nat) :
    ∃ m : Memory, (∀ a, ¬ s.inHeader a → m.get a = s.mem.get a) ∧ s.writePartResult r detail =
      { s with
        header := { s.header with result := r, detail := detail }
        mem := m, flags := if r = .none then s.flags else raiseFlag (partFlag .result) s.flags } := by
  obtain ⟨m, hm, h⟩ := State.showHeader_writes
    (s := { s with header := { s.header with result := r, detail := detail } }) hr [.result, .detail]
  refine ⟨m, hm, ?_⟩
  unfold State.writePartResult
  rw [h]
  dsimp only
  split
  · rfl
  · exact State.notify_running (by exact hr) _

/-- A part order answered while the part is not STOPPED. -/
theorem State.answerPart_running (hr : s.part ≠ .stopped) (number : Mark) (r : Result) (detail : Nat) :
    ∃ m : Memory, (∀ a, ¬ s.inHeader a → m.get a = s.mem.get a) ∧ s.answerPart number r detail =
      { s with
        partLatch := number, header := s.partAnswered number r detail
        image := s.image.map ImageOp.overtaken, query := s.query.map Query.overtaken
        mem := m, flags := if r = .none then s.flags else raiseFlag (partFlag .result) s.flags } := by
  obtain ⟨m1, hm1, h1⟩ := State.showHeader_writes (s := { s with
    partLatch := number
    header := { s.header with overtaken := s.header.overtaken + (number - s.partLatch - 1) }
    image := s.image.map ImageOp.overtaken
    query := s.query.map Query.overtaken }) hr [.overtaken]
  obtain ⟨m2, hm2, h2⟩ := State.writePartResult_running (s := { s with
    partLatch := number
    header := { s.header with overtaken := s.header.overtaken + (number - s.partLatch - 1) }
    image := s.image.map ImageOp.overtaken
    query := s.query.map Query.overtaken
    mem := m1 }) hr r detail
  obtain ⟨m3, hm3, h3⟩ := State.showHeader_writes (s := { s with
    partLatch := number, header := s.partAnswered number r detail
    image := s.image.map ImageOp.overtaken, query := s.query.map Query.overtaken
    mem := m2, flags := if r = .none then s.flags else raiseFlag (partFlag .result) s.flags }) hr [.orderTaken]
  refine ⟨m3, fun a ha => (hm3 a ha).trans ((hm2 a ha).trans (hm1 a ha)), ?_⟩
  unfold State.answerPart
  dsimp only
  rw [h1, h2]
  exact h3

section
variable {w : Writes} {kind : PartOrderKind}

/-- The part order at hand is taken by the row of its kind, and the end-of-sweep writes come next. -/
theorem State.atPartOrder.take (h : s.atPartOrder w kind) {effect : State → Mark → State} :
    withWrites w s (fun s => s.takePartOrder kind effect) =
      .next { effect (s.recorded w) (s.recorded w).partOrderNumber with sweep := some .ending } := by
  obtain ⟨hs, -, hw, hn, hk⟩ := h
  rw [withWrites_of hw, State.takePartOrder_of (s := s.recorded w) hs hn hk]

/-- The command of that row answers a next state, of which what is shown of the effect holds. -/
theorem State.atPartOrder.answers (h : s.atPartOrder w kind) {effect : State → Mark → State} {P : State → Prop}
    (hP : ∀ u, u = effect (s.recorded w) (s.recorded w).partOrderNumber → P { u with sweep := some .ending }) :
    ∃ t, withWrites w s (fun s => s.takePartOrder kind effect) = .next t ∧ P t :=
  ⟨_, h.take, hP _ rfl⟩

theorem State.atPartOrder.running (h : s.atPartOrder w kind) : (s.recorded w).part ≠ .stopped := h.2.1

end

/-- What an answer to a part order comes to, with the end-of-sweep writes next. -/
theorem State.answerPart_all (hr : s.part ≠ .stopped) (number : Mark) (r : Result) (detail : Nat) :
    let t := { s.answerPart number r detail with sweep := some .ending }
    t.header = s.partAnswered number r detail ∧ t.partLatch = number ∧ t.sweep = some .ending ∧ t.ready = s.ready ∧
      s.overtakes t ∧ s.partFrame t r := by
  obtain ⟨m, hm, h⟩ := State.answerPart_running hr number r detail
  rw [h]
  exact ⟨rfl, rfl, rfl, rfl, ⟨rfl, rfl⟩, rfl, rfl, rfl, rfl, rfl, ⟨rfl, rfl, rfl⟩, rfl, rfl, hm, rfl⟩

end

/-! ## ROTATE and unknown orders (R59, R60, R87) -/

theorem Slot.ruleAnswer_done {x : Slot} (hm : x.mode = .record)
    (hs : x.eng.state = .opening ∨ x.eng.state = .running ∨ x.eng.state = .stalled) : x.ruleAnswer = .done := by
  unfold Slot.ruleAnswer
  rcases hs with hs | hs | hs <;> rw [if_pos hm, hs]

theorem Slot.ruleAnswer_refused {x : Slot}
    (h : x.mode ≠ .record ∨ x.eng.state = .idle ∨ x.eng.state = .faulted ∨ x.eng.state = .closing) :
    x.ruleAnswer = if x.mode = .record ∧ x.eng.state = .closing then .busy else .wrongState := by
  unfold Slot.ruleAnswer
  by_cases hm : x.mode = .record
  · rcases h with h | h | h | h
    · exact absurd hm h
    all_goals simp [hm, h]
  · simp [hm]

section
variable {s : State} {n : Fin 8} {number : Mark} {effect : State → State}

theorem State.answerRule_done (h : (s.slot n).ruleAnswer = .done) :
    s.answerRule n number effect = effect (s.answer n number .done) := by
  unfold State.answerRule
  rw [h]
  rfl

theorem State.answerRule_refused
    (h : (s.slot n).mode ≠ .record ∨ (s.slot n).eng.state = .idle ∨ (s.slot n).eng.state = .faulted ∨
      (s.slot n).eng.state = .closing) :
    s.answerRule n number effect = s.answer n number
      (if (s.slot n).mode = .record ∧ (s.slot n).eng.state = .closing then .busy else .wrongState) := by
  unfold State.answerRule
  rw [Slot.ruleAnswer_refused h]
  split <;> rfl

theorem State.applyRotate_live {e : Fin 64} (hb : (s.slot n).boundEntry = some e) (hl : (s.entry e).state = .live) :
    s.applyRotate n = s.modEntry e fun x => { x with pendingRotation := true } := by
  unfold State.applyRotate
  rw [hb]
  exact if_pos hl

end

/-- ROTATE on a recording in its course. -/
theorem rotate_done {s : State} {w : Writes} {n : Fin 8} {number : Mark} {e : Fin 64} (h : s.atOrder w n number .rotate)
    (hm : (s.slot n).mode = .record)
    (hst : (s.slot n).eng.state = .opening ∨ (s.slot n).eng.state = .running ∨ (s.slot n).eng.state = .stalled)
    (hb : (s.slot n).boundEntry = some e) (hl : (s.entry e).state = .live) :
    ∃ t, exec (.rotate w) s = .next t ∧ t.slot n = (s.slot n).answered number .done ∧ s.sameSlotsBut t n ∧
      t.entry e = { s.entry e with pendingRotation := true } ∧ s.sameEntriesBut t e ∧ t.waiting = s.waiting ∧
      t.flight = s.flight ∧ slotFlag .result n ∈ t.flags ∧ s.flagsBut t [slotFlag .result n] ∧
      (s.recorded w).orderFrame t n := by
  obtain ⟨hslot, hown, hflag⟩ := State.answer_all h.running n number (r := .done) nofun
  refine h.answers rfl fun u hu => ?_
  rw [State.answerRule_done (s := s.recorded w) (Slot.ruleAnswer_done hm hst)] at hu
  generalize (s.recorded w).answer n number .done = v at hslot hown hflag hu
  rw [State.applyRotate_live (by rw [hslot]; exact hb) (by rw [hown.entry]; exact hl)] at hu
  have hentry : ∀ d, u.entry d = if d = e then { s.entry e with pendingRotation := true } else s.entry d := fun d => by
    rw [hu, State.entry_modEntry, hown.entry, hown.entry]
    rfl
  have hframe := hown.toFrame.trans (State.modEntry_frame n e hown.running' fun x => { x with pendingRotation := true })
    (by simp)
  rw [← hu] at hframe
  exact ⟨by rw [hu]; exact hslot, by rw [hu]; exact hown.slots, (hentry e).trans (if_pos rfl),
    fun d hd => (hentry d).trans (if_neg hd), by rw [hu]; exact hown.waiting, by rw [hu]; exact hown.flight,
    by rw [hu]; exact hflag, hframe.flags, hframe.orderFrame⟩

/-- An order that its row answers with `r`, and leaves without effect. -/
theorem answeredAlone {s : State} {n : Fin 8} {w : Writes} (hr : (s.recorded w).part ≠ .stopped) (number : Mark)
    {r : Result} (h : r ≠ .none) :
    let t := { (s.recorded w).answer n number r with sweep := (s.recorded w).afterSlot n }
    t.slot n = (s.slot n).answered number r ∧ s.sameSlotsBut t n ∧ t.entries = s.entries ∧ t.waiting = s.waiting ∧
      t.flight = s.flight ∧ slotFlag .result n ∈ t.flags ∧ s.flagsBut t [slotFlag .result n] ∧
      (s.recorded w).orderFrame t n := by
  obtain ⟨hslot, hown, hflag⟩ := State.answer_all hr n number h
  exact ⟨hslot, hown.slots, hown.entries, hown.waiting, hown.flight, hflag, hown.flags, hown.toFrame.orderFrame⟩

/-- Settles O25: ROTATE by what the slot answers, and orders of unknown kind by the row that takes them. -/
theorem rotateAndUnknownOrders : Obligations.RotateAndUnknownOrders := by
  refine ⟨fun s w n number e h => ⟨rotate_done h, fun hx => ⟨_, h.take rfl, ?_⟩⟩,
    fun s w n number kind h hk => ⟨_, h.take ?_, ?_⟩, fun s w h => ⟨_, h.take, State.answerPart_all h.running _ _ 0⟩⟩
  · rw [State.answerRule_refused (s := s.recorded w) hx]
    exact answeredAlone h.running number (by split <;> nofun)
  · rcases hk with rfl | ⟨rfl, hm⟩
    · rfl
    · rw [hm]
      rfl
  · have hkind : orderKind ((s.recorded w).slotField n 4 1) = kind := h.2.2.2
    rw [hkind, ← apply_ite ((s.recorded w).answer n number)]
    exact answeredAlone h.running number (by split <;> nofun)

end Sys2Proof.Machine
end

