-- ==== Sys2Proof/Proofs/TableOrders.lean ====
section
/-! Proofs: ERASE, QUERY and the query record, and the draw and hand-over of keys (R10, R11, R24, R25). -/

namespace Sys2Proof.Machine

theorem entryIndex_val (e : Fin 64) : entryIndex e.val = some e := dif_pos e.isLt

theorem entryIndex_eq_some {k : Nat} {e : Fin 64} (h : entryIndex k = some e) : e.val = k := by
  unfold entryIndex at h
  split at h
  · cases h
    rfl
  · cases h

theorem entryIndex_eq_none {k : Nat} : entryIndex k = none ↔ 63 < k := by
  unfold entryIndex
  split <;> simp <;> omega

/-! ## ERASE (R24) -/

theorem Entry.boundSlots_eq_nil (x : Entry) : x.boundSlots = [] ↔ x.binding = none ∧ x.players = [] := by
  simp [Entry.boundSlots]

theorem Entry.eraseResult_bound {x : Entry} (h : x.binding ≠ none ∨ x.players ≠ []) : x.eraseResult = .busy := by
  refine if_pos fun hb => ?_
  obtain ⟨h1, h2⟩ := x.boundSlots_eq_nil.1 hb
  exact h.elim (· h1) (· h2)

/-- The answer on an entry with no slot bound, by its state. -/
theorem Entry.eraseResult_unbound {x : Entry} (hb : x.binding = none) (hp : x.players = []) :
    (x.state = .free ∨ x.state = .retired → x.eraseResult = .wrongState) ∧
      (x.state = .live ∨ x.state = .moving → x.eraseResult = .busy) ∧
      (x.state = .held ∨ x.state = .lapsed ∨ x.state = .moved → x.eraseResult = .done) := by
  unfold Entry.eraseResult
  rw [if_neg (by simp [x.boundSlots_eq_nil, hb, hp])]
  refine ⟨?_, ?_, ?_⟩
  · rintro (h | h) <;> rw [h]
  · rintro (h | h) <;> rw [h]
  · rintro (h | h | h) <;> rw [h]

/-- An entry that ERASE frees has no slot bound. -/
theorem Entry.eraseResult_done {x : Entry} (h : x.eraseResult = .done) :
    x.boundSlots = [] ∧ (x.state = .held ∨ x.state = .lapsed ∨ x.state = .moved) := by
  unfold Entry.eraseResult at h
  split at h
  · cases h
  next hb =>
    refine ⟨not_not.1 hb, ?_⟩
    cases hs : x.state <;> rw [hs] at h <;> first | decide | cases h

section
variable {s : State} {w : Writes} {number : Mark}

/-- With no slot bound an entry goes from the table alone. -/
theorem State.freeEntry_unbound {e : Fin 64} (h : (s.entry e).boundSlots = []) :
    s.freeEntry e = s.setEntry e (s.entry e).returned := by
  unfold State.freeEntry
  rw [h]
  rfl

/-- ERASE is refused with a result by the first check that fails, or frees the entry. -/
theorem State.eraseEntry_cases (s : State) (number : Mark) (k : Nat) :
    (∃ res, res ≠ .done ∧ s.eraseEntry number k = s.answerPart number res 0 ∧
      (s.ready = false → res = .notReady) ∧ (s.ready = true → s.loadInFlight = true → res = .busy) ∧
      (s.ready = true → s.loadInFlight = false → 63 < k → res = .badOperand) ∧
      ∀ e : Fin 64, e.val = k → s.ready = true → s.loadInFlight = false → res = (s.entry e).eraseResult) ∨
    ∃ e : Fin 64, e.val = k ∧ s.ready = true ∧ s.loadInFlight = false ∧ (s.entry e).eraseResult = .done ∧
      s.eraseEntry number k =
        (s.setEntry e (s.entry e).returned).answerPart number .done (s.entry e).returned.generation := by
  unfold State.eraseEntry
  cases hr : s.ready with
  | false => exact .inl ⟨.notReady, nofun, rfl, fun _ => rfl, nofun, nofun, nofun⟩
  | true =>
    cases hl : s.loadInFlight with
    | true => exact .inl ⟨.busy, nofun, rfl, nofun, fun _ _ => rfl, nofun, nofun⟩
    | false =>
      cases hk : entryIndex k with
      | none =>
        have hb := entryIndex_eq_none.1 hk
        exact .inl ⟨.badOperand, nofun, rfl, nofun, nofun, fun _ _ _ => rfl, fun e he => by omega⟩
      | some e =>
        have he := entryIndex_eq_some hk
        by_cases hd : (s.entry e).eraseResult = .done
        · refine .inr ⟨e, he, rfl, rfl, hd, ?_⟩
          simp only [Bool.not_true, Bool.false_eq_true, if_false, hd, if_true]
          rw [State.freeEntry_unbound (Entry.eraseResult_done hd).1, State.entry_setEntry_self]
        · refine .inl ⟨(s.entry e).eraseResult, hd, ?_, nofun, nofun, fun _ _ => by omega, fun d hde _ _ => ?_⟩
          · simp only [Bool.not_true, Bool.false_eq_true, if_false, hd]
          · rw [Fin.ext (hde.trans he.symm)]

/-- An entry returned to FREE, or RETIRED. -/
theorem Entry.returned_eq (x : Entry) :
    (x.generation < 65535 → x.returned = Entry.free (x.generation + 1)) ∧
      (65535 ≤ x.generation → x.returned = { Entry.free x.generation with state := .retired }) :=
  ⟨fun h => if_pos h, fun h => if_neg (by omega)⟩

/-- Settles O30: the refusals by the first check that fails, and the entry freed where none does. -/
theorem eraseAnswers : Obligations.EraseAnswers := by
  intro s w h
  dsimp only
  have hr := h.running
  rcases (s.recorded w).eraseEntry_cases (s.recorded w).partOrderNumber ((s.recorded w).headerField 101 1) with
    ⟨res, hne, heq, c1, c2, c3, c4⟩ | ⟨e, he, hready, hload, hdone, heq⟩
  · obtain ⟨a1, a2, a3, a4, a5, a6⟩ := State.answerPart_all hr (s.recorded w).partOrderNumber res 0
    rw [← heq] at a1 a2 a3 a4 a5 a6
    refine ⟨_, res, 0, h.take, a1, a2, a3, a4, a5, c1, c2, c3, fun _ => ⟨rfl, a6⟩, fun e he h1 h2 => ?_⟩
    rw [c4 e he h1 h2]
    refine ⟨Entry.eraseResult_bound, fun hb hp => ?_⟩
    obtain ⟨d1, d2, d3⟩ := Entry.eraseResult_unbound hb hp
    exact ⟨d1, d2, fun hs => absurd ((c4 e he h1 h2).trans (d3 hs)) hne⟩
  · generalize hx : (s.recorded w).entry e = x at hdone heq
    obtain ⟨hb, hst⟩ := Entry.eraseResult_done hdone
    obtain ⟨hb1, hb2⟩ := x.boundSlots_eq_nil.1 hb
    obtain ⟨m, hm, hans⟩ := State.answerPart_running (s := (s.recorded w).setEntry e x.returned) hr
      (s.recorded w).partOrderNumber .done x.returned.generation
    rw [hans] at heq
    refine ⟨_, .done, x.returned.generation, h.take, ?_⟩
    rw [heq]
    refine ⟨rfl, rfl, rfl, rfl, ⟨rfl, rfl⟩, fun h0 => ?_, fun _ h1 => ?_, fun _ _ h1 => by omega, fun h1 => absurd rfl h1,
      fun d hd _ _ => ?_⟩
    · exact absurd (hready.symm.trans h0) nofun
    · exact absurd (hload.symm.trans h1) nofun
    · obtain rfl : d = e := Fin.ext (hd.trans he.symm)
      have hsx : s.entry d = x := hx
      have hself : ((s.recorded w).setEntry d x.returned).entry d = x.returned := State.entry_setEntry_self ..
      rw [hsx]
      refine ⟨fun hbd => hbd.elim (absurd hb1) (absurd hb2), fun _ _ => ⟨fun hs => ?_, fun hs => ?_, fun _ => ?_⟩⟩
      · rcases hst with h1 | h1 | h1 <;> simp [h1] at hs
      · rcases hst with h1 | h1 | h1 <;> simp [h1] at hs
      · refine ⟨rfl, fun k hk => ?_, rfl, ?_, fun hg => hself.trans (x.returned_eq.1 hg),
          fun hg => hself.trans (x.returned_eq.2 hg), ?_, fun f hf => ?_, ⟨rfl, rfl, rfl⟩, rfl, rfl, rfl, hm⟩
        · exact (State.entry_setEntry (s.recorded w) k d x.returned).trans (if_neg hk)
        · exact congrArg Entry.generation hself.symm
        · exact (mem_raiseFlag ..).2 (.inl rfl)
        · exact (mem_raiseFlag ..).trans (or_iff_right fun h1 => hf (List.mem_singleton.2 h1))

end

/-! ## Bytes of a record -/

theorem ofLe_le (n v : Nat) : ofLe (le n v) = v % 256 ^ n := by
  induction n generalizing v with
  | zero => simp [le, ofLe, Nat.mod_one]
  | succ n ih =>
    rw [show 256 ^ (n + 1) = 256 * 256 ^ n from pow_succ' .., Nat.mod_mul, le, ofLe, ih, BitVec.toNat_ofNat]

/-- A field read where it was laid. -/
theorem field_here {len v : Nat} (h : v < 256 ^ len) (rest : List Byte) : field (le len v ++ rest) 0 len = v := by
  rw [field, List.drop_zero, List.take_left' (length_le ..), ofLe_le, Nat.mod_eq_of_lt h]

/-- A field that lies after the first `k` bytes. -/
theorem field_skip {bs rest : List Byte} {off : Nat} (h : bs.length ≤ off) (len : Nat) :
    field (bs ++ rest) off len = field rest (off - bs.length) len := by
  rw [field, field, List.drop_append, List.drop_eq_nil_of_le h, List.nil_append]

theorem byteAt_here (v : Nat) (rest : List Byte) : byteAt (le 1 v ++ rest) 0 = BitVec.ofNat 8 v := rfl

theorem byteAt_skip {bs rest : List Byte} {i : Nat} (h : bs.length ≤ i) : byteAt (bs ++ rest) i = byteAt rest (i - bs.length) := by
  simp only [byteAt, List.getD_eq_getElem?_getD]
  rw [List.getElem?_append_right h]

/-- Bit `i` of a byte of flags is flag `i`. -/
theorem testBit_flagsByte (bs : List Bool) (i : Nat) : (flagsByte bs).testBit i = bs.getD i false := by
  induction bs generalizing i with
  | nil => simp [flagsByte]
  | cons b bs ih =>
    cases i with
    | zero =>
      cases b <;> simp [flagsByte, Nat.testBit_zero]
    | succ i =>
      have hd : ((if b then 1 else 0) + 2 * flagsByte bs) / 2 = flagsByte bs := by
        cases b
        · simp
        · simp only [if_true]
          omega
      rw [flagsByte, Nat.testBit_succ, hd, ih, List.getD_cons_succ]

theorem getLsbD_flagsByte (bs : List Bool) {i : Nat} (h : i < 8) :
    (BitVec.ofNat 8 (flagsByte bs)).getLsbD i = bs.getD i false := by
  rw [BitVec.getLsbD_ofNat, testBit_flagsByte, decide_eq_true h, Bool.true_and]

/-! ## The query record (R25) -/

theorem Option.map_getD_le {o : Option Nat} {d b : Nat} (h : ∀ c, o = some c → c ≤ b) (hd : d ≤ b) : o.getD d ≤ b := by
  cases o with
  | none => exact hd
  | some c => exact h c rfl

theorem EntryState.code_lt (st : EntryState) : st.code < 256 := by cases st <;> decide

theorem RuleClass.code_lt (c : RuleClass) : c.code < 256 := by cases c <;> decide

theorem holdField_lt {cls : RuleClass} {hold : Option Nat} (h : holdFits cls hold) : holdField cls hold < 65536 := by
  unfold holdField
  split
  next hc =>
    obtain ⟨k, rfl, hk⟩ := h.1 hc
    exact hk
  · omega

/-- The part of segment `j` in a list of parts. -/
theorem segmentParts_part {j k : Nat} (h : j < k) (i : Nat) (gs : List Segment) :
    ((segmentParts k i gs).drop (32 * j)).take 32 =
      match gs[j]? with
      | some g => segmentPart (i + j) g
      | none => zeros 32 := by
  induction j generalizing k i gs with
  | zero =>
    obtain ⟨k, rfl⟩ := Nat.exists_eq_succ_of_ne_zero (by omega : k ≠ 0)
    cases gs with
    | nil => exact List.take_left' (length_zeros 32)
    | cons g gs => exact List.take_left' (segmentPart_length i g)
  | succ j ih =>
    obtain ⟨k, rfl⟩ := Nat.exists_eq_succ_of_ne_zero (by omega : k ≠ 0)
    have hdrop : ∀ (part rest : List Byte), part.length = 32 → (part ++ rest).drop (32 * (j + 1)) = rest.drop (32 * j) :=
      fun part rest hp => by
        rw [List.drop_append, List.drop_eq_nil_of_le (by omega), hp, List.nil_append]
        congr 1
    cases gs with
    | nil =>
      rw [segmentParts, hdrop _ _ (length_zeros 32), ih (by omega)]
      rfl
    | cons g gs =>
      rw [segmentParts, hdrop _ _ (segmentPart_length i g), ih (by omega), List.getElem?_cons_succ,
        show i + 1 + j = i + (j + 1) by omega]

/-- Segment parts show nothing of a segment that its part does not. -/
theorem segmentParts_map {F : Segment → Segment} (h : ∀ i g, segmentPart i (F g) = segmentPart i g) (k i : Nat)
    (gs : List Segment) : segmentParts k i (gs.map F) = segmentParts k i gs := by
  induction k generalizing i gs with
  | zero => cases gs <;> rfl
  | succ k ih =>
    cases gs with
    | nil => rfl
    | cons g gs => rw [List.map_cons, segmentParts, segmentParts, h, ih]

/-- The record shows of the keys no more than which places hold one. -/
theorem queryRecord_keys (e : Fin 64) (x : Entry) (f : Key → Key) :
    queryRecord e
        { x with nextKey := x.nextKey.map f, segments := x.segments.map fun g => { g with key := g.key.map f } } =
      queryRecord e x := by
  unfold queryRecord Entry.flagsField Entry.lengthField
  rw [segmentParts_map (F := fun g => { g with key := g.key.map f }) fun _ _ => rfl]
  simp only [List.length_map, Option.isSome_map]

/-- The fields of a segment part. -/
theorem segmentPart_fields {i : Nat} {g : Segment} (hi : i < 256) (hg : g.fits) :
    let p := segmentPart i g
    field p 0 1 = i ∧ field p 1 1 = g.cls.code ∧ field p 2 2 = holdField g.cls g.hold ∧ field p 4 4 = g.first ∧
      field p 8 4 = g.count ∧ field p 12 4 = g.firstStamp.getD 0 ∧ field p 16 4 = g.lastStamp.getD 0 ∧
      p.drop 20 = zeros 12 := by
  obtain ⟨hf, hc, hh, hnone, hsome⟩ := hg
  have hstamps : g.firstStamp.getD 0 ≤ top32 ∧ g.lastStamp.getD 0 ≤ top32 := by
    by_cases h0 : g.count = 0
    · obtain ⟨h1, h2⟩ := hnone h0
      simp [h1, h2]
    · obtain ⟨a, b, h1, h2, ha, hb⟩ := hsome h0
      rw [h1, h2]
      exact ⟨ha, hb⟩
  obtain ⟨h1, h2⟩ := hstamps
  have hcls := g.cls.code_lt
  have hhold := holdField_lt hh
  simp only [top32] at hf hc h1 h2
  unfold segmentPart
  simp only [List.append_assoc]
  refine ⟨field_here (by omega) _, ?_, ?_, ?_, ?_, ?_, ?_, by simp (disch := simp) [List.drop_append, List.drop_eq_nil_of_le]⟩
  all_goals
    simp (disch := simp) only [field_skip, length_le, Nat.reduceSub]
    exact field_here (by omega) _

/-- The eight bits of a byte of flags. -/
theorem bits_flagsByte (b0 b1 b2 b3 b4 b5 b6 b7 : Bool) :
    (List.range 8).map (BitVec.ofNat 8 (flagsByte [b0, b1, b2, b3, b4, b5, b6, b7])).getLsbD =
      [b0, b1, b2, b3, b4, b5, b6, b7] :=
  List.map_congr_left fun _ hi => getLsbD_flagsByte _ (List.mem_range.1 hi)

/-- The fields of the record's first 32 bytes that are numbers. -/
theorem queryRecord_fields {e : Fin 64} {x : Entry} (hx : x.fits) (ht : ∀ c, x.lapseTime = some c → c ≤ top32) :
    let b := queryRecord e x
    field b 0 1 = e.val ∧ field b 1 1 = x.state.code ∧ field b 2 2 = x.generation ∧ field b 4 2 = x.lengthField ∧
      field b 6 1 = x.segments.length ∧
      field b 8 1 = (match x.pendingRule with | none => 0 | some q => q.cls.code) ∧
      field b 9 2 = (match x.pendingRule with | none => 0 | some q => holdField q.cls q.hold) ∧
      field b 11 2 = x.rotation ∧ field b 13 1 = x.views.getD 255 ∧
      field b 14 1 = (match x.binding with | none => 255 | some n => n.val) ∧
      field b 16 4 = x.chunkCount ∧ field b 20 4 = x.expiry.getD 0 ∧ field b 24 4 = x.moveMark ∧
      field b 28 4 = x.lapseTime.getD 0 := by
  obtain ⟨hgen, hlen, -, hcount, hrot, hexp, hviews, hmark, hrule, hsegs, -⟩ := hx
  have h1 := x.state.code_lt
  have h2 : x.lengthField < 65536 := by
    unfold Entry.lengthField
    split <;> omega
  have h3 : (match x.pendingRule with | none => 0 | some q => q.cls.code) < 256 := by
    split
    · omega
    · exact RuleClass.code_lt _
  have h4 : (match x.pendingRule with | none => 0 | some q => holdField q.cls q.hold) < 65536 := by
    split
    · omega
    next q hq => exact holdField_lt (hrule q hq)
  have h5 : x.views.getD 255 ≤ 255 := Option.map_getD_le (fun c hc => (hviews c hc).trans (by omega)) le_rfl
  have h6 : (match x.binding with | none => 255 | some n => n.val) < 256 := by
    split <;> omega
  have h7 : x.expiry.getD 0 ≤ top32 := Option.map_getD_le hexp (Nat.zero_le _)
  have h8 : x.lapseTime.getD 0 ≤ top32 := Option.map_getD_le ht (Nat.zero_le _)
  simp only [top32] at hcount hmark h7 h8
  dsimp only
  unfold queryRecord
  simp only [List.append_assoc]
  refine ⟨field_here (by omega) _, ?_, ?_, ?_, ?_, ?_, ?_, ?_, ?_, ?_, ?_, ?_, ?_, ?_⟩
  all_goals
    simp (disch := simp) only [field_skip, length_le, Nat.reduceSub]
    exact field_here (by omega) _

/-- The record's two bytes of flags. -/
theorem queryRecord_flags (e : Fin 64) (x : Entry) :
    let b := queryRecord e x
    (List.range 8).map (byteAt b 7).getLsbD =
        [x.interrupted, x.rotationHeld, x.lastViewTaken, x.pendingRule.isSome, x.pendingRotation, x.nextKey.isSome,
          x.expiry.isSome, x.lapseTime.isSome] ∧
      ∀ n : Fin 8, (byteAt b 15).getLsbD n = x.players.contains n := by
  dsimp only
  unfold queryRecord
  simp only [List.append_assoc]
  constructor
  · simp (disch := simp) only [byteAt_skip, length_le, Nat.reduceSub]
    exact bits_flagsByte ..
  · intro n
    simp (disch := simp) only [byteAt_skip, length_le, Nat.reduceSub]
    rw [byteAt_here, getLsbD_flagsByte _ n.isLt]
    fin_cases n <;> rfl

/-- The part of segment `i` in the record. -/
theorem queryRecord_part (e : Fin 64) (x : Entry) {i : Nat} (h : i < 16) :
    ((queryRecord e x).drop (32 + 32 * i)).take 32 =
      match x.segments[i]? with
      | some g => segmentPart i g
      | none => zeros 32 := by
  have hparts := segmentParts_part h 0 x.segments
  rw [Nat.zero_add] at hparts
  rw [← hparts, queryRecord, List.drop_append]
  simp (disch := simp) [List.drop_eq_nil_of_le]

/-! ## QUERY (R25) -/

section
variable {s : State} {w : Writes}

/-- A QUERY is refused by the first check that fails. -/
theorem State.checkQuery_refused {recording addr : Nat} {res : Result}
    (h : firstFailing
      [(s.ready = false, Result.notReady), (s.loadInFlight = true ∨ s.query ≠ none, .busy),
        (63 < recording, .badOperand), (¬ inWindow s.windows true addr 544, .window)] res) :
    s.checkQuery recording addr = .error res := by
  simp only [firstFailing_cons, firstFailing_nil, and_false, or_false, not_or, Bool.not_eq_false, Bool.not_eq_true,
    not_not, not_lt, ← Option.isSome_iff_ne_none] at h
  unfold State.checkQuery
  rcases h with ⟨h, rfl⟩ | ⟨hr, ⟨h, rfl⟩ | ⟨⟨hl, hq⟩, ⟨h, rfl⟩ | ⟨hk, h, rfl⟩⟩⟩
  · simp [h]
  · rcases h with h | h <;> simp [hr, h]
  · simp [hr, hl, hq, entryIndex_eq_none.2 h]
  · have hne : entryIndex recording ≠ none := fun h0 => absurd (entryIndex_eq_none.1 h0) (by omega)
    obtain ⟨e, he⟩ := Option.ne_none_iff_exists'.1 hne
    simp [hr, hl, hq, he, (covers_eq_false_iff ..).2 h]

theorem State.checkQuery_accepted {e : Fin 64} {addr : Nat} (hr : s.ready = true) (hl : s.loadInFlight = false)
    (hq : s.query = none) (hw : inWindow s.windows true addr 544) : s.checkQuery e.val addr = .ok e := by
  simp [State.checkQuery, hr, hl, hq, entryIndex_val, (covers_iff ..).2 hw]

/-- A QUERY that is accepted. -/
theorem query_accepted {e : Fin 64} (h : s.atPartOrder w .query) (hr : s.ready = true) (hl : s.loadInFlight = false)
    (hq : s.query = none) (he : e.val = (s.recorded w).headerField 101 1)
    (hw : inWindow s.windows true ((s.recorded w).headerField 120 8) 544) :
    let number := (s.recorded w).partOrderNumber
    ∃ t, exec (.query w) s = .next t ∧
      t.query = some ⟨(s.recorded w).headerField 120 8, queryRecord e (s.entry e), some number⟩ ∧
      t.header = s.partAnswered number .none 0 ∧ t.partLatch = number ∧ t.sweep = some .ending ∧ t.ready = s.ready ∧
      t.image = s.image.map ImageOp.overtaken ∧ (s.recorded w).partFrame t .none := by
  obtain ⟨m, hm, hans⟩ := State.answerPart_running h.running (s.recorded w).partOrderNumber .none 0
  refine h.answers fun u hu => ?_
  dsimp only at hu
  rw [← he, State.checkQuery_accepted (s := s.recorded w) hr hl hq hw, hans] at hu
  subst hu
  exact ⟨rfl, rfl, rfl, rfl, rfl, rfl, rfl, rfl, rfl, rfl, rfl, ⟨rfl, rfl, rfl⟩, rfl, rfl, hm, rfl⟩

/-- The write of a query record that the windows allow. -/
theorem State.finishQuery_allowed {q : Query} (hw : inWindow s.windows true q.addr q.record.length) :
    s.finishQuery q =
      ({ s with mem := s.mem.write q.addr q.record, query := none } : State).completePart q.number .done 0 := by
  unfold State.finishQuery
  rw [writeAccesses_one, (covers_iff ..).2 hw]
  rfl

/-- A part order that completes while the part is not STOPPED: its result is written where the latch holds its number. -/
theorem State.completePart_running (hr : s.part ≠ .stopped) (number : Option Mark) (r : Result) (detail : Nat) :
    ∃ m : Memory, (∀ a, ¬ s.inHeader a → m.get a = s.mem.get a) ∧ s.completePart number r detail =
      { s with
        header := if number = some s.partLatch then { s.header with result := r, detail := detail } else s.header
        mem := m
        flags := if number = some s.partLatch ∧ r ≠ .none then raiseFlag (partFlag .result) s.flags else s.flags } := by
  rw [State.completePart_eq]
  by_cases h : number = some s.partLatch
  · obtain ⟨m, hm, hw⟩ := State.writePartResult_running hr r detail
    refine ⟨m, hm, ?_⟩
    rw [if_pos h, if_pos h, hw]
    by_cases h0 : r = .none <;> simp [h, h0]
  · exact ⟨s.mem, fun _ _ => rfl, by simp [h]⟩

/-- The write of an accepted QUERY completes. -/
theorem query_completes {q : Query} (hq : s.query = some q) (hr : s.part ≠ .stopped)
    (hw : inWindow s.windows true q.addr q.record.length) :
    ∃ t, exec .queryWriteComplete s = .next t ∧ t.query = none ∧
      (∀ i (h : i < q.record.length), ¬ s.inHeader (q.addr + i) → t.mem.get (q.addr + i) = q.record[i]) ∧
      s.sameMemoryBut t (fun a => s.inHeader a ∨ (q.addr ≤ a ∧ a < q.addr + q.record.length)) ∧
      t.header = (if q.number = some s.partLatch then { s.header with result := .done, detail := 0 } else s.header) ∧
      (q.number = some s.partLatch → partFlag .result ∈ t.flags) ∧ s.flagsBut t [partFlag .result] ∧
      t.slots = s.slots ∧ t.entries = s.entries ∧ s.sameKeysAndClock t ∧ t.sweep = s.sweep := by
  obtain ⟨m, hm, hc⟩ := State.completePart_running
    (s := { s with mem := s.mem.write q.addr q.record, query := none }) hr q.number .done 0
  have hexec : exec .queryWriteComplete s = .next (s.finishQuery q) := by
    show execQueryWriteComplete s = _
    unfold execQueryWriteComplete
    rw [hq]
  refine ⟨_, hexec, ?_⟩
  rw [State.finishQuery_allowed hw, hc]
  refine ⟨rfl, fun i h hi => ?_, fun a ha => ?_, rfl, fun hn => ?_, fun f hf => ?_, rfl, rfl, ⟨rfl, rfl, rfl⟩, rfl⟩
  · rw [hm _ hi, Memory.get_write, if_pos (by omega), Nat.add_sub_cancel_left, List.getD_eq_getElem _ _ h]
  · rw [hm a fun h => ha (.inl h), Memory.get_write_outside (by omega)]
  · show partFlag .result ∈ if _ then _ else _
    rw [if_pos ⟨hn, nofun⟩]
    simp
  · show f ∈ (if _ then _ else _) ↔ _
    split
    · rw [mem_raiseFlag]
      exact or_iff_right fun h => hf (List.mem_singleton.2 h)
    · rfl

end

/-- Settles O31: the refusals, the acceptance and the completion of a QUERY, and the bytes of its record. -/
theorem queryCopiesAndWrites : Obligations.QueryCopiesAndWrites := by
  refine ⟨fun s w res h hres => ?_, fun s w e h hr hl hq he ⟨x, hx, hw, hlo, hhi⟩ =>
    query_accepted h hr hl hq he ⟨x, hx, fun _ => hw, hlo, by omega⟩,
    fun s q hq hr ⟨x, hx, hw, hlo, hhi⟩ => query_completes hq hr ⟨x, hx, fun _ => hw, hlo, hhi⟩,
    queryRecord_keys, fun e x hx ht => ?_⟩
  · refine h.answers fun u hu => ?_
    dsimp only at hu
    rw [State.checkQuery_refused (s := s.recorded w) hres] at hu
    subst hu
    exact State.answerPart_all h.running _ res 0
  · obtain ⟨f0, f1, f2, f4, f6, f8, f9, f11, f13, f14, f16, f20, f24, f28⟩ := queryRecord_fields (e := e) hx ht
    obtain ⟨b7, b15⟩ := queryRecord_flags e x
    obtain ⟨-, -, -, -, -, -, -, -, -, hsegs, hfits⟩ := hx
    refine ⟨queryRecord_length e x, f0, f1, f2, f4, f6, b7, f8, f9, f11, f13, f14, b15, f16, f20, f24, f28,
      fun i g hg => ?_, fun i hi hlen => ?_⟩
    · obtain ⟨hi, -⟩ := List.getElem?_eq_some_iff.1 hg
      rw [queryRecord_part e x (by omega), hg]
      exact segmentPart_fields (by omega) (hfits g (List.mem_of_getElem? hg))
    · rw [queryRecord_part e x hi, List.getElem?_eq_none hlen]

end Sys2Proof.Machine
end

