-- ==== Sys2Proof/Proofs/Marking.lean ====
section
/-! Proofs: what the operations on a slot leave alone in any part state, STOPPED included, where the fields that change are
marked for writing (R64); and the draw and hand-over of keys (R10, R11). -/

namespace Sys2Proof.Machine

/-- From `s` to `t` nothing has changed but slots, entries, pool, waiting list and batch, and what changes in the engine part
of slot `n` has been written, or marked for writing while the part is STOPPED. -/
structure State.Shows (s t : State) (n : Fin 8) : Prop where
  kept : t.kept = s.kept
  causes : t.heldCauses = s.heldCauses
  flags : t.flags = s.flags
  mem : ∀ a, ¬ s.inRecord n a → t.mem.get a = s.mem.get a
  held : s.part ≠ .stopped → t.held = s.held
  marks : s.part = .stopped → s.marksFields t

section
variable {s t u : State} {n : Fin 8}

namespace State.Shows

theorem part (h : s.Shows t n) : t.part = s.part := congrArg Kept.part h.kept

theorem trans (h : s.Shows u n) (h' : u.Shows t n) : s.Shows t n where
  kept := h'.kept.trans h.kept
  causes := h'.causes.trans h.causes
  flags := h'.flags.trans h.flags
  mem a ha := (h'.mem a fun h1 => ha ((State.inRecord_of h.kept n a).1 h1)).trans (h.mem a ha)
  held hr := (h'.held (h.part ▸ hr)).trans (h.held hr)
  marks hp := by
    obtain ⟨m1, h1, f1⟩ := h.marks hp
    obtain ⟨m2, h2, f2⟩ := h'.marks (h.part.trans hp)
    refine ⟨m2.trans m1, fun f hf => h2 f (h1 f hf), fun m f hf => ?_⟩
    by_cases he : (u.slot m).eng.fieldAt f = (s.slot m).eng.fieldAt f
    · exact f2 m f fun h0 => hf (h0.trans he)
    · exact h2 _ (f1 m f he)

/-- A change that leaves the engine parts, memory, flags and held writes as they are. -/
theorem of_same (hk : t.kept = s.kept) (hc : t.heldCauses = s.heldCauses) (hf : t.flags = s.flags) (hm : t.mem = s.mem)
    (hh : t.held = s.held) (he : ∀ m, (t.slot m).eng = (s.slot m).eng) : s.Shows t n :=
  ⟨hk, hc, hf, fun _ _ => by rw [hm], fun _ => hh, fun _ =>
    ⟨hm, fun f h => by rwa [hh], fun m f hf => absurd (congrArg (fun g => Engine.fieldAt g f) (he m)) hf⟩⟩

theorem refl : s.Shows s n := .of_same rfl rfl rfl rfl rfl fun _ => rfl

end State.Shows

/-- In STOPPED a field shown joins the held writes, and memory stays. -/
theorem State.showField_marks (h : s.part = .stopped) (f : BoardField) :
    (s.showField f).part = .stopped ∧ (s.showField f).mem = s.mem ∧ f ∈ (s.showField f).held ∧
      ∀ g ∈ s.held, g ∈ (s.showField f).held := by
  rw [State.showField_stopped h]
  split
  next hf => exact ⟨h, rfl, hf, fun _ => id⟩
  · exact ⟨h, rfl, by simp, fun g hg => by simp [hg]⟩

theorem State.showSlot_marks (h : s.part = .stopped) (fs : List SlotField) :
    (s.showSlot n fs).mem = s.mem ∧ (∀ f ∈ fs, .slot n f ∈ (s.showSlot n fs).held) ∧
      ∀ g ∈ s.held, g ∈ (s.showSlot n fs).held := by
  unfold State.showSlot
  induction fs generalizing s with
  | nil => exact ⟨rfl, nofun, fun _ => id⟩
  | cons f fs ih =>
    obtain ⟨hp, hm, hf, hg⟩ := State.showField_marks h (.slot n f)
    obtain ⟨im, if', ig⟩ := ih hp
    refine ⟨im.trans hm, fun k hk => ?_, fun g h => ig g (hg g h)⟩
    rcases List.mem_cons.1 hk with rfl | hk
    · exact ig _ hf
    · exact if' k hk

/-- A change of slot `n` whose changed fields are shown. -/
theorem State.setSlot_showSlot_shows (s : State) (n : Fin 8) (x : Slot) (fs : List SlotField)
    (hp : ∀ p, .outcome p ∈ fs → p < 16) (hf : ∀ f, x.eng.fieldAt f ≠ (s.slot n).eng.fieldAt f → f ∈ fs) :
    s.Shows ((s.setSlot n x).showSlot n fs) n where
  kept := by simp
  causes := by simp
  flags := by simp
  mem _ ha := State.showSlot_outside (s.setSlot n x) n fs hp ha
  held hr := State.showSlot_held (s := s.setSlot n x) hr n fs
  marks h := by
    obtain ⟨hm, hfs, hg⟩ := State.showSlot_marks (s := s.setSlot n x) (n := n) h fs
    refine ⟨hm, hg, fun m f hne => ?_⟩
    rw [State.showSlot_slot, State.slot_setSlot] at hne
    split at hne
    next hmn => rw [hmn] at hne ⊢; exact hfs f (hf f hne)
    · exact absurd rfl hne

theorem State.setEngine_shows (s : State) (n : Fin 8) (g : Engine → Engine) (fs : List SlotField)
    (hp : ∀ p, .outcome p ∈ fs → p < 16)
    (hf : ∀ f, (g (s.slot n).eng).fieldAt f ≠ (s.slot n).eng.fieldAt f → f ∈ fs) : s.Shows (s.setEngine n g fs) n :=
  s.setSlot_showSlot_shows n _ fs hp hf

theorem State.setSlotState_shows (s : State) (n : Fin 8) (st : SlotState) : s.Shows (s.setSlotState n st) n := by
  unfold State.setSlotState
  split
  · exact .refl
  · refine s.setEngine_shows n _ _ (by simp) fun f hf => ?_
    cases f <;> first | exact List.mem_singleton.2 rfl | exact absurd rfl hf

theorem State.modSlot_shows (s : State) (n : Fin 8) {g : Slot → Slot} (hg : (g (s.slot n)).eng = (s.slot n).eng) :
    s.Shows (s.modSlot n g) n := by
  refine .of_same rfl rfl rfl rfl rfl fun m => ?_
  rw [State.slot_modSlot]
  split
  next h => rw [h]; exact hg
  · rfl

end

/-! ## Keys (R10, R11) -/

section
variable {s : State} {n : Fin 8} {e : Fin 64}

theorem State.handOver_eq (s : State) (n : Fin 8) (e : Fin 64) (first next : Key) (rest : List Key) :
    s.handOver n e first next rest =
      (({ s with
          pool := rest, waiting := s.waiting.drop 1, drawing := s.drawing || decide (rest.length < 4) }).modEntry e fun x =>
        { x with segments := keyFirst first x.segments, nextKey := some next }).setSlotState n .running := rfl

@[simp] theorem State.setSlotState_waiting (s : State) (n : Fin 8) (st : SlotState) :
    (s.setSlotState n st).waiting = s.waiting := by
  unfold State.setSlotState
  split <;> simp

@[simp] theorem State.setSlotState_flight (s : State) (n : Fin 8) (st : SlotState) :
    (s.setSlotState n st).flight = s.flight := by
  unfold State.setSlotState
  split <;> simp

theorem execKeyHandover_of {later : List (Fin 8)} {k₁ k₂ : Key} {keys : List Key} (hw : s.waiting = n :: later)
    (hp : s.pool = k₁ :: k₂ :: keys) (hb : (s.slot n).boundEntry = some e) (hl : (s.entry e).state = .live) :
    exec .keyHandover s = .next (s.handOver n e k₁ k₂ keys) := by
  show execKeyHandover s = _
  unfold execKeyHandover
  simp only [hw, hp, hb, hl, if_true]

end

/-- Settles O32: a draw adds a key, and the head of the waiting list takes two. -/
theorem keysAreDrawnAndHanded : Obligations.KeysAreDrawnAndHanded := by
  refine ⟨fun s key h => ?_, fun s key h => ?_, fun s n e later k₁ k₂ keys g gs hw hp hb hl hs =>
    ⟨_, execKeyHandover_of hw hp hb hl, ?_⟩⟩
  · show execKeyDrawComplete key s = _
    unfold execKeyDrawComplete
    rw [if_pos h]
    simp [State.startDraw]
  · show execKeyDrawComplete key s = _
    unfold execKeyDrawComplete
    rw [if_neg (by simp [h])]
  · rw [State.handOver_eq]
    generalize hu : (({ s with
      pool := keys, waiting := s.waiting.drop 1, drawing := s.drawing || decide (keys.length < 4) } : State).modEntry e
        fun x => { x with segments := keyFirst k₁ x.segments, nextKey := some k₂ }) = u
    have hsu : s.Shows u n := by
      rw [← hu]
      exact .of_same rfl rfl rfl rfl rfl fun _ => rfl
    have hsh := hsu.trans (u.setSlotState_shows n .running)
    have hslot : ∀ m, u.slot m = s.slot m := fun m => by rw [← hu]; rfl
    have hkc := (u.setSlotState_keysClock n .running)
    simp only [State.keysClock, Prod.mk.injEq] at hkc
    obtain ⟨hpool, hdraw, hclock⟩ := hkc
    refine ⟨by rw [hpool, ← hu]; rfl, by rw [State.setSlotState_waiting, ← hu]; simp [hw], by rw [hdraw, ← hu]; rfl, ?_, ?_,
      fun m hm => ?_, fun d hd => ?_, hsh.flags, hsh.causes, ?_, by rw [hclock, ← hu]; rfl, hsh.kept, hsh.mem, hsh.held,
      hsh.marks⟩
    · rw [State.setSlotState_entry, ← hu, State.entry_modEntry_self]
      show ({ s.entry e with segments := keyFirst k₁ (s.entry e).segments, nextKey := some k₂ } : Entry) = _
      rw [hs]
      rfl
    · rw [State.setSlotState_slot, if_pos rfl, hslot]
    · rw [State.setSlotState_slot, if_neg hm, hslot]
    · rw [State.setSlotState_entry, ← hu, State.entry_modEntry, if_neg hd]
      rfl
    · rw [State.setSlotState_flight, ← hu]
      rfl

end Sys2Proof.Machine
end

