-- ==== Sys2Proof/Proofs/Opens.lean ====
section
/-! Proofs: the checks of an OPEN in their order, and what an accepted OPEN sets up (R7, R8, R59, R65, R66, R71, R72, R108
to R110, R153, R154). -/

namespace Sys2Proof.Machine

/-! ## Judgement by a list of checks -/

/-- An answer follows a list of checks: the first that fails gives the error, and where none fails the answer is a value
with the property. -/
def judgedBy {α β : Type} (checks : List (Prop × α)) (x : Except α β) (ok : β → Prop) : Prop :=
  (∀ r, firstFailing checks r → x = .error r) ∧ (noneFailing checks → ∃ b, x = .ok b ∧ ok b)

section
variable {α β : Type} {p c : Prop} {r : α} {checks : List (Prop × α)} {x : Except α β} {ok : β → Prop}

theorem judgedBy_fails (hp : p) : judgedBy ((p, r) :: checks) (.error r : Except α β) ok := by
  refine ⟨fun r' h => ?_, fun h => absurd hp (noneFailing_cons.1 h).1⟩
  rcases firstFailing_cons.1 h with ⟨-, rfl⟩ | ⟨hn, -⟩
  · rfl
  · exact absurd hp hn

theorem judgedBy_passes (hp : ¬ p) (h : judgedBy checks x ok) : judgedBy ((p, r) :: checks) x ok := by
  refine ⟨fun r' hf => ?_, fun hf => h.2 (noneFailing_cons.1 hf).2⟩
  rcases firstFailing_cons.1 hf with ⟨h1, -⟩ | ⟨-, h2⟩
  · exact absurd h1 hp
  · exact h.1 r' h2

/-- A check made as a condition that says what the list says of it. -/
theorem judgedBy_check [Decidable c] (hc : c ↔ p) (h : ¬ p → judgedBy checks x ok) :
    judgedBy ((p, r) :: checks) (if c then .error r else x) ok := by
  by_cases hp : p
  · rw [if_pos (hc.2 hp)]
    exact judgedBy_fails hp
  · rw [if_neg fun h => hp (hc.1 h)]
    exact judgedBy_passes hp (h hp)

theorem judgedBy_nil {b : β} (h : ok b) : judgedBy ([] : List (Prop × α)) (.ok b) ok :=
  ⟨fun _ hf => absurd hf firstFailing_nil, fun _ => ⟨b, rfl, h⟩⟩

end

/-! ## The conditions of an OPEN -/

section
variable (s : State) (n : Fin 8)

theorem State.openReady_fails : (!s.openReady) = true ↔ s.ready = false ∨ s.loadInFlight = true := by
  unfold State.openReady
  cases s.ready <;> cases s.loadInFlight <;> decide

theorem frameCountOk_fails (k : Nat) : frameCountOk k = false ↔ badFrames k := by
  simp only [frameCountOk, badFrames, decide_eq_false_iff_not]
  omega

/-- A duplicate in a watch list is a pair of entries in use with one identifier. -/
theorem watchDuplicate_iff (l : List Watch) : watchDuplicate l = true ↔
    ¬ l.Pairwise fun x y => ¬ (x.action ≠ .notUsed ∧ y.action ≠ .notUsed ∧ x.ident = y.ident) := by
  induction l with
  | nil => simp [watchDuplicate]
  | cons x l ih =>
    rw [watchDuplicate, Bool.or_eq_true, ih, List.pairwise_cons, not_and_or]
    refine or_congr_left ?_
    simp only [Bool.and_eq_true, List.any_eq_true, bne_iff_ne, beq_iff_eq, not_forall, not_not]
    constructor
    · rintro ⟨h1, y, hy, h2, h3⟩
      exact ⟨y, hy, h1, h2, h3.symm⟩
    · rintro ⟨y, hy, h1, h2, h3⟩
      exact ⟨h1, y, hy, h2, h3.symm⟩

theorem State.watchList_duplicate : watchDuplicate (s.watchList n) = true ↔
    ∃ i j, i < j ∧ j < 4 ∧ (s.watchEntry n i).action ≠ .notUsed ∧ (s.watchEntry n j).action ≠ .notUsed ∧
      (s.watchEntry n i).ident = (s.watchEntry n j).ident := by
  rw [watchDuplicate_iff, State.watchList, List.pairwise_iff_getElem]
  simp only [List.length_map, List.length_range, List.getElem_map, List.getElem_range, not_forall, not_not]
  constructor
  · rintro ⟨i, j, hi, hj, hij, h⟩
    exact ⟨i, j, hij, hj, h⟩
  · rintro ⟨i, j, hij, hj, h⟩
    exact ⟨i, j, by omega, hj, hij, h⟩

/-- An entry is named by its recording number. -/
theorem State.named_iff {k : Nat} {e : Fin 64} (h : entryIndex k = some e) (p : Entry → Prop) :
    (∃ d : Fin 64, d.val = k ∧ p (s.entry d)) ↔ p (s.entry e) := by
  have he := entryIndex_eq_some h
  constructor
  · rintro ⟨d, hd, hp⟩
    rwa [Fin.ext (hd.trans he.symm)] at hp
  · exact fun hp => ⟨e, he, hp⟩

theorem State.named_none {k : Nat} (h : 63 < k) (p : Entry → Prop) : ¬ ∃ d : Fin 64, d.val = k ∧ p (s.entry d) := by
  rintro ⟨d, hd, -⟩
  omega

theorem mem_allEntries (e : Fin 64) : e ∈ allEntries := by
  unfold allEntries
  exact List.mem_filterMap.2 ⟨e.val, List.mem_range.2 e.isLt, entryIndex_val e⟩

/-! ## The checks by mode -/

/-- The geometry of a RECORD slot (R65). -/
theorem State.geometry_record : (!geometryOk .record (s.readGeometry n .record (clampLength (s.slotField n 7 1)))
      (s.watchList n)) = true ↔
    s.slotField n 48 4 < 256 ∨ 65536 < s.slotField n 48 4 ∨ s.slotField n 48 4 < clampLength (s.slotField n 7 1) ∨
      badFrames (s.slotField n 64 1) ∨
      ∃ i j, i < j ∧ j < 4 ∧ (s.watchEntry n i).action ≠ .notUsed ∧ (s.watchEntry n j).action ≠ .notUsed ∧
        (s.watchEntry n i).ident = (s.watchEntry n j).ident := by
  rw [← State.watchList_duplicate, ← frameCountOk_fails]
  simp only [geometryOk, State.readGeometry, Bool.not_eq_true', Bool.and_eq_false_iff, decide_eq_false_iff_not,
    Bool.not_eq_false', true_or, if_true, not_and_or, not_le]
  tauto

theorem State.geometry_play : (!geometryOk .play (s.readGeometry n .play 0) []) = true ↔
    s.slotField n 48 4 < 64 ∨ 65536 < s.slotField n 48 4 ∨ badFrames (s.slotField n 64 1) := by
  rw [← frameCountOk_fails]
  simp only [geometryOk, State.readGeometry, Bool.not_eq_true', Bool.and_eq_false_iff, decide_eq_false_iff_not, or_true,
    if_true, not_and_or, not_le]
  tauto

theorem State.geometry_check : (!geometryOk .check (s.readGeometry n .check 0) []) = true ↔
    badFrames (s.slotField n 64 1) := by
  rw [← frameCountOk_fails]
  simp [geometryOk, State.readGeometry]

theorem State.geometry_move : (!geometryOk .move (s.readGeometry n .move 0) []) = true ↔
    badFrames (s.slotField n 64 1) ∨ badFrames (s.slotField n 80 1) := by
  rw [← frameCountOk_fails, ← frameCountOk_fails]
  simp only [geometryOk, State.readGeometry, if_true, Bool.not_eq_true', Bool.and_eq_false_iff]

/-- The windows of a slot (R66). -/
theorem State.windows_record (len : Nat) : (!windowsOk s.windows .record (s.readGeometry n .record len)) = true ↔
    ¬ inWindow s.windows false (s.slotField n 40 8) (188 * s.slotField n 48 4) ∨
      ¬ inWindow s.windows true (s.slotField n 56 8) (s.slotField n 64 1 * frameSize len) := by
  rw [← covers_eq_false_iff, ← covers_eq_false_iff]
  simp only [windowsOk, State.readGeometry, true_or, if_true, Bool.not_eq_true', Bool.and_eq_false_iff]

theorem State.windows_play (len : Nat) : (!windowsOk s.windows .play (s.readGeometry n .play len)) = true ↔
    ¬ inWindow s.windows false (s.slotField n 56 8) (s.slotField n 64 1 * frameSize len) ∨
      ¬ inWindow s.windows true (s.slotField n 40 8) (188 * s.slotField n 48 4) := by
  rw [← covers_eq_false_iff, ← covers_eq_false_iff]
  simp only [windowsOk, State.readGeometry, or_true, if_true, Bool.not_eq_true', Bool.and_eq_false_iff]

theorem State.windows_check (len : Nat) : (!windowsOk s.windows .check (s.readGeometry n .check len)) = true ↔
    ¬ inWindow s.windows false (s.slotField n 56 8) (s.slotField n 64 1 * frameSize len) := by
  rw [← covers_eq_false_iff]
  simp only [windowsOk, State.readGeometry, Bool.not_eq_true']

theorem State.windows_move (len : Nat) : (!windowsOk s.windows .move (s.readGeometry n .move len)) = true ↔
    ¬ inWindow s.windows false (s.slotField n 56 8) (s.slotField n 64 1 * frameSize len) ∨
      ¬ inWindow s.windows true (s.slotField n 72 8) (s.slotField n 80 1 * frameSize len) := by
  rw [← covers_eq_false_iff, ← covers_eq_false_iff]
  simp only [windowsOk, State.readGeometry, if_true, Bool.not_eq_true', Bool.and_eq_false_iff]

/-- The expiry check that ends a RECORD OPEN (R71). -/
theorem judgedBy_expiry {ok : Fin 64 → Prop} {e : Fin 64} (he : ok e) :
    judgedBy [(∃ t, (s.ruleFields n).expiry = some t ∧ t ≤ s.clock, Result.expired)]
      (match (s.ruleFields n).expiry with
        | none => .ok e
        | some t => if t ≤ s.clock then .error .expired else .ok e) ok := by
  cases (s.ruleFields n).expiry with
  | none => exact judgedBy_passes (by simp) (judgedBy_nil he)
  | some t => exact judgedBy_check (by simp) fun _ => judgedBy_nil he

/-- What an accepted RECORD OPEN names: a FREE entry, and for 'any' the lowest-numbered one (R7). -/
def State.recordNames (s : State) (n : Fin 8) (e : Fin 64) : Prop :=
  (s.entry e).state = .free ∧ (s.slotField n 6 1 ≠ 255 → e.val = s.slotField n 6 1) ∧
    (s.slotField n 6 1 = 255 → ∀ d, d < e → (s.entry d).state ≠ .free)

/-- The entries come in the order of their numbers. -/
theorem allEntries_pairwise : allEntries.Pairwise (· < ·) := by
  unfold allEntries
  rw [List.pairwise_filterMap]
  refine List.pairwise_lt_range.imp fun {a b} hab d hd e he => ?_
  have h1 := entryIndex_eq_some hd
  have h2 := entryIndex_eq_some he
  exact Fin.lt_def.2 (by omega)

/-- The first FREE entry found is the lowest-numbered one. -/
theorem State.find_free {e : Fin 64} (h : (allEntries.find? fun e => (s.entry e).state == .free) = some e) :
    (s.entry e).state = .free ∧ ∀ d, d < e → (s.entry d).state ≠ .free := by
  obtain ⟨hp, before, after, hl, hb⟩ := List.find?_eq_some_iff_append.1 h
  refine ⟨eq_of_beq hp, fun d hd hf => ?_⟩
  have hmem : d ∈ before ++ e :: after := hl ▸ mem_allEntries d
  have hpw := hl ▸ allEntries_pairwise
  obtain ⟨-, hafter, -⟩ := List.pairwise_append.1 hpw
  rcases List.mem_append.1 hmem with hm | hm
  · have h1 := hb d hm
    rw [hf] at h1
    cases h1
  · rcases List.mem_cons.1 hm with rfl | hm
    · exact lt_irrefl _ hd
    · exact lt_asymm hd ((List.pairwise_cons.1 hafter).1 d hm)

theorem State.judged_record : judgedBy (s.openChecks n .record) (s.checkRecordOpen n) (s.recordNames n) := by
  refine judgedBy_check .rfl fun _ => judgedBy_check s.openReady_fails fun _ =>
    judgedBy_check (s.geometry_record n) fun _ => judgedBy_check (s.windows_record n _) fun _ => ?_
  unfold State.chooseEntry
  by_cases h255 : s.slotField n 6 1 = 255
  · rw [if_pos h255]
    have hn := fun p => s.named_none (k := s.slotField n 6 1) (by omega) p
    refine judgedBy_passes (fun h => h.2 h255) (judgedBy_passes (hn (·.state ≠ .free)) ?_)
    cases hf : allEntries.find? fun e => (s.entry e).state == .free with
    | none =>
      refine judgedBy_fails ⟨h255, fun e he => ?_⟩
      have h1 := List.find?_eq_none.1 hf e (mem_allEntries e)
      exact h1 (beq_iff_eq.2 he)
    | some e =>
      obtain ⟨h1, h2⟩ := s.find_free hf
      exact judgedBy_passes (fun h => h.2 e h1) (judgedBy_expiry s n ⟨h1, fun h => absurd h255 h, fun _ => h2⟩)
  · rw [if_neg h255]
    cases hk : entryIndex (s.slotField n 6 1) with
    | none => exact judgedBy_fails ⟨entryIndex_eq_none.1 hk, h255⟩
    | some e =>
      have he := entryIndex_eq_some hk
      have hname := s.named_iff hk (·.state ≠ .free)
      refine judgedBy_passes (fun h => by omega) ?_
      by_cases hf : (s.entry e).state = .free
      · simp only [hf, if_true]
        exact judgedBy_passes (fun h => hname.1 h hf) (judgedBy_passes (fun h => h255 h.1)
          (judgedBy_expiry s n ⟨hf, fun _ => he, fun h => absurd h h255⟩))
      · simp only [hf, if_false]
        exact judgedBy_fails (hname.2 hf)

/-- An answer of a value means that no check failed. -/
theorem judgedBy.of_ok {α β : Type} {checks : List (Prop × α)} {x : Except α β} {ok : β → Prop} {b : β}
    (h : judgedBy checks x ok) (hx : x = .ok b) : ok b ∧ noneFailing checks := by
  have hnone : noneFailing checks := by
    have hall : ∀ cs : List (Prop × α), (∃ r, firstFailing cs r) ∨ noneFailing cs := fun cs => by
      induction cs with
      | nil => exact .inr noneFailing_nil
      | cons c cs ih =>
        by_cases hc : c.1
        · exact .inl ⟨c.2, firstFailing_cons.2 (.inl ⟨hc, rfl⟩)⟩
        · exact ih.imp (fun ⟨r, hr⟩ => ⟨r, firstFailing_cons.2 (.inr ⟨hc, hr⟩)⟩) fun hn => noneFailing_cons.2 ⟨hc, hn⟩
    rcases hall checks with ⟨r, hr⟩ | hn
    · exact absurd ((h.1 r hr).symm.trans hx) nofun
    · exact hn
  obtain ⟨b', hb, hok⟩ := h.2 hnone
  rw [hx] at hb
  cases hb
  exact ⟨hok, hnone⟩

/-- What the entry's state answers to a PLAY OPEN (R108). -/
theorem checkEntryState_play (st : EntryState) : checkEntryState .play st =
    if st = .moving then some .busy else if st ≠ .live ∧ st ≠ .held then some .wrongState else none := by
  cases st <;> rfl

theorem checkEntryState_check (st : EntryState) : checkEntryState .check st =
    if st ≠ .live ∧ st ≠ .held ∧ st ≠ .moving then some .wrongState else none := by
  cases st <;> rfl

theorem State.judged_play :
    judgedBy (s.openChecks n .play) (s.checkPlayOpen n .play) fun e => e.val = s.slotField n 6 1 := by
  refine judgedBy_check .rfl fun _ => judgedBy_check s.openReady_fails fun _ =>
    judgedBy_check (s.geometry_play n) fun _ => ?_
  cases hk : entryIndex (s.slotField n 6 1) with
  | none => exact judgedBy_fails (entryIndex_eq_none.1 hk)
  | some e =>
    have he := entryIndex_eq_some hk
    have hname := fun p => s.named_iff hk p
    refine judgedBy_passes (by omega) ?_
    simp only [checkEntryState_play]
    by_cases hm : (s.entry e).state = .moving
    · rw [if_pos hm]
      exact judgedBy_fails ((hname (·.state = .moving)).2 hm)
    · rw [if_neg hm]
      refine judgedBy_passes (fun h => hm ((hname (·.state = .moving)).1 h)) ?_
      by_cases hs : (s.entry e).state ≠ .live ∧ (s.entry e).state ≠ .held
      · rw [if_pos hs]
        exact judgedBy_fails ((hname fun x => x.state ≠ .live ∧ x.state ≠ .held).2 hs)
      · rw [if_neg hs]
        refine judgedBy_passes (fun h => hs ((hname fun x => x.state ≠ .live ∧ x.state ≠ .held).1 h)) ?_
        exact judgedBy_check ((s.windows_play n _).trans (hname fun x =>
          ¬ inWindow s.windows false (s.slotField n 56 8) (s.slotField n 64 1 * frameSize x.chunkLength) ∨
            ¬ inWindow s.windows true (s.slotField n 40 8) (188 * s.slotField n 48 4)).symm) fun _ =>
          judgedBy_check ((iff_of_eq (true_and _)).trans (hname (·.views = some 0)).symm) fun _ => judgedBy_nil he

theorem State.judged_check :
    judgedBy (s.openChecks n .check) (s.checkPlayOpen n .check) fun e => e.val = s.slotField n 6 1 := by
  refine judgedBy_check .rfl fun _ => judgedBy_check s.openReady_fails fun _ =>
    judgedBy_check (s.geometry_check n) fun _ => ?_
  cases hk : entryIndex (s.slotField n 6 1) with
  | none => exact judgedBy_fails (entryIndex_eq_none.1 hk)
  | some e =>
    have he := entryIndex_eq_some hk
    have hname := fun p => s.named_iff hk p
    refine judgedBy_passes (by omega) ?_
    simp only [checkEntryState_check]
    by_cases hs : (s.entry e).state ≠ .live ∧ (s.entry e).state ≠ .held ∧ (s.entry e).state ≠ .moving
    · rw [if_pos hs]
      exact judgedBy_fails ((hname fun x => x.state ≠ .live ∧ x.state ≠ .held ∧ x.state ≠ .moving).2 hs)
    · rw [if_neg hs]
      refine judgedBy_passes
        (fun h => hs ((hname fun x => x.state ≠ .live ∧ x.state ≠ .held ∧ x.state ≠ .moving).1 h)) ?_
      refine judgedBy_check ((s.windows_check n _).trans (hname fun x =>
        ¬ inWindow s.windows false (s.slotField n 56 8) (s.slotField n 64 1 * frameSize x.chunkLength)).symm) fun _ => ?_
      rw [if_neg (by simp)]
      exact judgedBy_nil he

theorem Memory.take_read (m : Memory) (a : Nat) {k len : Nat} (h : k ≤ len) : (m.read a len).take k = m.read a k := by
  rw [Memory.read, Memory.read, ← List.map_take, List.take_range, min_eq_left h]

/-- The token's check value as it is compared. -/
theorem openToken_eq (transferKey : Key) {token : List Byte} (h : token.length = 24) : openToken transferKey token =
    if chainedCheck (tokenCheckKey transferKey) (token.take 16) ≠ token.drop 16 then none
    else some (Aes.decipher transferKey (pack16 (token.take 16))) := by
  unfold openToken
  rw [List.take_of_length_le (l := token.drop 16) (by simp [h]), ite_not]

theorem State.judged_move : judgedBy (s.openChecks n .move) (s.checkMoveOpen n) fun b =>
    b.1.val = s.slotField n 6 1 ∧
      b.2 = Aes.decipher s.fused.transferKey (pack16 (s.mem.read (s.slotAddr n + 88) 16)) := by
  refine judgedBy_check .rfl fun _ => judgedBy_check s.openReady_fails fun _ =>
    judgedBy_check (s.geometry_move n) fun _ => ?_
  cases hk : entryIndex (s.slotField n 6 1) with
  | none => exact judgedBy_fails (entryIndex_eq_none.1 hk)
  | some e =>
    have he := entryIndex_eq_some hk
    have hname := fun p => s.named_iff hk p
    refine judgedBy_passes (by omega) ?_
    refine judgedBy_check (hname (·.state ≠ .held)).symm fun _ =>
      judgedBy_check (Iff.trans ?_ (hname fun x => ∃ m ∈ x.players, (s.slot m).mode = .play).symm) fun _ =>
        judgedBy_check (hname fun x => x.chunkCount ≤ x.moveMark).symm fun _ =>
          judgedBy_check (Iff.trans ?_ (hname fun x => ∀ g ∈ x.segments, g.cls ≠ .once ∧ g.cls ≠ .openCopy).symm) fun _ =>
            judgedBy_check ((s.windows_move n _).trans (hname fun x =>
              ¬ inWindow s.windows false (s.slotField n 56 8) (s.slotField n 64 1 * frameSize x.chunkLength) ∨
                ¬ inWindow s.windows true (s.slotField n 72 8) (s.slotField n 80 1 * frameSize x.chunkLength)).symm) fun _ => ?_
    · simp [State.playBound]
    · simp
    · rw [openToken_eq _ (Memory.length_read ..)]
      by_cases ht : chainedCheck (tokenCheckKey s.fused.transferKey) ((s.mem.read (s.slotAddr n + 88) 24).take 16) ≠
          (s.mem.read (s.slotAddr n + 88) 24).drop 16
      · rw [if_pos ht]
        exact judgedBy_fails ht
      · rw [if_neg ht]
        exact judgedBy_passes ht (judgedBy_nil ⟨he, by rw [Memory.take_read _ _ (by omega)]⟩)

end

end Sys2Proof.Machine
end

