-- ==== Sys2Proof/Proofs/OpenOrders.lean ====
section
/-! Proofs: an OPEN that is refused, and one that is accepted, in each mode (R8, R59, R61, R62, R72, R109, R110, R154). -/

namespace Sys2Proof.Machine

/-! ## Refused -/

theorem firstFailing_mem {α : Type} {checks : List (Prop × α)} {r : α} (h : firstFailing checks r) :
    ∃ p, (p, r) ∈ checks := by
  obtain ⟨before, p, after, rfl, -⟩ := h
  exact ⟨p, by simp⟩

/-- Every check of an OPEN has a result to write. -/
theorem State.openChecks_result {s : State} {n : Fin 8} {mode : Mode} {res : Result}
    (h : firstFailing (s.openChecks n mode) res) : res ≠ .none := by
  obtain ⟨p, hp⟩ := firstFailing_mem h
  cases mode <;>
    simp only [State.openChecks, List.cons_append, List.nil_append, List.mem_cons, Prod.mk.injEq, List.not_mem_nil,
      or_false] at hp <;> rintro rfl <;> simp at hp

section
variable {s : State} {w : Writes} {n : Fin 8} {number : Mark}

/-- An OPEN of one of the four modes whose check answers an error. -/
theorem open_refused (h : s.atOrder w n number .openSlot) {row : OrderKind → Mode → Slot → Bool}
    {effect : State → Fin 8 → Mark → State} {res : Result}
    (hrow : row .openSlot (modeOf ((s.recorded w).slotField n 5 1)) (s.slot n) = true) (hne : res ≠ .none)
    (heff : effect (s.recorded w) n number = (s.recorded w).answer n number res) :
    ∃ t, withWrites w s (fun s => s.takeOrder row effect) = .next t ∧ t.slot n = (s.slot n).answered number res ∧
      s.sameSlotsBut t n ∧ t.entries = s.entries ∧ t.waiting = s.waiting ∧ t.flight = s.flight ∧
      (s.recorded w).orderFrame t n ∧ slotFlag .result n ∈ t.flags ∧ s.flagsBut t [slotFlag .result n] := by
  refine h.answers hrow fun u hu => ?_
  rw [heff] at hu
  subst hu
  obtain ⟨a1, a2, a3, a4, a5, a6, a7, a8⟩ := answeredAlone (s := s) h.running number hne
  exact ⟨a1, a2, a3, a4, a5, a8, a6, a7⟩

/-- Settles O14: each mode's checks are made in the order of its list. -/
theorem refusedOpensChangeNothing : Obligations.RefusedOpensChangeNothing := by
  intro s w n number mode c h
  dsimp only
  intro hmode hc
  have hrec := (s.recorded w).judged_record n
  have hplay := (s.recorded w).judged_play n
  have hcheck := (s.recorded w).judged_check n
  have hmove := (s.recorded w).judged_move n
  refine ⟨fun res hres => ?_, fun hnone => ⟨?_, ?_, ?_⟩⟩
  · have hne := State.openChecks_result hres
    rcases hc with ⟨rfl, rfl⟩ | ⟨rfl, rfl⟩ | ⟨rfl, rfl⟩ | ⟨rfl, rfl⟩
    · refine open_refused h (by rw [hmode]; rfl) hne ?_
      rw [hrec.1 res hres]
    · refine open_refused h (by rw [hmode]; rfl) hne ?_
      rw [State.openPlay, hplay.1 res hres]
    · refine open_refused h (by rw [hmode]; rfl) hne ?_
      rw [State.openPlay, hcheck.1 res hres]
    · refine open_refused h (by rw [hmode]; rfl) hne ?_
      rw [hmove.1 res hres]
  · rintro rfl
    exact hrec.2 hnone
  · rintro (rfl | rfl)
    · exact hplay.2 hnone
    · exact hcheck.2 hnone
  · rintro rfl
    obtain ⟨⟨e, key⟩, hok, he, hkey⟩ := hmove.2 hnone
    exact ⟨e, he, hkey ▸ hok⟩

end

/-! ## What an answer leaves of the order's fields -/

section
variable {s t : State} {n : Fin 8} {fs : List Flag}

/-- The recorder's part of a slot record is outside its engine part (R48). -/
theorem State.Frame.slotField (h : s.Frame t n fs) {off len : Nat} (hl : off + len ≤ 256) :
    t.slotField n off len = s.slotField n off len := by
  have haddr : t.slotAddr n = s.slotAddr n := by rw [State.slotAddr, State.slotAddr, State.boardBase_eq_of h.kept]
  unfold State.slotField
  rw [haddr]
  refine congrArg ofLe (Memory.read_congr fun i h1 h2 => h.mem i fun hi => ?_)
  have := hi.1
  omega

theorem State.Frame.ruleFields (h : s.Frame t n fs) : t.ruleFields n = s.ruleFields n := by
  unfold State.ruleFields
  rw [h.slotField (by omega), h.slotField (by omega), h.slotField (by omega), h.slotField (by omega)]

theorem State.Frame.watchList (h : s.Frame t n fs) : t.watchList n = s.watchList n := by
  refine List.map_congr_left fun i hi => ?_
  have := List.mem_range.1 hi
  unfold State.watchEntry
  rw [h.slotField (by omega), h.slotField (by omega)]

theorem State.Frame.readGeometry (h : s.Frame t n fs) (mode : Mode) (len : Nat) :
    t.readGeometry n mode len = s.readGeometry n mode len := by
  unfold State.readGeometry
  simp only [h.slotField (show 40 + 8 ≤ 256 by omega), h.slotField (show 48 + 4 ≤ 256 by omega),
    h.slotField (show 56 + 8 ≤ 256 by omega), h.slotField (show 64 + 1 ≤ 256 by omega),
    h.slotField (show 72 + 8 ≤ 256 by omega), h.slotField (show 80 + 1 ≤ 256 by omega)]

theorem State.Frame.readMarks (h : s.Frame t n fs) (mode : Mode) (x : Slot) :
    t.readMarks n mode x = s.readMarks n mode x := by
  unfold State.readMarks
  simp only [h.slotField (show 52 + 4 ≤ 256 by omega), h.slotField (show 68 + 4 ≤ 256 by omega),
    h.slotField (show 84 + 4 ≤ 256 by omega)]

end

/-! ## Accepted -/

section
variable {s : State} {n : Fin 8} {e : Fin 64}

/-- An entry whose lapse time lies ahead is derived without a lapse. -/
theorem State.derive_ahead (h : ∀ t, (s.entry e).deriveLapse = some t → s.clock < t) :
    s.derive e = s.modEntry e fun x => { x with lapseTime := x.deriveLapse } := by
  unfold State.derive State.judge
  rw [if_neg]
  unfold State.lapseReached
  rw [State.entry_modEntry_self]
  dsimp only
  cases hl : (s.entry e).deriveLapse with
  | none => simp
  | some t => simp [Nat.not_le.2 (h t hl)]

theorem openFields_outcome : ∀ p, .outcome p ∈ openFields → p < 16 := by
  intro p hp
  simpa [openFields] using hp

/-- The slot that an accepted RECORD OPEN sets up. -/
def State.recordSlot (s : State) (n : Fin 8) (e : Fin 64) : Slot :=
  let y := s.readMarks n .record (Slot.bare (s.slot n).latch (s.slot n).eng)
  { y with
    mode := .record
    geo := s.readGeometry n .record (clampLength (s.slotField n 7 1))
    holdTime := clampHoldTime (s.slotField n 20 1)
    notice := clampNotice (s.slotField n 21 1) (s.slotField n 64 1)
    othersSeal := clampOthersSeal (s.slotField n 22 1)
    watch := s.watchList n
    history := [true, true, true]
    absence := [0, 0, 0, 0]
    eng := y.eng.opened .opening e true y.viewA y.viewB 0 }

/-- The entry that it sets up, its lapse time derived. -/
def State.recordEntry (s : State) (n : Fin 8) (e : Fin 64) : Entry :=
  { (s.entry e).opened n (clampLength (s.slotField n 7 1)) (clampRotation (s.slotField n 16 4)) (s.ruleFields n) with
    lapseTime := (s.ruleFields n).expiry }

/-- An accepted RECORD OPEN of a part that is not STOPPED, its expiry lying ahead. -/
theorem State.acceptRecord_all (hr : s.part ≠ .stopped)
    (hx : ∀ t, (s.ruleFields n).expiry = some t → s.clock < t) :
    let u := s.acceptRecord n e
    u.slot n = s.recordSlot n e ∧ s.sameSlotsBut u n ∧ u.entry e = s.recordEntry n e ∧ s.sameEntriesBut u e ∧
      u.waiting = s.waiting ++ [n] ∧ u.flight = s.flight ∧ s.Frame u n [] ∧ u.flags = s.flags := by
  dsimp only
  unfold State.acceptRecord
  extract_lets len g x y s1 s2 s3
  have f1 : s.Frame s1 n [] := State.modEntry_frame n e hr _
  have f2 : s.Frame s2 n [] := f1.trans (State.setSlot_own n f1.running' _).toFrame (by simp)
  have o3 : s2.Own s3 n [] := State.setEngine_own n f2.running' _ openFields openFields_outcome
  have f3 : s.Frame s3 n [] := f2.trans o3.toFrame (by simp)
  have hfield : ∀ off len, s1.slotField n off len = s.slotField n off len := fun _ _ => rfl
  have hwatch : s1.watchList n = s.watchList n := rfl
  have hslot : s3.slot n = s.recordSlot n e := by
    simp [s3, s2, State.recordSlot, y, g, x, len, State.readGeometry, hfield, hwatch]
  have hslots : s.sameSlotsBut s3 n := fun m hm =>
    (o3.slots m hm).trans ((State.slot_setSlot_ne s1 _ hm).trans rfl)
  have hentry : ∀ d, s3.entry d = if d = e then
      (s.entry e).opened n len (clampRotation (s.slotField n 16 4)) (s.ruleFields n) else s.entry d := fun d =>
    (o3.entry d).trans (s.entry_modEntry d e fun z => z.opened n len (clampRotation (s.slotField n 16 4)) (s.ruleFields n))
  have hwaiting : s3.waiting = s.waiting := o3.waiting.trans rfl
  have hflight : s3.flight = s.flight := o3.flight.trans rfl
  have hflags : s3.flags = s.flags := (s2.setEngine_flags n _ _).trans rfl
  clear_value s3
  clear o3 f2 f1 hfield hwatch s2 s1
  have hself : ({ s3 with waiting := s3.waiting ++ [n] } : State).entry e = _ := (hentry e).trans (if_pos rfl)
  rw [State.derive_ahead fun t ht => ?_]
  · refine ⟨hslot, hslots, ?_, fun d hd => ?_, ?_, hflight, ?_, hflags⟩
    · rw [State.entry_modEntry_self, hself]
      rfl
    · exact (State.entry_modEntry _ d e _).trans ((if_neg hd).trans ((hentry d).trans (if_neg hd)))
    · show s3.waiting ++ [n] = _
      rw [hwaiting]
    · exact f3.trans (gs := []) (.of_same f3.running' rfl rfl rfl rfl rfl rfl) (by simp)
  · rw [hself] at ht
    exact lt_of_eq_of_lt f3.clock (hx t ht)

/-- An accepted RECORD OPEN has its expiry ahead, and its entry FREE. -/
theorem State.checkRecordOpen_ok (h : s.checkRecordOpen n = .ok e) :
    (s.entry e).state = .free ∧ ∀ t, (s.ruleFields n).expiry = some t → s.clock < t := by
  obtain ⟨hok, hnone⟩ := (s.judged_record n).of_ok h
  refine ⟨hok.1, fun t ht => ?_⟩
  have hexp := hnone (∃ t, (s.ruleFields n).expiry = some t ∧ t ≤ s.clock, .expired) (by simp [State.openChecks])
  exact not_le.1 fun hle => hexp ⟨t, ht, hle⟩

end

/-- Settles O15: the OPEN is answered DONE, and the slot and the entry are set up from the order's fields. -/
theorem recordOpenAccepted : Obligations.RecordOpenAccepted := by
  intro s w n number e h
  dsimp only
  intro hmode hok
  obtain ⟨hfree, hexp⟩ := State.checkRecordOpen_ok hok
  obtain ⟨hslot, hown, hflag⟩ := State.answer_all h.running n number (r := .done) nofun
  refine h.answers (by rw [hmode]; rfl) fun u hu => ?_
  rw [hok] at hu
  dsimp only at hu
  generalize (s.recorded w).answer n number .done = v at hslot hown hflag hu
  obtain ⟨b1, b2, b3, b4, b5, b6, b7, b8⟩ := State.acceptRecord_all (s := v) (n := n) (e := e) hown.running'
    (by rw [hown.ruleFields, hown.clock]; exact hexp)
  rw [← hu] at b1 b2 b3 b4 b5 b6 b7 b8
  clear hu
  have hframe := hown.toFrame.trans b7 (by simp)
  refine ⟨b1.trans ?_, b3.trans ?_, hfree, fun m hm => (b2 m hm).trans (hown.slots m hm),
    fun d hd => (b4 d hd).trans (hown.entry d), b5.trans (by rw [hown.waiting]; rfl), b6.trans hown.flight,
    by rw [b8]; exact hflag, hframe.flags, hframe.orderFrame⟩
  · unfold State.recordSlot
    rw [hown.readMarks, hown.readGeometry, hown.watchList, hown.slotField (by omega), hown.slotField (by omega),
      hown.slotField (by omega), hown.slotField (by omega), hown.slotField (by omega), hslot]
    rfl
  · unfold State.recordEntry
    rw [hown.entry, hown.ruleFields, hown.slotField (by omega), hown.slotField (by omega)]
    rfl

/-! ## PLAY, CHECK and MOVE -/

section
variable {s : State} {n : Fin 8} {e : Fin 64}

/-- The slot that an accepted OPEN of a frame mode sets up. -/
def State.frameSlot (s : State) (n : Fin 8) (e : Fin 64) (mode : Mode) (token : Option Key) (openServed : Option Mark) :
    Slot :=
  let y := s.readMarks n mode (Slot.bare (s.slot n).latch (s.slot n).eng)
  { y with
    mode := mode
    geo := s.readGeometry n mode (s.entry e).chunkLength
    notice := clampNotice (s.slotField n 21 1) (s.slotField n 64 1)
    token := token
    openServed := openServed
    eng := y.eng.opened .waiting e false y.viewA y.viewB y.viewC }

theorem State.setUpFrameSlot_all (hr : s.part ≠ .stopped) (mode : Mode) (token : Option Key) (openServed : Option Mark) :
    let u := s.setUpFrameSlot n e mode token openServed
    u.slot n = s.frameSlot n e mode token openServed ∧ s.Own u n [] ∧ u.flags = s.flags := by
  dsimp only
  unfold State.setUpFrameSlot
  extract_lets x g y v
  have h1 : s.Own v n [] := State.setSlot_own n hr _
  have h2 := State.setEngine_own n h1.running' (fun z => z.opened .waiting e false y.viewA y.viewB y.viewC) openFields
    openFields_outcome
  refine ⟨?_, h1.trans h2 (by simp), ?_⟩
  · simp [v, y, g, x, State.frameSlot, State.readGeometry]
  · rw [State.setEngine_flags]
    rfl

/-- The set-up slot read from a state that an answer has left. -/
theorem State.Frame.frameSlot {v : State} {fs : List Flag} (h : s.Frame v n fs) (he : v.entry e = s.entry e) (mode : Mode)
    (token : Option Key) (openServed : Option Mark) : v.frameSlot n e mode token openServed =
      { s.readMarks n mode (Slot.bare (v.slot n).latch (v.slot n).eng) with
        mode := mode
        geo := s.readGeometry n mode (s.entry e).chunkLength
        notice := clampNotice (s.slotField n 21 1) (s.slotField n 64 1)
        token := token
        openServed := openServed
        eng := (v.slot n).eng.opened .waiting e false
          (s.readMarks n mode (Slot.bare (v.slot n).latch (v.slot n).eng)).viewA
          (s.readMarks n mode (Slot.bare (v.slot n).latch (v.slot n).eng)).viewB
          (s.readMarks n mode (Slot.bare (v.slot n).latch (v.slot n).eng)).viewC } := by
  unfold State.frameSlot
  rw [h.readMarks, h.readGeometry, h.slotField (by omega), h.slotField (by omega), he]
  rfl

/-- The entry of an accepted PLAY or CHECK OPEN. -/
def Entry.played (x : Entry) (n : Fin 8) (mode : Mode) : Entry :=
  if mode = .play then Entry.consumeView { x with players := x.players ++ [n] } else { x with players := x.players ++ [n] }

theorem Entry.played_unlimited {x : Entry} (n : Fin 8) (h : x.views = none) :
    x.played n .play = { x with players := x.players ++ [n] } := by
  rw [Entry.played, if_pos rfl, Entry.consumeView, h]

theorem Entry.played_views {x : Entry} (n : Fin 8) {v : Nat} (h : x.views = some v) (hv : 1 ≤ v) : x.played n .play =
    { x with
      players := x.players ++ [n], views := some (v - 1), lastViewTaken := x.lastViewTaken || decide (v = 1) } := by
  have hd : decide (v - 1 = 0) = decide (v = 1) := decide_eq_decide.2 (by omega)
  rw [Entry.played, if_pos rfl]
  simp only [Entry.consumeView, h, hd]

theorem State.acceptPlay_all (hr : s.part ≠ .stopped) (mode : Mode) :
    let u := s.acceptPlay n e mode
    u.slot n = s.frameSlot n e mode none none ∧ s.sameSlotsBut u n ∧ u.entry e = (s.entry e).played n mode ∧
      s.sameEntriesBut u e ∧ u.waiting = s.waiting ∧ u.flight = s.flight ∧ s.Frame u n [] ∧ u.flags = s.flags := by
  obtain ⟨hslot, hown, hflags⟩ := State.setUpFrameSlot_all (n := n) (e := e) hr mode none none
  dsimp only
  unfold State.acceptPlay
  dsimp only
  generalize s.setUpFrameSlot n e mode none none = v at hslot hown hflags
  have hentry : ∀ d, (v.modEntry e fun x => { x with players := x.players ++ [n] }).entry d =
      if d = e then { s.entry e with players := (s.entry e).players ++ [n] } else s.entry d := fun d => by
    rw [State.entry_modEntry, hown.entry, hown.entry]
  have hframe := hown.toFrame.trans (State.modEntry_frame n e hown.running' fun x => { x with players := x.players ++ [n] })
    (by simp)
  split
  next hm =>
    refine ⟨hslot, hown.slots, ?_, fun d hd => ?_, hown.waiting, hown.flight,
      hframe.trans (State.modEntry_frame n e hframe.running' Entry.consumeView) (by simp), hflags⟩
    · rw [State.entry_modEntry_self, hentry, if_pos rfl, Entry.played, if_pos hm]
    · rw [State.entry_modEntry, if_neg hd, hentry, if_neg hd]
  next hm =>
    refine ⟨hslot, hown.slots, ?_, fun d hd => ?_, hown.waiting, hown.flight, hframe, hflags⟩
    · rw [hentry, if_pos rfl, Entry.played, if_neg hm]
    · rw [hentry, if_neg hd]

/-- A PLAY or CHECK OPEN is accepted on an entry in use, and for PLAY with a view left. -/
theorem State.checkPlayOpen_ok {mode : Mode} (hm : mode = .play ∨ mode = .check) (h : s.checkPlayOpen n mode = .ok e) :
    ((s.entry e).state = .live ∨ (s.entry e).state = .held ∨ (s.entry e).state = .moving) ∧
      ∀ v, mode = .play → (s.entry e).views = some v → 1 ≤ v := by
  rcases hm with rfl | rfl
  · obtain ⟨hok, hnone⟩ := (s.judged_play n).of_ok h
    have hst := hnone (∃ d : Fin 64, d.val = s.slotField n 6 1 ∧ ((s.entry d).state ≠ .live ∧ (s.entry d).state ≠ .held),
      .wrongState) (by simp [State.openChecks])
    have hv := hnone (∃ d : Fin 64, d.val = s.slotField n 6 1 ∧ (s.entry d).views = some 0, .viewsUsed)
      (by simp [State.openChecks])
    refine ⟨by_contra fun hn => hst ⟨e, hok, ?_⟩, fun v _ h0 => by_contra fun hn => hv ⟨e, hok, ?_⟩⟩
    · simp only [not_or] at hn
      exact ⟨hn.1, hn.2.1⟩
    · rw [h0, show v = 0 by omega]
  · obtain ⟨hok, hnone⟩ := (s.judged_check n).of_ok h
    have hst := hnone (∃ d : Fin 64, d.val = s.slotField n 6 1 ∧
      ((s.entry d).state ≠ .live ∧ (s.entry d).state ≠ .held ∧ (s.entry d).state ≠ .moving), .wrongState)
      (by simp [State.openChecks])
    refine ⟨by_contra fun hn => hst ⟨e, hok, ?_⟩, nofun⟩
    simpa only [not_or] using hn

end

/-- Settles O16: the slot is set up, and the entry takes it as a player and gives a view. -/
theorem playCheckOpenAccepted : Obligations.PlayCheckOpenAccepted := by
  intro s w n number e mode c h
  dsimp only
  intro hmode hc hok
  have hm : mode = .play ∨ mode = .check := hc.imp And.left And.left
  obtain ⟨hstate, hviews⟩ := State.checkPlayOpen_ok hm hok
  obtain ⟨hslot, hown, hflag⟩ := State.answer_all h.running n number (r := .done) nofun
  have hopen : (s.recorded w).openPlay n number mode = ((s.recorded w).answer n number .done).acceptPlay n e mode := by
    rw [State.openPlay, hok]
  have hnext : exec c s = .next { (s.recorded w).openPlay n number mode with sweep := (s.recorded w).afterSlot n } := by
    rcases hc with ⟨rfl, rfl⟩ | ⟨rfl, rfl⟩
    · exact h.take (by rw [hmode]; rfl)
    · exact h.take (by rw [hmode]; rfl)
  rw [hopen] at hnext
  refine ⟨_, hnext, ?_⟩
  clear hnext hopen
  generalize (s.recorded w).answer n number .done = v at hslot hown hflag
  obtain ⟨b1, b2, b3, b4, b5, b6, b7, b8⟩ := State.acceptPlay_all (s := v) (n := n) (e := e) hown.running' mode
  generalize v.acceptPlay n e mode = u at b1 b2 b3 b4 b5 b6 b7 b8
  have hframe := hown.toFrame.trans b7 (by simp)
  rw [hown.entry] at b3
  refine ⟨b1.trans ?_, fun h1 => ?_, fun h1 h2 => ?_, fun v h1 h2 => ⟨hviews v h1 h2, ?_⟩, hstate,
    fun m hm => (b2 m hm).trans (hown.slots m hm), fun d hd => (b4 d hd).trans (hown.entry d), b5.trans hown.waiting,
    b6.trans hown.flight, by rw [b8]; exact hflag, hframe.flags, hframe.orderFrame⟩
  · rw [hown.frameSlot (hown.entry e), hslot]
    rcases hm with rfl | rfl <;> rfl
  · exact b3.trans (by rw [h1]; rfl)
  · exact b3.trans (by rw [h1]; exact Entry.played_unlimited n h2)
  · exact b3.trans (by rw [h1]; exact Entry.played_views n h2 (hviews v h1 h2))

section
variable {s : State} {n : Fin 8} {e : Fin 64}

/-- A MOVE OPEN is accepted on a HELD entry that has chunks to move, of which one may leave the box. -/
theorem State.checkMoveOpen_ok {key : Key} (h : s.checkMoveOpen n = .ok (e, key)) :
    (s.entry e).state = .held ∧ (s.entry e).moveMark < (s.entry e).chunkCount ∧
      ∃ g ∈ (s.entry e).segments, g.cls ≠ .never := by
  obtain ⟨⟨hok, -⟩, hnone⟩ := (s.judged_move n).of_ok h
  have hst := hnone (∃ d : Fin 64, d.val = s.slotField n 6 1 ∧ (s.entry d).state ≠ .held, .wrongState)
    (by simp [State.openChecks])
  have hmark := hnone (∃ d : Fin 64, d.val = s.slotField n 6 1 ∧ (s.entry d).chunkCount ≤ (s.entry d).moveMark, .wrongState)
    (by simp [State.openChecks])
  have hcls := hnone (∃ d : Fin 64, d.val = s.slotField n 6 1 ∧
    ∀ g ∈ (s.entry d).segments, g.cls ≠ .once ∧ g.cls ≠ .openCopy, .cls) (by simp [State.openChecks])
  refine ⟨by_contra fun hn => hst ⟨e, hok, hn⟩, by_contra fun hn => hmark ⟨e, hok, not_lt.1 hn⟩,
    by_contra fun hn => hcls ⟨e, hok, fun g hg => ?_⟩⟩
  have hnever : g.cls = .never := not_not.1 fun h => hn ⟨g, hg, h⟩
  rw [hnever]
  exact ⟨nofun, nofun⟩

/-- An entry with a segment of another class than NEVER has no hold horizon (R134). -/
theorem Entry.horizon_none {x : Entry} (h : ∃ g ∈ x.segments, g.cls ≠ .never) : x.horizon = none := by
  obtain ⟨g, hg, hc⟩ := h
  refine if_neg fun hall => hc ?_
  exact eq_of_beq (List.all_eq_true.1 hall g hg)

theorem optMin_none (a : Option Nat) : optMin a none = a := by cases a <;> rfl

/-- An accepted MOVE OPEN of a part that is not STOPPED, the expiry lying ahead. -/
theorem State.acceptMove_all (hr : s.part ≠ .stopped) (hc : ∃ g ∈ (s.entry e).segments, g.cls ≠ .never)
    (hx : ∀ c, (s.entry e).expiry = some c → s.clock < c) (key : Key) (number : Mark) :
    let u := s.acceptMove n e key number
    u.slot n = s.frameSlot n e .move (some key) (some number) ∧ s.sameSlotsBut u n ∧
      u.entry e = { s.entry e with state := .moving, binding := some n, lapseTime := (s.entry e).expiry } ∧
      s.sameEntriesBut u e ∧ u.waiting = s.waiting ∧ u.flight = s.flight ∧ s.Frame u n [] ∧ u.flags = s.flags := by
  obtain ⟨hslot, hown, hflags⟩ := State.setUpFrameSlot_all (n := n) (e := e) hr .move (some key) (some number)
  dsimp only
  unfold State.acceptMove
  dsimp only
  generalize s.setUpFrameSlot n e .move (some key) (some number) = v at hslot hown hflags
  have hself : (v.modEntry e fun x => { x with state := .moving, binding := some n }).entry e =
      { s.entry e with state := .moving, binding := some n } := by rw [State.entry_modEntry_self, hown.entry]
  have hderive : ({ s.entry e with state := .moving, binding := some n } : Entry).deriveLapse = (s.entry e).expiry := by
    show optMin (s.entry e).expiry (Entry.horizon _) = _
    rw [Entry.horizon_none (by exact hc), optMin_none]
  have hframe := hown.toFrame.trans
    (State.modEntry_frame n e hown.running' fun x => { x with state := .moving, binding := some n }) (by simp)
  rw [State.derive_ahead fun t ht => ?_]
  · refine ⟨hslot, hown.slots, ?_, fun d hd => ?_, hown.waiting, hown.flight,
      hframe.trans (State.modEntry_frame n e hframe.running' _) (by simp), hflags⟩
    · rw [State.entry_modEntry_self, hself, hderive]
    · rw [State.entry_modEntry, if_neg hd, State.entry_modEntry, if_neg hd, hown.entry]
  · rw [hself, hderive] at ht
    exact lt_of_eq_of_lt hframe.clock (hx t ht)

end

/-- Settles O17: the slot is set up with the token key, and the entry is MOVING under it with its expiry as lapse time. -/
theorem moveOpenAccepted : Obligations.MoveOpenAccepted := by
  intro s w n number e key h
  dsimp only
  intro hmode hok hexp
  obtain ⟨hheld, hmark, hcls⟩ := State.checkMoveOpen_ok hok
  have hown := State.answer_none_own n h.running number
  have hflags := State.answer_none_flags n h.running number
  have hslot : ((s.recorded w).answer n number .none).slot n = (s.slot n).answered number .none := by
    rw [State.answer_slot, if_pos rfl]
    rfl
  refine h.answers (by rw [hmode]; rfl) fun u hu => ?_
  rw [hok] at hu
  dsimp only at hu
  generalize (s.recorded w).answer n number .none = v at hslot hown hflags hu
  obtain ⟨b1, b2, b3, b4, b5, b6, b7, b8⟩ := State.acceptMove_all (s := v) (n := n) (e := e) hown.running'
    (by rw [hown.entry]; exact hcls) (by rw [hown.entry, hown.clock]; exact hexp) key number
  rw [← hu] at b1 b2 b3 b4 b5 b6 b7 b8
  clear hu
  rw [hown.entry] at b3
  refine ⟨b1.trans ?_, b3, hheld, hmark, fun m hm => (b2 m hm).trans (hown.slots m hm),
    fun d hd => (b4 d hd).trans (hown.entry d), b5.trans hown.waiting, b6.trans hown.flight, b8.trans hflags,
    (hown.toFrame.trans b7 (by simp)).orderFrame⟩
  rw [hown.frameSlot (hown.entry e), hslot]
  rfl

end Sys2Proof.Machine
end

