-- ==== Sys2Proof/Proofs/Closing.lean ====
section
/-! Proofs: the close of an open chunk and the count of absence that it brings (R77, R102). -/

namespace Sys2Proof.Machine

/-! ## Absence at a close (R102) -/

section
variable {x : Slot} {c : OpenChunk} {i : Nat}

theorem watchedForAbsence_iff (w : Watch) :
    watchedForAbsence w = true ↔ w.action = .seal ∨ w.action = .index ∨ w.action = .clear := by
  simp [watchedForAbsence, or_assoc]

/-- The condition under which an entry is counted. -/
theorem Slot.misses_iff (x : Slot) (c : OpenChunk) (i : Nat) : x.misses c i ↔
    (watchedForAbsence (x.watch.getD i ⟨0, .notUsed⟩) && !c.seen.contains i && decide (x.absence.getD i 0 < 3)) = true := by
  rw [Bool.and_eq_true, Bool.and_eq_true, decide_eq_true_eq, Bool.not_eq_true', List.contains_eq_mem,
    decide_eq_false_iff_not, watchedForAbsence_iff, and_assoc]
  refine and_congr_left fun _ => ?_
  rw [List.getD_eq_getElem?_getD]
  cases x.watch[i]? with
  | none => simp
  | some w => simp

theorem Slot.countAbsent_missed (h : x.misses c i) :
    countAbsent x.watch c.seen x.absence i = (x.absence.getD i 0 + 1, decide (x.absence.getD i 0 = 2)) := by
  unfold countAbsent
  rw [if_pos ((x.misses_iff c i).1 h)]
  exact Prod.ext rfl (decide_eq_decide.2 (by omega))

theorem Slot.countAbsent_seen (h : ¬ x.misses c i) :
    countAbsent x.watch c.seen x.absence i = (x.absence.getD i 0, false) := by
  unfold countAbsent
  rw [if_neg fun h' => h ((x.misses_iff c i).2 h')]

theorem Slot.countAbsent_absent (x : Slot) (c : OpenChunk) (i : Nat) :
    (countAbsent x.watch c.seen x.absence i).2 = true ↔ x.becomesAbsent c i := by
  by_cases h : x.misses c i
  · rw [Slot.countAbsent_missed h, Slot.becomesAbsent, and_iff_right h]
    exact decide_eq_true_iff
  · rw [Slot.countAbsent_seen h]
    exact iff_of_false nofun fun hb => h hb.1

end

/-- The counts of the four watch entries. -/
def Slot.counted (x : Slot) (c : OpenChunk) : List (Nat × Bool) :=
  (List.range 4).map (countAbsent x.watch c.seen x.absence)

section
variable (x : Slot) (c : OpenChunk)

theorem Slot.counted_getElem {i : Nat} (h : i < (x.counted c).length) :
    (x.counted c)[i] = countAbsent x.watch c.seen x.absence i := by simp [Slot.counted]

theorem Slot.counted_any : (x.counted c).any Prod.snd = true ↔ ∃ i < 4, x.becomesAbsent c i := by
  simp only [Slot.counted, List.any_map, List.any_eq_true, List.mem_range, Function.comp_apply, Slot.countAbsent_absent]

theorem Slot.counted_absence {i : Nat} (h : i < 4) :
    ((x.counted c).map Prod.fst).getD i 0 = (countAbsent x.watch c.seen x.absence i).1 := by
  rw [List.getD_eq_getElem _ _ (by simp [Slot.counted, h]), List.getElem_map, Slot.counted_getElem]

/-- The absent flags after the count. -/
theorem Slot.counted_absent {absent : List Bool} (hl : absent.length = 4) {i : Nat} (h : i < 4) :
    (List.zipWith (fun a c => a || c.2) absent (x.counted c)).getD i false = true ↔
      absent.getD i false = true ∨ x.becomesAbsent c i := by
  rw [List.getD_eq_getElem _ _ (by simp [Slot.counted, hl, h]), List.getElem_zipWith, Slot.counted_getElem,
    Bool.or_eq_true, Slot.countAbsent_absent, List.getD_eq_getElem _ _ (by omega)]

end

section
variable {s : State} {n : Fin 8} {c : OpenChunk}

/-- The slot after its chunk has been counted for absence. -/
theorem State.countAbsence_slot (s : State) (n : Fin 8) (c : OpenChunk) : (s.countAbsence n c.seen).slot n =
    { s.slot n with
      absence := ((s.slot n).counted c).map Prod.fst
      eng := { (s.slot n).eng with
        absent := if ((s.slot n).counted c).any Prod.snd then
            List.zipWith (fun a c => a || c.2) (s.slot n).eng.absent ((s.slot n).counted c)
          else (s.slot n).eng.absent } } := by
  unfold State.countAbsence
  dsimp only
  change (if ((s.slot n).counted c).any Prod.snd = true then _ else _ : State).slot n = _
  split
  next h => simp [Slot.counted]
  next h => simp [Slot.counted]

theorem State.countAbsence_own (hr : s.part ≠ .stopped) (seen : List Nat) :
    s.Own (s.countAbsence n seen) n [slotFlag .absent n] := by
  unfold State.countAbsence
  extract_lets x counted t
  have h1 : s.Own t n [] := State.modSlot_own n hr _
  split
  · have h2 := h1.trans (State.setEngine_own n h1.running'
      (fun g => { g with absent := List.zipWith (fun a c => a || c.2) g.absent counted }) [.absent] (by simp)) (by simp)
    exact (h2.mono (by simp)).trans (State.notify_own n h2.running' _) (by simp)
  · exact h1.mono (by simp)

/-- A cause noted in STOPPED is held with the writes. -/
theorem State.mem_notify_causes (hp : s.part = .stopped) (f g : Flag) :
    g ∈ (s.notify f).heldCauses ↔ g = f ∨ g ∈ s.heldCauses := by
  unfold State.notify
  rw [if_pos hp]
  simp only [List.mem_append, List.mem_singleton]
  exact or_comm

/-- ABSENT is raised, or held while STOPPED, where an entry becomes absent. -/
theorem State.countAbsence_flags (s : State) (n : Fin 8) (c : OpenChunk) :
    (s.part ≠ .stopped → (slotFlag .absent n ∈ (s.countAbsence n c.seen).flags ↔
      slotFlag .absent n ∈ s.flags ∨ ∃ i < 4, (s.slot n).becomesAbsent c i)) ∧
    (s.part = .stopped → (slotFlag .absent n ∈ (s.countAbsence n c.seen).heldCauses ↔
      slotFlag .absent n ∈ s.heldCauses ∨ ∃ i < 4, (s.slot n).becomesAbsent c i)) := by
  rw [← Slot.counted_any]
  unfold State.countAbsence
  dsimp only
  change (_ → (_ ∈ (if ((s.slot n).counted c).any Prod.snd = true then _ else _ : State).flags ↔ _)) ∧
    (_ → (_ ∈ (if ((s.slot n).counted c).any Prod.snd = true then _ else _ : State).heldCauses ↔ _))
  split
  next h =>
    refine ⟨fun hr => ?_, fun hp => ?_⟩
    · rw [State.mem_notify_flags (by simpa using hr)]
      simp [h]
    · rw [State.mem_notify_causes (by simpa using hp)]
      simp [h]
  next h => simp [h]

/-- The close of an open chunk takes effect (R77). -/
theorem State.closeTakesEffect_closes (hc : (s.slot n).chunk = some c) :
    s.closesChunk (s.closeTakesEffect n) n (s.slot n) c ((s.closeTakesEffect n).slot n) := by
  unfold State.closeTakesEffect
  simp only [hc]
  generalize hu : (if (s.slot n).lossDue = 0 then _ else _ : State) = u
  have hslot : u.slot n = (s.slot n).chunkClosed c := by
    rw [← hu, Slot.chunkClosed]
    split
    next h0 => simp [h0]
    · simp
  have hflags : u.flags = s.flags ∧ u.heldCauses = s.heldCauses ∧ u.part = s.part := by
    rw [← hu]
    split <;> simp
  clear hu
  obtain ⟨hf, hh, hp⟩ := hflags
  have hmiss : ∀ i, (u.slot n).misses c i ↔ (s.slot n).misses c i := fun i => by rw [hslot]; rfl
  have habs : ∀ i, (u.slot n).becomesAbsent c i ↔ (s.slot n).becomesAbsent c i := fun i => by rw [hslot]; rfl
  have hcount := u.countAbsence_slot n c
  obtain ⟨h1, h2⟩ := u.countAbsence_flags n c
  simp only [habs, hf, hh, hp] at h1 h2
  rw [hcount]
  refine ⟨by rw [hslot], by simp [Slot.counted], fun i hi => ⟨fun hm => ?_, fun hm => ?_⟩, fun hl => ⟨?_, fun i hi => ?_⟩, h1, h2⟩
  · dsimp only
    rw [Slot.counted_absence _ _ hi, Slot.countAbsent_missed ((hmiss i).2 hm), hslot]
    rfl
  · dsimp only
    rw [Slot.counted_absence _ _ hi, Slot.countAbsent_seen fun h => hm ((hmiss i).1 h), hslot]
    rfl
  all_goals
    have hl' : (u.slot n).eng.absent.length = 4 := by rw [hslot]; exact hl
    have habsent : (u.slot n).eng.absent = (s.slot n).eng.absent := by rw [hslot]; rfl
    dsimp only
  · split
    · simp [Slot.counted, hl']
    · exact hl'
  · split
    · rw [Slot.counted_absent _ _ hl' hi, habs, habsent]
    next hany =>
      rw [habsent]
      exact (or_iff_left fun hb => hany ((Slot.counted_any _ _).2 ⟨i, hi, (habs i).2 hb⟩)).symm

theorem State.closeTakesEffect_own (hr : s.part ≠ .stopped) : s.Own (s.closeTakesEffect n) n [slotFlag .absent n] := by
  unfold State.closeTakesEffect
  split
  · exact .refl hr
  next c hc =>
    extract_lets due u v
    have h1 : s.Own u n [] := State.modSlot_own n hr _
    have h2 : s.Own v n [] := by
      by_cases h0 : due = 0
      · simpa only [v, if_pos h0] using h1
      · simp only [v, if_neg h0]
        exact h1.trans (State.setEngine_own n h1.running' _ _ (by simp)) (by simp)
    exact (h2.mono (by simp)).trans (State.countAbsence_own h2.running' _) (by simp)

theorem State.askClose_own (hr : s.part ≠ .stopped) : s.Own (s.askClose n) n [slotFlag .absent n] := by
  unfold State.askClose
  split
  · exact .refl hr
  · split
    · exact .refl hr
    · split
      · exact State.closeTakesEffect_own hr
      · exact (State.modSlot_own n hr _).mono (by simp)

/-- What a close asked does by the state of the open chunk. -/
theorem State.askClose_none (h : (s.slot n).chunk = none) : s.askClose n = s := by
  unfold State.askClose
  rw [h]

theorem State.askClose_asked (h : (s.slot n).chunk = some c) (ha : c.closeAsked = true) : s.askClose n = s := by
  unfold State.askClose
  simp only [h, ha, if_true]

theorem State.askClose_waits (h : (s.slot n).chunk = some c) (ha : c.closeAsked = false) (hb : c.batch ≠ []) :
    s.askClose n = s.modSlot n fun x => { x with chunk := some { c with closeAsked := true }, holdTimer := none } := by
  unfold State.askClose
  simp [h, ha, hb]

theorem State.askClose_takes (h : (s.slot n).chunk = some c) (ha : c.closeAsked = false) (hb : c.batch = []) :
    s.askClose n = s.closeTakesEffect n := by
  unfold State.askClose
  simp [h, ha, hb]

/-- A close asked is as R77 has it. -/
theorem State.askClose_asks (s : State) (n : Fin 8) : s.asksClose (s.askClose n) n (s.slot n) ((s.askClose n).slot n) := by
  refine ⟨fun h => by rw [State.askClose_none h], fun c h ha => by rw [State.askClose_asked h ha], fun c h ha hb => ?_,
    fun c h ha hb => ?_, fun h => ?_⟩
  · rw [State.askClose_waits h ha hb, State.slot_modSlot_self]
  · rw [State.askClose_takes h ha hb]
    exact State.closeTakesEffect_closes h
  · cases hc : (s.slot n).chunk with
    | none => rw [State.askClose_none hc]; exact ⟨.rfl, .rfl⟩
    | some c =>
      cases ha : c.closeAsked with
      | true => rw [State.askClose_asked hc ha]; exact ⟨.rfl, .rfl⟩
      | false =>
        rw [State.askClose_waits hc ha ((h c hc).resolve_left (by simp [ha]))]
        exact ⟨.rfl, .rfl⟩

/-- The relation speaks of the two states by their part state, ABSENT pending and ABSENT held alone. -/
theorem State.asksClose.congr {s u v t : State} {y z : Slot} (h : u.asksClose v n y z) (hp : u.part = s.part)
    (hf : slotFlag .absent n ∈ u.flags ↔ slotFlag .absent n ∈ s.flags) (hh : u.heldCauses = s.heldCauses)
    (hf' : slotFlag .absent n ∈ t.flags ↔ slotFlag .absent n ∈ v.flags) (hh' : t.heldCauses = v.heldCauses) :
    s.asksClose t n y z := by
  obtain ⟨h1, h2, h3, h4, h5⟩ := h
  refine ⟨h1, h2, h3, fun c hc ha hb => ?_, fun hc => ?_⟩
  · obtain ⟨c1, c2, c3, c4, c5, c6⟩ := h4 c hc ha hb
    refine ⟨c1, c2, c3, c4, fun hr => ?_, fun hr => ?_⟩
    · rw [hf', c5 (hp ▸ hr), hf]
    · rw [hh', c6 (hp.trans hr), hh]
  · obtain ⟨f1, f2⟩ := h5 hc
    exact ⟨hf'.trans (f1.trans hf), by rw [hh', f2, hh]⟩

end

end Sys2Proof.Machine
end

