-- ==== Sys2Proof/Proofs/RecordOrders.lean ====
section
/-! Proofs: RULE on a recording: a close is asked and the entry's rule is tightened (R20, R82, R85, R139). -/

namespace Sys2Proof.Machine

/-! ## RULE (R20, R85) -/

section
variable {s t : State} {n : Fin 8} {y z : Slot}

/-- A close asked leaves the slot's state and binding. -/
theorem State.asksClose.boundEntry (h : s.asksClose t n y z) : z.boundEntry = y.boundEntry := by
  obtain ⟨h1, h2, h3, h4, -⟩ := h
  cases hc : y.chunk with
  | none => rw [h1 hc]
  | some c =>
    cases ha : c.closeAsked with
    | true => rw [h2 c hc ha]
    | false =>
      by_cases hb : c.batch = []
      · obtain ⟨hz, -⟩ := h4 c hc ha hb
        rw [hz]
        rfl
      · rw [h3 c hc ha hb]
        rfl

end

section
variable {s : State} {n : Fin 8} {e : Fin 64}

theorem State.lapse_slot (s : State) (e : Fin 64) (m : Fin 8) : (s.lapse e).slot m =
    if m ∈ (s.entry e).boundSlots then { s.slot m with lapseDue := true } else s.slot m := by
  simp only [State.lapse, State.raise_slot, State.markLapse_slot, State.setEntry_slot]

theorem State.lapse_raises (s : State) (e : Fin 64) : partFlag .lapse ∈ (s.lapse e).flags := by
  simp [State.lapse, State.raise]

/-- An entry whose lapse time has been reached lapses as it is derived. -/
theorem State.derive_reached {c : Nat} (h : (s.entry e).deriveLapse = some c) (hc : c ≤ s.clock) :
    s.derive e = (s.modEntry e fun x => { x with lapseTime := x.deriveLapse }).lapse e := by
  unfold State.derive State.judge
  rw [if_pos]
  unfold State.lapseReached
  rw [State.entry_modEntry_self]
  dsimp only
  rw [h, Bool.and_eq_true]
  exact ⟨Entry.judged_of_deriveLapse h, decide_eq_true hc⟩

/-- A LIVE entry that takes a rule. -/
def Entry.ruled (x : Entry) (rule : Rule) : Entry :=
  { x with
    pendingRule := some rule.classHold, expiry := optMin x.expiry rule.expiry, views := optMin x.views rule.views }

/-- The rule's expiry brings the entry's lapse. -/
def Entry.ruleLapses (x : Entry) (rule : Rule) (clock : Nat) : Prop :=
  optMin x.expiry rule.expiry ≠ x.expiry ∧ ∃ c, optMin x.expiry rule.expiry = some c ∧ c ≤ clock

/-- The table side of a RULE: the entry takes the rule, and a changed expiry has the lapse time derived. -/
def State.tightened (s : State) (e : Fin 64) (rule : Rule) : State :=
  let v := s.modEntry e fun x => x.tighten rule
  if (v.entry e).expiry = (s.entry e).expiry then v else v.derive e

theorem State.tightened_same {rule : Rule} (h : optMin (s.entry e).expiry rule.expiry = (s.entry e).expiry) :
    s.tightened e rule = s.modEntry e fun x => x.ruled rule := by
  unfold State.tightened
  dsimp only
  rw [State.entry_modEntry_self]
  exact if_pos h

theorem State.tightened_changed {rule : Rule} (h : optMin (s.entry e).expiry rule.expiry ≠ (s.entry e).expiry) :
    s.tightened e rule = (s.modEntry e fun x => x.ruled rule).derive e := by
  unfold State.tightened
  dsimp only
  rw [State.entry_modEntry_self]
  exact if_neg h

/-- The lapse time of a LIVE entry that takes a rule is its expiry. -/
theorem Entry.ruled_deriveLapse {x : Entry} (hl : x.state = .live) (rule : Rule) :
    (x.ruled rule).deriveLapse = optMin x.expiry rule.expiry := by
  unfold Entry.deriveLapse
  rw [show (x.ruled rule).state = .live from hl]
  rfl

/-- The rule is on the entry, and a lapse on its slots and LAPSE. -/
theorem State.tightened_rest (hr : s.part ≠ .stopped) (n : Fin 8) (rule : Rule) :
    let u := s.tightened e rule
    s.sameEntriesBut u e ∧ u.waiting = s.waiting ∧ u.flight = s.flight ∧ s.Frame u n [partFlag .lapse] := by
  have hframe : s.Frame (s.modEntry e fun x => x.ruled rule) n [] := State.modEntry_frame n e hr _
  have hother : s.sameEntriesBut (s.modEntry e fun x => x.ruled rule) e := fun d hd => by
    rw [State.entry_modEntry, if_neg hd]
  by_cases hsame : optMin (s.entry e).expiry rule.expiry = (s.entry e).expiry
  · rw [State.tightened_same hsame]
    exact ⟨hother, rfl, rfl, hframe.mono (by simp)⟩
  · rw [State.tightened_changed hsame]
    refine ⟨fun d hd => ?_, ?_, ?_, (hframe.mono (by simp)).trans (State.derive_frame n e hframe.running') (by simp)⟩
    · rw [State.derive_entry, if_neg hd]
      exact hother d hd
    · rw [State.derive_eq]
      rfl
    · rw [State.derive_eq]
      rfl

/-- A rule that does not bring the entry's lapse. -/
theorem State.tightened_keeps (hl : (s.entry e).state = .live) {rule : Rule}
    (hlapse : ¬ (s.entry e).ruleLapses rule s.clock) :
    let y := s.entry e
    let u := s.tightened e rule
    u.entry e = { y.ruled rule with
        lapseTime := if optMin y.expiry rule.expiry = y.expiry then y.lapseTime else optMin y.expiry rule.expiry } ∧
      ∀ m, u.slot m = s.slot m := by
  have hself : (s.modEntry e fun x => x.ruled rule).entry e = (s.entry e).ruled rule := State.entry_modEntry_self ..
  dsimp only
  by_cases hsame : optMin (s.entry e).expiry rule.expiry = (s.entry e).expiry
  · rw [State.tightened_same hsame, hself, if_pos hsame]
    exact ⟨rfl, fun _ => rfl⟩
  · have hderive := Entry.ruled_deriveLapse hl rule
    rw [State.tightened_changed hsame, State.derive_ahead fun t ht => ?_]
    · refine ⟨?_, fun _ => rfl⟩
      rw [State.entry_modEntry_self, hself, hderive, if_neg hsame]
    · rw [hself, hderive] at ht
      exact not_le.1 fun h => hlapse ⟨hsame, t, ht, h⟩

/-- A rule that brings it. -/
theorem State.tightened_lapses (hl : (s.entry e).state = .live) (hb : (s.entry e).binding = some n) {rule : Rule}
    (hlapse : (s.entry e).ruleLapses rule s.clock) :
    let u := s.tightened e rule
    u.entry e = ((s.entry e).ruled rule).spent .lapsed ∧ u.slot n = { s.slot n with lapseDue := true } ∧
      s.playersMarked u n e ∧ partFlag .lapse ∈ u.flags := by
  have hself : (s.modEntry e fun x => x.ruled rule).entry e = (s.entry e).ruled rule := State.entry_modEntry_self ..
  obtain ⟨hchanged, c, hc, hle⟩ := hlapse
  have hdef : s.tightened e rule =
      ((s.modEntry e fun x => x.ruled rule).modEntry e fun x => { x with lapseTime := x.deriveLapse }).lapse e := by
    rw [State.tightened_changed hchanged]
    exact State.derive_reached (by rw [hself, Entry.ruled_deriveLapse hl]; exact hc) hle
  have hslot : ∀ m, (s.tightened e rule).slot m =
      if m ∈ (s.entry e).boundSlots then { s.slot m with lapseDue := true } else s.slot m := fun m => by
    rw [hdef, State.lapse_slot, State.entry_modEntry_self, hself]
    rfl
  have hent : (s.tightened e rule).entry e = ((s.entry e).ruled rule).spent .lapsed := by
    rw [hdef, State.lapse_entry, if_pos rfl, State.entry_modEntry_self, hself]
    rfl
  refine ⟨hent, ?_, fun m hm => ?_, ?_⟩
  · rw [hslot, if_pos (by simp [Entry.boundSlots, hb])]
  · have hg : (s.entry e).gone = false := Entry.gone_of_judged ((Entry.judged_iff _).2 (.inl hl))
    have hmem : m ∈ (s.entry e).boundSlots ↔ m ∈ (s.entry e).players := by simp [Entry.boundSlots, hb, hm]
    rw [hslot, hent, hg]
    by_cases hp : m ∈ (s.entry e).players
    · rw [if_pos (hmem.2 hp)]
      simp [hp, Entry.gone, Entry.spent]
    · rw [if_neg fun h => hp (hmem.1 h)]
      simp [hp]
  · rw [hdef]
    exact State.lapse_raises ..

end

/-- RULE on a LIVE entry: a close is asked, then the table takes the rule. -/
theorem State.applyRule_live {s : State} {n : Fin 8} {e : Fin 64} (hb : ((s.askClose n).slot n).boundEntry = some e)
    (hl : ((s.askClose n).entry e).state = .live) : s.applyRule n =
      (s.askClose n).tightened e (s.ruleFields n) := by
  unfold State.applyRule
  dsimp only
  rw [hb]
  exact if_pos hl

theorem slotFlag_ne {c d : Cause} (h : c ≠ d) (n : Fin 8) : slotFlag c n ≠ slotFlag d n :=
  fun he => h (congrArg Flag.cause he)

theorem slotFlag_ne_partFlag (c d : Cause) (n : Fin 8) : slotFlag c n ≠ partFlag d := fun he => by
  have h1 := congrArg (fun f : Flag => f.source.val) he
  have h2 := n.isLt
  simp only [slotFlag, partFlag] at h1
  omega

/-- RULE on a recording in its course. -/
theorem rule_done {s : State} {w : Writes} {n : Fin 8} {number : Mark} {e : Fin 64} (h : s.atOrder w n number .rule)
    (hm : (s.slot n).mode = .record)
    (hst : (s.slot n).eng.state = .opening ∨ (s.slot n).eng.state = .running ∨ (s.slot n).eng.state = .stalled)
    (hb : (s.slot n).boundEntry = some e) (hl : (s.entry e).state = .live) (hbind : (s.entry e).binding = some n) :
    let y := s.entry e
    let rule := (s.recorded w).ruleFields n
    ∃ t z, exec (.rule w) s = .next t ∧ s.asksClose t n ((s.slot n).answered number .done) z ∧
      (¬ y.ruleLapses rule s.clock →
        t.entry e = { y.ruled rule with
            lapseTime := if optMin y.expiry rule.expiry = y.expiry then y.lapseTime else optMin y.expiry rule.expiry } ∧
          t.slot n = z ∧ s.sameSlotsBut t n) ∧
      (y.ruleLapses rule s.clock →
        t.entry e = (y.ruled rule).spent .lapsed ∧ t.slot n = { z with lapseDue := true } ∧
          s.playersMarked t n e ∧ partFlag .lapse ∈ t.flags) ∧
      s.sameEntriesBut t e ∧ slotFlag .result n ∈ t.flags ∧ t.waiting = s.waiting ∧ t.flight = s.flight ∧
      s.flagsBut t [slotFlag .result n, slotFlag .absent n, partFlag .lapse] ∧ (s.recorded w).orderFrame t n := by
  dsimp only
  have hdone : (s.recorded w).answerRule n number (fun s => s.applyRule n) =
      ((s.recorded w).answer n number .done).applyRule n :=
    State.answerRule_done (s := s.recorded w) (Slot.ruleAnswer_done hm hst)
  obtain ⟨hslot, hown, hflag⟩ := State.answer_all h.running n number (r := .done) nofun
  generalize (s.recorded w).answer n number .done = v at hslot hown hflag hdone
  have hask := v.askClose_asks n
  have ha := State.askClose_own (n := n) hown.running'
  have hentry : ∀ d, (v.askClose n).entry d = s.entry d := fun d => (ha.entry d).trans (hown.entry d)
  have hlapply := State.applyRule_live (s := v) (n := n) (e := e)
    (by rw [hask.boundEntry, hslot]; exact hb) (by rw [hentry]; exact hl)
  have hkeeps := State.tightened_keeps (s := v.askClose n) (e := e) (rule := v.ruleFields n) (by rw [hentry]; exact hl)
  have hlapses := State.tightened_lapses (s := v.askClose n) (n := n) (e := e) (rule := v.ruleFields n)
    (by rw [hentry]; exact hl) (by rw [hentry]; exact hbind)
  have hrest := State.tightened_rest (s := v.askClose n) (e := e) ha.running' n (v.ruleFields n)
  rw [hslot] at hask
  have hnext := h.take (row := fun k _ _ => k == .rule)
    (effect := fun s n number => s.answerRule n number fun s => s.applyRule n) rfl
  rw [hdone, hlapply] at hnext
  dsimp only at hkeeps hlapses hrest
  rw [hown.ruleFields] at hkeeps hlapses hrest hnext
  generalize v.askClose n = a at hask ha hentry hkeeps hlapses hrest hnext
  generalize a.tightened e ((s.recorded w).ruleFields n) = u at hkeeps hlapses hrest hnext
  clear hdone hlapply
  rw [hentry, ha.clock.trans hown.clock] at hkeeps hlapses
  obtain ⟨t3, t4, t5, t6⟩ := hrest
  have hsa : (s.recorded w).Frame a n [slotFlag .result n, slotFlag .absent n, partFlag .lapse] :=
    (hown.toFrame.mono (by simp)).trans ha.toFrame (by simp)
  have hall := hsa.trans t6 (by simp)
  have hslots : s.sameSlotsBut a n := fun m hm => (ha.slots m hm).trans (hown.slots m hm)
  refine ⟨_, a.slot n, hnext, ?_, fun hlap => ?_, fun hlap => ?_, fun d hd => (t3 d hd).trans (hentry d), ?_,
    t4.trans (ha.waiting.trans hown.waiting), t5.trans (ha.flight.trans hown.flight), hall.flags, hall.orderFrame⟩
  · refine hask.congr hown.part (hown.flags _ ?_) hown.causes (t6.flags _ ?_) t6.causes
    · simp [slotFlag_ne]
    · simp [slotFlag_ne_partFlag]
  · obtain ⟨e1, e2⟩ := hkeeps hlap
    exact ⟨e1, e2 n, fun m hm => (e2 m).trans (hslots m hm)⟩
  · obtain ⟨e1, e2, e3, e4⟩ := hlapses hlap
    refine ⟨e1, e2, fun m hm => ?_, e4⟩
    have h1 := e3 m hm
    rw [hslots m hm, hentry] at h1
    exact h1
  · exact t6.raised _ (ha.raised _ hflag)

/-- Settles O23: RULE by what the slot answers. -/
theorem ruleTightens : Obligations.RuleTightens := by
  intro s w n number e h
  refine ⟨fun hm hst hb hl hbind _ => rule_done h hm hst hb hl hbind, fun hx => ?_⟩
  refine h.answers rfl fun u hu => ?_
  rw [State.answerRule_refused (s := s.recorded w) hx] at hu
  subst hu
  obtain ⟨a1, a2, a3, -, -, -, -, a8⟩ := answeredAlone (s := s) h.running number
    (r := if (s.slot n).mode = .record ∧ (s.slot n).eng.state = .closing then .busy else .wrongState)
    (by split <;> nofun)
  exact ⟨a1, a2, a3, a8⟩

end Sys2Proof.Machine
end

