-- ==== Sys2Proof/Proofs/Leaving.lean ====
section
/-! Proofs: a slot leaves its entry: the release, the end that the entry comes to, and the marks it leaves on the slots that
still play it (R4, R5, R83, R84, R120, R122, R123, R160, R161). -/

namespace Sys2Proof.Machine

/-- From `s` to `t` slot `n` has left entry `e`: the slot stands as `z` and the entry as `y`, off the waiting list, its batch
orphaned; the flags `fs` may have been raised, and the players of the entry marked. -/
structure State.Leaves (s t : State) (n : Fin 8) (e : Fin 64) (z : Slot) (y : Entry) (fs : List Flag) : Prop where
  slot : t.slot n = z
  entry : t.entry e = y
  others : s.sameEntriesBut t e
  players : s.playersMarked t n e
  waiting : t.waiting = s.waiting.filter (· ≠ n)
  flight : t.flight = s.orphaned n
  frame : s.Frame t n fs

section
variable {s t u : State} {n : Fin 8} {e : Fin 64} {z : Slot} {y : Entry} {fs gs : List Flag}

/-- Whether the entry is played counts the slots that are left to it. -/
theorem State.playBound_eq_playingOn (h : s.sameSlotsBut u n) (he : u.entry e = y) (hn : n ∉ y.players) :
    u.playBound e = s.playingOn y := by
  unfold State.playBound State.playingOn
  rw [he, Bool.eq_iff_iff, List.any_eq_true, List.any_eq_true]
  refine exists_congr fun m => and_congr_right fun hm => ?_
  rw [h m fun hmn => hn (hmn ▸ hm)]

theorem Entry.gone_unbind (x : Entry) (n : Fin 8) : (x.unbind n).gone = x.gone := rfl

namespace State.Leaves

/-- The release of a slot to IDLE. -/
theorem toIdle (hr : s.part ≠ .stopped) (hb : (s.slot n).boundEntry = some e) :
    s.Leaves (s.toIdle n) n e (s.slot n).toIdle ((s.entry e).unbind n) fs where
  slot := by simp
  entry := by simp [hb]
  others d hd := by simp [hb, Ne.symm hd]
  players m hm := by
    have hg : ((s.toIdle n).entry e).gone = (s.entry e).gone := by simp [hb, Entry.gone_unbind]
    rw [hg, Bool.and_not_self]
    simp [hm]
  waiting := by simp
  flight := by rw [State.toIdle_flight]; rfl
  frame := (State.toIdle_frame n hr).mono (by simp)

/-- The release of a slot to FAULTED. -/
theorem toFaulted (hr : s.part ≠ .stopped) (hb : (s.slot n).boundEntry = some e) (f : SlotFault) :
    s.Leaves (s.toFaulted n f) n e ((s.slot n).toFaulted ((s.slot n).faultCode f)) ((s.entry e).unbind n)
      [slotFlag .fault n] where
  slot := by simp
  entry := by simp [hb]
  others d hd := by simp [hb, Ne.symm hd]
  players m hm := by
    have hg : ((s.toFaulted n f).entry e).gone = (s.entry e).gone := by simp [hb, Entry.gone_unbind]
    rw [hg, Bool.and_not_self]
    simp [hm]
  waiting := by simp [State.toFaulted]
  flight := by simp [State.toFaulted]; rfl
  frame := State.toFaulted_frame n hr f

/-- An operation on the entry alone that marks its players, with the entry without the slot. -/
theorem then_marks (h : s.Leaves u n e z ((s.entry e).unbind n) fs) (hm : u.Marks t e)
    (he : ∀ d, t.entry d = if d = e then y else u.entry d) (hw : t.waiting = u.waiting) (hf : t.flight = u.flight)
    (hfr : u.Frame t n gs) (hg : gs ⊆ fs) : s.Leaves t n e z y fs where
  slot := (hm.slot_unbound (by rw [h.entry]; exact Entry.not_mem_unbind _ _)).trans h.slot
  entry := (he e).trans (if_pos rfl)
  others d hd := ((he d).trans (if_neg hd)).trans (h.others d hd)
  players := hm.playersMarked (fun m hmn => by
    rw [h.players m hmn, h.entry, Entry.gone_unbind, Bool.and_not_self]
    simp) h.entry
  waiting := hw.trans h.waiting
  flight := hf.trans h.flight
  frame := h.frame.trans hfr hg

/-- What follows on the slot alone. -/
theorem then_own (h : s.Leaves u n e z y fs) (ho : u.Own t n gs) (hg : gs ⊆ fs) : s.Leaves t n e (t.slot n) y fs where
  slot := rfl
  entry := (ho.entry e).trans h.entry
  others d hd := (ho.entry d).trans (h.others d hd)
  players m hm := by rw [ho.slots m hm, ho.entry e]; exact h.players m hm
  waiting := ho.waiting.trans h.waiting
  flight := ho.flight.trans h.flight
  frame := h.frame.trans ho.toFrame hg

/-- What went before on the slot alone. -/
theorem of_own (ho : s.Own u n gs) (h : u.Leaves t n e z y fs) (hg : gs ⊆ fs) : s.Leaves t n e z y fs where
  slot := h.slot
  entry := h.entry
  others d hd := (h.others d hd).trans (ho.entry d)
  players m hm := by rw [h.players m hm, ho.slots m hm, ho.entry e]
  waiting := by rw [h.waiting, ho.waiting]
  flight := by rw [h.flight, State.orphaned, State.orphaned, ho.flight]
  frame := (ho.toFrame.mono hg).trans h.frame (by simp)

theorem mono (h : s.Leaves t n e z y gs) (hg : gs ⊆ fs) : s.Leaves t n e z y fs := { h with frame := h.frame.mono hg }

end State.Leaves
end

/-! ## What becomes of the entry that a slot leaves (R4, R122, R161) -/

/-- What the mode of a slot that leaves entry `e` does to the entry. -/
def State.ending (s : State) (m : Mode) (e : Fin 64) : State :=
  if m = .record then s.endRecording e false
  else if m = .play then s.judgeLastView e
  else if m = .move then s.endMove e
  else s

section
variable {s t u : State} {n : Fin 8} {e : Fin 64} {x z : Slot} {y : Entry} {fs gs : List Flag}

theorem State.ending_frame (hr : s.part ≠ .stopped) (m : Mode) : s.Frame (s.ending m e) n [partFlag .lapse] := by
  unfold State.ending
  split
  · exact State.endRecording_frame n e hr false
  · split
    · exact State.judgeLastView_frame n e hr
    · split
      · exact State.endMove_frame n e hr
      · exact .refl hr

/-- The entry leaves the slot with no binding wherever the mode's end acts on it. -/
theorem State.bindsTo.unbound (hb : s.bindsTo n e) (hj : (s.entry e).state = .held ∨
    (s.slot n).mode = .record ∧ (s.entry e).state = .live ∨ (s.slot n).mode = .move ∧ (s.entry e).state = .moving) :
    ((s.entry e).unbind n).binding = none := by
  obtain ⟨-, -, hrec, hmove, hheld⟩ := hb
  refine Entry.unbind_binding ?_
  rcases hj with h | ⟨hm, h⟩ | ⟨hm, h⟩
  · exact .inr (hheld h)
  · exact .inl (hrec hm h)
  · exact .inl (hmove hm h)

theorem State.Leaves.sameSlots (h : s.Leaves u n e z ((s.entry e).unbind n) fs) : s.sameSlotsBut u n := fun m hm => by
  rw [h.players m hm, h.entry, Entry.gone_unbind, Bool.and_not_self]
  simp

/-- A slot that has left its entry, followed by what its mode does to the entry. -/
theorem State.Leaves.ending (h : s.Leaves u n e z ((s.entry e).unbind n) fs) (hb : s.bindsTo n e)
    (hm : x.mode = (s.slot n).mode) (hg : partFlag .lapse ∈ fs) :
    s.Leaves (u.ending (s.slot n).mode e) n e z (s.leftBy x ((s.entry e).unbind n)) fs := by
  have hplay : u.playBound e = s.playingOn ((s.entry e).unbind n) :=
    State.playBound_eq_playingOn h.sameSlots h.entry (Entry.not_mem_unbind _ _)
  have hr := h.frame.running'
  have hsub : [partFlag .lapse] ⊆ fs := by simpa using hg
  unfold State.ending State.leftBy
  rw [hm]
  split
  next hrec =>
    refine h.then_marks ?_ (fun d => ?_) (by rw [State.endRecording_eq]) (by rw [State.endRecording_eq])
      (State.endRecording_frame n e hr false) hsub
    · by_cases hl : (u.entry e).state = .live
      · refine State.endRecording_marks ?_ false
        rw [h.entry] at hl ⊢
        exact hb.unbound (.inr (.inl ⟨hrec, hl⟩))
      · unfold State.endRecording
        rw [if_neg hl]
        exact .of_slots (fun _ => rfl) rfl
    · rw [State.endRecording_entry, h.entry, h.frame.clock, hplay]
  · split
    next hp =>
      refine h.then_marks ?_ (fun d => ?_) (by rw [State.judgeLastView_eq]) (by rw [State.judgeLastView_eq])
        (State.judgeLastView_frame n e hr) hsub
      · by_cases hl : (u.entry e).state = .held
        · refine (State.judgeLastView_marks u e).unbound ?_
          rw [h.entry] at hl ⊢
          exact hb.unbound (.inl hl)
        · unfold State.judgeLastView
          rw [if_neg (by simp [hl])]
          exact .of_slots (fun _ => rfl) rfl
      · rw [State.judgeLastView_entry, h.entry, hplay]
    · split
      next hmv =>
        refine h.then_marks ?_ (fun d => ?_) (by rw [State.endMove_eq]) (by rw [State.endMove_eq])
          (State.endMove_frame n e hr) hsub
        · by_cases hl : (u.entry e).state = .moving
          · refine (State.endMove_marks u e).unbound ?_
            rw [h.entry] at hl ⊢
            exact hb.unbound (.inr (.inr ⟨hmv, hl⟩))
          · unfold State.endMove
            rw [if_neg hl]
            exact .of_slots (fun _ => rfl) rfl
        · rw [State.endMove_entry, h.entry, h.frame.clock, hplay]
      · exact h

/-- Another state with the same slot, as far as its binding and mode go, stands on the entry too. -/
theorem State.bindsTo.congr (h : s.bindsTo n e) (hp : u.part = s.part) (hm : (u.slot n).mode = (s.slot n).mode)
    (hb : (u.slot n).boundEntry = (s.slot n).boundEntry) (he : u.entry e = s.entry e) : u.bindsTo n e := by
  unfold State.bindsTo at h ⊢
  dsimp only at h ⊢
  rwa [hp, hm, hb, he]

/-- The entry that is left comes to the same after what went on on the slot alone. -/
theorem State.Own.leftBy (h : s.Own u n fs) (x : Slot) (e : Fin 64) :
    u.leftBy x ((u.entry e).unbind n) = s.leftBy x ((s.entry e).unbind n) := by
  have hplay : u.playingOn ((s.entry e).unbind n) = s.playingOn ((s.entry e).unbind n) := by
    unfold State.playingOn
    rw [Bool.eq_iff_iff, List.any_eq_true, List.any_eq_true]
    refine exists_congr fun m => and_congr_right fun hm => ?_
    rw [h.slots m fun hmn => Entry.not_mem_unbind _ _ (hmn ▸ hm)]
  unfold State.leftBy
  rw [h.entry, h.clock, hplay]

/-- A slot that returns to IDLE after what went on on it alone, and what becomes of its entry. -/
theorem State.Own.toIdle_ending (ho : s.Own u n fs) (hb : s.bindsTo n e) (hu : (u.slot n).boundEntry = some e)
    (hm : x.mode = (s.slot n).mode) (hg : partFlag .lapse ∈ fs) :
    s.Leaves ((u.toIdle n).ending (s.slot n).mode e) n e (u.slot n).toIdle (s.leftBy x ((s.entry e).unbind n)) fs := by
  have h := State.Leaves.toIdle (fs := fs) ho.running' hu
  rw [ho.entry] at h
  exact (State.Leaves.of_own ho h (by simp)).ending hb hm hg

/-- A slot that faults after what went on on it alone, and what becomes of its entry. -/
theorem State.Own.toFaulted_ending (ho : s.Own u n fs) (hb : s.bindsTo n e) (hu : (u.slot n).boundEntry = some e)
    (hm : x.mode = (s.slot n).mode) (f : SlotFault) (hg : partFlag .lapse ∈ fs) (hf : slotFlag .fault n ∈ fs) :
    s.Leaves ((u.toFaulted n f).ending (s.slot n).mode e) n e ((u.slot n).toFaulted ((u.slot n).faultCode f))
      (s.leftBy x ((s.entry e).unbind n)) fs := by
  have h := State.Leaves.toFaulted ho.running' hu f
  rw [ho.entry] at h
  exact (State.Leaves.of_own ho (h.mono (by simpa using hf)) (by simp)).ending hb hm hg

/-- A slot that returns to IDLE with its CLOSE served and PROGRESS noted, after what went on on the slot alone (R83, R120,
R160). -/
theorem State.Own.closes (ho : s.Own u n fs) (hb : s.bindsTo n e) (hu : (u.slot n).boundEntry = some e)
    (hx : x.mode = (s.slot n).mode) (hg : [slotFlag .progress n, slotFlag .result n, partFlag .lapse] ⊆ fs) :
    let t := (((u.toIdle n).ending (s.slot n).mode e).completeOrder n (u.slot n).closeServed).notify (slotFlag .progress n)
    s.Leaves t n e ((u.slot n).toIdle.served (u.slot n).closeServed) (s.leftBy x ((s.entry e).unbind n)) fs ∧
      (∀ f ∈ u.flags, f ∈ t.flags) ∧ slotFlag .progress n ∈ t.flags ∧
      ((u.slot n).closeServed = some (u.slot n).latch → slotFlag .result n ∈ t.flags) := by
  have h := ho.toIdle_ending hb hu hx (hg (by simp))
  have hidle := State.toIdle_frame n ho.running'
  have hraised : ∀ f ∈ u.flags, f ∈ ((u.toIdle n).ending (s.slot n).mode e).flags := fun f hf =>
    (State.ending_frame (n := n) hidle.running' _).raised _ (hidle.raised _ hf)
  dsimp only
  generalize (u.toIdle n).ending (s.slot n).mode e = v at h hraised
  have h1 := State.completeOrder_own n h.frame.running' (u.slot n).closeServed
  have h2 := State.notify_own n h1.running' (slotFlag .progress n)
  have hslot : ((v.completeOrder n (u.slot n).closeServed).notify (slotFlag .progress n)).slot n =
      (u.slot n).toIdle.served (u.slot n).closeServed := by
    rw [State.notify_slot, State.completeOrder_slot, h.slot]
  refine ⟨?_, fun f hf => h2.raised _ (h1.raised _ (hraised f hf)), ?_, fun hc => ?_⟩
  · have h3 := (h.then_own h1 fun f hf => hg (by simp at hf; simp [hf])).then_own h2 fun f hf => hg (by simp at hf; simp [hf])
    rwa [hslot] at h3
  · rw [State.mem_notify_flags h1.running']
    exact .inl rfl
  · refine h2.raised _ (State.completeOrder_raises n h.frame.running' ?_)
    rw [h.slot]
    exact hc

/-- A recording ends as at the completion of a CLOSE (R83), after what went on on the slot alone. -/
theorem State.Own.finishRecording (ho : s.Own u n fs) (hb : s.bindsTo n e) (hu : (u.slot n).boundEntry = some e)
    (hm : (s.slot n).mode = .record) (hx : x.mode = .record)
    (hg : [slotFlag .progress n, slotFlag .result n, partFlag .lapse] ⊆ fs) :
    s.Leaves (u.finishRecording n) n e ((u.slot n).toIdle.served (u.slot n).closeServed)
        (s.leftBy x ((s.entry e).unbind n)) fs ∧
      (∀ f ∈ u.flags, f ∈ (u.finishRecording n).flags) ∧ slotFlag .progress n ∈ (u.finishRecording n).flags ∧
      ((u.slot n).closeServed = some (u.slot n).latch → slotFlag .result n ∈ (u.finishRecording n).flags) := by
  have hdef : u.finishRecording n =
      (((u.toIdle n).ending (s.slot n).mode e).completeOrder n (u.slot n).closeServed).notify (slotFlag .progress n) := by
    unfold State.finishRecording State.ending
    simp only [hu, hm, if_true]
  rw [hdef]
  exact ho.closes hb hu (hx.trans hm.symm) hg

/-- What a recording's end comes to, as the rules say it. -/
theorem State.Leaves.endsByClose (h : s.Leaves t n e (x.toIdle.served x.closeServed) (s.leftBy x ((s.entry e).unbind n))
      [slotFlag .progress n, slotFlag .result n, partFlag .lapse])
    (hp : slotFlag .progress n ∈ t.flags) (hres : x.closeServed = some x.latch → slotFlag .result n ∈ t.flags) :
    s.endsByClose t n e x := ⟨h.slot, h.entry, h.others, h.players, hp, hres, h.frame.flags⟩

end

end Sys2Proof.Machine
end

