-- ==== Sys2Proof/Proofs/RecordEnds.lean ====
section
/-! Proofs: CLOSE and ABORT of a recording (R82 to R84). -/

namespace Sys2Proof.Machine

/-! ## CLOSE (R83) -/

section
variable {s : State} {n : Fin 8}

/-- The CLOSE served by a slot whose result is DONE already changes nothing. -/
theorem Slot.served_done {x : Slot} (h : x.eng.result = .done) (k : Option Mark) : x.served k = x := by
  unfold Slot.served
  split
  · rw [← h]
  · rfl

/-- A recording in its course whose CLOSE is being served. -/
def Slot.closeTaken (x : Slot) (number : Mark) : Slot :=
  { x.answered number .none with
    closeServed := some number, holdTimer := none
    eng := { (x.answered number .none).eng with state := .closing } }

/-- The taking of a CLOSE that is to be served. -/
def State.serveClose (s : State) (n : Fin 8) (number : Mark) : State :=
  ((s.answer n number .none).modSlot n fun y => { y with closeServed := some number, holdTimer := none }).setSlotState n
    .closing

theorem State.serveClose_all (hr : s.part ≠ .stopped) (n : Fin 8) (number : Mark)
    (hst : (s.slot n).eng.state ≠ .closing) :
    let t := s.serveClose n number
    t.slot n = (s.slot n).closeTaken number ∧ s.Own t n [] ∧ t.flags = s.flags := by
  have h1 := State.answer_none_own n hr number
  have h2 := h1.trans (State.modSlot_own n h1.running' fun y => { y with closeServed := some number, holdTimer := none })
    (by simp)
  refine ⟨?_, h2.trans (State.setSlotState_own n h2.running' .closing) (by simp), ?_⟩
  · unfold State.serveClose State.setSlotState
    rw [State.slot_modSlot_self, if_neg (by simpa [Slot.answered] using hst)]
    simp [Slot.closeTaken]
  · unfold State.serveClose
    have h3 := State.answer_none_flags n hr number
    unfold State.setSlotState
    split <;> simpa using h3

theorem State.settleClosing_none (h : ¬ ((s.slot n).eng.state = .closing ∧ (s.slot n).take = none ∧ (s.slot n).carry = [])) :
    s.settleClosing n = s := if_neg h

/-- A CLOSING slot with nothing to place ends its recording where no chunk is open. -/
theorem State.settleClosing_finishes (hs : (s.slot n).eng.state = .closing) (ht : (s.slot n).take = none)
    (hc : (s.slot n).carry = []) (hk : (s.slot n).chunk = none) : s.settleClosing n = s.finishRecording n := by
  unfold State.settleClosing
  simp only [hs, ht, hc, hk, and_self, if_true]

/-- With a chunk open its close is asked once no batch is formed. -/
theorem State.settleClosing_asks {c : OpenChunk} (hs : (s.slot n).eng.state = .closing) (ht : (s.slot n).take = none)
    (hc : (s.slot n).carry = []) (hk : (s.slot n).chunk = some c) :
    s.settleClosing n = if c.batch = [] then s.askClose n else s := by
  unfold State.settleClosing
  simp only [hs, ht, hc, hk, and_self, if_true, List.isEmpty_iff]

theorem State.closeRecord_idle (h : (s.slot n).eng.state = .idle) (number : Mark) :
    s.closeRecord n number = s.answer n number .wrongState := by
  unfold State.closeRecord
  simp only [h]

theorem State.closeRecord_closing (h : (s.slot n).eng.state = .closing) (number : Mark) :
    s.closeRecord n number = s.answer n number .busy := by
  unfold State.closeRecord
  simp only [h]

/-- The recording has taken nothing that is still to be sealed. -/
def Slot.nothingToSeal (x : Slot) : Prop :=
  x.eng.state = .opening ∨ x.eng.state = .running ∧ x.chunk = none ∧ x.carry = [] ∧ x.take = none

theorem State.closeRecord_finishes (h : (s.slot n).nothingToSeal) (number : Mark) :
    s.closeRecord n number = (s.answer n number .done).finishRecording n := by
  unfold State.closeRecord
  dsimp only
  split
  next hi => rcases h with h | ⟨h, -⟩ <;> rw [hi] at h <;> cases h
  next hi => rcases h with h | ⟨h, -⟩ <;> rw [hi] at h <;> cases h
  · exact if_pos h

theorem State.closeRecord_serves (h : ¬ (s.slot n).nothingToSeal)
    (hst : (s.slot n).eng.state = .running ∨ (s.slot n).eng.state = .stalled) (number : Mark) :
    s.closeRecord n number = (s.serveClose n number).settleClosing n := by
  unfold State.closeRecord
  dsimp only
  split
  next hi => rcases hst with h | h <;> rw [hi] at h <;> cases h
  next hi => rcases hst with h | h <;> rw [hi] at h <;> cases h
  · exact if_neg h

end

theorem Slot.answeredBy_record {x : Slot} (h : x.mode = .record) (hf : x.eng.state ≠ .faulted) :
    x.answeredBy [.record] = true := by simp [Slot.answeredBy, h, hf]

/-- A recording whose entry is LIVE under it stands on the entry. -/
theorem State.bindsTo.of_live {s : State} {n : Fin 8} {e : Fin 64} (hr : s.part ≠ .stopped) (hm : (s.slot n).mode = .record)
    (hb : (s.slot n).boundEntry = some e) (hl : (s.entry e).state = .live) (hbind : (s.entry e).binding = some n) :
    s.bindsTo n e :=
  ⟨hr, hb, fun _ _ => hbind, fun h => (nomatch hm.symm.trans h), fun h => (nomatch hl.symm.trans h)⟩

/-- What the entry of a recording comes to. -/
theorem State.leftBy_record {x : Slot} (h : x.mode = .record) (s : State) (y : Entry) :
    s.leftBy x y = y.recordingEnded false s.clock (s.playingOn y) := if_pos h

/-- CLOSE with nothing to seal. -/
theorem close_finishes {s : State} {w : Writes} {n : Fin 8} {number : Mark} {e : Fin 64} (h : s.atOrder w n number .close)
    (hm : (s.slot n).mode = .record) (hb : (s.slot n).boundEntry = some e) (hl : (s.entry e).state = .live)
    (hbind : (s.entry e).binding = some n) (hst : (s.slot n).nothingToSeal) :
    let y := (s.entry e).unbind n
    ∃ t, exec (.recordClose w) s = .next t ∧ t.slot n = ((s.slot n).answered number .done).toIdle ∧
      t.entry e = y.recordingEnded false s.clock (s.playingOn y) ∧ s.sameEntriesBut t e ∧ s.playersMarked t n e ∧
      t.waiting = s.waiting.filter (· ≠ n) ∧ slotFlag .result n ∈ t.flags ∧ slotFlag .progress n ∈ t.flags ∧
      s.flagsBut t [slotFlag .result n, slotFlag .progress n, partFlag .lapse] ∧ (s.recorded w).orderFrame t n := by
  intro y
  have hfault : (s.slot n).eng.state ≠ .faulted := by rcases hst with h | ⟨h, -⟩ <;> rw [h] <;> nofun
  refine h.answers (row := fun k _ x => k == .close && x.answeredBy [.record])
    (by simp [Slot.answeredBy_record hm hfault]) fun u hu => ?_
  rw [State.closeRecord_finishes (s := s.recorded w) hst] at hu
  obtain ⟨hslot, hown, hflag⟩ := State.answer_all h.running n number (r := .done) nofun
  generalize (s.recorded w).answer n number .done = v at hslot hown hflag hu
  have hbv : (v.slot n).boundEntry = some e := by rw [hslot]; exact hb
  obtain ⟨hleaves, hraised, hprog, -⟩ := (hown.mono (fs := [slotFlag .result n, slotFlag .progress n, partFlag .lapse])
    (by simp)).finishRecording (x := s.slot n) (State.bindsTo.of_live h.running hm hb hl hbind) hbv hm hm (by simp)
  have hres := hraised _ hflag
  rw [← hu] at hleaves hprog hres
  refine ⟨hleaves.slot.trans ?_, hleaves.entry.trans (State.leftBy_record hm _ _), hleaves.others, hleaves.players,
    hleaves.waiting, hres, hprog, hleaves.frame.flags, hleaves.frame.orderFrame⟩
  rw [hslot]
  exact Slot.served_done rfl _

/-- CLOSE with packets or a chunk to seal: the slot is CLOSING, and the close of its chunk is asked where nothing is to be
placed. -/
theorem close_serves {s : State} {w : Writes} {n : Fin 8} {number : Mark} (h : s.atOrder w n number .close)
    (hm : (s.slot n).mode = .record) (hst : (s.slot n).eng.state = .running ∨ (s.slot n).eng.state = .stalled)
    (hseal : ¬ (s.slot n).nothingToSeal) :
    ∃ v, v.slot n = (s.slot n).closeTaken number ∧ (s.recorded w).Own v n [] ∧ v.flags = s.flags ∧
      exec (.recordClose w) s = .next { v.settleClosing n with sweep := (s.recorded w).afterSlot n } := by
  have hfault : (s.slot n).eng.state ≠ .faulted := by rcases hst with h | h <;> rw [h] <;> nofun
  have hclosing : (s.slot n).eng.state ≠ .closing := by rcases hst with h | h <;> rw [h] <;> nofun
  obtain ⟨h1, h2, h3⟩ := State.serveClose_all (s := s.recorded w) h.running n number hclosing
  refine ⟨_, h1, h2, h3, ?_⟩
  rw [← State.closeRecord_serves (s := s.recorded w) hseal hst]
  exact h.take (row := fun k _ x => k == .close && x.answeredBy [.record]) (effect := State.closeRecord)
    (by simp [Slot.answeredBy_record hm hfault])

/-- Settles O18: CLOSE of a recording by the slot's state and by what is still to be sealed. -/
theorem recordCloseEnds : Obligations.RecordCloseEnds := by
  intro s w n number e h
  refine ⟨fun hx => ?_, fun hm hb hl hbind hst => close_finishes h hm hb hl hbind hst, fun hm hst hseal => ?_,
    fun c hm hst htake hcarry hchunk => ?_⟩
  · have hrow : (OrderKind.close == .close && (s.slot n).answeredBy [.record]) = true := by
      rcases hx with hi | ⟨hm, hc⟩
      · simp [Slot.answeredBy, hi]
      · simp [Slot.answeredBy_record hm, hc]
    refine h.answers (row := fun k _ x => k == .close && x.answeredBy [.record]) hrow fun u hu => ?_
    have hanswer : (s.recorded w).closeRecord n number =
        (s.recorded w).answer n number (if (s.slot n).eng.state = .idle then .wrongState else .busy) := by
      rcases hx with hi | ⟨-, hc⟩
      · rw [State.closeRecord_idle (s := s.recorded w) hi, if_pos hi]
      · rw [State.closeRecord_closing (s := s.recorded w) hc, hc, if_neg nofun]
    rw [hanswer] at hu
    subst hu
    obtain ⟨a1, a2, a3, -, -, -, -, a8⟩ := answeredAlone (s := s) h.running number
      (r := if (s.slot n).eng.state = .idle then .wrongState else .busy) (by split <;> nofun)
    exact ⟨a1, a2, a3, a8⟩
  · have hnot : ¬ (s.slot n).nothingToSeal := by
      rintro (ho | ⟨-, -, hc, ht⟩)
      · rcases hst with h | h <;> rw [h] at ho <;> cases ho
      · exact hseal.elim (· ht) (· hc)
    obtain ⟨v, hslot, hown, hflags, hnext⟩ := close_serves h hm hst hnot
    have hstay : v.settleClosing n = v := State.settleClosing_none fun ⟨_, ht, hc⟩ => by
      rw [hslot] at ht hc
      exact hseal.elim (· ht) (· hc)
    rw [hstay] at hnext
    exact ⟨_, hnext, hslot, hown.slots, hown.entries, hflags, hown.flight, hown.toFrame.orderFrame⟩
  · have hnot : ¬ (s.slot n).nothingToSeal := by
      rintro (ho | ⟨-, hk, -⟩)
      · rw [hst] at ho
        cases ho
      · rw [hchunk] at hk
        cases hk
    obtain ⟨v, hslot, hown, hflags, hnext⟩ := close_serves h hm (.inl hst) hnot
    have hsettle : v.settleClosing n = if c.batch = [] then v.askClose n else v :=
      State.settleClosing_asks (by rw [hslot]; rfl) (by rw [hslot]; exact htake) (by rw [hslot]; exact hcarry)
        (by rw [hslot]; exact hchunk)
    by_cases hbatch : c.batch = []
    · rw [hsettle, if_pos hbatch] at hnext
      have hask := v.askClose_asks n
      have ha := State.askClose_own (n := n) hown.running'
      have hall := (hown.mono (fs := [slotFlag .absent n]) (by simp)).trans ha (by simp)
      rw [hslot] at hask
      refine ⟨_, hnext, fun _ => ?_, fun h => absurd hbatch h, hall.slots, hall.entries, hall.flags, hall.flight,
        hall.toFrame.orderFrame⟩
      exact hask.congr hown.part (by rw [hflags]) hown.causes .rfl rfl
    · rw [hsettle, if_neg hbatch] at hnext
      exact ⟨_, hnext, fun h => absurd h hbatch, fun _ => ⟨hslot, hflags⟩, hown.slots, hown.entries,
        (hown.mono (fs := [slotFlag .absent n]) (by simp)).flags, hown.flight, hown.toFrame.orderFrame⟩

/-! ## A take completes (R73, R104) -/

section
variable {s t : State} {n : Fin 8} {tk : Take}

theorem State.takeSorting_own (hr : s.part ≠ .stopped) (z : Sorting) : s.Own (s.takeSorting n z) n [] := by
  unfold State.takeSorting
  have h1 := State.modSlot_own n hr fun x => { x with history := z.history, carry := x.carry ++ z.kept }
  exact h1.trans (State.setEngine_own n h1.running' _ _ (by simp [Engine.sortedFields])) (by simp)

theorem State.completeTake_none (h : (s.slot n).take = none) : s.completeTake n = (s, true) := by
  unfold State.completeTake
  rw [h]

/-- The windows' judgement of the second access. -/
theorem State.takeReads_iff (s : State) (x : Slot) (tk : Take) : s.takeReads x tk ↔
    (decide (tk.count - firstCount tk.pos tk.count x.geo.streamSize = 0) || covers s.windows false x.geo.streamBase
      (188 * (tk.count - firstCount tk.pos tk.count x.geo.streamSize))) = true := by
  rw [Bool.or_eq_true, decide_eq_true_eq, covers_iff]
  rfl

theorem State.completeTake_refused (h : (s.slot n).take = some tk) (hw : ¬ s.takeReads (s.slot n) tk) :
    s.completeTake n = (s.modSlot n fun x => { x with take := none }, false) := by
  rw [State.takeReads_iff] at hw
  unfold State.completeTake
  simp only [h]
  exact if_neg hw

/-- The take's packets are in: T and the stream position have advanced, and the packets are to be classified. -/
def State.takenIn (s : State) (n : Fin 8) (tk : Take) : State :=
  (s.modSlot n fun x => { x with take := none, streamPos := (tk.pos + tk.count) % (s.slot n).geo.streamSize }).advance n
    (·.advanceA tk.count)

/-- A take that the windows let complete. -/
theorem State.completeTake_done (h : (s.slot n).take = some tk) (hw : s.takeReads (s.slot n) tk) :
    s.completeTake n = ((s.takenIn n tk).takeSorting n (s.sortedTake (s.slot n) tk), true) := by
  have hsort : classifyAll ((s.takenIn n tk).slot n) = classifyAll (s.slot n) := by
    funext ps
    simp [State.takenIn, classifyAll]
  rw [State.takeReads_iff] at hw
  unfold State.completeTake
  simp only [h]
  rw [if_pos hw]
  change ((s.takenIn n tk).takeSorting n (classifyAll ((s.takenIn n tk).slot n) _), true) = _
  rw [hsort]
  rfl

theorem State.takeSorting_slot (s : State) (n : Fin 8) (z : Sorting) : (s.takeSorting n z).slot n =
    { s.slot n with history := z.history, carry := (s.slot n).carry ++ z.kept, eng := (s.slot n).eng.sorted z } := by
  simp [State.takeSorting]

theorem State.afterTake_eq (s : State) (n : Fin 8) (tk : Take) :
    ((s.takenIn n tk).takeSorting n (s.sortedTake (s.slot n) tk)).slot n = s.afterTake (s.slot n) tk := by
  rw [State.takeSorting_slot]
  simp only [State.takenIn, State.advance_slot_self, State.slot_modSlot_self]
  rfl

/-- A take that completes, be it refused, is on the slot alone. -/
theorem State.completeTake_own (hr : s.part ≠ .stopped) : s.Own (s.completeTake n).1 n [] := by
  cases h : (s.slot n).take with
  | none => rw [State.completeTake_none h]; exact .refl hr
  | some tk =>
    by_cases hw : s.takeReads (s.slot n) tk
    · rw [State.completeTake_done h hw]
      have h1 := State.modSlot_own n hr
        fun x => { x with take := none, streamPos := (tk.pos + tk.count) % (s.slot n).geo.streamSize }
      have h2 := h1.trans (State.advance_own n h1.running' (·.advanceA tk.count)) (fs := []) (by simp)
      exact h2.trans (State.takeSorting_own h2.running' _) (by simp)
    · rw [State.completeTake_refused h hw]
      exact State.modSlot_own n hr fun x => { x with take := none }

/-- What the slot comes to, for a rule that says it of the slot as it then stands. -/
theorem State.completeTake_takeDone {P : Slot → Prop} (h : P ((s.completeTake n).1.slot n)) :
    s.takeDone (s.slot n) P P := by
  refine ⟨fun ht => ?_, fun tk ht => ⟨fun hw => ?_, fun hw => ?_⟩⟩
  · rwa [State.completeTake_none ht] at h
  · rwa [State.completeTake_done ht hw, State.afterTake_eq] at h
  · rwa [State.completeTake_refused ht hw, State.slot_modSlot_self] at h

/-- A take reads in one state what it reads in another with the same windows and stream window. -/
theorem State.afterTake_congr (hm : ∀ i < 188 * (tk.count - min tk.count ((t.slot n).geo.streamSize - tk.pos)),
      t.mem.get ((t.slot n).geo.streamBase + i) = s.mem.get ((t.slot n).geo.streamBase + i)) :
    t.afterTake (t.slot n) tk = s.afterTake (t.slot n) tk := by
  have hread : t.sortedTake (t.slot n) tk = s.sortedTake (t.slot n) tk := by
    unfold State.sortedTake
    dsimp only
    rw [Memory.read_congr (m' := s.mem)]
    intro a h1 h2
    have h3 := hm (a - (t.slot n).geo.streamBase) (by omega)
    rwa [Nat.add_sub_cancel' h1] at h3
  unfold State.afterTake
  rw [hread]

/-- The rule of a take's completion, said in one state, holds in another that reads the same. -/
theorem State.takeDone.congr {P Q : Slot → Prop} (h : t.takeDone (t.slot n) P Q) (hw : t.windows = s.windows)
    (hm : ∀ tk, (t.slot n).take = some tk → ∀ i < 188 * (tk.count - min tk.count ((t.slot n).geo.streamSize - tk.pos)),
      t.mem.get ((t.slot n).geo.streamBase + i) = s.mem.get ((t.slot n).geo.streamBase + i)) :
    s.takeDone (t.slot n) P Q := by
  obtain ⟨h1, h2⟩ := h
  refine ⟨h1, fun tk htk => ?_⟩
  have h3 := h2 tk htk
  unfold State.takeReads at h3 ⊢
  rwa [hw, State.afterTake_congr (hm tk htk)] at h3

theorem State.completeTake_boundEntry (s : State) (n : Fin 8) :
    ((s.completeTake n).1.slot n).boundEntry = (s.slot n).boundEntry := by
  have h := State.completeTake_takeDone (s := s) (n := n) (P := fun z => z = (s.completeTake n).1.slot n) rfl
  cases ht : (s.slot n).take with
  | none => rw [← h.1 ht]
  | some tk =>
    by_cases hw : s.takeReads (s.slot n) tk
    · rw [← (h.2 tk ht).1 hw]
      rfl
    · rw [← (h.2 tk ht).2 hw]
      rfl

end

/-! ## ABORT (R84) -/

/-- Settles O19: a take in progress completes, the slot returns to IDLE, and the recording ends. -/
theorem recordAbortEnds : Obligations.RecordAbortEnds := by
  intro s w n number e h
  dsimp only
  intro hm hb hl hbind hstream
  obtain ⟨hslot, hown, hflag⟩ := State.answer_all h.running n number (r := .done) nofun
  have hst : (s.slot n).eng.state ≠ .idle ∧ (s.slot n).eng.state ≠ .faulted := by
    unfold Slot.boundEntry at hb
    split at hb
    · cases hb
    next hn => exact not_or.1 hn
  have hnext := h.take (row := fun k _ x => k == .abort && x.answeredBy [.record]) (effect := State.abortRecord)
    (by simp [Slot.answeredBy_record hm hst.2])
  have hdef : (s.recorded w).abortRecord n number =
      ((((s.recorded w).answer n number .done).completeTake n).1.toIdle n).ending (s.slot n).mode e := by
    unfold State.abortRecord State.ending
    rw [if_pos hm]
    dsimp only
    rw [if_neg (show ¬ ((s.recorded w).slot n).eng.state = .idle from hst.1),
      show ((s.recorded w).slot n).boundEntry = some e from hb]
  rw [hdef] at hnext
  clear hdef
  generalize (s.recorded w).answer n number .done = v at hslot hown hflag hnext
  have hvb : (v.slot n).boundEntry = some e := by rw [hslot]; exact hb
  have htake := State.completeTake_own (n := n) hown.running'
  have hall := (hown.mono (fs := [slotFlag .result n, partFlag .lapse]) (by simp)).trans htake (by simp)
  have hleaves := hall.toIdle_ending (x := s.slot n) (State.bindsTo.of_live h.running hm hb hl hbind)
    ((State.completeTake_boundEntry v n).trans hvb) rfl (by simp)
  have hraised : slotFlag .result n ∈ (((v.completeTake n).1.toIdle n).ending (s.slot n).mode e).flags := by
    have h2 := State.toIdle_frame n htake.running'
    exact (State.ending_frame (n := n) h2.running' _).raised _ (h2.raised _ (htake.raised _ hflag))
  show (s.recorded w).takeDone (((s.recorded w).slot n).answered number .done) _ _
  rw [← hslot]
  refine State.takeDone.congr (State.completeTake_takeDone ?_) hown.windows fun tk htk i hi => hown.mem _ ?_
  · exact ⟨_, hnext, hleaves.slot, hleaves.entry.trans (State.leftBy_record hm _ _), hleaves.others, hleaves.players,
      hleaves.waiting, hleaves.flight, hraised, hleaves.frame.flags, hleaves.frame.orderFrame⟩
  · rw [hslot] at htk hi ⊢
    exact hstream tk htk i hi

end Sys2Proof.Machine
end

