-- ==== Sys2Proof/Proofs/ChunkOpen.lean ====
section
/-! Proofs: a sealing batch is formed, and a chunk opens (R12, R22, R74 to R76, R78). -/

namespace Sys2Proof.Machine

/-! ## The chunk record of placed packets (R101) -/

theorem OpenChunk.place_points_le (c : OpenChunk) (pos : Nat) (k : Carried) (h : c.points.length ≤ 8) :
    (c.place pos k).points.length ≤ 8 := by
  unfold OpenChunk.place
  dsimp only
  split
  next h8 =>
    simp only [Bool.and_eq_true, decide_eq_true_eq] at h8
    simp only [List.length_append, List.length_singleton]
    omega
  · exact h

/-- Placement changes the chunk's record of its packets alone, and keeps its access points to 8. -/
theorem OpenChunk.placeAll_eq (ks : List Carried) (c : OpenChunk) (pos : Nat) :
    let d := c.placeAll pos ks
    d = { c with points := d.points, overflow := d.overflow, scrambledMark := d.scrambledMark, seen := d.seen } ∧
      (c.points.length ≤ 8 → d.points.length ≤ 8) := by
  induction ks generalizing c pos with
  | nil => exact ⟨rfl, id⟩
  | cons k ks ih =>
    obtain ⟨h1, h2⟩ := ih (c.place pos k) (pos + 1)
    exact ⟨h1, fun h => h2 (c.place_points_le pos k h)⟩

/-! ## A sealing batch is formed (R74) -/

section
variable {s : State} {n : Fin 8} {c : OpenChunk}

/-- A slot that forms a sealing batch of its open chunk `c`. -/
def Slot.batchFormed (x : Slot) (c : OpenChunk) : Slot :=
  let placed := x.carry.take (x.geo.chunkLength - c.stored)
  { x with
    carry := x.carry.drop (x.geo.chunkLength - c.stored)
    chunk := some { c.placeAll c.stored placed with batch := placed }
    absence := resetAbsence x.absence placed
    holdTimer := if x.eng.state = .closing then none else some x.holdTime
    eng := { x.eng with absent := clearAbsent x.eng.absent placed } }

/-- The slot's part of it, the absent flags yet to be written. -/
def State.batchPlaced (s : State) (n : Fin 8) (c : OpenChunk) : State :=
  s.modSlot n fun x => { x.batchFormed c with eng := x.eng }

theorem State.formBatch_forms (hk : (s.slot n).chunk = some c) (ha : c.closeAsked = false) (hb : c.batch = [])
    (hc : (s.slot n).carry ≠ []) :
    let absent := clearAbsent (s.slot n).eng.absent ((s.slot n).carry.take ((s.slot n).geo.chunkLength - c.stored))
    s.formBatch n =
      if absent = (s.slot n).eng.absent then s.batchPlaced n c
      else (s.batchPlaced n c).setEngine n (fun g => { g with absent := absent }) [.absent] := by
  unfold State.formBatch
  simp only [hk, ha, hb]
  rw [if_neg (by simpa using hc)]
  rfl

/-- What the formation of a batch comes to, in any part state. -/
theorem State.formBatch_all (hk : (s.slot n).chunk = some c) (ha : c.closeAsked = false) (hb : c.batch = [])
    (hc : (s.slot n).carry ≠ []) :
    let t := s.formBatch n
    t.slot n = (s.slot n).batchFormed c ∧ s.sameSlotsBut t n ∧ t.entries = s.entries ∧ t.waiting = s.waiting ∧
      t.flight = s.flight ∧ t.keysClock = s.keysClock ∧ s.Shows t n := by
  intro t
  have hform : t = _ := State.formBatch_forms hk ha hb hc
  have hslot : (s.batchPlaced n c).slot n = { (s.slot n).batchFormed c with eng := (s.slot n).eng } :=
    State.slot_modSlot_self ..
  have hother : s.sameSlotsBut (s.batchPlaced n c) n := fun m hm => State.slot_setSlot_ne s _ hm
  have hshow : s.Shows (s.batchPlaced n c) n := s.modSlot_shows n rfl
  refine ⟨?_, fun m hm => ?_, ?_, ?_, ?_, State.formBatch_keysClock s n, ?_⟩ <;> rw [hform] <;> split
  next h =>
    rw [hslot]
    unfold Slot.batchFormed
    dsimp only
    rw [h]
  next =>
    rw [State.setEngine_slot, if_pos rfl, hslot]
    rfl
  next => exact hother m hm
  next =>
    rw [State.setEngine_slot, if_neg hm]
    exact hother m hm
  next => rfl
  next => exact State.setEngine_entries ..
  next => rfl
  next => exact State.setEngine_waiting ..
  next => rfl
  next => exact State.setEngine_flight ..
  next => exact hshow
  next =>
    refine hshow.trans (State.setEngine_shows _ n _ _ (by simp) fun f hf => ?_)
    cases f <;> first | exact List.mem_singleton.2 rfl | exact absurd rfl hf

end

/-! ## A chunk opens (R75) -/

theorem Entry.mergePending_eq (x : Entry) : x.mergePending = { x with segments := x.mergePending.segments } := by
  unfold Entry.mergePending
  split <;> rfl

/-- The segment decision is on segments, pending rule and rotation and the next key. -/
theorem Entry.decideSegment_eq (x : Entry) : x.decideSegment =
    { x with
      segments := x.decideSegment.segments, pendingRule := x.decideSegment.pendingRule
      pendingRotation := x.decideSegment.pendingRotation, rotationHeld := x.decideSegment.rotationHeld
      nextKey := x.decideSegment.nextKey } := by
  unfold Entry.decideSegment
  split
  · rfl
  · split
    · split <;> rfl
    · split
      · rfl
      · split
        · split
          · rfl
          · rw [x.mergePending_eq]
        · rw [x.mergePending_eq]

theorem Entry.decideSegment_chunkCount (x : Entry) : x.decideSegment.chunkCount = x.chunkCount := by
  rw [x.decideSegment_eq]

theorem Entry.decideSegment_generation (x : Entry) : x.decideSegment.generation = x.generation := by
  rw [x.decideSegment_eq]

section
variable {s : State} {n : Fin 8} {e : Fin 64}

/-- The refill takes a key where the next key is absent, one is in the pool and no slot waits. -/
theorem State.refillNextKey_takes {k : Key} {ks : List Key} (h : (s.entry e).nextKey = none) (hp : s.pool = k :: ks)
    (hw : s.waiting = []) : s.refillNextKey e =
      { s.modEntry e (fun x => { x with nextKey := some k }) with
        pool := ks, drawing := s.drawing || decide (ks.length < 4) } := by
  unfold State.refillNextKey
  rw [h, hp, hw]
  rfl

theorem State.refillNextKey_stays (h : (s.entry e).nextKey ≠ none ∨ s.pool = [] ∨ s.waiting ≠ []) :
    s.refillNextKey e = s := by
  unfold State.refillNextKey
  split
  next h1 h2 h3 =>
    rcases h with h | h | h
    · exact absurd h1 h
    · rw [h2] at h
      cases h
    · exact absurd h3 h
  · rfl

/-- The refill is on the entry and the keys. -/
theorem State.refillNextKey_rest (s : State) (n : Fin 8) (e : Fin 64) :
    let t := s.refillNextKey e
    t.slots = s.slots ∧ s.sameEntriesBut t e ∧ t.waiting = s.waiting ∧ t.flight = s.flight ∧ t.clock = s.clock ∧
      s.Shows t n := by
  unfold State.refillNextKey
  split
  next k ks _ _ _ =>
    refine ⟨rfl, fun d hd => ?_, rfl, rfl, rfl, .of_same rfl rfl rfl rfl rfl fun _ => rfl⟩
    show (s.modEntry e fun x => { x with nextKey := some k }).entry d = s.entry d
    rw [State.entry_modEntry, if_neg hd]
  · exact ⟨rfl, fun _ _ => rfl, rfl, rfl, rfl, .refl⟩

/-- The segment decision on an entry, and the refill of its next key (R12, R15). -/
def State.decided (s : State) (e : Fin 64) : State := (s.setEntry e (s.entry e).decideSegment).refillNextKey e

/-- The keys and the entry after the decision. -/
theorem State.decided_keys (s : State) (e : Fin 64) :
    let t := s.decided e
    let decided := (s.entry e).decideSegment
    (∀ k ks, decided.nextKey = none → s.pool = k :: ks → s.waiting = [] →
      t.entry e = { decided with nextKey := some k } ∧ t.pool = ks ∧ t.drawing = (s.drawing || decide (ks.length < 4))) ∧
    (decided.nextKey ≠ none ∨ s.pool = [] ∨ s.waiting ≠ [] →
      t.entry e = decided ∧ t.pool = s.pool ∧ t.drawing = s.drawing) := by
  dsimp only
  unfold State.decided
  have hself : (s.setEntry e (s.entry e).decideSegment).entry e = (s.entry e).decideSegment := State.entry_setEntry_self ..
  refine ⟨fun k ks hn hp hw => ?_, fun h => ?_⟩
  · rw [State.refillNextKey_takes (s := s.setEntry e (s.entry e).decideSegment) (by rw [hself]; exact hn) hp hw]
    refine ⟨?_, rfl, rfl⟩
    show ((s.setEntry e (s.entry e).decideSegment).modEntry e fun x => { x with nextKey := some k }).entry e = _
    rw [State.entry_modEntry_self, hself]
  · rw [State.refillNextKey_stays (by rw [hself]; exact h)]
    exact ⟨hself, rfl, rfl⟩

/-- The rest stays. -/
theorem State.decided_rest (s : State) (n : Fin 8) (e : Fin 64) :
    let t := s.decided e
    t.slots = s.slots ∧ s.sameEntriesBut t e ∧ t.waiting = s.waiting ∧ t.flight = s.flight ∧ t.clock = s.clock ∧
      s.Shows t n := by
  obtain ⟨h1, h2, h3, h4, h5, h6⟩ := State.refillNextKey_rest (s.setEntry e (s.entry e).decideSegment) n e
  have hset : s.Shows (s.setEntry e (s.entry e).decideSegment) n := .of_same rfl rfl rfl rfl rfl fun _ => rfl
  refine ⟨h1, fun d hd => ?_, h3, h4, h5, hset.trans h6⟩
  rw [State.decided, h2 d hd, State.entry_setEntry, if_neg hd]

/-- The chunk opened on a slot. -/
def OpenChunk.opened (x : Slot) (y : Entry) (clock : Nat) (key : Key) : OpenChunk :=
  { seq := y.chunkCount, seg := y.segments.length - 1, stamp := clock, pos := x.chunkPos
    stored := 0, key := key, generation := y.generation, batch := [], closeAsked := false
    closed := false, lost := 0, points := [], overflow := false, scrambledMark := false, seen := []
    chain := Chain.start }

theorem State.openChunk_opens {last : Segment} {key : Key} (hb : (s.slot n).boundEntry = some e)
    (hc : (s.entry e).chunkCount ≠ top32) (hr : 0 < (s.slot n).chunkRoom)
    (hl : (s.entry e).decideSegment.segments.getLast? = some last) (hk : last.key = some key) :
    s.openChunk n = ((s.decided e).modSlot n fun x =>
      { x with chunk := some (.opened (s.slot n) (s.entry e).decideSegment s.clock key) }).formBatch n := by
  obtain ⟨-, -, -, -, hclock, -⟩ := s.decided_rest n e
  rw [← hclock]
  unfold State.openChunk
  simp only [hb, hc, hl, hk, Nat.pos_iff_ne_zero.1 hr, if_false]
  rfl

theorem State.setSlotState_entries (s : State) (n : Fin 8) (st : SlotState) : (s.setSlotState n st).entries = s.entries := by
  unfold State.setSlotState
  split <;> simp

theorem execChunkOpen_due {n : Fin 8} (hm : (s.slot n).mode = .record)
    (hst : (s.slot n).eng.state = .running ∨ (s.slot n).eng.state = .closing) (hc : (s.slot n).carry ≠ [])
    (hk : (s.slot n).chunk = none) (hb : (s.slot n).boundEntry = some e) (hl : (s.entry e).state = .live) :
    exec (.chunkOpen n) s = .next (s.openChunk n) := by
  show execChunkOpen n s = _
  unfold execChunkOpen
  rw [if_pos]
  unfold State.openDue State.boundLive
  simp [hm, hst, hc, hk, hb, hl]

theorem Slot.batchFormed_opened (x : Slot) (y : Entry) (clock : Nat) (key : Key) :
    (({ x with chunk := some (.opened x y clock key) } : Slot).batchFormed (.opened x y clock key)).chunk =
      some { (OpenChunk.opened x y clock key).placeAll 0 (x.carry.take x.geo.chunkLength) with
        batch := x.carry.take x.geo.chunkLength } := rfl

/-- What the open of a chunk comes to: slot, entries, keys and the rest. -/
theorem State.openChunk_all {last : Segment} {key : Key} (hb : (s.slot n).boundEntry = some e)
    (hc : (s.entry e).chunkCount ≠ top32) (hr : 0 < (s.slot n).chunkRoom)
    (hl : (s.entry e).decideSegment.segments.getLast? = some last) (hk : last.key = some key)
    (hcarry : (s.slot n).carry ≠ []) :
    let c := OpenChunk.opened (s.slot n) (s.entry e).decideSegment s.clock key
    let t := s.openChunk n
    t.slot n = ({ s.slot n with chunk := some c } : Slot).batchFormed c ∧ s.sameSlotsBut t n ∧
      t.entries = (s.decided e).entries ∧ t.waiting = s.waiting ∧ t.flight = s.flight ∧
      t.keysClock = (s.decided e).keysClock ∧ s.Shows t n := by
  dsimp only
  rw [State.openChunk_opens hb hc hr hl hk]
  obtain ⟨hslots, -, hwait, hflight, -, hdecided⟩ := s.decided_rest n e
  generalize s.decided e = u at hslots hwait hflight hdecided
  generalize hopened : OpenChunk.opened (s.slot n) (s.entry e).decideSegment s.clock key = c
  have hslot : ∀ m, u.slot m = s.slot m := fun m => by rw [State.slot, hslots]; rfl
  have hv : (u.modSlot n fun x => { x with chunk := some c }).slot n = { s.slot n with chunk := some c } := by
    rw [State.slot_modSlot_self, hslot]
  have hopen := u.modSlot_shows n (g := fun x => { x with chunk := some c }) rfl
  obtain ⟨f1, f2, f3, f4, f5, f6, f7⟩ := State.formBatch_all (s := u.modSlot n fun x => { x with chunk := some c })
    (by rw [hv]) (by rw [← hopened]; rfl) (by rw [← hopened]; rfl) (by rw [hv]; exact hcarry)
  rw [hv] at f1
  refine ⟨f1, fun m hm => ?_, f3, f4.trans hwait, f5.trans hflight, f6, (hdecided.trans hopen).trans f7⟩
  rw [f2 m hm, State.slot_modSlot, if_neg hm, hslot]

/-- An open refused at the count limit ends the recording. -/
theorem State.openChunk_limit (hb : (s.slot n).boundEntry = some e) (hc : (s.entry e).chunkCount = top32) :
    s.openChunk n = (s.modSlot n fun x => { x with carry := [] }).finishRecording n := by
  unfold State.openChunk
  simp only [hb, hc, if_true]

/-- With no free frame the chunk does not open. -/
theorem State.openChunk_full (hb : (s.slot n).boundEntry = some e) (hc : (s.entry e).chunkCount ≠ top32)
    (hr : (s.slot n).chunkRoom = 0) :
    s.openChunk n = if (s.slot n).eng.state = .running then s.setSlotState n .stalled else s := by
  unfold State.openChunk
  simp only [hb, hc, hr, if_true, if_false]

end

/-- Settles O36: the open by the entry's chunk count, the free frames and the segment decision. -/
theorem chunkOpens : Obligations.ChunkOpens := by
  intro s n e last key
  dsimp only
  intro hm hst hcarry hchunk hb hl
  have hexec := execChunkOpen_due hm hst hcarry hchunk hb hl
  refine ⟨fun hc hbind => ?_, fun hc hfree hrun => ?_, fun hc hfree hclosing => ?_, fun hc hfree hlast hkey hlen => ?_⟩
  · rw [State.openChunk_limit hb hc] at hexec
    have hown := State.modSlot_own n hbind.1 fun x => { x with carry := [] }
    have hslot : (s.modSlot n fun x => { x with carry := [] }).slot n = { s.slot n with carry := [] } :=
      State.slot_modSlot_self ..
    generalize (s.modSlot n fun x => { x with carry := [] }) = u at hexec hown hslot
    obtain ⟨hleaves, -, hprog, hres⟩ := (hown.mono
      (fs := [slotFlag .progress n, slotFlag .result n, partFlag .lapse]) (by simp)).finishRecording
        (x := { s.slot n with carry := [] }) hbind (by rw [hslot]; exact hb) hm hm (by simp)
    rw [hslot] at hleaves hres
    exact ⟨_, hexec, hleaves.endsByClose hprog hres, hleaves.flight, hleaves.waiting, hleaves.frame.kept,
      hleaves.frame.sameKeysAndClock, hleaves.frame.mem⟩
  · rw [State.openChunk_full hb hc hfree, if_pos hrun] at hexec
    have hshow := s.setSlotState_shows n .stalled
    refine ⟨_, hexec, ?_, fun m hm => ?_, State.setSlotState_entries .., hshow.flags, State.setSlotState_flight .., hshow.kept,
      (State.sameKeysAndClock_iff _ _).2 (by simp), ⟨hshow.held, hshow.marks, hshow.causes⟩, hshow.mem⟩
    · rw [State.setSlotState_slot, if_pos rfl]
    · rw [State.setSlotState_slot, if_neg hm]
  · rw [State.openChunk_full hb hc hfree, hclosing, if_neg nofun] at hexec
    exact hexec
  · obtain ⟨keys, kept⟩ := s.decided_keys e
    obtain ⟨-, hother, -, -, hclock, -⟩ := s.decided_rest n e
    obtain ⟨f1, f2, f3, f4, f5, f6, f7⟩ := State.openChunk_all hb hc hfree hlast hkey hcarry
    generalize s.openChunk n = t at hexec f1 f2 f3 f4 f5 f6 f7
    obtain ⟨hpool, hdraw, hclock'⟩ := (State.sameKeysAndClock_iff (s.decided e) t).2 f6
    have hentry : ∀ d, t.entry d = (s.decided e).entry d := fun d => State.entry_congr f3 d
    obtain ⟨hplace, hpoints⟩ := OpenChunk.placeAll_eq ((s.slot n).carry.take (s.slot n).geo.chunkLength)
      (.opened (s.slot n) (s.entry e).decideSegment s.clock key) 0
    have hopened := congrArg Slot.chunk f1
    rw [Slot.batchFormed_opened, hplace] at hopened
    refine ⟨t, _, hexec, hopened, Entry.decideSegment_chunkCount _, rfl, rfl, rfl, rfl, rfl,
      Entry.decideSegment_generation _, rfl, rfl, rfl, hpoints (Nat.zero_le 8), congrArg Slot.carry f1,
      congrArg Slot.holdTimer f1, congrArg (·.eng.state) f1, congrArg (·.eng.markA) f1, congrArg (·.eng.markB) f1,
      fun k ks h1 h2 h3 => ?_, fun h => ?_, f2, fun d hd => (hentry d).trans (hother d hd), f4, f7.flags, f5,
      hclock'.trans hclock, f7.kept, ⟨f7.held, f7.marks, f7.causes⟩, f7.mem⟩
    · obtain ⟨a1, a2, a3⟩ := keys k ks h1 h2 h3
      exact ⟨(hentry e).trans a1, hpool.trans a2, hdraw.trans a3⟩
    · obtain ⟨a1, a2, a3⟩ := kept h
      exact ⟨(hentry e).trans a1, hpool.trans a2, hdraw.trans a3⟩

end Sys2Proof.Machine
end

