-- ==== Sys2Proof/Proofs/ClosingBatch.lean ====
section
/-! Proofs: a closing batch completes, and the frame is put or the slot faults (R36, R79, R80, R83, R88). -/

namespace Sys2Proof.Machine

/-! ## Faults of a slot (R88, R123, R163) -/

section
variable {s t u : State} {n : Fin 8} {e : Fin 64} {x : Slot} {code : SlotFault} {fs : List Flag}

/-- A fault raises FAULT, and what its mode does to the entry leaves it pending. -/
theorem State.toFaulted_ending_raises (hr : s.part ≠ .stopped) (f : SlotFault) (m : Mode) :
    slotFlag .fault n ∈ ((s.toFaulted n f).ending m e).flags := by
  refine (State.ending_frame (n := n) (State.toFaulted_frame n hr f).running' m).raised _ ?_
  rw [State.toFaulted_flags hr]
  simp

/-- What a fault comes to, as the rules say it. -/
theorem State.Leaves.faultsTo (h : s.Leaves t n e (x.toFaulted code) (s.leftBy x ((s.entry e).unbind n))
    [slotFlag .fault n, partFlag .lapse]) (hf : slotFlag .fault n ∈ t.flags) :
    s.faultsTo t n e x code ∧ t.flight = s.orphaned n ∧ t.sweep = s.sweep ∧ s.sameMemoryBut t (s.inRecord n) := by
  have hsweep : t.sweep = s.sweep := congrArg Kept.sweep h.frame.kept
  refine ⟨⟨h.slot, h.entry, h.others, h.players, h.waiting, hf, h.frame.flags, ?_, h.frame.sameKeysAndClock,
    h.frame.held, h.frame.causes⟩, h.flight, hsweep, h.frame.mem⟩
  rw [h.frame.kept, hsweep]
  rfl

/-- A RECORD slot with no take in progress faults. -/
theorem State.faultRecord_faultsTo (hb : s.bindsTo n e) (hm : (s.slot n).mode = .record) (ht : (s.slot n).take = none)
    (hl : (s.slot n).lapseDue = false) (f : SlotFault) :
    let t := s.faultRecord n f
    s.faultsTo t n e (s.slot n) f ∧ t.flight = s.orphaned n ∧ t.sweep = s.sweep ∧ s.sameMemoryBut t (s.inRecord n) := by
  have hbound : (s.slot n).boundEntry = some e := hb.2.1
  have hdef : s.faultRecord n f = (s.toFaulted n f).ending (s.slot n).mode e := by
    unfold State.faultRecord State.ending
    rw [if_pos hm]
    dsimp only
    rw [hbound, State.completeTake_none ht]
  have hcode : (s.slot n).faultCode f = f := if_neg (by simp [hl])
  have hleaves := (State.Own.refl (n := n) (fs := [slotFlag .fault n, partFlag .lapse]) hb.1).toFaulted_ending
    (x := s.slot n) hb hbound rfl f (by simp) (by simp)
  rw [hcode] at hleaves
  dsimp only
  rw [hdef]
  exact hleaves.faultsTo (State.toFaulted_ending_raises hb.1 f _)

end

/-! ## The writes of a closing batch (R36, R79) -/

section
variable {windows : List Window} {m : Memory} {a b : Nat} {bs cs : List Byte}

/-- Two accesses in order, each checked, the first refused one ending them (R54). -/
theorem writeAccesses_two : writeAccesses windows m [(a, bs), (b, cs)] =
    if covers windows true a bs.length then
      if covers windows true b cs.length then ((m.write a bs).write b cs, true) else (m.write a bs, false)
    else (m, false) := rfl

theorem writeAccesses_two_made {k : Nat} (hk : cs.length = k) (h : covers windows true a bs.length = true)
    (h' : covers windows true b k = true) : writeAccesses windows m [(a, bs), (b, cs)] = ((m.write a bs).write b cs, true) := by
  rw [writeAccesses_two, hk, if_pos h, if_pos h']

theorem writeAccesses_two_refused {k : Nat} (hk : cs.length = k)
    (h : ¬ covers windows true a bs.length = true ∨ ¬ covers windows true b k = true) :
    writeAccesses windows m [(a, bs), (b, cs)] = (if covers windows true a bs.length = true then m.write a bs else m, false) := by
  rw [writeAccesses_two, hk]
  rcases h with h | h
  · rw [if_neg h, if_neg h]
  · rw [if_neg h]
    split <;> rfl

end

section
variable {s : State} {n : Fin 8} {base len count : Nat} {tag : List Byte} {key : Key} {chain : Chain} {orphan : Bool}

/-- A closing batch that completes: its two writes, and what the slot does after them. -/
theorem execClosingBatch_of (h : s.flight = some ⟨.slot n, .closing base len count tag key chain, orphan⟩) :
    let check := (chain.feed (frameCheckKey key) tag).finish (frameCheckKey key)
    let written := writeAccesses s.windows s.mem
      [(base, tag ++ check), (base + 64 + 188 * count, zeros (paddingLength len count))]
    let v := { s with flight := none, mem := written.1 }
    exec .closingBatch s = .next (if orphan then v else if written.2 then v.closedChunk n else v.faultRecord n .window) := by
  show execClosingBatch s = _
  unfold execClosingBatch
  rw [h]
  rfl

end

/-! ## The put (R22, R79, R80) -/

section
variable {s : State} {n : Fin 8} {e : Fin 64}

/-- The slot after the put of its frame. -/
def Slot.put (x : Slot) : Slot :=
  { x.advanceB 1 with
    chunk := none, chunkPos := (x.chunkPos + 1) % x.geo.frames
    eng := { (x.advanceB 1).eng with chunksDone := x.eng.chunksDone + 1 } }

/-- The put up to its notice: the marks, the count and the position. -/
def State.putDown (s : State) (n : Fin 8) (c : OpenChunk) (e : Fin 64) : State :=
  (((s.modSlot n fun x => { x with chunkPos := (x.chunkPos + 1) % x.geo.frames, chunk := none }).advance n
    (·.advanceB 1)).modEntry e fun x => x.countChunk c.stamp).setEngine n
      (fun g => { g with chunksDone := g.chunksDone + 1 }) [.chunksDone]

/-- Beside the count into the entry the put is on the slot alone. -/
theorem State.putDown_own (hr : s.part ≠ .stopped) (c : OpenChunk) :
    (s.modEntry e fun x => x.countChunk c.stamp).Own (s.putDown n c e) n [] := by
  have h1 := State.modSlot_own n hr fun x => { x with chunkPos := (x.chunkPos + 1) % x.geo.frames, chunk := none }
  have h2 := h1.trans (State.advance_own n h1.running' (·.advanceB 1)) (fs := []) (by simp)
  unfold State.putDown
  generalize (s.modSlot n _).advance n (·.advanceB 1) = v at h2
  have h3 := State.modEntry_frame n e h2.running' fun x => x.countChunk c.stamp
  have h4 := State.setEngine_own n h3.running' (fun g => { g with chunksDone := g.chunksDone + 1 }) [.chunksDone] (by simp)
  have h5 := (h2.toFrame.trans h3 (fs := []) (by simp)).trans h4.toFrame (fs := []) (by simp)
  refine ⟨⟨h5.running, h5.kept, h5.keysClock, h5.held, h5.causes, h5.mem, h5.flags, h5.raised⟩, fun m hm => ?_, ?_, ?_, ?_⟩
  · exact (h4.slots m hm).trans (h2.slots m hm)
  · refine h4.entries.trans ?_
    show v.entries.set e ((v.entry e).countChunk c.stamp) = s.entries.set e ((s.entry e).countChunk c.stamp)
    rw [h2.entries, h2.entry]
  · exact h4.waiting.trans h2.waiting
  · exact h4.flight.trans h2.flight

theorem State.putDown_slot (s : State) (n : Fin 8) (c : OpenChunk) (e : Fin 64) :
    (s.putDown n c e).slot n = (s.slot n).put := by
  unfold State.putDown
  rw [State.setEngine_slot, if_pos rfl, State.modEntry_slot, State.advance_slot_self, State.slot_modSlot_self]
  rfl

/-- PROGRESS is noted at the notice level. -/
theorem State.putChunk_eq (s : State) (n : Fin 8) (c : OpenChunk) (e : Fin 64) : s.putChunk n c e =
    if (s.slot n).notice ≤ ahead (s.slot n).put.eng.markB (s.slot n).viewB then
      (s.putDown n c e).notify (slotFlag .progress n)
    else s.putDown n c e := by
  have h : s.putChunk n c e =
      if ((s.putDown n c e).slot n).notice ≤ ahead ((s.putDown n c e).slot n).eng.markB ((s.putDown n c e).slot n).viewB then
        (s.putDown n c e).notify (slotFlag .progress n)
      else s.putDown n c e := rfl
  rw [h, State.putDown_slot]
  rfl

/-- What the put comes to. -/
theorem State.putChunk_all (hr : s.part ≠ .stopped) (c : OpenChunk) :
    let t := s.putChunk n c e
    t.slot n = (s.slot n).put ∧ (s.modEntry e fun x => x.countChunk c.stamp).Own t n [slotFlag .progress n] ∧
      (slotFlag .progress n ∈ t.flags ↔ slotFlag .progress n ∈ s.flags ∨
        (s.slot n).notice ≤ ahead (s.slot n).put.eng.markB (s.slot n).viewB) := by
  have hslot := s.putDown_slot n c e
  have hown := State.putDown_own (n := n) (e := e) hr c
  have hflags : slotFlag .progress n ∈ (s.putDown n c e).flags ↔ slotFlag .progress n ∈ s.flags := hown.flags _ (by simp)
  dsimp only
  rw [State.putChunk_eq]
  split
  next h =>
    refine ⟨by rw [State.notify_slot, hslot], (hown.mono (by simp)).trans (State.notify_own n hown.running' _) (by simp), ?_⟩
    rw [State.mem_notify_flags hown.running']
    exact iff_of_true (.inl rfl) (.inr h)
  next h => exact ⟨hslot, hown.mono (by simp), hflags.trans (or_iff_left h).symm⟩

/-- The chunk counted into the last segment. -/
theorem Entry.countChunk_eq {y : Entry} {init : List Segment} {last : Segment} (h : y.segments = init ++ [last])
    (stamp : Nat) : y.countChunk stamp =
      { y with
        chunkCount := y.chunkCount + 1
        segments := init ++
          [{ last with
             count := last.count + 1, lastStamp := some stamp
             firstStamp := some (match last.firstStamp with | none => stamp | some v => v) }] } := by
  unfold Entry.countChunk
  rw [h, modifyLast_concat]
  cases last.firstStamp <;> rfl

/-- What follows a complete frame. -/
theorem State.closedChunk_live {c : OpenChunk} (hc : (s.slot n).chunk = some c) (hb : (s.slot n).boundEntry = some e)
    (hl : (s.entry e).state = .live) : s.closedChunk n = (s.putChunk n c e).settleClosing n := by
  unfold State.closedChunk
  simp only [hc, hb, hl, if_true]

theorem State.closedChunk_gone {c : OpenChunk} (hc : (s.slot n).chunk = some c) (hb : (s.slot n).boundEntry = some e)
    (hl : (s.entry e).state ≠ .live) : s.closedChunk n = s.modSlot n fun x => { x with chunk := none } := by
  unfold State.closedChunk
  simp only [hc, hb, hl, if_false]

/-- A frame is put and the slot has more to do. -/
theorem State.closedChunk_goesOn {c : OpenChunk} (hr : s.part ≠ .stopped) (hc : (s.slot n).chunk = some c)
    (hb : (s.slot n).boundEntry = some e) (hl : (s.entry e).state = .live)
    (hn : ¬ ((s.slot n).eng.state = .closing ∧ (s.slot n).take = none ∧ (s.slot n).carry = [])) :
    let t := s.closedChunk n
    t.slot n = (s.slot n).put ∧ (s.modEntry e fun x => x.countChunk c.stamp).Own t n [slotFlag .progress n] ∧
      (slotFlag .progress n ∈ t.flags ↔ slotFlag .progress n ∈ s.flags ∨
        (s.slot n).notice ≤ ahead (s.slot n).put.eng.markB (s.slot n).viewB) := by
  have hput := State.putChunk_all (n := n) (e := e) hr c
  dsimp only at hput ⊢
  rw [State.closedChunk_live hc hb hl, State.settleClosing_none]
  · exact hput
  · rw [hput.1]
    exact hn

/-- A frame is put and the recording ends. -/
theorem State.closedChunk_ends {c : OpenChunk} (hr : s.part ≠ .stopped) (hm : (s.slot n).mode = .record)
    (hc : (s.slot n).chunk = some c) (hb : (s.slot n).boundEntry = some e) (hl : (s.entry e).state = .live)
    (hs : (s.slot n).eng.state = .closing) (ht : (s.slot n).take = none) (hcarry : (s.slot n).carry = [])
    (hbind : (s.entry e).binding = some n) :
    let v := s.modEntry e fun x => x.countChunk c.stamp
    let t := s.closedChunk n
    v.endsByClose t n e (s.slot n).put ∧ t.flight = v.orphaned n ∧
      v.Frame t n [slotFlag .progress n, slotFlag .result n, partFlag .lapse] := by
  have hput := State.putChunk_all (n := n) (e := e) hr c
  dsimp only at hput ⊢
  rw [State.closedChunk_live hc hb hl]
  obtain ⟨hslot, hown, -⟩ := hput
  generalize s.putChunk n c e = u at hslot hown
  have hcounted : (s.modEntry e fun x => x.countChunk c.stamp).entry e = (s.entry e).countChunk c.stamp :=
    State.entry_modEntry_self ..
  have hbinds : (s.modEntry e fun x => x.countChunk c.stamp).bindsTo n e :=
    .of_live hr hm hb (by rw [hcounted]; exact hl) (by rw [hcounted]; exact hbind)
  have hmode : ((s.modEntry e fun x => x.countChunk c.stamp).slot n).mode = .record := hm
  generalize (s.modEntry e fun x => x.countChunk c.stamp) = v at hown hbinds hmode
  rw [State.settleClosing_finishes (by rw [hslot]; exact hs) (by rw [hslot]; exact ht) (by rw [hslot]; exact hcarry)
    (by rw [hslot]; rfl)]
  obtain ⟨hleaves, -, hprog, hres⟩ := (hown.mono
    (fs := [slotFlag .progress n, slotFlag .result n, partFlag .lapse]) (by simp)).finishRecording
      (x := (s.slot n).put) hbinds (by rw [hslot]; exact hb) hmode hm (by simp)
  rw [hslot] at hleaves hres
  exact ⟨hleaves.endsByClose hprog hres, hleaves.flight, hleaves.frame⟩

end

/-- A frame complete in memory is dropped after a lapse, put, or put with the recording's end. -/
theorem closing_puts {s : State} {n : Fin 8} {e : Fin 64} {c : OpenChunk} {m : Memory} {init : List Segment} {last : Segment}
    (hx : exec .closingBatch s = .next ({ s with flight := none, mem := m }.closedChunk n)) (hr : s.part ≠ .stopped)
    (hm : (s.slot n).mode = .record) (hb : (s.slot n).boundEntry = some e) (hc : (s.slot n).chunk = some c) :
    let y := s.entry e
    let ends := (s.slot n).eng.state = .closing ∧ (s.slot n).take = none ∧ (s.slot n).carry = []
    (y.state ≠ .live → exec .closingBatch s = .next
      { s.setSlot n { s.slot n with chunk := none } with flight := none, mem := m }) ∧
    (y.state = .live → y.segments = init ++ [last] → ¬ ends →
      ∃ t, exec .closingBatch s = .next t ∧ t.flight = none ∧ t.slot n = (s.slot n).put ∧
        t.entry e = y.countChunk c.stamp ∧
        (slotFlag .progress n ∈ t.flags ↔
          slotFlag .progress n ∈ s.flags ∨ (s.slot n).notice ≤ ahead (s.slot n).put.eng.markB (s.slot n).viewB) ∧
        s.flagsBut t [slotFlag .progress n] ∧ s.sameSlotsBut t n ∧ s.sameEntriesBut t e ∧ t.kept = s.kept ∧
        s.sameKeysAndClock t ∧ ∀ b, ¬ s.inRecord n b → t.mem.get b = m.get b) ∧
    (y.state = .live → y.segments = init ++ [last] → ends → y.binding = some n →
      ∃ t, exec .closingBatch s = .next t ∧ t.flight = none ∧
        (s.setEntry e (y.countChunk c.stamp)).endsByClose t n e (s.slot n).put ∧
        t.kept = s.kept ∧ s.sameKeysAndClock t ∧ ∀ b, ¬ s.inRecord n b → t.mem.get b = m.get b) := by
  refine ⟨fun hl => ?_, fun hl _ hends => ?_, fun hl _ ⟨hst, htake, hcarry⟩ hbinding => ?_⟩
  · rw [hx, State.closedChunk_gone (s := { s with flight := none, mem := m }) hc hb hl]
    rfl
  · obtain ⟨g1, g2, g3⟩ := State.closedChunk_goesOn (s := { s with flight := none, mem := m }) hr hc hb hl hends
    refine ⟨_, hx, g2.flight, g1, ?_, g3, g2.flags, g2.slots, fun d hd => ?_, g2.kept, g2.sameKeysAndClock, g2.mem⟩
    · rw [g2.entry, State.entry_modEntry_self]
      rfl
    · rw [g2.entry, State.entry_modEntry, if_neg hd]
      rfl
  · obtain ⟨g1, g2, g3⟩ := State.closedChunk_ends (s := { s with flight := none, mem := m }) hr hm hc hb hl hst htake hcarry
      hbinding
    exact ⟨_, hx, g2, g1, g3.kept, g3.sameKeysAndClock, g3.mem⟩

/-- Settles O38: the batch's two writes, then the put, the end of the recording, or the fault. -/
theorem closingBatchPuts : Obligations.ClosingBatchPuts := by
  intro s n e base len count tag key chain c init last orphan
  dsimp only
  intro hflight
  have hexec := execClosingBatch_of hflight
  dsimp only at hexec
  generalize hcheck : tag ++ (chain.feed (frameCheckKey key) tag).finish (frameCheckKey key) = sealed at hexec ⊢
  have hpad : (zeros (paddingLength len count)).length = paddingLength len count := List.length_replicate
  simp only [← covers_iff]
  refine ⟨fun horphan => ?_, fun horphan hr hm hb => ⟨fun h1 h2 hc => ?_, fun hrefused hlapse htake hbind => ?_⟩⟩
  all_goals rw [horphan] at hexec
  · rw [if_pos rfl] at hexec
    refine ⟨fun h1 h2 => ?_, fun h1 h2 => ?_, fun h1 => ?_⟩
    · rw [hexec, writeAccesses_two_made hpad h1 h2]
    · rw [hexec, writeAccesses_two_refused hpad (.inr h2), if_pos h1]
    · rw [hexec, writeAccesses_two_refused hpad (.inl h1), if_neg h1]
  · rw [writeAccesses_two_made hpad h1 h2, if_neg nofun, if_pos rfl] at hexec
    obtain ⟨p1, p2, p3⟩ := closing_puts (init := init) (last := last) hexec hr hm hb hc
    refine ⟨p1, fun hl hsegs hends => ?_, fun hl hsegs hends hbinding => ?_⟩
    · obtain ⟨t, t1, t2, t3, t4, t5⟩ := p2 hl hsegs hends
      exact ⟨t, t1, t2, t3, t4.trans (Entry.countChunk_eq hsegs _), t5⟩
    · obtain ⟨t, t1, t2, t3, t4⟩ := p3 hl hsegs hends hbinding
      exact ⟨t, t1, t2, Eq.subst (motive := fun y => (s.setEntry e y).endsByClose t n e (s.slot n).put)
        (Entry.countChunk_eq hsegs c.stamp) t3, t4⟩
  · rw [writeAccesses_two_refused hpad hrefused, if_neg nofun, if_neg nofun] at hexec
    generalize hm' : (if covers s.windows true base sealed.length = true then s.mem.write base sealed else s.mem) = m at hexec
    obtain ⟨f1, f2, f3, f4⟩ := State.faultRecord_faultsTo (s := { s with flight := none, mem := m }) hbind hm htake hlapse
      .window
    refine ⟨_, hexec, f1, f2, f3, fun h1 b hb => (f4 b hb).trans ?_, fun h1 b hb => (f4 b hb).trans ?_⟩
    · show m.get b = _
      rw [← hm', if_pos h1]
    · show m.get b = _
      rw [← hm', if_neg h1]

end Sys2Proof.Machine
end

