-- ==== Sys2Proof/Proofs/Judging.lean ====
section
/-! Proofs: the judgement of many entries: what every entry comes to, whose LAPSED fault is due, and when LAPSE is raised
(R135 to R139, R141); the two resets (R26, R27). -/

namespace Sys2Proof.Machine

/-! ## Many entries judged -/

/-- From `s` to `t` the entries `es` have been judged: each has come to `final`, those that `went` are LAPSED with the faults of
their slots due and LAPSE raised, and nothing else has changed. -/
structure State.Lapses (s t : State) (es : List (Fin 64)) (final : Fin 64 → Entry) (went : Fin 64 → Bool) : Prop where
  rest : t = { s with slots := t.slots, entries := t.entries, flags := t.flags }
  entry : ∀ d, t.entry d = if d ∈ es then final d else s.entry d
  slot : ∀ m, t.slot m =
    { s.slot m with
      lapseDue := (s.slot m).lapseDue || es.any fun e => (s.entry e).boundSlots.contains m && went e }
  flags : ∀ f, f ∈ t.flags ↔ f ∈ s.flags ∨ f = partFlag .lapse ∧ ∃ e ∈ es, went e = true

section
variable {s t u : State} {e : Fin 64} {es : List (Fin 64)} {final : Fin 64 → Entry} {went : Fin 64 → Bool}

theorem State.Lapses.refl : s.Lapses s [] final went where
  rest := rfl
  entry _ := by simp
  slot _ := by simp
  flags _ := by simp

theorem State.Lapses.cons (h : s.Lapses u [e] final went) (h' : u.Lapses t es final went) (he : e ∉ es) :
    s.Lapses t (e :: es) final went where
  rest := by
    rw [h'.rest, h.rest]
  entry d := by
    rw [h'.entry, h.entry]
    by_cases hd : d = e
    · simp [hd, he]
    · simp [hd]
  slot m := by
    have hsame : (es.any fun d => (u.entry d).boundSlots.contains m && went d) =
        es.any fun d => (s.entry d).boundSlots.contains m && went d := by
      rw [Bool.eq_iff_iff, List.any_eq_true, List.any_eq_true]
      refine exists_congr fun d => and_congr_right fun hd => ?_
      rw [h.entry, if_neg fun hde => he (by rwa [← List.mem_singleton.1 hde])]
    rw [h'.slot, h.slot, hsame]
    simp [Bool.or_assoc]
  flags f := by
    rw [h'.flags, h.flags]
    simp only [List.mem_cons, List.not_mem_nil, or_false, exists_eq_left, exists_eq_or_imp]
    tauto

/-- Entries judged one after another, each as it stood before. -/
theorem State.Lapses.foldl {op : State → Fin 64 → State} (hn : es.Nodup)
    (hop : ∀ e ∈ es, ∀ u : State, u.entry e = s.entry e → u.clock = s.clock → u.Lapses (op u e) [e] final went) :
    s.Lapses (es.foldl op s) es final went := by
  induction es generalizing s with
  | nil => exact .refl
  | cons e es ih =>
    obtain ⟨he, hn⟩ := List.nodup_cons.1 hn
    have h1 := hop e (by simp) s rfl rfl
    refine h1.cons (ih hn fun d hd u hu hc => hop d (by simp [hd]) u (hu.trans ?_) (hc.trans ?_)) he
    · rw [h1.entry, if_neg fun hde => he (by rwa [← List.mem_singleton.1 hde])]
    · rw [h1.rest]

theorem allEntries_nodup : allEntries.Nodup := allEntries_pairwise.imp fun h => ne_of_lt h

/-! ## LAPSE -/

/-- From `s` to `t` LAPSE is raised where entry `e` has become LAPSED, which it stays. -/
structure State.RaisesLapse (s t : State) (e : Fin 64) : Prop where
  stays : (s.entry e).state = .lapsed → (t.entry e).state = .lapsed
  flags : ∀ f, f ∈ t.flags ↔
    f ∈ s.flags ∨ f = partFlag .lapse ∧ (t.entry e).state = .lapsed ∧ (s.entry e).state ≠ .lapsed

theorem State.RaisesLapse.of_same (hs : (t.entry e).state = (s.entry e).state) (hf : t.flags = s.flags) :
    s.RaisesLapse t e := ⟨fun h => hs.trans h, fun f => by rw [hs, hf]; simp⟩

theorem State.RaisesLapse.trans (h : s.RaisesLapse u e) (h' : u.RaisesLapse t e) : s.RaisesLapse t e where
  stays := h'.stays ∘ h.stays
  flags f := by
    have h1 := h.stays
    have h2 := h'.stays
    rw [h'.flags, h.flags]
    tauto

theorem State.lapse_flags (s : State) (e : Fin 64) (f : Flag) :
    f ∈ (s.lapse e).flags ↔ f = partFlag .lapse ∨ f ∈ s.flags := by
  simp only [State.lapse, State.raise, mem_raiseFlag]
  rw [State.markLapse_eq]
  rfl

/-- An entry that is judged lapses. -/
theorem State.lapse_raisesLapse (h : (s.entry e).state ≠ .lapsed) : s.RaisesLapse (s.lapse e) e where
  stays h' := absurd h' h
  flags f := by
    rw [State.lapse_flags, State.lapse_entry, if_pos rfl]
    simp [Entry.spent, h, or_comm]

theorem Entry.judged_not_lapsed {x : Entry} (h : x.judged = true) : x.state ≠ .lapsed := by
  rcases (Entry.judged_iff x).1 h with h | h | h <;> rw [h] <;> nofun

theorem State.judge_raisesLapse (s : State) (e : Fin 64) : s.RaisesLapse (s.judge e) e := by
  unfold State.judge
  split
  next h =>
    unfold State.lapseReached at h
    exact State.lapse_raisesLapse (Entry.judged_not_lapsed (Bool.and_eq_true_iff.1 h).1)
  · exact .of_same rfl rfl

theorem State.becameHeld_raisesLapse (s : State) (e : Fin 64) : s.RaisesLapse (s.becameHeld e) e := by
  have h1 : s.RaisesLapse (s.modEntry e fun x => { x with lapseTime := x.deriveLapse }) e :=
    .of_same (by rw [State.entry_modEntry_self]) rfl
  have h2 := h1.trans (State.judge_raisesLapse _ e)
  refine State.RaisesLapse.trans (u := s.derive e) h2 ?_
  unfold State.becameHeld State.judgeLastView
  split
  next h =>
    simp only [Bool.and_eq_true, beq_iff_eq] at h
    obtain ⟨⟨-, hh⟩, -⟩ := h
    exact State.lapse_raisesLapse (by rw [hh]; nofun)
  · exact .of_same rfl rfl

/-! ## Every lapse time derived (R141) -/

/-- An entry without bindings that has become HELD, or is taken as one that has. -/
theorem State.becameHeld_lapses (hb : (s.entry e).binding = none) (hp : (s.entry e).players = [])
    (hfinal : final e = ((s.entry e).derivedAt s.clock).viewedOut false)
    (hw : went e = decide ((final e).state = .lapsed ∧ (s.entry e).state ≠ .lapsed)) :
    s.Lapses (s.becameHeld e) [e] final went where
  rest := s.becameHeld_eq e
  entry d := by
    rw [State.becameHeld_entry]
    simp only [List.mem_singleton]
    split
    next hd =>
      have hplay : s.playBound e = false := by simp [State.playBound, hp]
      rw [hd, hfinal, hplay]
    · rfl
  slot m := by
    rw [(State.becameHeld_marks s e).slots m]
    simp [hp, Entry.boundSlots, hb]
  flags f := by
    have hplay : s.playBound e = false := by simp [State.playBound, hp]
    rw [(s.becameHeld_raisesLapse e).flags, State.becameHeld_entry, if_pos rfl, hplay, ← hfinal]
    simp [hw]

/-- Every lapse time derived and judged in a table without bindings. -/
theorem State.deriveAll_lapses (hb : ∀ e, (s.entry e).binding = none) (hp : ∀ e, (s.entry e).players = []) :
    s.Lapses s.deriveAll allEntries (fun e => ((s.entry e).derivedAt s.clock).viewedOut false) fun e =>
      decide ((((s.entry e).derivedAt s.clock).viewedOut false).state = .lapsed ∧ (s.entry e).state ≠ .lapsed) :=
  .foldl allEntries_nodup fun e _ u hu hc =>
    State.becameHeld_lapses (by rw [hu]; exact hb e) (by rw [hu]; exact hp e) (by rw [hu, hc]) (by rw [hu])

/-! ## Every entry judged (R136) -/

theorem State.judge_lapses (hfinal : final e = (s.entry e).judgedAt s.clock) (hw : went e = s.lapseReached e) :
    s.Lapses (s.judge e) [e] final went where
  rest := s.judge_eq e
  entry d := by
    have hjudged : (s.entry e).judgedAt s.clock = if s.lapseReached e = true then (s.entry e).spent .lapsed else s.entry e :=
      rfl
    simp only [List.mem_singleton]
    by_cases hd : d = e
    · rw [if_pos hd, hd, hfinal, hjudged]
      unfold State.judge
      split
      · rw [State.lapse_entry, if_pos rfl]
      · rfl
    · rw [if_neg hd]
      unfold State.judge
      split
      · rw [State.lapse_entry, if_neg hd]
      · rfl
  slot m := by
    rw [List.any_cons, List.any_nil, Bool.or_false, hw]
    unfold State.judge
    split
    next h =>
      rw [State.lapse_slot, h]
      split
      next hm => simp [hm]
      next hm => simp [hm]
    next h => simp [h]
  flags f := by
    simp only [List.mem_singleton, exists_eq_left, hw]
    unfold State.judge
    split
    next h =>
      rw [State.lapse_flags, and_iff_left h]
      exact or_comm
    next h => simp [h]

/-- The clock advanced to a value with the judgement that follows. -/
theorem State.judgeAll_lapses (s : State) :
    s.Lapses s.judgeAll allEntries (fun e => (s.entry e).judgedAt s.clock) s.lapseReached :=
  .foldl allEntries_nodup fun e _ u hu hc =>
    State.judge_lapses (by rw [hu, hc]) (by unfold State.lapseReached; rw [hu, hc])

end

/-! ## Resets (R26, R27) -/

theorem cutAccesses_outside {windows : List Window} {made : Nat} {m : Memory} {blocks : List (Nat × List Byte)} {a : Nat}
    (h : outsideBlocks a blocks) : (cutAccesses windows made m blocks).get a = m.get a := by
  induction blocks generalizing made m with
  | nil => rfl
  | cons b blocks ih =>
    obtain ⟨base, bs⟩ := b
    have hb : a < base ∨ base + bs.length ≤ a := h (base, bs) (by simp)
    unfold cutAccesses
    split
    · rw [ih fun c hc => h c (by simp [hc]), Memory.get_write_outside]
      rw [List.length_take]
      omega
    · rfl

/-- Recorder memory changes where a batch or QUERY write cut off wrote alone. -/
theorem State.cutMemory_outside {s : State} {made queryMade a : Nat}
    (hf : ∀ f, s.flight = some f → outsideBlocks a (s.flightAccesses f.work))
    (hq : ∀ q, s.query = some q → outsideBlocks a [(q.addr, q.record)]) :
    (s.cutMemory made queryMade).get a = s.mem.get a := by
  have hbatch : (match s.flight with
      | none => s.mem
      | some f => cutAccesses s.windows made s.mem (s.flightAccesses f.work)).get a = s.mem.get a := by
    cases hfl : s.flight with
    | none => rfl
    | some f => exact cutAccesses_outside (hf f hfl)
  unfold State.cutMemory
  cases hqu : s.query with
  | none => exact hbatch
  | some q => exact (cutAccesses_outside (hq q hqu)).trans hbatch

theorem Entry.cutOff_lapsed (x : Entry) : x.cutOff.state = .lapsed ↔ x.state = .lapsed := by
  unfold Entry.cutOff
  split
  next h =>
    rw [h]
    split
    · unfold Entry.returned
      split <;> exact iff_of_false nofun nofun
    · exact iff_of_false nofun nofun
  next h =>
    rw [h]
    exact iff_of_false nofun nofun
  · rfl

/-- Settles O4: a full reset by its state, an engine reset by what it clears and by what the derivation makes of the table. -/
theorem resetStates : Obligations.ResetStates := by
  refine ⟨fun made queryMade s => ⟨_, rfl, rfl, fun a hf hq => State.cutMemory_outside hf hq⟩, fun v made queryMade s hv => ?_⟩
  have hexec : exec (.engineReset v made queryMade) s =
      .next ((s.loadControl v).engineCleared (s.cutMemory made queryMade)).deriveAll := by
    show execEngineReset v made queryMade s = _
    unfold execEngineReset
    rw [if_pos hv]
  have hentry : ∀ e, ((s.loadControl v).engineCleared (s.cutMemory made queryMade)).entry e =
      { (s.entry e).cutOff with binding := none, players := [] } := State.engineCleared_entry (s.loadControl v) _
  have hcleared : ∀ n, ((s.loadControl v).engineCleared (s.cutMemory made queryMade)).slot n = Slot.reset := fun n => by
    simp [State.slot, State.engineCleared]
  have h := State.deriveAll_lapses (s := (s.loadControl v).engineCleared (s.cutMemory made queryMade))
    (fun e => by rw [hentry]) (fun e => by rw [hentry])
  generalize ((s.loadControl v).engineCleared (s.cutMemory made queryMade)).deriveAll = t at hexec h
  obtain ⟨hrest, hent, hslot, hflags⟩ := h
  simp only [hentry] at hent hslot hflags
  have keeps {α : Type} (g : State → α) : g t = g { (s.loadControl v).engineCleared (s.cutMemory made queryMade) with
      slots := t.slots, entries := t.entries, flags := t.flags } := congrArg g hrest
  have hent' : ∀ e, t.entry e = _ := fun e => (hent e).trans (if_pos (mem_allEntries e))
  refine ⟨t, hexec, keeps State.part, keeps State.windows, keeps State.refusal,
    keeps State.sweepTimer, keeps State.sweepPending, keeps State.sweep, fun n => ?_,
    keeps State.partLatch, keeps State.header, keeps State.held, keeps State.heldCauses,
    keeps State.flight, keeps State.query, keeps State.image, keeps State.waiting,
    keeps State.divisor, keeps State.attnEnable, keeps State.boardBase,
    keeps State.sweepCount, keeps State.writeAll, keeps State.writeVote,
    keeps State.fused, keeps State.attentionRead, keeps State.pending, fun e => ?_,
    (State.sameKeysAndClock_iff _ _).2 (keeps State.keysClock), keeps State.tickPhase,
    keeps State.votes, keeps State.ready, keeps State.cell, keeps State.lastGranted,
    hent', fun f hf => ?_, ?_, fun a hf hq => ?_⟩
  · rw [hslot, hcleared]
    simp [Entry.boundSlots]
    rfl
  · have hdir : t.directory[e] = { s.directory[e] with shown := none } := by
      rw [keeps State.directory]
      exact length_mapVector_get (fun d : DirEntry => { d with shown := none }) s.directory e
    rw [hdir]
    exact ⟨rfl, rfl⟩
  · rcases (hflags f).1 hf with h | ⟨h, -⟩
    · cases h
    · exact h
  · rw [hflags]
    have hno : partFlag .lapse ∉ ((s.loadControl v).engineCleared (s.cutMemory made queryMade)).flags := nofun
    simp only [hno, false_or, true_and, decide_eq_true_eq]
    refine exists_congr fun e => ?_
    rw [and_iff_right (mem_allEntries e), hent']
    exact and_congr_right fun _ => not_congr (s.entry e).cutOff_lapsed
  · rw [keeps State.mem]
    exact State.cutMemory_outside hf hq

end Sys2Proof.Machine
end

