-- ==== Sys2Proof/Proofs/FrameEnds.lean ====
section
/-! Proofs: a frame is finished, and what the slot then does: the next frame, the end by a CLOSE, or the completion of a move
(R116, R118, R120, R158 to R160); the fault of a PLAY, CHECK or MOVE slot (R123, R163). -/

namespace Sys2Proof.Machine

/-! ## A frame is finished (R116, R118, R158) -/

theorem FrameOutcome.countsDone_iff (o : FrameOutcome) :
    o.countsDone = true ↔ o = .delivered ∨ o = .verified ∨ o = .movedOut := by
  simp [FrameOutcome.countsDone, or_assoc]

section
variable {s t u : State} {n : Fin 8} {f : Machine.Frame} {o : FrameOutcome} {packets remaining : Nat}

/-- The outcome entry of a finished frame (R116). -/
def Slot.outcome (x : Slot) (f : Machine.Frame) (o : FrameOutcome) (packets remaining : Nat) : OutcomeEntry where
  seq := match f.tag with | none => 0 | some t => t.seq
  outcome := o
  pos := f.pos
  packets := packets
  remaining := remaining
  takeCount := (x.placeB + 1).toNat % 65536

/-- A finish up to its notice. -/
def State.finishDown (s : State) (n : Fin 8) (f : Machine.Frame) (o : FrameOutcome) (packets remaining : Nat) : State :=
  let entry := (s.slot n).outcome f o packets remaining
  let s := s.modSlot n fun x => { x with chunkPos := (x.chunkPos + 1) % x.geo.frames, frame := none }
  let s := s.setEngine n (fun g => { g with outcomes := g.outcomes.set f.pos entry }) [.outcome f.pos]
  let s := s.advance n (·.advanceB 1)
  let s := if o.countsDone then s.setEngine n (fun g => { g with chunksDone := g.chunksDone + 1 }) [.chunksDone] else s
  if o.countsDone || o == .skippedClass then s.setEngine n (fun g => { g with lastRemaining := remaining }) [.lastRemaining]
  else s

theorem State.finishDown_own (hr : s.part ≠ .stopped) (hp : f.pos < 16) :
    s.Own (s.finishDown n f o packets remaining) n [] := by
  unfold State.finishDown
  extract_lets entry s1 s2 s3 s4
  have h1 : s.Own s1 n [] := State.modSlot_own n hr _
  have h2 : s.Own s2 n [] := h1.trans (State.setEngine_own n h1.running' _ _ (by simp [hp])) (by simp)
  have h3 : s.Own s3 n [] := h2.trans (State.advance_own n h2.running' _) (by simp)
  have h4 : s.Own s4 n [] := by
    unfold s4
    split
    · exact h3.trans (State.setEngine_own n h3.running' _ _ (by simp)) (by simp)
    · exact h3
  split
  · exact h4.trans (State.setEngine_own n h4.running' _ _ (by simp)) (by simp)
  · exact h4

theorem State.finishDown_slot (s : State) (n : Fin 8) (f : Machine.Frame) (o : FrameOutcome) (packets remaining : Nat) :
    (s.finishDown n f o packets remaining).slot n = (s.slot n).finished f o packets remaining := by
  have h1 := o.countsDone_iff
  unfold State.finishDown Slot.finished
  extract_lets entry s1 s2 s3 s4
  have hs3 : s3.slot n = ({ s.slot n with
      chunkPos := ((s.slot n).chunkPos + 1) % (s.slot n).geo.frames, frame := none
      eng := { (s.slot n).eng with outcomes := (s.slot n).eng.outcomes.set f.pos entry } } : Slot).advanceB 1 := by
    simp only [s3, s2, s1, State.advance_slot_self, State.setEngine_slot, State.slot_modSlot_self, if_true]
  have hs4 : s4.slot n = { s3.slot n with
      eng := { (s3.slot n).eng with
        chunksDone := if o = .delivered ∨ o = .verified ∨ o = .movedOut then (s3.slot n).eng.chunksDone + 1
          else (s3.slot n).eng.chunksDone } } := by
    unfold s4
    by_cases hc : o = .delivered ∨ o = .verified ∨ o = .movedOut
    · rw [if_pos (h1.2 hc), if_pos hc, State.setEngine_slot, if_pos rfl]
    · rw [if_neg (mt h1.1 hc), if_neg hc]
  have hlast : (o.countsDone || o == .skippedClass) = true ↔
      o = .delivered ∨ o = .verified ∨ o = .movedOut ∨ o = .skippedClass := by
    rw [Bool.or_eq_true, h1, beq_iff_eq, or_assoc, or_assoc]
  clear_value s4 s3
  by_cases hl : o = .delivered ∨ o = .verified ∨ o = .movedOut ∨ o = .skippedClass
  · rw [if_pos (hlast.2 hl), if_pos hl, State.setEngine_slot, if_pos rfl, hs4, hs3]
    rfl
  · rw [if_neg (mt hlast.1 hl), if_neg hl, hs4, hs3]
    rfl

/-- PROGRESS is noted where the room in the chunk window is at least the notice level. -/
theorem State.finishFrame_eq (hf : (s.slot n).frame = some f) (o : FrameOutcome) (packets remaining : Nat) :
    s.finishFrame n o packets remaining true =
      if ((s.slot n).finished f o packets remaining).noticeDue = true then
        (s.finishDown n f o packets remaining).notify (slotFlag .progress n)
      else s.finishDown n f o packets remaining := by
  have h : s.finishFrame n o packets remaining true =
      if ((s.finishDown n f o packets remaining).slot n).noticeDue = true then
        (s.finishDown n f o packets remaining).notify (slotFlag .progress n)
      else s.finishDown n f o packets remaining := by
    unfold State.finishFrame
    simp only [hf, Bool.true_and]
    rfl
  rw [h, State.finishDown_slot]

/-- What a finish comes to. -/
theorem State.finishFrame_all (hr : s.part ≠ .stopped) (hf : (s.slot n).frame = some f) (hp : f.pos < 16)
    (o : FrameOutcome) (packets remaining : Nat) :
    let t := s.finishFrame n o packets remaining true
    let x := (s.slot n).finished f o packets remaining
    t.slot n = x ∧ s.Own t n [slotFlag .progress n] ∧
      (slotFlag .progress n ∈ t.flags ↔ slotFlag .progress n ∈ s.flags ∨ x.noticeDue = true) := by
  have hslot := s.finishDown_slot n f o packets remaining
  have hown := State.finishDown_own (n := n) (o := o) (packets := packets) (remaining := remaining) hr hp
  have hflags : slotFlag .progress n ∈ (s.finishDown n f o packets remaining).flags ↔ slotFlag .progress n ∈ s.flags :=
    hown.flags _ (by simp)
  dsimp only
  rw [State.finishFrame_eq hf]
  split
  next h =>
    refine ⟨by rw [State.notify_slot, hslot], (hown.mono (by simp)).trans (State.notify_own n hown.running' _) (by simp), ?_⟩
    rw [State.mem_notify_flags hown.running']
    exact iff_of_true (.inl rfl) (.inr h)
  next h => exact ⟨hslot, hown.mono (by simp), hflags.trans (or_iff_left h).symm⟩

end

/-! ## What a slot does after a finish -/

section
variable {s t u v : State} {n : Fin 8} {e : Fin 64} {x z : Slot} {y : Entry} {fs gs : List Flag}

/-- The move of slot `n` on entry `e` is complete: its mark has reached the chunk count (R159). -/
def State.moveComplete (s : State) (n : Fin 8) (e : Fin 64) : Prop :=
  (s.slot n).mode = .move ∧ (s.entry e).state = .moving ∧ (s.entry e).moveMark = (s.entry e).chunkCount

theorem State.afterFinish_completes (hb : (s.slot n).boundEntry = some e) (hc : s.moveComplete n e) :
    s.afterFinish n = s.completeMove n e := by
  obtain ⟨hm, hs, hk⟩ := hc
  unfold State.afterFinish
  simp only [hm, hb, hs, hk, and_self, if_true]

/-- A CLOSE being served ends the slot. -/
theorem State.afterFinish_closes (hb : (s.slot n).boundEntry = some e) (hc : ¬ s.moveComplete n e)
    (hm : (s.slot n).mode ≠ .record) (ha : (s.slot n).closeAsked = true) : s.afterFinish n =
      (((s.toIdle n).ending (s.slot n).mode e).completeOrder n (s.slot n).closeServed).notify (slotFlag .progress n) := by
  unfold State.afterFinish
  dsimp only
  split
  next hmove hbound =>
    rw [hb] at hbound
    cases hbound
    rw [if_neg fun h => hc ⟨hmove, h⟩, if_pos ha]
    unfold State.quitMove State.ending
    rw [hmove, hb]
    rfl
  next hother =>
    have hmove : (s.slot n).mode ≠ .move := fun h => hother e h hb
    rw [if_pos ha]
    unfold State.endPlay State.ending
    simp only [hb, hm, hmove, if_false]

/-- Otherwise it waits for its next frame. -/
theorem State.afterFinish_waits (hb : (s.slot n).boundEntry = some e) (hc : ¬ s.moveComplete n e)
    (ha : (s.slot n).closeAsked = false) : s.afterFinish n = s.setSlotState n .waiting := by
  unfold State.afterFinish
  dsimp only
  split
  next hmove hbound =>
    rw [hb] at hbound
    cases hbound
    rw [if_neg fun h => hc ⟨hmove, h⟩, ha, if_neg nofun]
  next => rw [ha, if_neg nofun]

/-- The release of a slot whose entry, bound under it, has been changed before (R159). -/
theorem State.Leaves.of_marks (ho : s.Own u n gs) (hm : u.MarksBound v e) (hb : (s.entry e).binding = some n)
    (hbound : (u.slot n).boundEntry = some e) (hd : u.sameEntriesBut v e) (hw : v.waiting = u.waiting)
    (hf : v.flight = u.flight) (hfr : u.Frame v n fs) (hg : gs ⊆ fs) :
    s.Leaves (v.toIdle n) n e (u.slot n).toIdle ((v.entry e).unbind n) fs := by
  have hbv : (v.slot n).boundEntry = some e := by rw [hm.slots n]; exact hbound
  have h := State.Leaves.toIdle (fs := fs) hfr.running' hbv
  refine ⟨h.slot.trans ?_, h.entry, fun d hde => ?_, fun m hmn => ?_, ?_, ?_, ?_⟩
  · rw [hm.slots n]
    rfl
  · rw [h.others d hde, hd d hde, ho.entry d]
  · have hmem : (s.entry e).boundSlots.contains m = (s.entry e).players.contains m := by
      rw [Bool.eq_iff_iff]
      simp [Entry.boundSlots, hb, hmn]
    rw [h.sameSlots m hmn, hm.slots m, ho.slots m hmn, ho.entry, hmem, h.entry, Entry.gone_unbind]
  · rw [h.waiting, hw, ho.waiting]
  · rw [h.flight, State.orphaned, State.orphaned, hf, ho.flight]
  · exact ((ho.toFrame.mono hg).trans hfr (by simp)).trans h.frame (by simp)

/-- What the completion of a move does to the entry before the slot is released (R159). -/
def State.moved (s : State) (e : Fin 64) : State :=
  if (s.entry e).segments.all fun g => g.cls == .once then s.modEntry e fun y => y.spent .moved else s.endMove e

theorem State.completeMove_eq (s : State) (n : Fin 8) (e : Fin 64) : s.completeMove n e =
    ((((s.moved e).toIdle n).completeOrder n (s.slot n).openServed).completeOrder n (s.slot n).closeServed).notify
      (slotFlag .progress n) := rfl

theorem State.moved_all (hr : s.part ≠ .stopped) (hs : (s.entry e).state = .moving) :
    let t := s.moved e
    let y := s.entry e
    s.MarksBound t e ∧ s.sameEntriesBut t e ∧ t.waiting = s.waiting ∧ t.flight = s.flight ∧
      s.Frame t n [partFlag .lapse] ∧ ((∀ g ∈ y.segments, g.cls = .once) → t.entry e = y.spent .moved) ∧
      (¬ (∀ g ∈ y.segments, g.cls = .once) → t.entry e = y.moveEnded s.clock (s.playBound e)) := by
  have hall : ((s.entry e).segments.all fun g => g.cls == .once) = true ↔ ∀ g ∈ (s.entry e).segments, g.cls = .once := by
    simp
  dsimp only
  unfold State.moved
  by_cases h : ∀ g ∈ (s.entry e).segments, g.cls = .once
  · rw [if_pos (hall.2 h)]
    refine ⟨.of_slots (fun _ => rfl) ?_, fun d hd => ?_, rfl, rfl, (State.modEntry_frame n e hr _).mono (by simp),
      fun _ => State.entry_modEntry_self .., fun hn => absurd h hn⟩
    · rw [State.entry_modEntry_self]
      unfold Entry.gone
      rw [hs]
      rfl
    · rw [State.entry_modEntry, if_neg hd]
  · rw [if_neg (mt hall.1 h)]
    refine ⟨State.endMove_marks s e, fun d hd => ?_, ?_, ?_, State.endMove_frame n e hr, fun h' => absurd h' h, fun _ => ?_⟩
    · rw [State.endMove_entry, if_neg hd]
    · rw [State.endMove_eq]
    · rw [State.endMove_eq]
    · rw [State.endMove_entry, if_pos rfl]

/-- From `s` to `t` a frame of slot `n` has been finished, leaving the slot as `z`, and the rest is as the slot's stay or its
leaving has it. -/
structure State.Finishing (s t : State) (n : Fin 8) (e : Fin 64) (z : Slot) : Prop where
  finishes : s.finishes t n e z
  waiting : t.waiting = s.waiting ∨ t.waiting = s.waiting.filter (· ≠ n)
  flight : t.flight = s.flight ∨ t.flight = s.orphaned n
  frame : s.Frame t n [slotFlag .progress n, slotFlag .result n, partFlag .lapse]

theorem Slot.served_latch (x : Slot) (number : Option Mark) : (x.served number).latch = x.latch := by
  unfold Slot.served
  split <;> rfl

/-- A move completes. -/
theorem State.Own.completeMove (ho : s.Own u n [slotFlag .progress n]) (hb : s.bindsTo n e)
    (hbound : (u.slot n).boundEntry = some e) (hc : s.moveComplete n e) (hum : (u.slot n).mode = .move) :
    let t := u.completeMove n e
    s.moveCompletes t n e (u.slot n) ∧ t.waiting = s.waiting.filter (· ≠ n) ∧ t.flight = s.orphaned n ∧
      s.Frame t n [slotFlag .progress n, slotFlag .result n, partFlag .lapse] := by
  obtain ⟨hm, hs, -⟩ := hc
  have hbind : (s.entry e).binding = some n := hb.2.2.2.1 hm hs
  obtain ⟨m1, m2, m3, m4, m5, m6, m7⟩ := State.moved_all (n := n) (e := e) ho.running' (by rw [ho.entry]; exact hs)
  have h := State.Leaves.of_marks (fs := [slotFlag .progress n, slotFlag .result n, partFlag .lapse]) ho m1 hbind hbound
    m2 m3 m4 (m5.mono (by simp)) (by simp)
  have hplay : u.playBound e = s.playingOn (s.entry e) := by
    have hmode : ∀ m, (u.slot m).mode = (s.slot m).mode := fun m => by
      by_cases hmn : m = n
      · rw [hmn, hum, hm]
      · rw [ho.slots m hmn]
    unfold State.playBound State.playingOn
    simp only [ho.entry, hmode]
  rw [ho.entry, ho.clock, hplay] at m7
  rw [ho.entry] at m6
  dsimp only
  rw [State.completeMove_eq]
  generalize u.moved e = v at h m6 m7
  have h1 := State.completeOrder_own n h.frame.running' (u.slot n).openServed
  have h2 := State.completeOrder_own n h1.running' (u.slot n).closeServed
  have h3 := State.notify_own n h2.running' (slotFlag .progress n)
  have h' := ((h.then_own h1 (by simp)).then_own h2 (by simp)).then_own h3 (by simp)
  have hslot1 : ((v.toIdle n).completeOrder n (u.slot n).openServed).slot n =
      (u.slot n).toIdle.served (u.slot n).openServed := by
    rw [State.completeOrder_slot, h.slot]
  refine ⟨⟨?_, fun hall => h'.entry.trans (by rw [m6 hall]), fun hall => h'.entry.trans (by rw [m7 hall]), h'.others,
    h'.players, ?_, fun hserved => h3.raised _ ?_, h'.frame.flags⟩, h'.waiting, h'.flight, h'.frame⟩
  · rw [State.notify_slot, State.completeOrder_slot, hslot1]
  · rw [State.mem_notify_flags h2.running']
    exact .inl rfl
  · rcases hserved with hopen | hclose
    · refine h2.raised _ (State.completeOrder_raises n h.frame.running' ?_)
      rw [h.slot]
      exact hopen
    · refine State.completeOrder_raises n h1.running' ?_
      rw [hslot1, Slot.served_latch]
      exact hclose

/-- A slot that goes on after a finish waits, with the notice judged (R116, R118). -/
theorem State.Own.waits (ho : s.Own u n [slotFlag .progress n])
    (hp : slotFlag .progress n ∈ u.flags ↔ slotFlag .progress n ∈ s.flags ∨ (u.slot n).noticeDue = true)
    (ha : (u.slot n).closeAsked = false) :
    s.frameEnds (u.setSlotState n .waiting) n e (u.slot n) ∧ s.Own (u.setSlotState n .waiting) n [slotFlag .progress n] := by
  have h := ho.trans (State.setSlotState_own n ho.running' .waiting) (by simp)
  refine ⟨⟨fun _ => ⟨?_, h.slots, h.entries, ?_, h.flags⟩, fun hc => absurd (ha.symm.trans hc) nofun⟩, h⟩
  · rw [State.setSlotState_slot, if_pos rfl]
    rfl
  · rw [State.setSlotState_flags]
    exact hp

/-- What follows a finish is as the rules have it. -/
theorem State.Own.finishing (ho : s.Own u n [slotFlag .progress n]) (hb : s.bindsTo n e)
    (hbound : (u.slot n).boundEntry = some e) (hm : (s.slot n).mode ≠ .record) (hum : (u.slot n).mode = (s.slot n).mode)
    (hp : slotFlag .progress n ∈ u.flags ↔ slotFlag .progress n ∈ s.flags ∨ (u.slot n).noticeDue = true) :
    s.Finishing (u.afterFinish n) n e (u.slot n) := by
  have hiff : u.moveComplete n e ↔ s.moveComplete n e := by
    unfold State.moveComplete
    rw [hum, ho.entry]
  have hcomplete : ((u.slot n).mode = .move ∧ (s.entry e).state = .moving ∧
      (s.entry e).moveMark = (s.entry e).chunkCount) ↔ s.moveComplete n e := by rw [hum]; rfl
  by_cases hc : s.moveComplete n e
  · obtain ⟨c1, c2, c3, c4⟩ := ho.completeMove hb hbound hc (hum.trans hc.1)
    rw [State.afterFinish_completes hbound (hiff.2 hc)]
    exact ⟨⟨fun _ => c1, fun hn => absurd (hcomplete.2 hc) hn⟩, .inr c2, .inr c3, c4⟩
  · have hnot := mt hiff.1 hc
    cases ha : (u.slot n).closeAsked with
    | true =>
      obtain ⟨hleaves, -, hprog, hres⟩ := (ho.mono
        (fs := [slotFlag .progress n, slotFlag .result n, partFlag .lapse]) (by simp)).closes (x := u.slot n) hb hbound hum
          (by simp)
      rw [State.afterFinish_closes hbound hnot (hum ▸ hm) ha, hum]
      exact ⟨⟨fun h => absurd (hcomplete.1 h) hc,
        fun _ => ⟨fun h => absurd (ha.symm.trans h) nofun, fun _ => hleaves.endsByClose hprog hres⟩⟩, .inr hleaves.waiting,
        .inr hleaves.flight, hleaves.frame⟩
    | false =>
      obtain ⟨w1, w2⟩ := ho.waits (e := e) hp ha
      rw [State.afterFinish_waits hbound hnot ha]
      exact ⟨⟨fun h => absurd (hcomplete.1 h) hc, fun _ => w1⟩, .inl w2.waiting, .inl w2.flight, w2.toFrame.mono (by simp)⟩

/-- A frame in hand ends with an outcome, after what went on on the slot alone (R115, R116). -/
theorem State.Own.endFrame {f : Machine.Frame} (ho : s.Own u n []) (hb : s.bindsTo n e) (hm : (s.slot n).mode ≠ .record)
    (hbound : (u.slot n).boundEntry = some e) (hum : (u.slot n).mode = (s.slot n).mode) (hf : (u.slot n).frame = some f)
    (hp : f.pos < 16) (o : FrameOutcome) (packets remaining : Nat) :
    s.Finishing (u.endFrame n o packets remaining) n e ((u.slot n).finished f o packets remaining) := by
  obtain ⟨h1, h2, h3⟩ := State.finishFrame_all (n := n) ho.running' hf hp o packets remaining
  have hdef : u.endFrame n o packets remaining = (u.finishFrame n o packets remaining true).afterFinish n := by
    unfold State.endFrame
    rw [hf, if_neg nofun]
  rw [hdef]
  generalize u.finishFrame n o packets remaining true = v at h1 h2 h3
  have hown := (ho.mono (fs := [slotFlag .progress n]) (by simp)).trans h2 (by simp)
  have hflags := ho.flags (slotFlag .progress n) (by simp)
  have h := hown.finishing hb (by rw [h1]; exact hbound) hm (by rw [h1]; exact hum) (by rw [h1, h3, hflags])
  rwa [h1] at h

/-! ## The fault of a PLAY, CHECK or MOVE slot (R123, R163) -/

/-- With no batch in flight. -/
theorem State.Own.faultFrameSlot (ho : s.Own u n []) (hb : s.bindsTo n e) (hm : (s.slot n).mode ≠ .record)
    (hbound : (u.slot n).boundEntry = some e) (hum : (u.slot n).mode = (s.slot n).mode) (hf : u.flight = none)
    (f : SlotFault) :
    let t := u.faultFrameSlot n f
    s.faultsTo t n e (u.slot n) f ∧ t.flight = s.orphaned n ∧ t.sweep = s.sweep ∧ s.sameMemoryBut t (s.inRecord n) ∧
      t.waiting = s.waiting.filter (· ≠ n) ∧ s.Frame t n [slotFlag .fault n, partFlag .lapse] := by
  have hdef : u.faultFrameSlot n f = (u.toFaulted n f).ending (s.slot n).mode e := by
    have hdrain : u.drainDeliver n = u := by
      unfold State.drainDeliver
      rw [hf]
    unfold State.faultFrameSlot State.ending
    simp only [hdrain, hbound, hum, hm, if_false]
  have hcode : (u.slot n).faultCode f = f := if_neg fun h => hm (hum.symm.trans h.1)
  have hleaves := (ho.mono (fs := [slotFlag .fault n, partFlag .lapse]) (by simp)).toFaulted_ending (x := u.slot n) hb hbound
    hum f (by simp) (by simp)
  rw [hcode] at hleaves
  dsimp only
  rw [hdef]
  obtain ⟨f1, f2, f3, f4⟩ := hleaves.faultsTo (State.toFaulted_ending_raises ho.running' f _)
  exact ⟨f1, f2, f3, f4, hleaves.waiting, hleaves.frame⟩

end

end Sys2Proof.Machine
end

