-- ==== Sys2Proof/Proofs/VerifyBatch.lean ====
section
/-! Proofs: the verify pass of a frame: the tag checks, the ranges, the check value and the permit (R38, R39, R112, R113,
R128, R129, R155). -/

namespace Sys2Proof.Machine

/-! ## The tag checks (R38, R112, R155) -/

/-- The verdict on a tag as an answer. -/
def TagVerdict.answer : TagVerdict → Except FrameOutcome (Key × Bool)
  | .refused o => .error o
  | .passed key raiseDue => .ok (key, raiseDue)

section
variable {x : Entry} {e : Fin 64} {mode : Mode} {bytes : List Byte} {seq seg : Nat}

/-- A sequence at or beyond the chunk count passes in an interrupted HELD entry, on its last segment. -/
theorem checkSequence_beyond (hm : mode ≠ .move) (hs : ¬ seq < x.chunkCount) : checkSequence x mode seq seg =
    if x.state = .live then some .notYet
    else if x.state = .held ∧ x.interrupted = true ∧ seg + 1 = x.segments.length then none
    else some .beyondEnd := by
  unfold checkSequence
  rw [if_neg hm, if_neg hs]
  cases x.state <;> simp

/-- Step 5 as the checks on the sequence. -/
theorem judgedBy_sequence {β : Type} {rest : List (Prop × FrameOutcome)} {v : Except FrameOutcome β} {ok : β → Prop}
    (h : judgedBy rest v ok) :
    let beyond := mode ≠ .move ∧ x.chunkCount ≤ seq
    judgedBy ((mode = .move ∧ seq ≠ x.moveMark, .outOfOrder) :: (beyond ∧ x.state = .live, .notYet) ::
      (beyond ∧ ¬ (x.state = .held ∧ x.interrupted = true ∧ seg + 1 = x.segments.length), .beyondEnd) :: rest)
      ((checkSequence x mode seq seg).elim v .error) ok := by
  dsimp only
  by_cases hm : mode = .move
  · have hpass : judgedBy (((mode ≠ .move ∧ x.chunkCount ≤ seq) ∧ x.state = .live, FrameOutcome.notYet) ::
        ((mode ≠ .move ∧ x.chunkCount ≤ seq) ∧
          ¬ (x.state = .held ∧ x.interrupted = true ∧ seg + 1 = x.segments.length), .beyondEnd) :: rest) v ok :=
      judgedBy_passes (fun h => h.1.1 hm) (judgedBy_passes (fun h => h.1.1 hm) h)
    unfold checkSequence
    rw [if_pos hm]
    by_cases hs : seq = x.moveMark
    · rw [if_pos hs]
      exact judgedBy_passes (fun h => h.2 hs) hpass
    · rw [if_neg hs]
      exact judgedBy_fails ⟨hm, hs⟩
  · refine judgedBy_passes (fun h => hm h.1) ?_
    by_cases hlt : seq < x.chunkCount
    · unfold checkSequence
      rw [if_neg hm, if_pos hlt]
      exact judgedBy_passes (fun h => absurd hlt (not_lt.2 h.1.2)) (judgedBy_passes (fun h => absurd hlt (not_lt.2 h.1.2)) h)
    · have hbeyond : mode ≠ .move ∧ x.chunkCount ≤ seq := ⟨hm, not_lt.1 hlt⟩
      rw [checkSequence_beyond hm hlt]
      by_cases hl : x.state = .live
      · rw [if_pos hl]
        exact judgedBy_fails ⟨hbeyond, hl⟩
      · rw [if_neg hl]
        refine judgedBy_passes (fun h => hl h.2) ?_
        by_cases hh : x.state = .held ∧ x.interrupted = true ∧ seg + 1 = x.segments.length
        · rw [if_pos hh]
          exact judgedBy_passes (fun h => h.2 hh) h
        · rw [if_neg hh]
          exact judgedBy_fails ⟨hbeyond, hh⟩

/-- The steps after the sequence: the segment's chunks, and its key. -/
def checkSegment (x : Entry) (g : Segment) (mode : Mode) (seq : Nat) : TagVerdict :=
  if seq < x.chunkCount ∧ (seq < g.first ∨ g.first + g.count ≤ seq) then .refused .noSegment
  else if x.state = .lapsed ∨ x.state = .moved then .refused .lapsed
  else match g.key with
    | none => .refused .lapsed
    | some key => .passed key (decide (mode ≠ .move ∧ x.chunkCount ≤ seq))

theorem checkTag_eq (x : Entry) (e : Fin 64) (mode : Mode) (bytes : List Byte) :
    (checkTag x e mode bytes).answer =
      if bytes.take 4 ≠ [0x4C, 0x32, 0x34, 0x38] ∨ field bytes 4 1 ≠ 1 then .error .noMarker
      else if field bytes 5 1 ≠ e.val ∨ field bytes 6 2 ≠ x.generation then .error .wrongRecording
      else if (tagOf bytes).count = 0 ∨ x.chunkLength < (tagOf bytes).count then .error .badLength
      else (x.segments[(tagOf bytes).seg]?).elim (.error .noSegment) fun g =>
        (checkSequence x mode (tagOf bytes).seq (tagOf bytes).seg).elim
          (checkSegment x g mode (tagOf bytes).seq).answer .error := by
  unfold checkTag
  dsimp only
  rw [apply_ite TagVerdict.answer]
  refine if_congr .rfl rfl ?_
  rw [apply_ite TagVerdict.answer]
  refine if_congr .rfl rfl ?_
  rw [apply_ite TagVerdict.answer]
  refine if_congr .rfl rfl ?_
  show TagVerdict.answer (match x.segments[(tagOf bytes).seg]? with
    | none => .refused .noSegment
    | some g =>
      match checkSequence x mode (tagOf bytes).seq (tagOf bytes).seg with
      | some o => .refused o
      | none => checkSegment x g mode (tagOf bytes).seq) = _
  cases x.segments[(tagOf bytes).seg]? with
  | none => rfl
  | some g => cases checkSequence x mode (tagOf bytes).seq (tagOf bytes).seg <;> rfl

theorem checkSegment_judged {seg : Nat} {g : Segment} (hg : x.segments[seg]? = some g) :
    let segment (p : Segment → Prop) : Prop := ∃ g, x.segments[seg]? = some g ∧ p g
    judgedBy [(seq < x.chunkCount ∧ segment (fun g => seq < g.first ∨ g.first + g.count ≤ seq), FrameOutcome.noSegment),
        (x.state = .lapsed ∨ x.state = .moved ∨ segment (·.key = none), .lapsed)]
      (checkSegment x g mode seq).answer fun r =>
        ∃ g, x.segments[seg]? = some g ∧ g.key = some r.1 ∧ r.2 = decide (mode ≠ .move ∧ x.chunkCount ≤ seq) := by
  have hseg (p : Segment → Prop) : (∃ h, x.segments[seg]? = some h ∧ p h) ↔ p g := by simp [hg]
  dsimp only
  unfold checkSegment
  rw [hseg, hseg, apply_ite TagVerdict.answer]
  refine judgedBy_check .rfl fun _ => ?_
  by_cases hgone : x.state = .lapsed ∨ x.state = .moved
  · rw [if_pos hgone]
    exact judgedBy_fails (by tauto)
  · rw [if_neg hgone]
    cases hk : g.key with
    | none => exact judgedBy_fails (.inr (.inr rfl))
    | some key =>
      refine judgedBy_passes (fun h => ?_) (judgedBy_nil ⟨g, hg, hk, rfl⟩)
      rcases h with h | h | h
      · exact hgone (.inl h)
      · exact hgone (.inr h)
      · cases h

/-- The tag checks in their order, and the key and the raise of a tag that passes them. -/
theorem checkTag_judged : judgedBy (x.tagChecks e mode bytes) (checkTag x e mode bytes).answer fun r =>
    ∃ g, x.segments[(tagOf bytes).seg]? = some g ∧ g.key = some r.1 ∧
      r.2 = decide (mode ≠ .move ∧ x.chunkCount ≤ (tagOf bytes).seq) := by
  rw [checkTag_eq]
  unfold Entry.tagChecks
  dsimp only
  refine judgedBy_check .rfl fun _ => judgedBy_check .rfl fun _ => judgedBy_check .rfl fun _ => ?_
  cases hg : x.segments[(tagOf bytes).seg]? with
  | none => exact judgedBy_fails (List.getElem?_eq_none_iff.1 hg)
  | some g =>
    refine judgedBy_passes (fun h => ?_) ?_
    · rw [List.getElem?_eq_none_iff.2 h] at hg
      cases hg
    · have h := checkSegment_judged (mode := mode) (seq := (tagOf bytes).seq) hg
      rw [hg] at h
      exact judgedBy_sequence h

theorem checkTag_refused {o : FrameOutcome} (h : firstFailing (x.tagChecks e mode bytes) o) :
    checkTag x e mode bytes = .refused o := by
  have h1 := checkTag_judged.1 o h
  cases hc : checkTag x e mode bytes with
  | refused o' =>
    rw [hc] at h1
    cases h1
    rfl
  | passed key raiseDue => rw [hc] at h1; cases h1

theorem checkTag_passed {g : Segment} {key : Key} (h : noneFailing (x.tagChecks e mode bytes))
    (hg : x.segments[(tagOf bytes).seg]? = some g) (hk : g.key = some key) :
    checkTag x e mode bytes = .passed key (decide (mode ≠ .move ∧ x.chunkCount ≤ (tagOf bytes).seq)) := by
  obtain ⟨⟨k, r⟩, h1, g', h2, h3, h4⟩ := checkTag_judged.2 h
  cases hc : checkTag x e mode bytes with
  | refused o => rw [hc] at h1; cases h1
  | passed k' r' =>
    rw [hc] at h1
    cases h1
    rw [hg] at h2
    cases h2
    rw [hk] at h3
    cases h3
    exact congrArg _ h4

end

/-! ## The batch -/

section
variable {s t : State} {w : Writes} {n : Fin 8} {e : Fin 64} {f h : Machine.Frame} {tag : TagRead}

theorem execVerifyBatch_orphan (hfl : s.flight = some ⟨.slot n, .verify, true⟩) (hw : writesInSpace w = true) :
    exec (.verifyBatch w) s = .next { s.recorded w with flight := none } := by
  show execVerifyBatch w s = _
  unfold execVerifyBatch
  rw [withWrites_of hw, show (s.recorded w).flight = _ from hfl]
  rfl

theorem execVerifyBatch_of (hfl : s.flight = some ⟨.slot n, .verify, false⟩) (hw : writesInSpace w = true)
    (hb : (s.slot n).boundEntry = some e) (hf : (s.slot n).frame = some f) :
    exec (.verifyBatch w) s = .next ((s.recorded w).freeCipher.verifyFrame n e f) := by
  show execVerifyBatch w s = _
  unfold execVerifyBatch
  rw [withWrites_of hw, show (s.recorded w).flight = _ from hfl]
  dsimp only
  rw [show ((s.recorded w).freeCipher.slot n).boundEntry = _ from hb, show ((s.recorded w).freeCipher.slot n).frame = _ from hf]

/-- The address of the tag of frame `f` (R28). -/
def Slot.tagAt (x : Slot) (f : Machine.Frame) : Nat := x.geo.chunkBase + f.pos * frameSize x.geo.chunkLength

theorem State.verifyFrame_unread (ht : f.tag = none) (hw : ¬ inWindow s.windows false ((s.slot n).tagAt f) 64) :
    s.verifyFrame n e f = s.faultFrameSlot n .window := by
  unfold State.verifyFrame
  rw [ht]
  exact if_neg (mt (covers_iff ..).1 hw)

/-- The first batch reads the tag. -/
theorem State.verifyFrame_read (ht : f.tag = none) (hw : inWindow s.windows false ((s.slot n).tagAt f) 64) :
    s.verifyFrame n e f =
      match checkTag (s.entry e) e (s.slot n).mode (s.mem.read ((s.slot n).tagAt f) 64) with
      | .refused o => (s.modSlot n fun x =>
          { x with frame := some { f with tag := some (tagOf (s.mem.read ((s.slot n).tagAt f) 64)) } }).endFrame n o 0 0
      | .passed key raiseDue => s.verifyRange n e
          { f with
            tag := some (tagOf (s.mem.read ((s.slot n).tagAt f) 64)), key := key, raiseDue := raiseDue }
          (tagOf (s.mem.read ((s.slot n).tagAt f) 64)) := by
  unfold State.verifyFrame
  rw [ht]
  exact if_pos ((covers_iff ..).2 hw)

theorem State.verifyFrame_refused {o : FrameOutcome} (ht : f.tag = none)
    (hw : inWindow s.windows false ((s.slot n).tagAt f) 64)
    (hfail : firstFailing ((s.entry e).tagChecks e (s.slot n).mode (s.mem.read ((s.slot n).tagAt f) 64)) o) :
    s.verifyFrame n e f = (s.modSlot n fun x =>
      { x with frame := some { f with tag := some (tagOf (s.mem.read ((s.slot n).tagAt f) 64)) } }).endFrame n o 0 0 := by
  rw [State.verifyFrame_read ht hw, checkTag_refused hfail]

/-- With the tag known the next range is read. -/
theorem State.verifyFrame_known (hk : s.tagKnown n e f h tag) : s.verifyFrame n e f = s.verifyRange n e h tag := by
  rcases hk with ⟨ht, rfl⟩ | ⟨ht, hw, hnone, rfl, g, key, hg, hkey, rfl⟩
  · unfold State.verifyFrame
    rw [ht]
  · rw [State.verifyFrame_read ht hw]
    have hc := checkTag_passed hnone hg hkey
    unfold Slot.tagAt
    rw [hc]

theorem State.verifyRange_unread
    (hw : ¬ inWindow s.windows false ((s.slot n).rangeAt h) (188 * min 16 (tag.count - 16 * h.verified))) :
    s.verifyRange n e h tag = s.faultFrameSlot n .window := if_neg (mt (covers_iff ..).1 hw)

section
variable {g : Machine.Frame}
  (hg : g = h.withRange (s.mem.read ((s.slot n).rangeAt h) (188 * min 16 (tag.count - 16 * h.verified))))
  (hw : inWindow s.windows false ((s.slot n).rangeAt h) (188 * min 16 (tag.count - 16 * h.verified)))
include hg hw

/-- A range is read, and the last one decides (R39). -/
theorem State.verifyRange_read :
    let u := s.modSlot n fun x => { x with frame := some g }
    s.verifyRange n e h tag =
      if g.verified < (tag.count + 15) / 16 then u
      else if (g.chain.feed (frameCheckKey g.key) tag.bytes).finish (frameCheckKey g.key) = tag.check then
        u.frameVerified n e tag g.raiseDue
      else u.endFrame n .badCheck 0 0 := by
  subst hg
  exact if_pos ((covers_iff ..).2 hw)

theorem State.verifyRange_goesOn (hlast : ¬ (tag.count + 15) / 16 ≤ g.verified) :
    s.verifyRange n e h tag = s.modSlot n fun x => { x with frame := some g } := by
  rw [State.verifyRange_read hg hw]
  exact if_pos (not_le.1 hlast)

theorem State.verifyRange_differs (hlast : (tag.count + 15) / 16 ≤ g.verified)
    (hc : ¬ (g.chain.feed (frameCheckKey g.key) tag.bytes).finish (frameCheckKey g.key) = tag.check) :
    s.verifyRange n e h tag = (s.modSlot n fun x => { x with frame := some g }).endFrame n .badCheck 0 0 := by
  rw [State.verifyRange_read hg hw]
  rw [if_neg (not_lt.2 hlast), if_neg hc]

theorem State.verifyRange_agrees (hlast : (tag.count + 15) / 16 ≤ g.verified)
    (hc : (g.chain.feed (frameCheckKey g.key) tag.bytes).finish (frameCheckKey g.key) = tag.check) :
    s.verifyRange n e h tag = (s.modSlot n fun x => { x with frame := some g }).frameVerified n e tag g.raiseDue := by
  rw [State.verifyRange_read hg hw]
  rw [if_neg (not_lt.2 hlast), if_pos hc]

end

end

end Sys2Proof.Machine
end

