-- ==== Sys2Proof/Proofs/VerifiedFrame.lean ====
section
/-! Proofs: a frame whose check value agrees: recovery raise, evidence raise, permit and judgement (R23, R39, R112, R113,
R128, R129). -/

namespace Sys2Proof.Machine

/-! ## The recovery raise (R23, R113) -/

theorem growLast_eq (k stamp : Nat) (gs : List Segment) : growLast k stamp gs =
    gs.dropLast ++ (gs.getLast?.map fun g =>
      { g with
        count := g.count + k
        lastStamp := some (match g.lastStamp with | none => stamp | some l => max l stamp) }).toList := by
  rcases List.eq_nil_or_concat gs with rfl | ⟨init, last, rfl⟩
  · rfl
  · rw [List.concat_eq_append, growLast_concat, List.dropLast_concat, List.getLast?_concat]
    cases h : last.lastStamp <;> simp [growSegment, optMax, h]

/-- The condition of the raise. -/
def Entry.raises (x : Entry) (seq : Nat) : Prop := x.state = .held ∧ x.interrupted = true ∧ x.chunkCount ≤ seq

theorem Entry.recovered_raised {x : Entry} {t : TagRead} (h : x.raises t.seq) (clock : Nat) :
    x.recovered t clock = (x.raiseCount t.seq t.stamp).derivedAt clock := by
  unfold Entry.recovered Entry.raiseCount
  rw [growLast_eq]
  exact if_pos h

theorem Entry.recovered_stays {x : Entry} {t : TagRead} (h : ¬ x.raises t.seq) (clock : Nat) : x.recovered t clock = x :=
  if_neg h

section
variable {s t u : State} {n : Fin 8} {e : Fin 64}

/-- An entry still judged after a derivation has its lapse time ahead. -/
theorem Entry.derivedAt_ahead {x : Entry} {clock : Nat} (hj : (x.derivedAt clock).judged = true) :
    x.derivedAt clock = { x with lapseTime := x.deriveLapse } ∧ ∀ c, x.deriveLapse = some c → clock < c := by
  unfold Entry.derivedAt at hj ⊢
  cases hd : x.deriveLapse with
  | none => exact ⟨rfl, nofun⟩
  | some c =>
    rw [hd] at hj
    dsimp only at hj ⊢
    by_cases hc : c ≤ clock
    · rw [if_pos hc] at hj
      cases hj
    · rw [if_neg hc]
      refine ⟨rfl, fun c' h => ?_⟩
      cases h
      omega

theorem State.setEntry_setEntry (s : State) (e : Fin 64) (x y : Entry) : (s.setEntry e x).setEntry e y = s.setEntry e y := by
  unfold State.setEntry
  simp only [Vector.set_set]

theorem State.setEntry_same (s : State) (e : Fin 64) : s.setEntry e (s.entry e) = s := by
  unfold State.setEntry State.entry
  simp

theorem State.recoveryRaise_raises {seq : Nat} (h : (s.entry e).raises seq) (stamp : Nat) :
    s.recoveryRaise e seq stamp = (s.modEntry e fun x => x.raiseCount seq stamp).derive e := if_pos h

theorem State.recoveryRaise_stays {seq : Nat} (h : ¬ (s.entry e).raises seq) (stamp : Nat) :
    s.recoveryRaise e seq stamp = s := if_neg h

/-- The raise made where it is due. -/
def State.raisedBy (s : State) (e : Fin 64) (tag : TagRead) (raiseDue : Bool) : State :=
  if raiseDue then s.recoveryRaise e tag.seq tag.stamp else s

/-- What it makes of the entry. -/
def Entry.raisedBy (x : Entry) (tag : TagRead) (raiseDue : Bool) (clock : Nat) : Entry :=
  if raiseDue then x.recovered tag clock else x

/-- A raise that leaves the entry judged is on the entry alone. -/
theorem State.raisedBy_eq {tag : TagRead} {raiseDue : Bool}
    (hj : ((s.entry e).raisedBy tag raiseDue s.clock).judged = true) :
    s.raisedBy e tag raiseDue = s.setEntry e ((s.entry e).raisedBy tag raiseDue s.clock) := by
  unfold State.raisedBy Entry.raisedBy at *
  cases raiseDue with
  | false => exact (s.setEntry_same e).symm
  | true =>
    simp only [if_true] at hj ⊢
    by_cases hr : (s.entry e).raises tag.seq
    · rw [Entry.recovered_raised hr] at hj ⊢
      obtain ⟨h1, h2⟩ := Entry.derivedAt_ahead hj
      have hself : (s.modEntry e fun x => x.raiseCount tag.seq tag.stamp).entry e =
        (s.entry e).raiseCount tag.seq tag.stamp := State.entry_modEntry_self ..
      rw [State.recoveryRaise_raises hr, State.derive_ahead (by rw [hself]; exact h2), h1]
      unfold State.modEntry
      rw [State.setEntry_setEntry, State.entry_setEntry_self]
    · rw [Entry.recovered_stays hr, State.setEntry_same, State.recoveryRaise_stays hr]

/-- The raise keeps the binding, and the state of an entry that stays judged. -/
theorem Entry.raisedBy_keeps {x : Entry} {tag : TagRead} {raiseDue : Bool} {clock : Nat}
    (hj : (x.raisedBy tag raiseDue clock).judged = true) :
    (x.raisedBy tag raiseDue clock).binding = x.binding ∧ (x.raisedBy tag raiseDue clock).state = x.state := by
  unfold Entry.raisedBy at *
  cases raiseDue with
  | false => exact ⟨rfl, rfl⟩
  | true =>
    simp only [if_true] at hj ⊢
    by_cases hr : x.raises tag.seq
    · rw [Entry.recovered_raised hr] at hj ⊢
      rw [(Entry.derivedAt_ahead hj).1]
      exact ⟨rfl, rfl⟩
    · rw [Entry.recovered_stays hr]
      exact ⟨rfl, rfl⟩

/-! ## The permit (R112, R128, R129) -/

/-- The permit answered on the frame in hand. -/
def State.permitAnswered (s : State) (n : Fin 8) (e : Fin 64) (segment : Segment) (tag : TagRead) : State :=
  match permit s.clock (s.entry e) segment (s.slot n).mode tag.seq tag.stamp with
  | .refused o => s.endFrame n o 0 0
  | .permitted remaining => s.permitFrame n e segment tag remaining

theorem State.permitAnswered_refused {segment : Segment} {tag : TagRead} {o : FrameOutcome}
    (h : permit s.clock (s.entry e) segment (s.slot n).mode tag.seq tag.stamp = .refused o) :
    s.permitAnswered n e segment tag = s.endFrame n o 0 0 := by
  unfold State.permitAnswered
  rw [h]

/-- A permitted frame of a CHECK slot ends VERIFIED. -/
theorem State.permitAnswered_check {segment : Segment} {tag : TagRead} {remaining : Nat} (hm : (s.slot n).mode = .check)
    (h : permit s.clock (s.entry e) segment (s.slot n).mode tag.seq tag.stamp = .permitted remaining) :
    s.permitAnswered n e segment tag = s.endFrame n .verified tag.count remaining := by
  unfold State.permitAnswered State.permitFrame
  rw [h]
  dsimp only
  rw [hm]

/-- A verified frame by the entry as the recovery raise leaves it. -/
theorem State.frameVerified_eq (s : State) (n : Fin 8) (e : Fin 64) (tag : TagRead) (raiseDue : Bool) :
    s.frameVerified n e tag raiseDue =
      let u := s.raisedBy e tag raiseDue
      let v (segment : Segment) := { u with clock := max u.clock tag.stamp }.permitAnswered n e segment tag
      match (u.entry e).judged, (u.entry e).segments[tag.seg]? with
      | true, some segment => if u.clock < tag.stamp then (v segment).judgeAll else v segment
      | _, _ => u.endFrame n .lapsed 0 0 := by
  unfold State.frameVerified State.permitAnswered
  simp only [decide_eq_true_eq]
  rfl

/-- A frame whose entry is no longer judged, or has no such segment, ends LAPSED. -/
theorem State.frameVerified_gone {tag : TagRead} {raiseDue : Bool} (hj : (s.entry e).judged = false) :
    s.frameVerified n e tag raiseDue = s.endFrame n .lapsed 0 0 := by
  have hraise : s.raisedBy e tag raiseDue = s := by
    unfold State.raisedBy
    split
    · refine State.recoveryRaise_stays (fun h => ?_) _
      rw [(Entry.judged_iff _).2 (.inr (.inl h.1))] at hj
      cases hj
    · rfl
  rw [State.frameVerified_eq]
  dsimp only
  rw [hraise, hj]

/-- The state in which the permit is answered. -/
def State.evident (s : State) (e : Fin 64) (tag : TagRead) (raiseDue : Bool) : State :=
  { s.setEntry e ((s.entry e).raisedBy tag raiseDue s.clock) with clock := max s.clock tag.stamp }

theorem State.frameVerified_answers {tag : TagRead} {raiseDue : Bool} {segment : Segment}
    (hj : ((s.entry e).raisedBy tag raiseDue s.clock).judged = true)
    (hg : ((s.entry e).raisedBy tag raiseDue s.clock).segments[tag.seg]? = some segment) :
    s.frameVerified n e tag raiseDue =
      let v := (s.evident e tag raiseDue).permitAnswered n e segment tag
      if s.clock < tag.stamp then v.judgeAll else v := by
  rw [State.frameVerified_eq]
  dsimp only
  rw [State.raisedBy_eq hj, State.entry_setEntry_self, hj, hg]
  rfl

/-! ## The judgement that follows (R129, R136) -/

theorem State.judgeAll_advancedTo (s : State) : s.advancedTo s.judgeAll s.clock := by
  have h := s.judgeAll_lapses
  have hentry : ∀ e, s.judgeAll.entry e = (s.entry e).judgedAt s.clock := fun e =>
    (h.entry e).trans (if_pos (mem_allEntries e))
  have hwent : ∀ e, s.lapseReached e = true ↔ s.judgeAll.entry e ≠ s.entry e := fun e => by
    rw [hentry]
    have hjudged : (s.entry e).judgedAt s.clock = if s.lapseReached e = true then (s.entry e).spent .lapsed else s.entry e :=
      rfl
    rw [hjudged]
    by_cases hl : s.lapseReached e = true
    · rw [if_pos hl]
      refine iff_of_true hl fun heq => ?_
      unfold State.lapseReached at hl
      exact Entry.judged_not_lapsed (Bool.and_eq_true_iff.1 hl).1 (by rw [← heq]; rfl)
    · rw [if_neg hl]
      exact iff_of_false hl (not_not.2 rfl)
  refine ⟨?_, hentry, fun m => ?_, fun f hf => ?_, ?_⟩
  · rw [h.rest]
  · rw [h.slot m]
    have hsame : ∀ e, s.lapseReached e = (s.judgeAll.entry e != s.entry e) := fun e => by
      rw [Bool.eq_iff_iff, bne_iff_ne, hwent]
    simp only [hsame]
  · rw [h.flags]
    exact or_iff_left fun hn => hf (List.mem_singleton.2 hn.1)
  · rw [h.flags]
    simp only [hwent, true_and, mem_allEntries]

end

end Sys2Proof.Machine
end

