-- ==== Sys2Proof/Proofs/VerifyJudges.lean ====
section
/-! Proofs: a verify batch completes (R38, R39, R112, R113, R123, R128, R129, R155). -/

namespace Sys2Proof.Machine

section
variable {s t c v : State} {w : Writes} {n : Fin 8} {e : Fin 64} {g : Machine.Frame} {z : Slot} {fs : List Flag}

/-- What goes on once the cipher is free leaves alone what a batch leaves alone. -/
theorem State.Frame.batchFrame (h : c.Frame t n fs) (hf : c.flight = none)
    (hw : t.waiting = c.waiting ∨ t.waiting = c.waiting.filter (· ≠ n))
    (hfl : t.flight = c.flight ∨ t.flight = c.orphaned n) : c.batchFrame t n := by
  obtain ⟨hp, hd, -⟩ := h.sameKeysAndClock
  refine ⟨?_, h.kept, hp, hd, h.held, h.causes, hw⟩
  rcases hfl with h | h
  · rw [h, hf]
  · rw [h, State.orphaned, hf]
    rfl

/-- A verify batch whose read the windows refuse. -/
theorem verify_faults (hx : exec (.verifyBatch w) s = .next ((s.recorded w).freeCipher.faultFrameSlot n .window))
    (hb : s.bindsTo n e) (hm : (s.slot n).mode ≠ .record) :
    ∃ t, exec (.verifyBatch w) s = .next t ∧ s.faultsTo t n e (s.slot n) .window ∧ t.sweep = s.sweep ∧
      (s.recorded w).batchFrame t n ∧ t.clock = s.clock ∧ (s.recorded w).sameMemoryBut t (s.inRecord n) := by
  have hown : (s.recorded w).freeCipher.Own (s.recorded w).freeCipher n [] := .refl hb.1
  obtain ⟨f1, f2, f3, f4, f5, f6⟩ := hown.faultFrameSlot (e := e) hb hm hb.2.1 rfl rfl .window
  exact ⟨_, hx, f1, f3, f6.batchFrame rfl (.inr f5) (.inr f2), f6.clock, f4⟩

/-- The frame in hand, as the batch leaves it, ends with an outcome. -/
theorem State.Finishing.of_endFrame {b : State} (hb : b.bindsTo n e) (hm : (b.slot n).mode ≠ .record) (hp : g.pos < 16)
    (o : FrameOutcome) (packets remaining : Nat) :
    b.Finishing ((b.modSlot n fun x => { x with frame := some g }).endFrame n o packets remaining) n e
      ((b.slot n).finished g o packets remaining) := by
  have hown := State.modSlot_own n hb.1 fun x => { x with frame := some g }
  have hslot : (b.modSlot n fun x => { x with frame := some g }).slot n = { b.slot n with frame := some g } :=
    State.slot_modSlot_self ..
  have h := hown.endFrame hb hm (by rw [hslot]; exact hb.2.1) (by rw [hslot]) (f := g) (by rw [hslot]) hp o packets remaining
  rwa [hslot] at h

/-- A verify batch that ends the frame in hand. -/
theorem verify_ends {o : FrameOutcome} {packets remaining : Nat}
    (hx : exec (.verifyBatch w) s = .next
      (((s.recorded w).freeCipher.modSlot n fun x => { x with frame := some g }).endFrame n o packets remaining))
    (hb : s.bindsTo n e) (hm : (s.slot n).mode ≠ .record) (hp : g.pos < 16) :
    ∃ t, exec (.verifyBatch w) s = .next t ∧
      ((s.recorded w).batchFrame t n ∧ t.clock = s.clock ∧ (s.recorded w).sameMemoryBut t (s.inRecord n)) ∧
      (s.recorded w).finishes t n e ((s.slot n).finished g o packets remaining) := by
  have h := State.Finishing.of_endFrame (b := (s.recorded w).freeCipher) hb hm hp o packets remaining
  exact ⟨_, hx, ⟨h.frame.batchFrame rfl h.waiting h.flight, h.frame.clock, h.frame.mem⟩, h.finishes⟩

/-- The judgement of the entries after the permit, and what the batch leaves alone. -/
theorem verify_judged {tag : TagRead} (h : ({ (s.recorded w).judging e g tag with flight := none } : State).Finishing v n e z) :
    let t := if s.clock < tag.stamp then v.judgeAll else v
    (s.recorded w).afterEvidence v t tag.stamp ∧ (s.recorded w).batchFrame t n ∧ t.clock = max s.clock tag.stamp ∧
      (s.recorded w).sameMemoryBut t (s.inRecord n) := by
  have hclock : v.clock = max s.clock tag.stamp := h.frame.clock
  have hbatch := h.frame.batchFrame rfl h.waiting h.flight
  have hmem := h.frame.mem
  dsimp only
  by_cases hc : s.clock < tag.stamp
  · rw [if_pos hc]
    have hadvance := v.judgeAll_advancedTo
    have hrest := v.judgeAll_lapses.rest
    rw [hclock, max_eq_right hc.le] at hadvance
    generalize v.judgeAll = t at hadvance hrest
    refine ⟨⟨fun hn => absurd hc (not_lt.2 hn), fun _ => hadvance⟩, ?_, ?_, ?_⟩
    · rw [hrest]
      exact hbatch
    · rw [hrest]
      exact hclock
    · rw [hrest]
      exact hmem
  · rw [if_neg hc]
    exact ⟨⟨fun _ => rfl, fun h => absurd h hc⟩, hbatch, hclock, hmem⟩

/-- A tag known leaves the frame at its position. -/
theorem State.tagKnown.pos {f h : Machine.Frame} {tag : TagRead} (hk : s.tagKnown n e f h tag) : h.pos = f.pos := by
  rcases hk with ⟨-, rfl⟩ | ⟨-, -, -, -, -, -, -, -, rfl⟩ <;> rfl

/-- The slot stands on its entry when the permit is answered. -/
theorem State.bindsTo.judging {tag : TagRead} (hb : s.bindsTo n e) (hm : (s.slot n).mode ≠ .record)
    (hj : ((s.entry e).raisedBy tag g.raiseDue s.clock).judged = true) :
    ({ (s.recorded w).judging e g tag with flight := none } : State).bindsTo n e := by
  have hentry : ({ (s.recorded w).judging e g tag with flight := none } : State).entry e =
      (s.entry e).raisedBy tag g.raiseDue s.clock := State.entry_setEntry_self ..
  obtain ⟨k1, k2⟩ := Entry.raisedBy_keeps hj
  obtain ⟨hr, hbound, -, hmove, hheld⟩ := hb
  refine ⟨hr, hbound, fun h => absurd h hm, fun h hs => ?_, fun hs => ?_⟩
  · rw [hentry, k2] at hs
    rw [hentry, k1]
    exact hmove h hs
  · rw [hentry, k2] at hs
    rw [hentry, k1]
    exact hheld hs

/-- The batch that has a frame judged: the permit is answered in the state the raises leave. -/
theorem verify_answers {tag : TagRead} {segment : Segment} (h : s.judges w n e g tag segment) :
    let b : State := { (s.recorded w).judging e g tag with flight := none }
    let v := (b.modSlot n fun x => { x with frame := some g }).permitAnswered n e segment tag
    b.bindsTo n e ∧ g.pos < 16 ∧
      exec (.verifyBatch w) s = .next (if s.clock < tag.stamp then v.judgeAll else v) := by
  obtain ⟨hm, hfl, hw, hb, ⟨f, hf, hp, k, hk, hwin, hg, hlast, hagrees⟩, hst, hseg⟩ := h
  have hentry : (s.judging e g tag).entry e = (s.entry e).raisedBy tag g.raiseDue s.clock :=
    State.entry_setEntry_self ..
  rw [hentry] at hst hseg
  have hj := (Entry.judged_iff _).2 hst
  have hpos : g.pos = f.pos := by
    rw [hg]
    exact hk.pos
  refine ⟨hb.judging hm hj, hpos.symm ▸ hp, ?_⟩
  rw [execVerifyBatch_of hfl hw hb.2.1 hf, State.verifyFrame_known (s := (s.recorded w).freeCipher) hk,
    State.verifyRange_agrees (s := (s.recorded w).freeCipher) hg hwin hlast hagrees]
  exact congrArg _ (State.frameVerified_answers
    (s := (s.recorded w).freeCipher.modSlot n fun x => { x with frame := some g }) hj hseg)

/-- Settles O41: the batch of a released slot, the reads and checks of a verify batch, and the frame as it is judged. -/
theorem verifyBatchJudges : Obligations.VerifyBatchJudges := by
  refine ⟨fun s w n hfl hw => execVerifyBatch_orphan hfl hw, fun s w n e f => ?_, fun s w n e g tag segment h => ?_⟩
  · dsimp only
    intro hfl hw hb hf hp hm
    have hexec := execVerifyBatch_of hfl hw hb.2.1 hf
    refine ⟨fun ht hread => ?_, fun o ht hread hfail => ?_, fun k tag hk => ?_⟩
    · rw [State.verifyFrame_unread (s := (s.recorded w).freeCipher) ht hread] at hexec
      exact verify_faults hexec hb hm
    · rw [State.verifyFrame_refused (s := (s.recorded w).freeCipher) ht hread hfail] at hexec
      exact verify_ends hexec hb hm hp
    · rw [State.verifyFrame_known (s := (s.recorded w).freeCipher) hk] at hexec
      have hpos := hk.pos.symm ▸ hp
      refine ⟨fun hread => ?_, fun hread hlast => ?_, fun hread hlast hdiffers => ?_, fun hread hlast hagrees hgone => ?_⟩
      · rw [State.verifyRange_unread (s := (s.recorded w).freeCipher) hread] at hexec
        exact verify_faults hexec hb hm
      · rw [State.verifyRange_goesOn (s := (s.recorded w).freeCipher) rfl hread hlast] at hexec
        exact hexec
      · rw [State.verifyRange_differs (s := (s.recorded w).freeCipher) rfl hread hlast hdiffers] at hexec
        exact verify_ends hexec hb hm hpos
      · rw [State.verifyRange_agrees (s := (s.recorded w).freeCipher) rfl hread hlast hagrees,
          State.frameVerified_gone (by exact hgone)] at hexec
        obtain ⟨t, h1, h2, h3⟩ := verify_ends hexec hb hm hpos
        refine ⟨t, h1, h2, h3.2 fun hmoving => ?_⟩
        exact absurd (((Entry.judged_iff _).2 (.inr (.inr hmoving.2.1))).symm.trans hgone) nofun
  · obtain ⟨hb, hp, hexec⟩ := verify_answers h
    have hm : (s.slot n).mode ≠ .record := h.1
    refine ⟨fun o ho => ?_, fun left hcheck hleft => ?_⟩
    · rw [State.permitAnswered_refused (by rw [State.slot_modSlot_self]; exact ho)] at hexec
      have hfin := State.Finishing.of_endFrame hb hm hp o 0 0
      exact ⟨_, _, hexec, hfin.finishes, verify_judged hfin⟩
    · rw [State.permitAnswered_check (by rw [State.slot_modSlot_self]; exact hcheck)
        (by rw [State.slot_modSlot_self]; exact hleft)] at hexec
      have hfin := State.Finishing.of_endFrame hb hm hp .verified tag.count left
      have hends : ((s.recorded w).judging e g tag).frameEnds _ n e ((s.slot n).finished g .verified tag.count left) :=
        hfin.finishes.2 fun h => nomatch hcheck.symm.trans h.1
      exact ⟨_, _, hexec, hends, verify_judged hfin⟩

end

end Sys2Proof.Machine
end

