-- ==== Sys2Proof/Proofs/Packets.lean ====
section
/-! Proofs: packets in their stored form and in the exported frame (R32, R33, R37, R40). -/

namespace Sys2Proof.Machine

/-! ## Key streams combined with bytes (R33) -/

theorem length_xorBytes (a b : List Byte) : (xorBytes a b).length = min a.length b.length := List.length_zipWith

/-- A run combined twice with the same bytes, no fewer than it has, is as it was. -/
theorem xorBytes_xorBytes {a b : List Byte} (h : a.length ≤ b.length) : xorBytes (xorBytes a b) b = a := by
  induction a generalizing b with
  | nil => rfl
  | cons x a ih =>
    cases b with
    | nil => simp at h
    | cons y b =>
      have hhead : x ^^^ y ^^^ y = x := by rw [BitVec.xor_assoc, BitVec.xor_self, BitVec.xor_zero]
      exact congrArg₂ List.cons hhead (ih (by simpa using h))

theorem keyStream_length (key : Key) (gen seq pos : Nat) : (keyStream key gen seq pos).length = 184 := by
  simp [keyStream]

/-! ## A packet by its first byte, its other header bytes and its body (R32, R37, R40) -/

/-- A received packet in its parts. -/
theorem packet_parts {p : List Byte} (hl : p.length = 188) (h0 : byteAt p 0 = 0x47) :
    ∃ head body : List Byte, p = 0x47 :: (head ++ body) ∧ head.length = 3 ∧ body.length = 184 := by
  cases p with
  | nil => cases hl
  | cons b p =>
    have hp : p.length = 187 := by simpa using hl
    refine ⟨p.take 3, p.drop 3, ?_, by simp [hp], by simp [hp]⟩
    rw [List.take_append_drop, ← h0]
    rfl

section
variable {head : List Byte} (hh : head.length = 3) (key token : Key) (gen seq pos : Nat) (b : Byte) (body : List Byte)
include hh

/-- The stored form keeps the header bytes 1 to 3. -/
theorem storePacket_parts (isSealed : Bool) : storePacket key gen seq pos isSealed (b :: (head ++ body)) =
    (if isSealed then 0xB8 else 0x47) ::
      (head ++ if isSealed then xorBytes body (keyStream key gen seq pos) else body) := by
  cases isSealed <;> simp [storePacket, hh, List.drop_append]

theorem openPacket_parts : openPacket key gen seq pos (b :: (head ++ body)) =
    0x47 :: (head ++ if b = 0xB8 then xorBytes body (keyStream key gen seq pos) else body) := by
  have hb : byteAt (b :: (head ++ body)) 0 = b := rfl
  rw [openPacket, hb]
  split <;> simp [hh, List.drop_append]

theorem convertPacket_parts : convertPacket key token gen seq pos (b :: (head ++ body)) =
    b :: (head ++
      if b = 0xB8 then xorBytes (xorBytes body (keyStream key gen seq pos)) (keyStream token 0 seq pos) else body) := by
  have hb : byteAt (b :: (head ++ body)) 0 = b := rfl
  rw [convertPacket, hb]
  split <;> simp [hh]

end

/-- Settles O52: the packet in its parts, of which each form combines the body alone with a key stream. -/
theorem packetsRoundTrip : Obligations.PacketsRoundTrip := by
  intro key token gen seq pos isSealed p hl h0
  obtain ⟨head, body, rfl, hh, hbody⟩ := packet_parts hl h0
  have hstream : ∀ (k : Key) g, xorBytes (xorBytes body (keyStream k g seq pos)) (keyStream k g seq pos) = body := fun k g =>
    xorBytes_xorBytes (by rw [hbody, keyStream_length])
  simp only [storePacket_parts hh, openPacket_parts hh, convertPacket_parts hh]
  cases isSealed
  · simp [hh, hbody, byteAt]
  · simp [hh, hbody, byteAt, hstream, length_xorBytes, keyStream_length]

end Sys2Proof.Machine
end

