-- ==== Sys2Proof/Proofs/ImageRecord.lean ====
section
/-! Proofs: the entry record of the table image and its reading (R43, R44, R167). -/

namespace Sys2Proof.Machine

/-! ## Codes read back (3.10) -/

theorem entryStateOf_code (st : EntryState) : entryStateOf (BitVec.ofNat 8 st.code) = st := by cases st <;> rfl

theorem ruleClassOf_code (c : RuleClass) : ruleClassOf (BitVec.ofNat 8 c.code) = c := by cases c <;> rfl

/-- A class and hold as they are written, read back. -/
theorem classHoldOf_code {cls : RuleClass} {hold : Option Nat} (h : holdFits cls hold) :
    classHoldOf (BitVec.ofNat 8 cls.code) (holdField cls hold) = ⟨cls, hold⟩ := by
  unfold classHoldOf holdField
  rw [ruleClassOf_code]
  by_cases hc : cls = .never
  · obtain ⟨k, rfl, -⟩ := h.1 hc
    simp [hc]
  · simp [hc, h.2 hc]

/-- A segment read back from its part and its key. -/
theorem segmentOf_segmentPart {i : Nat} {g : Segment} (hi : i < 256) (hg : g.fits) (key : Option Key) :
    segmentOf (segmentPart i g) key = { g with key := key } := by
  obtain ⟨-, -, h2, h4, h8, h12, h16, -⟩ := segmentPart_fields hi hg
  have hcls : byteAt (segmentPart i g) 1 = BitVec.ofNat 8 g.cls.code := rfl
  obtain ⟨-, -, hhold, hnone, hsome⟩ := hg
  unfold segmentOf
  rw [hcls, h2, classHoldOf_code hhold, h4, h8, h12, h16]
  by_cases h0 : g.count = 0
  · obtain ⟨hf, hl⟩ := hnone h0
    simp [h0, hf, hl]
  · obtain ⟨a, b, hf, hl, -, -⟩ := hsome h0
    simp [h0, hf, hl]

/-! ## Key places (R43) -/

theorem pack16_bytes16 (k : Key) : pack16 (bytes16 k) = k := by
  have hk : k.toNat % 256 ^ 16 = k.toNat := Nat.mod_eq_of_lt (by have := k.isLt; omega)
  rw [pack16, bytes16, ofLe_le, hk, BitVec.ofNat_toNat, BitVec.setWidth_eq]

/-- A key wrapped is unwrapped by the same combination. -/
theorem wrapKey_wrapKey (boxKey : Key) (gen recording place : Nat) (k : Key) :
    wrapKey boxKey gen recording place (wrapKey boxKey gen recording place k) = k := by
  unfold wrapKey
  rw [BitVec.xor_assoc, BitVec.xor_self, BitVec.xor_zero]

theorem presenceField_eq (keys : List (Option Key)) : presenceField keys = flagsByte (keys.map Option.isSome) := by
  unfold presenceField
  induction keys with
  | nil => rfl
  | cons k ks ih => rw [List.foldr_cons, ih, List.map_cons, flagsByte]

theorem flagsByte_lt (bs : List Bool) : flagsByte bs < 2 ^ bs.length := by
  induction bs with
  | nil => decide
  | cons b bs ih =>
    rw [flagsByte, List.length_cons, pow_succ]
    split <;> omega

/-- The place of a key that is held. -/
theorem keyPlaceBytes_place {boxKey : Key} {gen recording : Nat} {keys : List (Option Key)} {j : Nat} {k : Key}
    (h : keys[j]? = some (some k)) (p : Nat) (rest : List Byte) :
    ((keyPlaceBytes boxKey gen recording p keys ++ rest).drop (16 * j)).take 16 =
      bytes16 (wrapKey boxKey gen recording (p + j) k) := by
  induction keys generalizing p j with
  | nil => cases h
  | cons c keys ih =>
    cases j with
    | zero =>
      cases h
      rw [keyPlaceBytes, List.append_assoc]
      exact List.take_left' (bytes16_length _)
    | succ j =>
      have hskip : ∀ place : List Byte, place.length = 16 →
          ((place ++ keyPlaceBytes boxKey gen recording (p + 1) keys ++ rest).drop (16 * (j + 1))).take 16 =
            bytes16 (wrapKey boxKey gen recording (p + (j + 1)) k) := fun place hp => by
        rw [List.append_assoc, List.drop_append, List.drop_eq_nil_of_le (by omega), hp, List.nil_append,
          show 16 * (j + 1) - 16 = 16 * j by omega, ih h, show p + 1 + j = p + (j + 1) by omega]
      cases c with
      | none => exact hskip _ (length_zeros 16)
      | some c => exact hskip _ (bytes16_length _)

/-! ## The entry record (R43) -/

section
variable {boxKey : Key} {gen recording : Nat} {x : Entry}

/-- The fields of the record's first 32 bytes that are numbers. -/
theorem imageRecord_fields (hx : x.fits) :
    let b := imageRecord boxKey gen recording x
    field b 2 2 = x.generation ∧ field b 4 2 = x.chunkLength ∧ field b 6 1 = x.segments.length ∧
      field b 10 2 = (match x.pendingRule with | none => 0 | some q => holdField q.cls q.hold) ∧
      field b 12 2 = x.rotation ∧ field b 16 4 = x.chunkCount ∧ field b 20 4 = x.expiry.getD 0 ∧
      field b 24 4 = x.moveMark ∧ field b 28 4 = presenceField x.keyPlaces := by
  obtain ⟨hgen, hlen, hnone, hcount, hrot, hexp, -, hmark, hrule, hsegs, -⟩ := hx
  have h1 : x.lengthField = x.chunkLength := by
    unfold Entry.lengthField
    split
    next h => exact (hnone h).symm
    next => rfl
  have h2 : (match x.pendingRule with | none => 0 | some q => holdField q.cls q.hold) < 65536 := by
    split
    · omega
    next q hq => exact holdField_lt (hrule q hq)
  have h3 : x.expiry.getD 0 ≤ top32 := Option.map_getD_le hexp (Nat.zero_le _)
  have h4 : presenceField x.keyPlaces < 2 ^ 17 := by
    have := flagsByte_lt (x.keyPlaces.map Option.isSome)
    rwa [List.length_map, Entry.keyPlaces_length, ← presenceField_eq] at this
  simp only [top32] at hcount hmark h3
  dsimp only
  unfold imageRecord
  rw [h1]
  simp only [List.append_assoc]
  refine ⟨?_, ?_, ?_, ?_, ?_, ?_, ?_, ?_, ?_⟩
  all_goals
    simp (disch := simp) only [field_skip, length_le, length_zeros, Nat.reduceSub]
    exact field_here (by omega) _

/-- The record's bytes that are codes or flags. -/
theorem imageRecord_bytes (boxKey : Key) (gen recording : Nat) (x : Entry) :
    let b := imageRecord boxKey gen recording x
    byteAt b 1 = BitVec.ofNat 8 x.state.code ∧ byteAt b 7 = BitVec.ofNat 8 (x.flagsField false) ∧
      byteAt b 8 = BitVec.ofNat 8 (match x.pendingRule with | none => 0 | some q => q.cls.code) ∧
      byteAt b 9 = BitVec.ofNat 8 (x.views.getD 255) := by
  dsimp only
  unfold imageRecord
  simp only [List.append_assoc]
  refine ⟨?_, ?_, ?_, ?_⟩
  all_goals
    simp (disch := simp) only [byteAt_skip, length_le, Nat.reduceSub]
    exact byteAt_here ..

/-- The bytes of the record after its first 32. -/
theorem imageRecord_drop (boxKey : Key) (gen recording : Nat) (x : Entry) (k : Nat) :
    (imageRecord boxKey gen recording x).drop (32 + k) =
      (segmentParts 16 0 x.segments ++ (keyPlaceBytes boxKey gen recording 0 x.keyPlaces ++ zeros 208)).drop k := by
  rw [← List.drop_drop, imageRecord]
  simp only [List.append_assoc]
  simp (disch := simp) [List.drop_append, List.drop_eq_nil_of_le]

/-- The part of segment `i` in the record. -/
theorem imageRecord_part {i : Nat} {g : Segment} (hi : i < 16) (hg : x.segments[i]? = some g) :
    ((imageRecord boxKey gen recording x).drop (32 + 32 * i)).take 32 = segmentPart i g := by
  have hpart := segmentParts_part hi 0 x.segments
  rw [Nat.zero_add, hg] at hpart
  rw [imageRecord_drop, List.drop_append_of_le_length (by simp; omega), List.take_append_of_le_length (by simp; omega), hpart]

/-- The key at a place of the record. -/
theorem keyAt_imageRecord (hx : x.fits) {place : Nat} (hp : place < 17) :
    keyAt boxKey gen recording (imageRecord boxKey gen recording x) place = x.keyPlaces.getD place none := by
  obtain ⟨-, -, -, -, -, -, -, -, h28⟩ := imageRecord_fields (boxKey := boxKey) (gen := gen) (recording := recording) hx
  have hbit : (BitVec.ofNat 32 (presenceField x.keyPlaces)).getLsbD place = (x.keyPlaces.getD place none).isSome := by
    rw [presenceField_eq, BitVec.getLsbD_ofNat, testBit_flagsByte, decide_eq_true (by omega), Bool.true_and]
    simp only [List.getD_eq_getElem?_getD, List.getElem?_map]
    cases x.keyPlaces[place]? <;> rfl
  unfold keyAt
  rw [h28, hbit]
  cases hk : x.keyPlaces.getD place none with
  | none => rfl
  | some k =>
    have hplace : x.keyPlaces[place]? = some (some k) := by
      rw [List.getD_eq_getElem?_getD, List.getElem?_eq_getElem (by simpa using hp)] at hk
      rw [List.getElem?_eq_getElem (by simpa using hp)]
      exact congrArg some hk
    rw [show 544 + 16 * place = 32 + (512 + 16 * place) by omega, imageRecord_drop, ← List.drop_drop,
      List.drop_left' (by simp), keyPlaceBytes_place hplace, Nat.zero_add, pack16_bytes16, wrapKey_wrapKey]
    rfl

theorem Entry.keyPlaces_segment {i : Nat} {g : Segment} (hi : i < 16) (hg : x.segments[i]? = some g) :
    x.keyPlaces.getD i none = g.key := by
  rw [Entry.keyPlaces, List.getD_append _ _ _ _ (by simpa using hi), List.getD_eq_getElem _ _ (by simpa using hi)]
  simp [hg]

theorem Entry.keyPlaces_next (x : Entry) : x.keyPlaces.getD 16 none = x.nextKey := rfl

/-- The segments read back. -/
theorem imageRecord_segments (hx : x.fits) :
    (List.range x.segments.length).map (fun i =>
      segmentOf (((imageRecord boxKey gen recording x).drop (32 + 32 * i)).take 32)
        (keyAt boxKey gen recording (imageRecord boxKey gen recording x) i)) = x.segments := by
  obtain ⟨-, -, -, -, -, -, -, -, -, hlen, hfits⟩ := id hx
  refine List.ext_getElem (by simp) fun i h1 h2 => ?_
  have hg : x.segments[i]? = some x.segments[i] := List.getElem?_eq_getElem h2
  rw [List.getElem_map, List.getElem_range, imageRecord_part (by omega) hg, keyAt_imageRecord hx (by omega),
    Entry.keyPlaces_segment (by omega) hg, segmentOf_segmentPart (by omega) (hfits _ (List.getElem_mem h2))]

end

/-- Settles O53: the record's fields, flags, segment parts and key places read back one by one. -/
theorem imageRecordRoundTrip : Obligations.ImageRecordRoundTrip := by
  intro boxKey gen e x hx
  refine ⟨imageRecord_length .., ?_⟩
  obtain ⟨f2, f4, f6, f10, f12, f16, f20, f24, -⟩ := imageRecord_fields (boxKey := boxKey) (gen := gen) (recording := e.val) hx
  obtain ⟨b1, b7, b8, b9⟩ := imageRecord_bytes boxKey gen e.val x
  have hflag : ∀ i < 8, (byteAt (imageRecord boxKey gen e.val x) 7).getLsbD i =
      [x.interrupted, x.rotationHeld, x.lastViewTaken, x.pendingRule.isSome, x.pendingRotation, x.nextKey.isSome,
        x.expiry.isSome, false].getD i false := fun i hi => by rw [b7, Entry.flagsField, getLsbD_flagsByte _ hi]
  have hsegs := imageRecord_segments (boxKey := boxKey) (gen := gen) (recording := e.val) hx
  have hnext := keyAt_imageRecord (boxKey := boxKey) (gen := gen) (recording := e.val) hx (place := 16) (by omega)
  obtain ⟨-, -, -, -, -, -, hviews, -, hrule, hlen, -⟩ := hx
  have hcount : segmentCountOf x.segments.length = x.segments.length := if_pos hlen
  unfold entryOf
  simp only [hflag _ (by omega : 0 < 8), hflag _ (by omega : 1 < 8), hflag _ (by omega : 2 < 8), hflag _ (by omega : 3 < 8),
    hflag _ (by omega : 4 < 8), hflag _ (by omega : 5 < 8), hflag _ (by omega : 6 < 8), List.getD_cons_zero,
    List.getD_cons_succ, b1, b8, b9, f2, f4, f6, f10, f12, f16, f20, f24, hcount, hsegs, hnext, entryStateOf_code,
    Entry.keyPlaces_next]
  have hexpiry : (if x.expiry.isSome = true then some (x.expiry.getD 0) else none) = x.expiry := by cases x.expiry <;> rfl
  have hkey : (if x.nextKey.isSome = true then x.nextKey else none) = x.nextKey := by cases x.nextKey <;> rfl
  have hpending : (if x.pendingRule.isSome = true then
      some (classHoldOf (BitVec.ofNat 8 (match x.pendingRule with | none => 0 | some q => q.cls.code))
        (match x.pendingRule with | none => 0 | some q => holdField q.cls q.hold))
      else none) = x.pendingRule := by
    cases hq : x.pendingRule with
    | none => rfl
    | some q => exact congrArg some (classHoldOf_code (hrule q hq))
  have hview : (if BitVec.ofNat 8 (x.views.getD 255) = 0xFF then none
      else some (BitVec.ofNat 8 (x.views.getD 255)).toNat) = x.views := by
    cases hv : x.views with
    | none => rfl
    | some v =>
      have hlt := hviews v hv
      have hval : (BitVec.ofNat 8 v).toNat = v := by rw [BitVec.toNat_ofNat]; omega
      rw [Option.getD_some, if_neg fun h => by rw [h] at hval; simp at hval; omega, hval]
  rw [hexpiry, hkey, hpending, hview]

end Sys2Proof.Machine
end

