-- ==== Sys2Proof/Proofs/Grants.lean ====
section
/-! Proofs: the tags of a frame, the batch each requester is ready with, and the turn of the arbiter (R29 to R31, R36, R37,
R45, R46, R114, R157). -/

namespace Sys2Proof.Machine

/-! ## Tags (R29 to R31, R37) -/

/-- The bytes past the first `k` of a run that is no longer than them. -/
theorem drop_skip {bs rest : List Byte} {k : Nat} (h : bs.length ≤ k) : (bs ++ rest).drop k = rest.drop (k - bs.length) := by
  rw [List.drop_append, List.drop_eq_nil_of_le h, List.nil_append]

theorem tagFlags_eq (len count : Nat) (overflow scrambled : Bool) (lost : Nat) : tagFlags len count overflow scrambled lost =
    flagsByte [decide (count < len), overflow, scrambled, decide (0 < lost), false, false, false, false] := by
  unfold tagFlags
  generalize decide (count < len) = a, decide (0 < lost) = d
  revert a overflow scrambled d
  decide

theorem length_points (points : List Nat) : (points.flatMap (le 2)).length = 2 * points.length := by
  induction points with
  | nil => rfl
  | cons p ps ih => rw [List.flatMap_cons, List.length_append, ih, length_le, List.length_cons]; omega

/-- An access point read where it was laid; past the last one the field is zero. -/
theorem field_points {points : List Nat} (hp : ∀ p ∈ points, p < 65536) {i k : Nat} (hi : i < points.length + k) (rest : List Byte) :
    field (points.flatMap (le 2) ++ (zeros (2 * k) ++ rest)) (2 * i) 2 = points.getD i 0 := by
  induction points generalizing i with
  | nil =>
    have hi : i < k := by simpa using hi
    have hzeros : zeros (2 * k) = zeros (2 * i) ++ (le 2 0 ++ zeros (2 * (k - i - 1))) := by
      rw [show le 2 0 = zeros 2 from rfl]
      simp only [zeros, List.replicate_append_replicate]
      congr 1
      omega
    rw [List.flatMap_nil, List.nil_append, hzeros, List.append_assoc, field_skip (length_zeros _).le, length_zeros,
      Nat.sub_self, List.append_assoc, field_here (by decide)]
    rfl
  | cons p ps ih =>
    rw [List.flatMap_cons, List.append_assoc]
    cases i with
    | zero => exact field_here (hp p (by simp)) _
    | succ i =>
      rw [field_skip (by rw [length_le]; omega), length_le, show 2 * (i + 1) - 2 = 2 * i by omega,
        ih (fun q hq => hp q (by simp [hq])) (by simp at hi; omega)]
      rfl

theorem tagMarker_eq : tagMarker = le 4 0x3834324C := rfl

/-- The tag of an open chunk says what the chunk is. -/
theorem OpenChunk.tag_isLocalTag {c : OpenChunk} (hc : c.fits) (len : Nat) (e : Fin 64) :
    isLocalTag (c.tag len e) c e len := by
  obtain ⟨hgen, hseq, hseg, hstored, hstamp, hlost, hlen, hpoints⟩ := hc
  simp only [top32] at hseq hstamp hlost
  have he := e.isLt
  have hpad : 16 - 2 * c.points.length = 2 * (8 - c.points.length) := by omega
  have hplaces : (c.points.flatMap (le 2) ++ zeros (2 * (8 - c.points.length))).length = 16 := by
    rw [List.length_append, length_points, length_zeros]
    omega
  unfold isLocalTag OpenChunk.tag tagBytes
  rw [hpad, tagMarker_eq]
  simp only [List.append_assoc]
  refine ⟨?length, rfl, ?_, ?_, ?_, ?_, ?_, ?flags, ?_, ?_, ?_, ?_, ?zero, fun i hi => ?points, ?rest⟩
  case length =>
    rw [List.length_append] at hplaces
    simp only [List.length_append, length_le, length_zeros] at hplaces ⊢
    omega
  case flags =>
    simp (disch := simp) only [byteAt_skip, length_le, Nat.reduceSub]
    rw [byteAt_here, tagFlags_eq, bits_flagsByte]
  case zero =>
    simp (disch := simp) only [byteAt_skip, length_le, Nat.reduceSub]
    rfl
  case points =>
    simp (disch := simp; omega) only [field_skip, length_le, length_zeros]
    rw [show 26 + 2 * i - 4 - 1 - 1 - 2 - 4 - 1 - 1 - 2 - 4 - 4 - 1 - 1 = 2 * i by omega]
    exact field_points (fun p hp => (hpoints p hp).trans (by omega)) (by omega) _
  case rest =>
    simp (disch := simp) only [drop_skip, length_le, length_zeros, Nat.reduceSub]
    rw [← List.append_assoc, List.drop_left' hplaces]
    rfl
  all_goals
    simp (disch := simp) only [field_skip, length_le, Nat.reduceSub]
    exact field_here (by omega) _

/-- The exported tag of a local tag. -/
theorem exportTagBytes_isExportTag {t : TagRead} (hl : t.bytes.length = 56) (hseq : t.seq ≤ top32) (cls : RuleClass) :
    isExportTag (exportTagBytes t.bytes t.seq cls.code) t cls := by
  simp only [top32] at hseq
  have hcls := cls.code_lt
  have h12 : ((t.bytes.drop 13).take 12).length = 12 := by simp [hl]
  have h16 : ((t.bytes.drop 26).take 16).length = 16 := by simp [hl]
  unfold isExportTag exportTagBytes
  generalize (t.bytes.drop 13).take 12 = counts at h12 ⊢
  generalize (t.bytes.drop 26).take 16 = points at h16 ⊢
  rw [tagMarker_eq]
  simp only [List.append_assoc]
  refine ⟨by simp [h12, h16], rfl, ?_, ?_, ?_, ?_, ?_, ?counts, ?zero, ?points, ?rest⟩
  case zero =>
    simp (disch := simp [h12]) only [byteAt_skip, length_le, h12, Nat.reduceSub]
    rfl
  case counts =>
    simp (disch := simp) only [drop_skip, length_le, Nat.reduceSub, List.drop_zero]
    exact List.take_left' h12
  case points =>
    simp (disch := simp [h12]) only [drop_skip, length_le, length_zeros, h12, Nat.reduceSub, List.drop_zero]
    exact List.take_left' h16
  case rest =>
    simp (disch := simp [h12, h16]) only [drop_skip, length_le, length_zeros, h12, h16, Nat.reduceSub]
    rfl
  all_goals
    simp (disch := simp) only [field_skip, length_le, Nat.reduceSub]
    exact field_here (by omega) _

/-! ## The turn of the arbiter (R45) -/

theorem requesterOf_number (r : Requester) : requesterOf r.number = r := by
  cases r with
  | slot n => exact dif_pos n.isLt
  | image => rfl

theorem number_requesterOf {k : Nat} (h : k < 9) : (requesterOf k).number = k := by
  unfold requesterOf
  split
  · rfl
  · exact (by omega : 8 = k)

theorem Requester.number_lt (r : Requester) : r.number < 9 := by
  cases r with
  | slot n => exact n.isLt.trans (by omega)
  | image => exact (by omega : 8 < 9)

/-- In the order of the arbiter the requesters before `r` are those it reaches in fewer turns. -/
theorem grantOrder_split (last r : Requester) : ∃ before after, grantOrder last = before ++ r :: after ∧
    ∀ q ∈ before, turnsAfter last q < turnsAfter last r := by
  have hr := r.number_lt
  have hlast := last.number_lt
  have hk : turnsAfter last r < 9 := Nat.mod_lt _ (by omega)
  generalize hturn : turnsAfter last r = k at hk ⊢
  rw [turnsAfter] at hturn
  have hself : (last.number + 1 + k) % 9 = r.number := by omega
  refine ⟨(List.range k).map fun i => requesterOf ((last.number + 1 + i) % 9),
    (List.range (8 - k)).map fun i => requesterOf ((last.number + 1 + (k + (i + 1))) % 9), ?_, fun q hq => ?_⟩
  · have hrange : List.range 9 = List.range (k + (8 - k + 1)) := congrArg List.range (by omega)
    rw [grantOrder, hrange, List.range_add, List.range_succ_eq_map]
    simp [hself, requesterOf_number, Function.comp_def]
  · obtain ⟨i, hi, rfl⟩ := List.mem_map.1 hq
    rw [turnsAfter, number_requesterOf (Nat.mod_lt _ (by omega))]
    have := List.mem_range.1 hi
    omega

section
variable {s : State}

theorem State.firstReady_append {before : List Requester} (h : ∀ q ∈ before, s.nextWork q = none) (rest : List Requester) :
    s.firstReady (before ++ rest) = s.firstReady rest := by
  induction before with
  | nil => rfl
  | cons q before ih =>
    rw [List.cons_append, State.firstReady, h q (by simp)]
    exact ih fun p hp => h p (by simp [hp])

theorem State.grant_none (h : ∀ r, s.nextWork r = none) : s.grant = s := by
  have hnone := State.firstReady_append (fun q (_ : q ∈ grantOrder s.lastGranted) => h q) []
  rw [List.append_nil] at hnone
  rw [State.grant, hnone]
  rfl

/-- The grant goes to the ready requester reached in the fewest turns. -/
theorem State.grant_to {r : Requester} {work : Work} (h : s.nextWork r = some work)
    (hfirst : ∀ q, s.nextWork q ≠ none → turnsAfter s.lastGranted r ≤ turnsAfter s.lastGranted q) :
    s.grant = { s with lastGranted := r, flight := some ⟨r, work, false⟩ } := by
  obtain ⟨before, after, horder, hbefore⟩ := grantOrder_split s.lastGranted r
  have hready : s.firstReady (grantOrder s.lastGranted) = some (r, work) := by
    rw [horder, State.firstReady_append fun q hq => by_contra fun hq' => absurd (hfirst q hq') (not_le.2 (hbefore q hq)),
      State.firstReady, h]
  rw [State.grant, hready]

end

/-! ## The batch each requester is ready with (R36, R39, R114, R157) -/

section
variable {s : State} {n : Fin 8} {e : Fin 64} {x : Slot} {y : Entry}

theorem State.nextWork_record (hb : (s.slot n).boundEntry = some e) (hm : (s.slot n).mode = .record) :
    s.nextWork (.slot n) = (s.slot n).recordWork e := by
  rw [State.nextWork, hb]
  exact if_pos hm

theorem State.nextWork_frame (hb : (s.slot n).boundEntry = some e) (hm : (s.slot n).mode ≠ .record) :
    s.nextWork (.slot n) = (s.slot n).frameWork (s.entry e) := by
  rw [State.nextWork, hb]
  exact if_neg hm

/-- The batches of an open chunk whose entry has not lapsed. -/
theorem Slot.recordWork_chunk {c : OpenChunk} (hc : x.chunk = some c) (hl : x.lapseDue = false) : x.recordWork e =
    if c.batch ≠ [] then some (.sealing (x.frameBase c.pos) c.stored c.batch c.key c.generation c.seq)
    else if c.closed then
      some (.closing (x.frameBase c.pos) x.geo.chunkLength c.stored (c.tag x.geo.chunkLength e) c.key c.chain)
    else none := by
  unfold Slot.recordWork
  simp [hc, hl]

theorem Slot.recordWork_none (h : x.chunk = none ∨ x.lapseDue = true) : x.recordWork e = none := by
  unfold Slot.recordWork
  split
  · rfl
  next hc => rw [if_pos (h.resolve_left (by simp [hc]))]

/-- The batch of a frame with its tag and permit, by mode. -/
theorem State.nextWork_permitted {f : Machine.Frame} {left : Nat} {t : TagRead} (hb : (s.slot n).boundEntry = some e)
    (hf : (s.slot n).frame = some f) (hp : f.permit = some left) (ht : f.tag = some t) :
    ((s.slot n).mode = .check → s.nextWork (.slot n) = none) ∧
    ((s.slot n).mode = .play → s.nextWork (.slot n) = (s.slot n).playWork (s.entry e) f t) ∧
    ((s.slot n).mode = .move → s.nextWork (.slot n) = (s.slot n).moveWork (s.entry e) f t) := by
  refine ⟨fun hm => ?_, fun hm => ?_, fun hm => ?_⟩
  all_goals
    rw [State.nextWork_frame hb (by rw [hm]; nofun), Slot.frameWork]
    simp only [hf, hp, ht, hm]

/-- A MOVE slot has no batch without an output frame, a token key and a MOVING entry. -/
theorem Slot.moveWork_none {f : Machine.Frame} {t : TagRead}
    (h : f.reserved = none ∨ x.token = none ∨ y.state ≠ .moving) : x.moveWork y f t = none := by
  unfold Slot.moveWork
  split
  next hr ht => rw [if_neg ((h.resolve_left (by simp [hr])).resolve_left (by simp [ht]))]
  · rfl

theorem Slot.moveWork_moving {f : Machine.Frame} {t : TagRead} {out : Nat} {token : Key} (hr : f.reserved = some out)
    (ht : x.token = some token) (hst : y.state = .moving) : x.moveWork y f t =
      if f.worked < rangeCount t.count then
        some (.reseal (x.frameBase f.pos) (16 * f.worked) (rangeSize t.count f.worked) f.key (field t.bytes 6 2) t.seq
          (checkOf f.checks f.worked) token (x.outBaseAt out))
      else
        some (.finalReseal (x.outBaseAt out) x.geo.chunkLength t.count
          (exportTagBytes t.bytes t.seq (y.classAt t.seg).code) token f.outChain) := by
  unfold Slot.moveWork
  simp only [hr, ht, hst, if_true]

end

/-- Settles O39: the arbiter's order by turns, and the batch of each kind of requester by its state. -/
theorem cipherGrantsInTurn : Obligations.CipherGrantsInTurn := by
  refine ⟨fun s => ⟨fun h => ?_, fun r work hr hf hw hfirst => ?_⟩, fun s n hb => ?_, fun s n e hb => ?_, fun s hi => ?_,
    fun s number addr table time gen k chain hi => ?_, fun s number addr header staging k chain hi => ?_⟩
  · show execCipherGrant s = _
    unfold execCipherGrant
    split
    next hc => rw [State.grant_none (h.elim (absurd hc.1) (·.resolve_left (not_not.2 hc.2)))]
    next => rfl
  · show execCipherGrant s = _
    rw [execCipherGrant, if_pos ⟨hr, hf⟩, State.grant_to hw hfirst]
  · rw [State.nextWork, hb]
  · refine ⟨fun hm h => ?_, fun c hm hl hc => ?_, fun hm hf => ?_, fun f hm hf hp => ?_, fun f left t hf hp ht => ?_⟩
    · rw [State.nextWork_record hb hm, Slot.recordWork_none h]
    · rw [State.nextWork_record hb hm, Slot.recordWork_chunk hc hl]
      refine ⟨fun hne => if_pos hne, fun h0 hopen => ?_, fun h0 hclosed hfits => ⟨_, c.tag_isLocalTag hfits _ e, ?_⟩⟩
      · rw [if_neg (not_not.2 h0), if_neg (by simp [hopen])]
      · rw [if_neg (not_not.2 h0), if_pos hclosed]
        rfl
    · rw [State.nextWork_frame hb hm, Slot.frameWork, hf]
    · rw [State.nextWork_frame hb hm, Slot.frameWork, hf]
      simp only [hp]
    · obtain ⟨hcheck, hplay, hmove⟩ := State.nextWork_permitted hb hf hp ht
      refine ⟨hcheck, fun hm hst hroom => ?_, fun hm h => ?_, fun hm h => ?_, fun pos token hm hr htok hst => ?_⟩
      · exact (hplay hm).trans (if_pos ⟨hst, hroom⟩)
      · refine (hplay hm).trans (if_neg fun ⟨hst, hroom⟩ => ?_)
        rcases h with ⟨h1, h2⟩ | h
        · exact hst.elim h1 h2
        · exact absurd hroom (not_le.2 h)
      · exact (hmove hm).trans (Slot.moveWork_none h)
      · rw [(hmove hm).trans (Slot.moveWork_moving hr htok hst)]
        refine ⟨fun hlt => if_pos hlt, fun g hge hl hseq hg => ⟨_, exportTagBytes_isExportTag hl hseq g.cls, ?_⟩⟩
        have hcls : (s.entry e).classAt t.seg = g.cls := by rw [Entry.classAt, hg]
        refine (if_neg (not_lt.2 hge : ¬ f.worked < rangeCount t.count)).trans ?_
        rw [hcls]
        rfl
  · rw [State.nextWork, hi]
    rfl
  · rw [State.nextWork, hi]
    show some (if k < 16 then Work.saveEntries else .saveHeader) = _
    rfl
  · rw [State.nextWork, hi]
    cases header <;> rfl

end Sys2Proof.Machine
end

