-- ==== Sys2Proof/Proofs/ImageBatches.lean ====
section
/-! Proofs: the batches of a SAVE and of a LOAD complete (R43, R44, R54, R61, R149, R168, R170). -/

namespace Sys2Proof.Machine

/-! ## The end of an image operation (R61) -/

section
variable {s : State} {number : Option Mark} {r : Result}

/-- The flags after a result other than NONE that is written where the latch holds the order's number. -/
theorem State.mem_resultFlags (hne : r ≠ .none) (f : Flag) :
    f ∈ (if number = some s.partLatch ∧ r ≠ .none then raiseFlag (partFlag .result) s.flags else s.flags) ↔
      f ∈ s.flags ∨ f = partFlag .result ∧ number = some s.partLatch := by
  split
  next h => rw [mem_raiseFlag, and_iff_left h.1, or_comm]
  next h => rw [or_iff_left fun hf => h ⟨hf.2, hne⟩]

/-- What is left alone by the end of an image operation. -/
theorem State.endImage_running (hr : s.part ≠ .stopped) (number : Option Mark) (hne : r ≠ .none) (detail : Nat) :
    let t := s.endImage number r detail
    t = { s with image := none, header := t.header, mem := t.mem, flags := t.flags } ∧
      t.header = (if number = some s.partLatch then { s.header with result := r, detail := detail } else s.header) ∧
      (∀ f, f ∈ t.flags ↔ f ∈ s.flags ∨ f = partFlag .result ∧ number = some s.partLatch) ∧
      (number ≠ some s.partLatch → t.flags = s.flags) ∧ ∀ a, ¬ s.inHeader a → t.mem.get a = s.mem.get a := by
  obtain ⟨m, hm, h⟩ := State.completePart_running (s := { s with image := none }) hr number r detail
  dsimp only
  rw [State.endImage, h]
  exact ⟨rfl, rfl, State.mem_resultFlags (s := s) hne, fun hn => if_neg fun h => hn h.1, hm⟩

end

/-! ## SAVE (R43, R168) -/

section
variable {s : State} {number : Option Mark} {addr time gen k : Nat} {table : Vector Entry 64} {chain : Chain} {orphan : Bool}

/-- An entry batch of a SAVE: its one write, and the SAVE goes on or ends. -/
theorem execSaveEntryBatch_of (hi : s.image = some (.save number addr table time gen k chain))
    (hf : s.flight = some ⟨.image, .saveEntries, orphan⟩) :
    let records := batchRecords s.fused.boxKey gen table k
    let a := addr + 512 + 4096 * k
    exec .saveEntryBatch s = .next
      (if covers s.windows true a records.length then
        { s with
          flight := none, mem := s.mem.write a records
          image := some (.save number addr table time gen (k + 1) (chain.feed (imageCheckKey s.fused.boxKey) records)) }
      else { s with flight := none }.endImage number .window 0) := by
  show execSaveEntryBatch s = _
  unfold execSaveEntryBatch State.flightAccesses
  simp only [hi, hf, writeAccesses_one]
  cases covers s.windows true _ _ <;> rfl

/-- The header batch of a SAVE: its one write, and the SAVE ends. -/
theorem execSaveHeaderBatch_of (hi : s.image = some (.save number addr table time gen k chain))
    (hf : s.flight = some ⟨.image, .saveHeader, orphan⟩) :
    let key := imageCheckKey s.fused.boxKey
    let header := imageHeader gen time ++ (chain.feed key (imageHeader gen time)).finish key
    exec .saveHeaderBatch s = .next
      (if covers s.windows true addr header.length then
        { s with flight := none, mem := s.mem.write addr header, cell := gen }.endImage number .done gen
      else { s with flight := none }.endImage number .window 0) := by
  show execSaveHeaderBatch s = _
  unfold execSaveHeaderBatch State.flightAccesses
  simp only [hi, hf, writeAccesses_one]
  cases covers s.windows true _ _ <;> rfl

/-- A SAVE that ends. -/
theorem save_ends {i : Instr} {res : Result} {detail cell : Nat} {mem : Memory} (hr : s.part ≠ .stopped) (hne : res ≠ .none)
    (hx : exec i s = .next ({ s with flight := none, mem := mem, cell := cell }.endImage number res detail)) :
    ∃ t, exec i s = .next t ∧ t.flight = none ∧ t.image = none ∧ t.cell = cell ∧
      t.header = (if number = some s.partLatch then { s.header with result := res, detail := detail } else s.header) ∧
      (number = some s.partLatch → partFlag .result ∈ t.flags) ∧ (number ≠ some s.partLatch → t.flags = s.flags) ∧
      s.flagsBut t [partFlag .result] ∧ t.slots = s.slots ∧ t.entries = s.entries ∧ s.sameKeysAndClock t ∧
      t.kept = { s.kept with header := t.header, cell := t.cell, image := none } ∧ t.waiting = s.waiting ∧
      ∀ b, ¬ s.inHeader b → t.mem.get b = mem.get b := by
  obtain ⟨heq, hheader, hflags, hsame, hmem⟩ := State.endImage_running
    (s := { s with flight := none, mem := mem, cell := cell }) hr number hne detail
  generalize ({ s with flight := none, mem := mem, cell := cell } : State).endImage number res detail = t at *
  have keeps {α : Type} (g : State → α) : g t = g { s with
      flight := none, cell := cell, image := none, header := t.header, mem := t.mem, flags := t.flags } := congrArg g heq
  refine ⟨t, hx, keeps State.flight, keeps State.image, keeps State.cell, hheader, fun hn => (hflags _).2 (.inr ⟨rfl, hn⟩),
    hsame, fun f hf => (hflags f).trans (or_iff_left fun h => hf (List.mem_singleton.2 h.1)), keeps State.slots,
    keeps State.entries, (State.sameKeysAndClock_iff _ _).2 (keeps State.keysClock), ?_, keeps State.waiting, hmem⟩
  rw [keeps State.cell]
  exact keeps State.kept

end

/-- Settles O45: each batch's one write, and what the SAVE comes to with it made or refused. -/
theorem saveBatchesWriteImage : Obligations.SaveBatchesWriteImage := by
  intro s number addr table time gen k chain orphan
  dsimp only
  intro hi
  simp only [← covers_iff]
  refine ⟨fun hf => ?_, fun hf hr => ?_⟩
  · have hexec := execSaveEntryBatch_of hi hf
    refine ⟨fun hw => ?_, fun hw hr => ?_⟩
    · rw [hexec, if_pos hw]
    · exact save_ends hr nofun (hexec.trans (congrArg _ (if_neg hw)))
  · have hexec := execSaveHeaderBatch_of hi hf
    refine ⟨fun hw => ?_, fun hw => ?_⟩
    · exact save_ends hr nofun (hexec.trans (congrArg _ (if_pos hw)))
    · exact save_ends hr nofun (hexec.trans (congrArg _ (if_neg hw)))

/-! ## LOAD (R44, R170) -/

theorem ofLe_single_eq_one (bs : List Byte) : ofLe (bs.take 1) = 1 ↔ bs.take 1 = [1] := by
  cases bs with
  | nil => simp [ofLe]
  | cons b bs =>
    show ofLe [b] = 1 ↔ [b] = [1]
    rw [ofLe, ofLe, Nat.mul_zero, Nat.add_zero, List.cons.injEq, and_iff_left rfl, ← BitVec.toNat_inj]
    rfl

theorem headerOk_iff (header : List Byte) : headerOk header = true ↔
    header.take 4 = [0x4C, 0x32, 0x49, 0x4D] ∧ (header.drop 4).take 1 = [1] := by
  rw [headerOk, decide_eq_true_eq]
  exact and_congr_right fun _ => ofLe_single_eq_one (header.drop 4)

/-- From `s`, with the recorder's writes in the memory of `r`, to `t` a batch of a LOAD has completed and nothing has changed
but the LOAD and the part result. -/
def State.loadFrame (s r t : State) : Prop :=
  t.flight = none ∧ t.entries = s.entries ∧ t.slots = s.slots ∧
    t.kept = { s.kept with header := t.header, image := t.image } ∧ s.sameKeysAndClock t ∧ t.waiting = s.waiting ∧
    s.flagsBut t [partFlag .result] ∧ r.sameMemoryBut t s.inHeader

/-- From `s` to `t` the image operation of order `number` has ended with a result. -/
def State.imageEnded (s t : State) (number : Option Mark) (res : Result) (detail : Nat) : Prop :=
  t.image = none ∧
    t.header = (if number = some s.partLatch then { s.header with result := res, detail := detail } else s.header) ∧
    (partFlag .result ∈ t.flags ↔ partFlag .result ∈ s.flags ∨ number = some s.partLatch)

section
variable {s : State} {w : Writes} {number : Option Mark} {addr k : Nat} {header : List Byte} {staging : List (List Byte)}
  {chain : Chain} {orphan : Bool}

/-- The header batch of a LOAD: its one read, and the header judged. -/
theorem execLoadHeaderBatch_of (hw : writesInSpace w = true) (hi : s.image = some (.load number addr none staging k chain))
    (hf : s.flight = some ⟨.image, .loadHeader, orphan⟩) :
    let u : State := { s.recorded w with flight := none }
    let header := u.mem.read addr 512
    exec (.loadHeaderBatch w) s = .next
      (if covers s.windows false addr 512 then
        if headerOk header then { u with image := some (.load number addr (some header) staging k chain) }
        else u.endImage number .imageBad 0
      else u.endImage number .window 0) := by
  show execLoadHeaderBatch w s = _
  unfold execLoadHeaderBatch
  rw [withWrites_of hw]
  simp only [State.recorded, hi, hf]
  rfl

/-- An entry batch of a LOAD: its one read, and after the last one the image judged. -/
theorem execLoadEntryBatch_of (hw : writesInSpace w = true)
    (hi : s.image = some (.load number addr (some header) staging k chain))
    (hf : s.flight = some ⟨.image, .loadEntries, orphan⟩) :
    let u : State := { s.recorded w with flight := none }
    let bytes := u.mem.read (addr + 512 + 4096 * k) 4096
    let value := chain.feed (imageCheckKey s.fused.boxKey) bytes
    let copy := staging ++ recordsOf bytes
    exec (.loadEntryBatch w) s = .next
      (if covers s.windows false (addr + 512 + 4096 * k) 4096 then
        if k + 1 < 16 then { u with image := some (.load number addr (some header) copy (k + 1) value) }
        else u.judgeImage number header copy value
      else u.endImage number .window 0) := by
  show execLoadEntryBatch w s = _
  unfold execLoadEntryBatch
  rw [withWrites_of hw]
  simp only [State.recorded, hi, hf]
  rfl

/-- A LOAD that ends without a table. -/
theorem load_ends {i : Instr} {res : Result} (hr : s.part ≠ .stopped) (hne : res ≠ .none)
    (hx : exec i s = .next ({ s.recorded w with flight := none }.endImage number res 0)) :
    ∃ t, exec i s = .next t ∧ s.loadFrame (s.recorded w) t ∧ s.imageEnded t number res 0 := by
  obtain ⟨heq, hheader, hflags, -, hmem⟩ := State.endImage_running
    (s := { s.recorded w with flight := none }) hr number hne 0
  generalize ({ s.recorded w with flight := none } : State).endImage number res 0 = t at *
  have keeps {α : Type} (g : State → α) : g t = g { s.recorded w with
      flight := none, image := none, header := t.header, mem := t.mem, flags := t.flags } := congrArg g heq
  refine ⟨t, hx, ⟨keeps State.flight, keeps State.entries, keeps State.slots, ?_,
    (State.sameKeysAndClock_iff _ _).2 (keeps State.keysClock), keeps State.waiting, fun f hf => ?_, hmem⟩,
    keeps State.image, hheader, ?_⟩
  · rw [keeps State.image]
    exact keeps State.kept
  · exact (hflags f).trans (or_iff_left fun h => hf (List.mem_singleton.2 h.1))
  · exact (hflags _).trans (or_congr_right (and_iff_right rfl))

/-- The image judged after its last entry batch. -/
theorem State.judgeImage_eq (s : State) (number : Option Mark) (header : List Byte) (staging : List (List Byte))
    (chain : Chain) :
    let key := imageCheckKey s.fused.boxKey
    let check := (chain.feed key (header.take 504)).finish key
    (check ≠ (header.drop 504).take 8 ∨ field header 8 4 ≠ s.cell → s.judgeImage number header staging chain =
      s.endImage number (if check ≠ (header.drop 504).take 8 then .imageBad else .imageOld) 0) ∧
    (check = (header.drop 504).take 8 → field header 8 4 = s.cell → s.judgeImage number header staging chain =
      s.completeLoad number header staging) := by
  dsimp only
  unfold State.judgeImage
  refine ⟨fun h => ?_, fun h h' => ?_⟩
  · dsimp only
    by_cases hc : (chain.feed (imageCheckKey s.fused.boxKey) (header.take 504)).finish (imageCheckKey s.fused.boxKey) ≠
        (header.drop 504).take 8
    · rw [if_pos hc, if_pos hc]
    · rw [if_neg hc, if_neg hc, if_pos (h.resolve_left hc)]
  · rw [if_neg (not_not.2 h), if_neg (not_not.2 h')]

/-! ## The table of an image (R170) -/

theorem loadedTable_entry (boxKey : Key) (gen : Nat) (staging : List (List Byte)) (e : Fin 64) :
    (loadedTable boxKey gen staging)[e] = (entryOf boxKey gen e.val (staging.getD e.val [])).cutOff := by
  have hplace : ∀ d : Fin 64, (Vector.mk allEntries.toArray (by decide) : Vector (Fin 64) 64)[d] = d := by decide
  rw [loadedTable, length_mapVector_get, hplace]

theorem Entry.cutOff_unbound {x : Entry} (hb : x.binding = none) (hp : x.players = []) :
    x.cutOff.binding = none ∧ x.cutOff.players = [] := by
  unfold Entry.cutOff
  split
  · split
    · unfold Entry.returned
      split <;> exact ⟨rfl, rfl⟩
    · exact ⟨rfl, hp⟩
  · exact ⟨hb, hp⟩
  · exact ⟨hb, hp⟩

/-- A LOAD whose checks have passed: table, clock, readiness and the judgement of every entry. -/
theorem load_completes {i : Instr} (hr : s.part ≠ .stopped)
    (hx : exec i s = .next ({ s.recorded w with flight := none }.completeLoad number header staging)) :
    let gen := field header 8 4
    let clock := max s.clock (field header 12 4)
    let loaded (e : Fin 64) := (entryOf s.fused.boxKey gen e.val (staging.getD e.val [])).cutOff
    ∃ t, exec i s = .next t ∧ t.flight = none ∧ t.slots = s.slots ∧
      t.kept = { s.kept with header := t.header, image := none, ready := true } ∧ t.pool = s.pool ∧
      t.drawing = s.drawing ∧ t.clock = clock ∧ s.imageEnded t number .done gen ∧
      (s.recorded w).sameMemoryBut t s.inHeader ∧ s.flagsBut t [partFlag .result, partFlag .lapse] ∧
      (∀ e, t.entry e = ((loaded e).derivedAt clock).viewedOut false) ∧
      (partFlag .lapse ∈ t.flags ↔
        partFlag .lapse ∈ s.flags ∨ ∃ e, (t.entry e).state = .lapsed ∧ (loaded e).state ≠ .lapsed) := by
  intro gen clock loaded
  let v : State := { s.recorded w with flight := none, entries := loadedTable s.fused.boxKey gen staging, clock := clock }
  have hx' : exec i s = .next ({ v.deriveAll with ready := true }.endImage number .done gen) := hx
  have hloaded : ∀ e, v.entry e = loaded e := loadedTable_entry s.fused.boxKey gen staging
  have hunbound : ∀ e, (v.entry e).binding = none ∧ (v.entry e).players = [] := fun e => by
    rw [hloaded]
    exact Entry.cutOff_unbound rfl rfl
  obtain ⟨hrest, hentry, hslot, hflags⟩ := State.deriveAll_lapses (s := v) (fun e => (hunbound e).1) fun e => (hunbound e).2
  simp only [hloaded, mem_allEntries, if_true, true_and, decide_eq_true_eq] at hentry hflags
  have hslots : v.deriveAll.slots = s.slots := by
    refine Vector.ext fun m hm => (hslot ⟨m, hm⟩).trans ?_
    have hnone : ∀ e, (v.entry e).boundSlots = [] := fun e => (Entry.boundSlots_eq_nil _).2 (hunbound e)
    rw [List.any_eq_false.2 fun e _ => by simp [hnone], Bool.or_false]
    rfl
  generalize v.deriveAll = d at hx' hrest hentry hslots hflags
  obtain ⟨heq, hheader, hresult, -, hmem⟩ := State.endImage_running (s := { d with ready := true })
    (by rw [hrest]; exact hr) number (r := .done) nofun gen
  generalize ({ d with ready := true } : State).endImage number .done gen = t at *
  have keeps {α : Type} (g : State → α) : g t = g { s.recorded w with
      flight := none, slots := d.slots, entries := d.entries, clock := clock, ready := true, image := none
      header := t.header, mem := t.mem, flags := t.flags } := by
    rw [heq, hrest]
  have hflags' : ∀ f, f ∈ t.flags ↔ (f ∈ s.flags ∨ f = partFlag .lapse ∧ ∃ e, (t.entry e).state = .lapsed ∧
      (loaded e).state ≠ .lapsed) ∨ f = partFlag .result ∧ number = some s.partLatch := fun f => by
    have hlatch : d.partLatch = s.partLatch := by
      rw [hrest]
      rfl
    have hentry' : ∀ e, t.entry e = ((loaded e).derivedAt clock).viewedOut false := fun e =>
      (State.entry_congr (keeps State.entries) e).trans (hentry e)
    simp only [hentry']
    refine (hresult f).trans (or_congr (hflags f) ?_)
    rw [hlatch]
  have hne : partFlag .result ≠ partFlag .lapse := by decide
  refine ⟨t, hx', keeps State.flight, (keeps State.slots).trans hslots, keeps State.kept, keeps State.pool,
    keeps State.drawing, keeps State.clock, ⟨keeps State.image, ?_, ?_⟩, fun a ha => ?_, fun f hf => ?_, fun e => ?_, ?_⟩
  · rw [hheader, hrest]
    rfl
  · rw [hflags']
    simp [hne]
  · refine (hmem a fun h => ha ?_).trans ?_
    · rw [hrest] at h
      exact h
    · rw [hrest]
  · rw [hflags']
    simp only [List.mem_cons, List.not_mem_nil, or_false, not_or] at hf
    simp [hf]
  · exact (State.entry_congr (keeps State.entries) e).trans (hentry e)
  · rw [hflags']
    simp [hne.symm]

end

/-- Settles O46: each batch's one read, the header and the image judged, and the table taken over. -/
theorem loadBatchesReadImage : Obligations.LoadBatchesReadImage := by
  intro s w number addr staging k chain orphan hw hr
  refine ⟨fun hf hi => ?_, fun header hf hi => ?_⟩
  · have hexec := execLoadHeaderBatch_of hw hi hf
    dsimp only at hexec ⊢
    simp only [← covers_iff, ← headerOk_iff]
    by_cases hread : covers s.windows false addr 512 = true
    · by_cases hok : headerOk ((s.recorded w).mem.read addr 512) = true
      · refine ⟨_, hexec.trans (congrArg _ ((if_pos hread).trans (if_pos hok))), ⟨rfl, rfl, rfl, rfl, ⟨rfl, rfl, rfl⟩, rfl,
          fun _ _ => .rfl, fun _ _ => rfl⟩, fun _ _ => ⟨rfl, rfl, rfl⟩, fun _ hn => absurd hok hn, fun hn => absurd hread hn⟩
      · obtain ⟨t, h1, h2, h3⟩ := load_ends (res := .imageBad) hr nofun
          (hexec.trans (congrArg _ ((if_pos hread).trans (if_neg hok))))
        exact ⟨t, h1, h2, fun _ h => absurd h hok, fun _ _ => h3, fun hn => absurd hread hn⟩
    · obtain ⟨t, h1, h2, h3⟩ := load_ends (res := .window) hr nofun (hexec.trans (congrArg _ (if_neg hread)))
      exact ⟨t, h1, h2, fun h => absurd h hread, fun h => absurd h hread, fun _ => h3⟩
  · have hexec := execLoadEntryBatch_of hw hi hf
    dsimp only at hexec ⊢
    simp only [← covers_iff]
    obtain ⟨hrefused, hpassed⟩ := State.judgeImage_eq { s.recorded w with flight := none } number header
      (staging ++ recordsOf ((s.recorded w).mem.read (addr + 512 + 4096 * k) 4096))
      (chain.feed (imageCheckKey s.fused.boxKey) ((s.recorded w).mem.read (addr + 512 + 4096 * k) 4096))
    refine ⟨fun hread hk => hexec.trans (congrArg _ ((if_pos hread).trans (if_pos hk))), fun hread => ?_,
      fun hread hk hbad => ?_, fun hread hk hcheck hgen => ?_⟩
    · exact load_ends hr nofun (hexec.trans (congrArg _ (if_neg hread)))
    · refine load_ends hr (by split <;> nofun) (hexec.trans (congrArg _ ((if_pos hread).trans ((if_neg (not_lt.2 hk)).trans ?_))))
      exact hrefused hbad
    · refine load_completes hr (hexec.trans (congrArg _ ((if_pos hread).trans ((if_neg (not_lt.2 hk)).trans ?_))))
      exact hpassed hcheck hgen

end Sys2Proof.Machine
end

