-- ==== Sys2Proof/Proofs/SealingBatch.lean ====
section
/-! Proofs: a sealing batch completes, and its close takes effect, the next batch forms or the slot faults (R36, R74, R77,
R83, R88, R101, R103). -/

namespace Sys2Proof.Machine

/-! ## The chunk record of placed packets (R101) -/

/-- The positions of the access points among packets placed from position `pos` on. -/
def accessPositions (pos : Nat) (ks : List Carried) : List Nat :=
  (ks.zipIdx pos).filterMap fun k => if k.1.access then some k.2 else none

theorem accessPositions_cons (pos : Nat) (k : Carried) (ks : List Carried) :
    accessPositions pos (k :: ks) = (if k.access then [pos] else []) ++ accessPositions (pos + 1) ks := by
  unfold accessPositions
  rw [List.zipIdx_cons, List.filterMap_cons]
  cases k.access <;> rfl

/-- A list of at most `n` cut to `n` after an element joined, or joined only where there is room. -/
theorem take_concat_of_le {α : Type} {l : List α} {n : Nat} (h : l.length ≤ n) (a : α) :
    (l ++ [a]).take n = if l.length < n then l ++ [a] else l := by
  split
  · exact List.take_of_length_le (by simp; omega)
  · rw [List.take_append_of_le_length (by omega), List.take_of_length_le h]

/-- A cut before an append that is cut again makes no difference. -/
theorem take_append_take {α : Type} (l r : List α) (n : Nat) : (l.take n ++ r).take n = (l ++ r).take n := by
  rw [List.take_append, List.take_append, List.take_take, Nat.min_self, List.length_take]
  congr 2
  omega

section
variable (c : OpenChunk) (pos : Nat) (k : Carried)

theorem OpenChunk.place_points (h : c.points.length ≤ 8) :
    (c.place pos k).points = (c.points ++ if k.access then [pos] else []).take 8 := by
  unfold OpenChunk.place
  cases k.access with
  | false => simpa using (List.take_of_length_le h).symm
  | true => simpa using (take_concat_of_le h pos).symm

theorem OpenChunk.place_overflow (h : c.points.length ≤ 8) : (c.place pos k).overflow = true ↔
    c.overflow = true ∨ 8 < (c.points ++ if k.access then [pos] else []).length := by
  unfold OpenChunk.place
  cases k.access with
  | false => simpa using fun h' => absurd h (by omega)
  | true => simp

theorem OpenChunk.place_scrambledMark : (c.place pos k).scrambledMark = true ↔
    c.scrambledMark = true ∨ (byteAt k.bytes 3).toNat / 64 ≠ 0 := by
  simp only [OpenChunk.place, Bool.or_eq_true, bne_iff_ne, packetScrambling]

theorem OpenChunk.mem_place_seen (i : Nat) : i ∈ (c.place pos k).seen ↔ i ∈ c.seen ∨ k.watch = some i := by
  unfold OpenChunk.place
  cases k.watch with
  | none => simp
  | some j =>
    dsimp only
    rw [Option.some_inj]
    split
    next hj => exact (or_iff_left_of_imp fun h => h ▸ hj).symm
    next => rw [List.mem_append, List.mem_singleton, eq_comm (a := i)]

end

/-- The chunk's record of packets placed in it. -/
theorem OpenChunk.placeAll_record (ks : List Carried) (c : OpenChunk) (pos : Nat) (h : c.points.length ≤ 8) :
    let d := c.placeAll pos ks
    d.points = (c.points ++ accessPositions pos ks).take 8 ∧
      (d.overflow = true ↔ c.overflow = true ∨ 8 < (c.points ++ accessPositions pos ks).length) ∧
      (d.scrambledMark = true ↔ c.scrambledMark = true ∨ ∃ k ∈ ks, (byteAt k.bytes 3).toNat / 64 ≠ 0) ∧
      ∀ i, i ∈ d.seen ↔ i ∈ c.seen ∨ ∃ k ∈ ks, k.watch = some i := by
  induction ks generalizing c pos with
  | nil => simpa [OpenChunk.placeAll, accessPositions, List.take_of_length_le h] using fun h' => absurd h (by omega)
  | cons k ks ih =>
    obtain ⟨ih1, ih2, ih3, ih4⟩ := ih (c.place pos k) (pos + 1) (c.place_points_le pos k h)
    rw [accessPositions_cons, ← List.append_assoc]
    refine ⟨?_, ?_, ?_, fun i => ?_⟩
    · rw [OpenChunk.placeAll, ih1, c.place_points pos k h, take_append_take]
    · rw [OpenChunk.placeAll, ih2, c.place_overflow pos k h, c.place_points pos k h, or_assoc]
      refine or_congr_right ?_
      simp only [List.length_append, List.length_take]
      omega
    · rw [OpenChunk.placeAll, ih3, c.place_scrambledMark pos k, List.exists_mem_cons_iff, or_assoc]
    · rw [OpenChunk.placeAll, ih4, c.mem_place_seen pos k, List.exists_mem_cons_iff, or_assoc]

/-! ## Absence reset by placed packets (R103) -/

/-- Elements of a list put back to its default, one after another. -/
theorem foldl_set_default {α : Type} (v : α) (is : List Nat) (l : List α) :
    let r := is.foldl (fun a i => a.set i v) l
    r.length = l.length ∧ ∀ i, (i ∈ is → r.getD i v = v) ∧ (i ∉ is → r.getD i v = l.getD i v) := by
  induction is generalizing l with
  | nil => simp
  | cons j is ih =>
    obtain ⟨ih1, ih2⟩ := ih (l.set j v)
    refine ⟨ih1.trans List.length_set, fun i => ⟨fun hi => ?_, fun hi => ?_⟩⟩
    · by_cases hin : i ∈ is
      · exact (ih2 i).1 hin
      · obtain rfl : i = j := (List.mem_cons.1 hi).resolve_right hin
        rw [List.foldl_cons, (ih2 i).2 hin, List.getD_eq_getElem?_getD, List.getElem?_set_self']
        cases l[i]? <;> rfl
    · rw [List.mem_cons, not_or] at hi
      rw [List.foldl_cons, (ih2 i).2 hi.2, List.getD_eq_getElem?_getD, List.getElem?_set_ne (Ne.symm hi.1),
        List.getD_eq_getElem?_getD]

theorem mem_watched (i : Nat) (ks : List Carried) : i ∈ ks.filterMap Carried.watch ↔ ∃ k ∈ ks, k.watch = some i :=
  List.mem_filterMap

/-- A slot that forms a batch of its open chunk is as R74, R101 and R103 have it. -/
theorem Slot.batchFormed_forms {x : Slot} {c : OpenChunk} (h : c.points.length ≤ 8) :
    ∃ d, x.formsBatch c (x.batchFormed c) d := by
  obtain ⟨hplace, -⟩ := OpenChunk.placeAll_eq (x.carry.take (x.geo.chunkLength - c.stored)) c c.stored
  obtain ⟨hpoints, hover, hscr, hseen⟩ :=
    OpenChunk.placeAll_record (x.carry.take (x.geo.chunkLength - c.stored)) c c.stored h
  obtain ⟨hl1, hg1⟩ := foldl_set_default 0
    ((x.carry.take (x.geo.chunkLength - c.stored)).filterMap Carried.watch) x.absence
  obtain ⟨hl2, hg2⟩ := foldl_set_default false
    ((x.carry.take (x.geo.chunkLength - c.stored)).filterMap Carried.watch) x.eng.absent
  refine ⟨_, rfl, ?_, hover, hscr, hseen, hl1, hl2, fun i => ⟨fun hi => ?_, fun hi => ?_⟩⟩
  · dsimp only
    rw [hplace, hpoints]
    rfl
  · exact ⟨(hg1 i).1 ((mem_watched i _).2 hi), (hg2 i).1 ((mem_watched i _).2 hi)⟩
  · have hno : i ∉ (x.carry.take (x.geo.chunkLength - c.stored)).filterMap Carried.watch := fun hm => by
      obtain ⟨k, hk, hw⟩ := (mem_watched i _).1 hm
      exact hi k hk hw
    exact ⟨(hg1 i).2 hno, (hg2 i).2 hno⟩

/-! ## What follows a sealing batch (R74, R77, R83) -/

section
variable {s : State} {n : Fin 8} {c : OpenChunk} {bytes : List Byte}

/-- A completed sealing batch of slot `x` closes its chunk: a close is asked, the chunk is full, or a CLOSING slot has
nothing more for it. -/
def Slot.sealingCloses (x : Slot) (c : OpenChunk) : Prop :=
  c.closeAsked = true ∨ x.geo.chunkLength ≤ c.stored + c.batch.length ∨
    (x.eng.state = .closing ∧ x.take = none ∧ x.carry = [])

/-- The sealed packets counted into the open chunk of slot `n`. -/
def State.countSealed (s : State) (n : Fin 8) (c : OpenChunk) (bytes : List Byte) : State :=
  s.modSlot n fun x => { x with chunk := some (c.sealed bytes) }

theorem State.countSealed_slot (s : State) (n : Fin 8) (c : OpenChunk) (bytes : List Byte) :
    (s.countSealed n c bytes).slot n = { s.slot n with chunk := some (c.sealed bytes) } := State.slot_modSlot_self ..

theorem State.countSealed_own (hr : s.part ≠ .stopped) (c : OpenChunk) (bytes : List Byte) :
    s.Own (s.countSealed n c bytes) n [] := State.modSlot_own n hr _

theorem State.formBatch_empty (h : (s.slot n).carry = []) : s.formBatch n = s := by
  unfold State.formBatch
  cases (s.slot n).chunk <;> simp [h]

theorem State.sealedBatch_of (hc : (s.slot n).chunk = some c) : s.sealedBatch n bytes =
    ((if c.closeAsked = true ∨ (s.slot n).geo.chunkLength ≤ c.stored + c.batch.length then
      (s.countSealed n c bytes).closeTakesEffect n else (s.countSealed n c bytes).formBatch n).settleClosing n) := by
  unfold State.sealedBatch
  simp only [hc, Bool.or_eq_true, decide_eq_true_eq, State.slot_modSlot_self, State.countSealed]
  rfl

/-- Once the close has taken effect a CLOSING slot asks for nothing more. -/
theorem State.settleClosing_closed (hc : (s.slot n).chunk = some c) :
    (s.closeTakesEffect n).settleClosing n = s.closeTakesEffect n := by
  have hclosed := (State.closeTakesEffect_closes hc).1
  generalize s.closeTakesEffect n = t at hclosed
  have hchunk : (t.slot n).chunk = some { c with closeAsked := true, closed := true, lost := (s.slot n).lostTotal } := by
    rw [hclosed]
    rfl
  by_cases hs : (t.slot n).eng.state = .closing ∧ (t.slot n).take = none ∧ (t.slot n).carry = []
  · obtain ⟨h1, h2, h3⟩ := hs
    rw [State.settleClosing_asks h1 h2 h3 hchunk]
    split
    · exact State.askClose_asked hchunk rfl
    · rfl
  · exact State.settleClosing_none hs

theorem State.sealedBatch_closes (hc : (s.slot n).chunk = some c) (hcl : (s.slot n).sealingCloses c) :
    s.sealedBatch n bytes = (s.countSealed n c bytes).closeTakesEffect n := by
  have hslot := s.countSealed_slot n c bytes
  have hchunk : ((s.countSealed n c bytes).slot n).chunk = some (c.sealed bytes) := by rw [hslot]
  rw [State.sealedBatch_of hc]
  split
  next => exact State.settleClosing_closed hchunk
  next hasked =>
    obtain ⟨hs, ht, hcarry⟩ : (s.slot n).eng.state = .closing ∧ (s.slot n).take = none ∧ (s.slot n).carry = [] :=
      (or_assoc.2 hcl).resolve_left hasked
    rw [State.formBatch_empty (by rw [hslot]; exact hcarry),
      State.settleClosing_asks (by rw [hslot]; exact hs) (by rw [hslot]; exact ht) (by rw [hslot]; exact hcarry) hchunk,
      if_pos (show (c.sealed bytes).batch = [] from rfl),
      State.askClose_takes hchunk (Bool.eq_false_iff.2 fun h => hasked (.inl h)) rfl]

theorem State.sealedBatch_open (hc : (s.slot n).chunk = some c) (hcl : ¬ (s.slot n).sealingCloses c)
    (hcarry : (s.slot n).carry = []) : s.sealedBatch n bytes = s.countSealed n c bytes := by
  have hslot := s.countSealed_slot n c bytes
  rw [State.sealedBatch_of hc, if_neg fun h => hcl (or_assoc.1 (.inl h)),
    State.formBatch_empty (by rw [hslot]; exact hcarry)]
  exact State.settleClosing_none fun h => hcl (.inr (.inr (by simpa only [hslot] using h)))

theorem State.sealedBatch_forms (hc : (s.slot n).chunk = some c) (hcl : ¬ (s.slot n).sealingCloses c)
    (hcarry : (s.slot n).carry ≠ []) : s.sealedBatch n bytes = (s.countSealed n c bytes).formBatch n := by
  have hslot := s.countSealed_slot n c bytes
  have hroom : c.stored + c.batch.length < (s.slot n).geo.chunkLength := Nat.lt_of_not_le fun h => hcl (.inr (.inl h))
  obtain ⟨hform, -⟩ := State.formBatch_all (c := c.sealed bytes) (s := s.countSealed n c bytes) (by rw [hslot])
    (Bool.eq_false_iff.2 fun h => hcl (.inl h)) rfl (by rw [hslot]; exact hcarry)
  rw [hslot] at hform
  rw [State.sealedBatch_of hc, if_neg fun h => hcl (or_assoc.1 (.inl h))]
  generalize (s.countSealed n c bytes).formBatch n = t at hform
  by_cases hs : (t.slot n).eng.state = .closing ∧ (t.slot n).take = none ∧ (t.slot n).carry = []
  · obtain ⟨h1, h2, h3⟩ := hs
    rw [State.settleClosing_asks h1 h2 h3 (congrArg Slot.chunk hform), if_neg]
    intro hempty
    rcases List.take_eq_nil_iff.1 hempty with h | h
    · exact absurd h (by show (s.slot n).geo.chunkLength - (c.stored + c.batch.length) ≠ 0; omega)
    · exact hcarry h
  · exact State.settleClosing_none hs

/-- The batch formed changes the slot alone, and raises nothing. -/
theorem State.formBatch_own (hr : s.part ≠ .stopped) (hk : (s.slot n).chunk = some c) (ha : c.closeAsked = false)
    (hb : c.batch = []) (hc : (s.slot n).carry ≠ []) : s.Own (s.formBatch n) n [] := by
  obtain ⟨-, hslots, hentries, hwaiting, hflight, hkeys, hshow⟩ := State.formBatch_all hk ha hb hc
  exact ⟨⟨hr, hshow.kept, hkeys, hshow.held hr, hshow.causes, hshow.mem, fun f _ => by rw [hshow.flags],
    fun f h => by rwa [hshow.flags]⟩, hslots, hentries, hwaiting, hflight⟩

/-- What follows a sealing batch comes to: the close, the open chunk, or the next batch. -/
theorem State.sealedBatch_all (hr : s.part ≠ .stopped) (hc : (s.slot n).chunk = some c) (bytes : List Byte) :
    let x := s.slot n
    let y := { x with chunk := some (c.sealed bytes) }
    let t := s.sealedBatch n bytes
    (x.sealingCloses c → s.Own t n [slotFlag .absent n] ∧ s.closesChunk t n y (c.sealed bytes) (t.slot n)) ∧
      (¬ x.sealingCloses c → x.carry = [] → s.Own t n [] ∧ t = s.setSlot n y) ∧
      (¬ x.sealingCloses c → x.carry ≠ [] →
        s.Own t n [] ∧ t.flags = s.flags ∧ t.slot n = y.batchFormed (c.sealed bytes)) := by
  have hown : s.Own (s.countSealed n c bytes) n [] := State.countSealed_own hr c bytes
  have hslot := s.countSealed_slot n c bytes
  have hchunk : ((s.countSealed n c bytes).slot n).chunk = some (c.sealed bytes) := by rw [hslot]
  refine ⟨fun hcl => ?_, fun hcl hcarry => ?_, fun hcl hcarry => ?_⟩
  · rw [State.sealedBatch_closes hc hcl]
    have hcloses := State.closeTakesEffect_closes hchunk
    rw [hslot] at hcloses
    exact ⟨(hown.mono (by simp)).trans (State.closeTakesEffect_own hown.running') (by simp), hcloses⟩
  · rw [State.sealedBatch_open hc hcl hcarry]
    exact ⟨hown, rfl⟩
  · rw [State.sealedBatch_forms hc hcl hcarry]
    have hasked : (c.sealed bytes).closeAsked = false := Bool.eq_false_iff.2 fun h => hcl (.inl h)
    have hcarry' : ((s.countSealed n c bytes).slot n).carry ≠ [] := by rw [hslot]; exact hcarry
    obtain ⟨hform, -, -, -, -, -, hshow⟩ := State.formBatch_all hchunk hasked rfl hcarry'
    rw [hslot] at hform
    exact ⟨hown.trans (State.formBatch_own hown.running' hchunk hasked rfl hcarry') (by simp), hshow.flags, hform⟩

end

/-! ## The batch -/

section
variable {s : State} {n : Fin 8} {base pos gen seq : Nat} {pkts : List Carried} {key : Key} {orphan : Bool}

/-- A sealing batch that completes: its write, and what the slot does after it. -/
theorem execSealingBatch_of (h : s.flight = some ⟨.slot n, .sealing base pos pkts key gen seq, orphan⟩) :
    let bytes := storedBytes key gen seq pos pkts
    let written := writeAccesses s.windows s.mem [(base + 64 + 188 * pos, bytes)]
    let v := { s with flight := none, mem := written.1 }
    exec .sealingBatch s = .next (if orphan then v
      else if written.2 then (if (s.slot n).lapseDue then v else v.sealedBatch n bytes) else v.faultRecord n .window) := by
  show execSealingBatch s = _
  unfold execSealingBatch
  rw [h]
  rfl

end

/-- What stays of a state once the batch in flight has left the cipher with memory written, the slot's own work aside. -/
theorem State.Own.written {s t : State} {m : Memory} {n : Fin 8} {fs : List Flag}
    (h : ({ s with flight := none, mem := m } : State).Own t n fs) :
    t.flight = none ∧ s.sameSlotsBut t n ∧ t.entries = s.entries ∧ t.kept = s.kept ∧ s.sameKeysAndClock t ∧
      t.waiting = s.waiting ∧ ∀ b, ¬ s.inRecord n b → t.mem.get b = m.get b :=
  ⟨h.flight, h.slots, h.entries, h.kept, h.sameKeysAndClock, h.waiting, h.mem⟩

/-- Settles O37: the batch's write, then the close, the next batch or the open chunk, or the fault. -/
theorem sealingBatchStores : Obligations.SealingBatchStores := by
  intro s n base pos pkts key gen seq c orphan
  dsimp only
  intro hflight hr
  have hexec := execSealingBatch_of hflight
  dsimp only at hexec
  rw [writeAccesses_one] at hexec
  simp only [← covers_iff]
  generalize storedBytes key gen seq pos pkts = bytes at hexec ⊢
  refine ⟨fun hin => ⟨fun hdrop => ?_, fun horphan hlapse hc => ?_⟩, fun hout horphan => ?_,
    fun e hout horphan hlapse hm htake hbind => ?_⟩
  · rw [if_pos hin] at hexec
    rcases hdrop with h | h
    · rw [if_pos h] at hexec
      exact hexec
    · rw [if_pos rfl, if_pos (show _ = true from h), ite_self] at hexec
      exact hexec
  · rw [if_pos hin, if_neg (by simp [horphan]), if_pos rfl, if_neg (by simpa using hlapse)] at hexec
    obtain ⟨closes, stays, forms⟩ := State.sealedBatch_all
      (s := { s with flight := none, mem := s.mem.write (base + 64 + 188 * pos) bytes }) hr hc bytes
    refine ⟨fun hcl => ?_, fun hcl hcarry => ?_, fun hcl hcarry hlen => ?_⟩
    · obtain ⟨hown, hcloses⟩ := closes hcl
      exact ⟨_, hexec, hown.written, hcloses, hown.flags⟩
    · obtain ⟨hown, heq⟩ := stays hcl hcarry
      rw [heq] at hexec hown
      exact ⟨_, hexec, hown.written, State.slot_setSlot_self .., rfl, rfl⟩
    · obtain ⟨hown, hflags, hslot⟩ := forms hcl hcarry
      obtain ⟨d, hd⟩ :=
        Slot.batchFormed_forms (x := { s.slot n with chunk := some (c.sealed bytes) }) (c := c.sealed bytes) hlen
      exact ⟨_, d, hexec, hown.written, hslot ▸ hd, hflags⟩
  · rw [if_neg hout, if_pos horphan] at hexec
    exact hexec
  · rw [if_neg hout, if_neg (by simp [horphan]), if_neg nofun] at hexec
    obtain ⟨f1, f2, f3, f4⟩ := State.faultRecord_faultsTo (s := { s with flight := none }) hbind hm htake hlapse .window
    exact ⟨_, hexec, f1, f2, f3, f4⟩

end Sys2Proof.Machine
end

