-- ==== Sys2Proof/Proofs/FinalReseal.lean ====
section
/-! Proofs: the final re-seal batch completes, and the output frame is put or the slot faults (R41, R157 to R159, R163). -/

namespace Sys2Proof.Machine

/-! ## The put of an output frame (R157) -/

section
variable {s u : State} {n : Fin 8} {e : Fin 64} {fs : List Flag}

/-- What went on on a slot alone goes on alike once its entry has changed. -/
theorem State.Own.modEntry (h : s.Own u n fs) (e : Fin 64) (g : Entry → Entry) :
    (s.modEntry e g).Own (u.modEntry e g) n fs := by
  refine ⟨⟨h.running, h.kept, h.keysClock, h.held, h.causes, h.mem, h.flags, h.raised⟩, h.slots, ?_, h.waiting,
    h.flight⟩
  show u.entries.set e (g (u.entry e)) = s.entries.set e (g (s.entry e))
  rw [h.entries, h.entry]

/-- A slot stands alike on an entry whose binding and state are kept. -/
theorem State.bindsTo.setEntry {y : Entry} (h : s.bindsTo n e) (hs : y.state = (s.entry e).state)
    (hb : y.binding = (s.entry e).binding) : (s.setEntry e y).bindsTo n e := by
  have hentry : (s.setEntry e y).entry e = y := State.entry_setEntry_self ..
  unfold State.bindsTo at h ⊢
  dsimp only at h ⊢
  rw [hentry, hs, hb]
  exact h

/-- The slot after the put of its output frame. -/
def Slot.outputPut (x : Slot) : Slot := { x.advanceC 1 with outPos := (x.outPos + 1) % x.geo.outFrames }

/-- The put on the slot alone, the move mark and the frame in hand aside. -/
def State.putOut (s : State) (n : Fin 8) : State :=
  (s.modSlot n fun x => { x with outPos := (x.outPos + 1) % x.geo.outFrames }).advance n (·.advanceC 1)

theorem State.putOut_own (hr : s.part ≠ .stopped) : s.Own (s.putOut n) n [] := by
  have h1 := State.modSlot_own n hr fun x => { x with outPos := (x.outPos + 1) % x.geo.outFrames }
  exact h1.trans (State.advance_own n h1.running' (·.advanceC 1)) (by simp)

theorem State.putOut_slot (s : State) (n : Fin 8) : (s.putOut n).slot n = (s.slot n).outputPut := by
  unfold State.putOut
  rw [State.advance_slot_self, State.slot_modSlot_self]
  rfl

/-- The put with the move mark and the finish of the frame: the entry is judged as the mark leaves it. -/
theorem State.putOutput_finishing {f : Machine.Frame} (hb : s.bindsTo n e) (hm : (s.slot n).mode = .move)
    (hf : (s.slot n).frame = some f) (hp : f.pos < 16) (count remaining : Nat) :
    (s.advanceMoveMark e).Finishing (s.putOutput n e count remaining) n e
      ((s.slot n).outputPut.finished f .movedOut count remaining) := by
  have hown : (s.advanceMoveMark e).Own ((s.putOut n).advanceMoveMark e) n [] := (State.putOut_own hb.1).modEntry e _
  have hslot : ((s.putOut n).advanceMoveMark e).slot n = (s.slot n).outputPut := s.putOut_slot n
  have hbind : (s.advanceMoveMark e).bindsTo n e := hb.setEntry rfl rfl
  have hmode : ((s.advanceMoveMark e).slot n).mode = .move := hm
  have h := hown.endFrame hbind (by rw [hmode]; exact nofun) (by rw [hslot]; exact hb.2.1)
    (by rw [hslot, hmode]; exact hm) (by rw [hslot]; exact hf) hp .movedOut count remaining
  rwa [hslot] at h

/-- A complete output frame is put while the entry is MOVING, and not after a lapse. -/
theorem State.finalResealed_of {f : Machine.Frame} {tag : TagRead} {left : Nat} (hf : (s.slot n).frame = some f)
    (ht : f.tag = some tag) (hl : f.permit = some left) (hb : (s.slot n).boundEntry = some e) :
    ((s.entry e).state = .moving → s.finalResealed n = s.putOutput n e tag.count left) ∧
      ((s.entry e).state ≠ .moving → s.finalResealed n = s) := by
  cases f
  cases ht
  cases hl
  unfold State.finalResealed
  simp only [hf, hb]
  exact ⟨fun h => if_pos h, fun h => if_neg h⟩

end

/-! ## The batch -/

section
variable {s : State} {n : Fin 8} {out len count : Nat} {tag : List Byte} {token : Key} {chain : Chain} {orphan : Bool}

/-- A final re-seal batch that completes: its two writes, and what the slot does after them. -/
theorem execFinalResealBatch_of (h : s.flight = some ⟨.slot n, .finalReseal out len count tag token chain, orphan⟩) :
    let check := (chain.feed (frameCheckKey token) tag).finish (frameCheckKey token)
    let written := writeAccesses s.windows s.mem
      [(out, tag ++ check), (out + 64 + 188 * count, zeros (paddingLength len count))]
    let v := { s with flight := none, mem := written.1 }
    exec .finalResealBatch s = .next (if orphan then v
      else if written.2 then v.finalResealed n else v.faultFrameSlot n .window) := by
  show execFinalResealBatch s = _
  unfold execFinalResealBatch
  rw [h]
  rfl

end

/-- A PLAY, CHECK or MOVE slot faults as its batch leaves the cipher, memory written as far as the batch came. -/
theorem batch_faults {s : State} {n : Fin 8} {e : Fin 64} (m : Memory) (hb : s.bindsTo n e)
    (hm : (s.slot n).mode ≠ .record) :
    let t := ({ s with flight := none, mem := m } : State).faultFrameSlot n .window
    s.faultsTo t n e (s.slot n) .window ∧ t.flight = none ∧ t.sweep = s.sweep ∧
      ∀ b, ¬ s.inRecord n b → t.mem.get b = m.get b := by
  have hown : ({ s with flight := none, mem := m } : State).Own { s with flight := none, mem := m } n [] := .refl hb.1
  obtain ⟨f1, f2, f3, f4, -⟩ := hown.faultFrameSlot (e := e) hb hm hb.2.1 rfl rfl .window
  exact ⟨f1, f2, f3, f4⟩

/-- Settles O44: the batch's two writes, then the put with the finish of the frame, or the fault. -/
theorem finalResealPuts : Obligations.FinalResealPuts := by
  intro s n out len count tag token chain orphan
  dsimp only
  intro hflight
  have hexec := execFinalResealBatch_of hflight
  dsimp only at hexec
  generalize tag ++ (chain.feed (frameCheckKey token) tag).finish (frameCheckKey token) = sealed at hexec ⊢
  have hpad : (zeros (paddingLength len count)).length = paddingLength len count := List.length_replicate
  simp only [← covers_iff]
  refine ⟨fun horphan => ?_, fun e horphan hm hbind => ⟨fun f tag' left hf hp ht hl h1 h2 => ?_, fun hrefused => ?_⟩⟩
  all_goals rw [horphan] at hexec
  · rw [if_pos rfl] at hexec
    refine ⟨fun h1 h2 => ?_, fun h1 h2 => ?_, fun h1 => ?_⟩
    · rw [hexec, writeAccesses_two_made hpad h1 h2]
    · rw [hexec, writeAccesses_two_refused hpad (.inr h2), if_pos h1]
    · rw [hexec, writeAccesses_two_refused hpad (.inl h1), if_neg h1]
  · rw [writeAccesses_two_made hpad h1 h2, if_neg nofun, if_pos rfl] at hexec
    generalize (s.mem.write out sealed).write (out + 64 + 188 * count) (zeros (paddingLength len count)) = m at hexec ⊢
    obtain ⟨moving, gone⟩ :=
      State.finalResealed_of (s := { s with flight := none, mem := m }) (e := e) hf ht hl hbind.2.1
    refine ⟨fun hmoving => ?_, fun hgone => ?_⟩
    · rw [moving hmoving] at hexec
      have hfin := State.putOutput_finishing (s := { s with flight := none, mem := m }) hbind hm hf hp tag'.count left
      exact ⟨_, hexec, hfin.frame.batchFrame rfl hfin.waiting hfin.flight, hfin.frame.clock, hfin.frame.mem,
        hfin.finishes⟩
    · rw [gone hgone] at hexec
      exact hexec
  · rw [writeAccesses_two_refused hpad hrefused, if_neg nofun, if_neg nofun] at hexec
    obtain ⟨f1, f2, f3, f4⟩ := batch_faults
      (if covers s.windows true out sealed.length = true then s.mem.write out sealed else s.mem) hbind
      (by rw [hm]; exact nofun)
    refine ⟨_, hexec, f1, f2, f3, fun h1 b hb => (f4 b hb).trans ?_, fun h1 b hb => (f4 b hb).trans ?_⟩
    · rw [if_pos h1]
    · rw [if_neg h1]

end Sys2Proof.Machine
end

