-- ==== Sys2Proof/Proofs/FrameRanges.lean ====
section
/-! Proofs: what the deliver and re-seal batches share: the range read and its packets (R39 to R41, R62), and how a permitted
frame goes on once a verify batch has judged it (R112, R114, R129, R156). -/

namespace Sys2Proof.Machine

/-! ## Packets one after another -/

section
variable {key token : Key} {gen seq pos : Nat} {p : List Byte}

theorem length_openPacket (h : p.length = 188) : (openPacket key gen seq pos p).length = 188 := by
  unfold openPacket
  split <;> simp [length_xorBytes, keyStream_length, h]

theorem length_convertPacket (h : p.length = 188) : (convertPacket key token gen seq pos p).length = 188 := by
  unfold convertPacket
  split
  · simp [length_xorBytes, keyStream_length, h]
  · exact h

theorem length_overPackets {f : Nat → List Byte → List Byte} (hf : ∀ k p, p.length = 188 → (f k p).length = 188)
    (ps : List (List Byte)) (pos : Nat) (h : ∀ p ∈ ps, p.length = 188) :
    (overPackets f pos ps).length = 188 * ps.length := by
  induction ps generalizing pos with
  | nil => rfl
  | cons p ps ih =>
    obtain ⟨hp, hps⟩ := List.forall_mem_cons.1 h
    rw [overPackets, List.length_append, hf pos p hp, ih (pos + 1) hps, List.length_cons]
    omega

/-- The packets of a range read from memory come to as many bytes as were read. -/
theorem length_overPackets_read {f : Nat → List Byte → List Byte} (hf : ∀ k p, p.length = 188 → (f k p).length = 188)
    (m : Memory) (a pos count : Nat) :
    (overPackets f pos (packetsOf (m.read a (188 * count)) count)).length = 188 * count := by
  have hcount : (packetsOf (m.read a (188 * count)) count).length = count := by simp [packetsOf]
  rw [length_overPackets hf, hcount]
  intro p hp
  obtain ⟨i, hi, rfl⟩ := List.mem_map.1 hp
  rw [List.length_take, List.length_drop, Memory.length_read]
  have := List.mem_range.1 hi
  omega

end

/-! ## The range read again (R40, R41) -/

section
variable {s : State} {base pos count : Nat} {key : Key} {expect : List Byte}

/-- The stored bytes of `count` packets from position `pos` on of the frame at `base` (R28). -/
def State.rangeBytes (s : State) (base pos count : Nat) : List Byte := s.mem.read (base + 64 + 188 * pos) (188 * count)

/-- The windows allow the read of the range (R54). -/
def State.rangeReads (s : State) (base pos count : Nat) : Prop :=
  inWindow s.windows false (base + 64 + 188 * pos) (188 * count)

/-- The range read again has the batch check of its verify pass. -/
def State.rangeAgrees (s : State) (base pos count : Nat) (key : Key) (expect : List Byte) : Prop :=
  chainedCheck (frameCheckKey key) (s.rangeBytes base pos count) = expect

theorem State.readRange_refused (h : ¬ s.rangeReads base pos count) :
    s.readRange base pos count key expect = .refused := if_neg (mt (covers_iff ..).1 h)

theorem State.readRange_differs (h : s.rangeReads base pos count) (hc : ¬ s.rangeAgrees base pos count key expect) :
    s.readRange base pos count key expect = .differs :=
  (if_pos ((covers_iff ..).2 h)).trans (if_neg hc)

theorem State.readRange_agrees (h : s.rangeReads base pos count) (hc : s.rangeAgrees base pos count key expect) :
    s.readRange base pos count key expect = .agrees (s.rangeBytes base pos count) :=
  (if_pos ((covers_iff ..).2 h)).trans (if_pos hc)

end

/-! ## What a step of a slot leaves alone, the slot going on or leaving -/

section
variable {s t u v : State} {n : Fin 8} {e : Fin 64} {z : Slot} {fs : List Flag}

/-- From `s` to `t` slot `n` has gone on, or has left with its entry. -/
structure State.Settled (s t : State) (n : Fin 8) : Prop where
  frame : s.Frame t n [slotFlag .progress n, slotFlag .result n, partFlag .lapse]
  waiting : t.waiting = s.waiting ∨ t.waiting = s.waiting.filter (· ≠ n)
  flight : t.flight = s.flight ∨ t.flight = s.orphaned n

theorem State.Finishing.settled (h : s.Finishing t n e z) : s.Settled t n := ⟨h.frame, h.waiting, h.flight⟩

theorem State.Own.settled (h : s.Own t n []) : s.Settled t n := ⟨h.toFrame.mono (by simp), .inl h.waiting, .inl h.flight⟩

/-- A change of an entry before is left aside. -/
theorem State.Settled.of_setEntry {y : Entry} (h : (s.setEntry e y).Settled t n) : s.Settled t n :=
  ⟨((State.setEntry_frame (s := s) n e h.frame.running y).mono (by simp)).trans h.frame (List.Subset.refl _),
    h.waiting, h.flight⟩

theorem State.Settled.batchFrame (h : s.Settled t n) (hf : s.flight = none) : s.batchFrame t n :=
  h.frame.batchFrame hf h.waiting h.flight

/-- A slot that has gone on by itself, with no flag raised, stands as it is. -/
theorem State.Own.slotStands (h : s.Own t n fs) (hf : t.flags = s.flags) : s.slotStands t n (t.slot n) :=
  ⟨rfl, h.slots, h.entries, hf⟩

/-- A slot that is no MOVE slot has no move to complete. -/
theorem State.Finishing.frameEnds (h : s.Finishing t n e z) (hz : z.mode ≠ .move) : s.frameEnds t n e z :=
  h.finishes.2 fun hc => hz hc.1

end

/-! ## A frame judged by its last verify batch (R129) -/

section
variable {s v : State} {w : Writes} {n : Fin 8} {e : Fin 64} {g : Machine.Frame} {tag : TagRead} {segment : Segment}

/-- A tag known is that of the frame. -/
theorem State.tagKnown.tag_eq {f h : Machine.Frame} (hk : s.tagKnown n e f h tag) : h.tag = some tag := by
  rcases hk with ⟨ht, rfl⟩ | ⟨-, -, -, -, -, -, -, -, rfl⟩
  · exact ht
  · rfl

/-- The frame judged carries the tag. -/
theorem State.judges.tag_eq (h : s.judges w n e g tag segment) : g.tag = some tag := by
  obtain ⟨-, -, -, -, ⟨f, -, -, k, hk, -, rfl, -⟩, -⟩ := h
  exact hk.tag_eq

/-- The state in which the permit of a judged frame is answered, the cipher being free. -/
def State.permitting (s : State) (w : Writes) (e : Fin 64) (g : Machine.Frame) (tag : TagRead) : State :=
  { (s.recorded w).judging e g tag with flight := none }

/-- A permit answered by a slot that goes on or leaves is followed by the judgement of the entries. -/
theorem verify_settled (hx : exec (.verifyBatch w) s = .next (if s.clock < tag.stamp then v.judgeAll else v))
    (h : (s.permitting w e g tag).Settled v n) :
    ∃ t, exec (.verifyBatch w) s = .next t ∧ (s.recorded w).afterEvidence v t tag.stamp ∧
      (s.recorded w).batchFrame t n ∧ t.clock = max s.clock tag.stamp ∧
      (s.recorded w).sameMemoryBut t (s.inRecord n) := by
  have hclock : v.clock = max s.clock tag.stamp := h.frame.clock
  have hbatch : (s.recorded w).batchFrame v n := h.batchFrame rfl
  have hmem : (s.recorded w).sameMemoryBut v (s.inRecord n) := h.frame.mem
  refine ⟨_, hx, ?_⟩
  by_cases hc : s.clock < tag.stamp
  · rw [if_pos hc]
    have hadvance := v.judgeAll_advancedTo
    have hrest := v.judgeAll_lapses.rest
    rw [hclock, max_eq_right hc.le] at hadvance
    generalize v.judgeAll = t at hadvance hrest
    refine ⟨⟨fun hn => absurd hc (not_lt.2 hn), fun _ => hadvance⟩, ?_, ?_, ?_⟩ <;> rw [hrest]
    · exact hbatch
    · exact hclock
    · exact hmem
  · rw [if_neg hc]
    exact ⟨⟨fun _ => rfl, fun h => absurd h hc⟩, hbatch, hclock, hmem⟩

/-- The frame in hand with its permit. -/
def State.allowed (s : State) (n : Fin 8) (g : Machine.Frame) (left : Nat) : State :=
  s.modSlot n fun x => { x with frame := some { g with permit := some left } }

theorem State.allowed_slot (s : State) (n : Fin 8) (g : Machine.Frame) (left : Nat) :
    (s.allowed n g left).slot n = { s.slot n with frame := some { g with permit := some left } } :=
  State.slot_modSlot_self ..

theorem State.allowed_eq (s : State) (n : Fin 8) (g : Machine.Frame) (left : Nat) :
    ((s.modSlot n fun x => { x with frame := some g }).modSlot n fun y =>
      { y with frame := y.frame.map fun f => { f with permit := some left } }) = s.allowed n g left := by
  unfold State.allowed State.modSlot
  rw [State.slot_setSlot_self]
  unfold State.setSlot
  simp only [Vector.set_set, Option.map_some]

end

end Sys2Proof.Machine
end

