-- ==== Sys2Proof/Proofs/DeliverBatch.lean ====
section
/-! Proofs: a PLAY slot with a permitted frame, and the deliver batch that completes (R40, R62, R114 to R116, R120, R123). -/

namespace Sys2Proof.Machine

/-! ## The next range is judged for room (R114, R120) -/

section
variable {s u : State} {n : Fin 8} {e : Fin 64} {f : Machine.Frame} {tag : TagRead} {left : Nat} {x : Slot}
  {segment : Segment}

/-- A slot that has gone on by itself, raising nothing, comes to another slot state. -/
theorem State.Own.comesTo (ho : s.Own u n []) (hu : u.flags = s.flags) (st : SlotState) :
    s.Settled (u.setSlotState n st) n ∧
      s.slotStands (u.setSlotState n st) n { u.slot n with eng := { (u.slot n).eng with state := st } } := by
  have hown := ho.trans (State.setSlotState_own n ho.running' st) (fs := []) (by simp)
  have hstands := hown.slotStands ((State.setSlotState_flags u n st).trans hu)
  rw [State.setSlotState_slot, if_pos rfl] at hstands
  exact ⟨hown.settled, hstands⟩

/-- What becomes of a permitted frame by the room for its next range. -/
theorem State.playNext_of (hf : (s.slot n).frame = some f) (ht : f.tag = some tag) (hl : f.permit = some left) :
    s.playNext n = if rangeSize tag.count f.worked ≤ (s.slot n).packetRoom then s.setSlotState n .delivering
      else if (s.slot n).closeAsked then s.endFrame n .abandoned f.packets 0 else s.setSlotState n .waiting := by
  cases f
  cases ht
  cases hl
  unfold State.playNext
  simp only [hf]

/-- The next range of a PLAY slot that stands as `x` is judged for room. -/
theorem State.Own.playsOn (ho : s.Own u n []) (hu : u.flags = s.flags) (hb : s.bindsTo n e) (hm : (s.slot n).mode = .play)
    (hx : u.slot n = x) (hxb : x.boundEntry = some e) (hxm : x.mode = .play) (hf : x.frame = some f) (hp : f.pos < 16)
    (ht : f.tag = some tag) (hl : f.permit = some left) :
    let t := u.playNext n
    let next := rangeSize tag.count f.worked
    s.Settled t n ∧
      (next ≤ x.packetRoom → s.slotStands t n { x with eng := { x.eng with state := .delivering } }) ∧
      (x.packetRoom < next → x.closeAsked = false →
        s.slotStands t n { x with eng := { x.eng with state := .waiting } }) ∧
      (x.packetRoom < next → x.closeAsked = true → s.frameEnds t n e (x.finished f .abandoned f.packets 0)) := by
  subst hx
  dsimp only
  rw [State.playNext_of hf ht hl]
  split
  next hroom =>
    obtain ⟨h1, h2⟩ := ho.comesTo hu .delivering
    exact ⟨h1, fun _ => h2, fun h => absurd hroom (Nat.not_le.2 h), fun h => absurd hroom (Nat.not_le.2 h)⟩
  next hroom =>
    split
    next ha =>
      have hfin := ho.endFrame hb (by rw [hm]; exact nofun) hxb (hxm.trans hm.symm) hf hp .abandoned f.packets 0
      have hends : s.frameEnds _ n e ((u.slot n).finished f .abandoned f.packets 0) :=
        hfin.frameEnds (by show (u.slot n).mode ≠ .move; rw [hxm]; exact nofun)
      exact ⟨hfin.settled, fun h => absurd h hroom, fun _ h => absurd (ha.symm.trans h) nofun, fun _ _ => hends⟩
    next ha =>
      obtain ⟨h1, h2⟩ := ho.comesTo hu .waiting
      exact ⟨h1, fun h => absurd h hroom, fun _ _ => h2, fun _ h => absurd h ha⟩

/-- A permitted frame of a PLAY slot (R114). -/
theorem State.permitAnswered_play {g : Machine.Frame} (hm : (s.slot n).mode = .play)
    (h : permit s.clock (s.entry e) segment .play tag.seq tag.stamp = .permitted left) :
    (s.modSlot n fun x => { x with frame := some g }).permitAnswered n e segment tag = (s.allowed n g left).playNext n := by
  have hslot : ((s.modSlot n fun x => { x with frame := some g }).slot n).mode = .play := by
    rw [State.slot_modSlot_self]
    exact hm
  rw [← State.allowed_eq]
  generalize hu : (s.modSlot n fun x => { x with frame := some g }) = u at hslot
  have hpermit : permit u.clock (u.entry e) segment (u.slot n).mode tag.seq tag.stamp = .permitted left := by
    rw [hslot, ← hu]
    exact h
  unfold State.permitAnswered State.permitFrame
  rw [hpermit]
  dsimp only
  rw [hslot]

end

/-- A frame that a PLAY slot is permitted. -/
theorem deliver_permitted {s : State} {w : Writes} {n : Fin 8} {e : Fin 64} {g : Machine.Frame} {tag : TagRead}
    {segment : Segment} {left : Nat} (hj : s.judges w n e g tag segment) (hm : (s.slot n).mode = .play)
    (hpermit : permit (max s.clock tag.stamp) (((s.recorded w).judging e g tag).entry e) segment .play tag.seq tag.stamp =
      .permitted left) :
    let v := ((s.permitting w e g tag).allowed n g left).playNext n
    let x := { s.slot n with frame := some { g with permit := some left } }
    exec (.verifyBatch w) s = .next (if s.clock < tag.stamp then v.judgeAll else v) ∧
      (s.permitting w e g tag).Settled v n ∧
      (rangeSize tag.count g.worked ≤ x.packetRoom →
        (s.permitting w e g tag).slotStands v n { x with eng := { x.eng with state := .delivering } }) ∧
      (x.packetRoom < rangeSize tag.count g.worked → x.closeAsked = false →
        (s.permitting w e g tag).slotStands v n { x with eng := { x.eng with state := .waiting } }) ∧
      (x.packetRoom < rangeSize tag.count g.worked → x.closeAsked = true →
        (s.permitting w e g tag).frameEnds v n e (x.finished { g with permit := some left } .abandoned g.packets 0)) := by
  obtain ⟨hb, hp, hexec⟩ := verify_answers hj
  change (s.permitting w e g tag).bindsTo n e at hb
  have hslot : (s.permitting w e g tag).slot n = s.slot n := rfl
  have hown : (s.permitting w e g tag).Own ((s.permitting w e g tag).allowed n g left) n [] := State.modSlot_own n hb.1 _
  have hv := State.permitAnswered_play (s := s.permitting w e g tag) (g := g) hm hpermit
  have hall := (s.permitting w e g tag).allowed_slot n g left
  rw [hslot] at hall
  refine ⟨?_, hown.playsOn (f := { g with permit := some left }) rfl hb hm hall hb.2.1 hm rfl hp hj.tag_eq rfl⟩
  rw [hexec, ← hv]
  rfl

/-! ## The packets in the packet window (R62) -/

section
variable {windows : List Window} {m : Memory} {base size pos count : Nat} {bytes : List Byte}

/-- The packets up to the window's end. -/
def Memory.writeHead (m : Memory) (base size pos count : Nat) (bytes : List Byte) : Memory :=
  m.write (base + 188 * pos) (bytes.take (188 * min count (size - pos)))

/-- The packets go on from the window's start. -/
def Memory.writeRing (m : Memory) (base size pos count : Nat) (bytes : List Byte) : Memory :=
  (m.writeHead base size pos count bytes).write base (bytes.drop (188 * min count (size - pos)))

/-- The windows allow the access of the packets up to the window's end (R54). -/
def headIn (windows : List Window) (base size pos count : Nat) : Prop :=
  inWindow windows true (base + 188 * pos) (188 * min count (size - pos))

/-- None goes on from the window's start, or the windows allow that access. -/
def tailIn (windows : List Window) (base size pos count : Nat) : Prop :=
  min count (size - pos) = count ∨ inWindow windows true base (188 * (count - min count (size - pos)))

/-- Nothing written leaves every byte. -/
theorem Memory.get_write_nil (m : Memory) (a b : Nat) : (m.write a []).get b = m.get b :=
  Memory.get_write_outside (by rw [List.length_nil]; omega)

theorem ring_head (hl : bytes.length = 188 * count) :
    (bytes.take (188 * min count (size - pos))).length = 188 * min count (size - pos) := by
  rw [List.length_take, hl]
  omega

/-- The packets that go on from the window's start. -/
theorem ring_tail (hl : bytes.length = 188 * count) :
    (bytes.drop (188 * min count (size - pos))).length = 188 * (count - min count (size - pos)) := by
  rw [List.length_drop, hl, Nat.mul_sub]

theorem ringAccesses_one (hl : bytes.length = 188 * count) (h : min count (size - pos) = count) :
    ringAccesses base size pos count bytes = [(base + 188 * pos, bytes.take (188 * min count (size - pos)))] := by
  rw [h, List.take_of_length_le hl.le]
  exact if_pos h

theorem ringAccesses_two (h : min count (size - pos) ≠ count) : ringAccesses base size pos count bytes =
    [(base + 188 * pos, bytes.take (188 * min count (size - pos))), (base, bytes.drop (188 * min count (size - pos)))] :=
  if_neg h

theorem covers_head (hl : bytes.length = 188 * count) :
    covers windows true (base + 188 * pos) (bytes.take (188 * min count (size - pos))).length = true ↔
      headIn windows base size pos count := by rw [ring_head hl, covers_iff]; rfl

/-- Both accesses allowed, the packets are in memory. -/
theorem writeRing_made (hl : bytes.length = 188 * count) (hh : headIn windows base size pos count)
    (ht : tailIn windows base size pos count) :
    let written := writeAccesses windows m (ringAccesses base size pos count bytes)
    written.2 = true ∧ ∀ b, written.1.get b = (m.writeRing base size pos count bytes).get b := by
  have hh' := (covers_head hl).2 hh
  dsimp only
  by_cases h : min count (size - pos) = count
  · rw [ringAccesses_one hl h, writeAccesses_one, if_pos hh']
    refine ⟨rfl, fun b => ?_⟩
    rw [Memory.writeRing, List.drop_of_length_le (by omega), Memory.get_write_nil]
    rfl
  · rw [ringAccesses_two h, writeAccesses_two_made (ring_tail hl) hh' ((covers_iff ..).2 (ht.resolve_left h))]
    exact ⟨rfl, fun _ => rfl⟩

/-- The first access refused, nothing is written. -/
theorem writeRing_noHead (hl : bytes.length = 188 * count) (hh : ¬ headIn windows base size pos count) :
    writeAccesses windows m (ringAccesses base size pos count bytes) = (m, false) := by
  have hh' := mt (covers_head hl).1 hh
  by_cases h : min count (size - pos) = count
  · rw [ringAccesses_one hl h, writeAccesses_one, if_neg hh']
  · rw [ringAccesses_two h, writeAccesses_two_refused rfl (.inl hh'), if_neg hh']

/-- The second refused, the packets up to the window's end are. -/
theorem writeRing_noTail (hl : bytes.length = 188 * count) (hh : headIn windows base size pos count)
    (ht : ¬ tailIn windows base size pos count) : writeAccesses windows m (ringAccesses base size pos count bytes) =
      (m.writeHead base size pos count bytes, false) := by
  obtain ⟨htwo, htail⟩ := not_or.1 ht
  rw [← covers_iff] at htail
  rw [ringAccesses_two htwo, writeAccesses_two_refused (ring_tail hl) (.inr htail), if_pos ((covers_head hl).2 hh)]
  rfl

end

/-! ## The batch -/

/-- A deliver batch of slot `n` is in flight. -/
def State.deliverFlies (s : State) (n : Fin 8) (base pos count : Nat) (key : Key) (gen seq : Nat) (expect : List Byte)
    (winBase winSize winPos : Nat) (orphan : Bool) : Prop :=
  s.flight = some ⟨.slot n, .deliver base pos count key gen seq expect winBase winSize winPos, orphan⟩

section
variable {s : State} {w : Writes} {n : Fin 8} {base pos count : Nat} {key : Key} {gen seq : Nat} {expect : List Byte}
  {winBase winSize winPos : Nat} {orphan : Bool}

/-- The packets of the range, rebuilt. -/
def State.opened (s : State) (base pos count : Nat) (key : Key) (gen seq : Nat) : List Byte :=
  overPackets (openPacket key gen seq) pos (packetsOf (s.rangeBytes base pos count) count)

theorem State.length_opened : (s.opened base pos count key gen seq).length = 188 * count :=
  length_overPackets_read (fun _ _ => length_openPacket) ..

/-- A range that cannot be read writes nothing. -/
theorem execDeliverBatch_unread (h : s.deliverFlies n base pos count key gen seq expect winBase winSize winPos orphan)
    (hw : writesInSpace w = true) (hread : ¬ (s.recorded w).rangeReads base pos count) :
    exec (.deliverBatch w) s = .next (if orphan then { s.recorded w with flight := none }
      else ({ s.recorded w with flight := none } : State).faultFrameSlot n .window) := by
  have hr : (s.recorded w).readRange base pos count key expect = .refused := State.readRange_refused hread
  have hr' : (s.recorded w).freeCipher.readRange base pos count key expect = .refused := hr
  show execDeliverBatch w s = _
  unfold execDeliverBatch
  rw [withWrites_of hw, show (s.recorded w).flight = _ from h]
  simp only [State.runWork, State.workAccesses, hr, hr']
  rfl

/-- Nor does one whose batch check differs. -/
theorem execDeliverBatch_differs (h : s.deliverFlies n base pos count key gen seq expect winBase winSize winPos orphan)
    (hw : writesInSpace w = true) (hread : (s.recorded w).rangeReads base pos count)
    (hdiffers : ¬ (s.recorded w).rangeAgrees base pos count key expect) :
    exec (.deliverBatch w) s = .next (if orphan then { s.recorded w with flight := none }
      else ({ s.recorded w with flight := none } : State).badRange n) := by
  have hr : (s.recorded w).readRange base pos count key expect = .differs := State.readRange_differs hread hdiffers
  have hr' : (s.recorded w).freeCipher.readRange base pos count key expect = .differs := hr
  show execDeliverBatch w s = _
  unfold execDeliverBatch
  rw [withWrites_of hw, show (s.recorded w).flight = _ from h]
  simp only [State.runWork, State.workAccesses, hr, hr']
  rfl

/-- A range whose batch check agrees is written, and counted where it could be. -/
theorem execDeliverBatch_agrees (h : s.deliverFlies n base pos count key gen seq expect winBase winSize winPos orphan)
    (hw : writesInSpace w = true) (hread : (s.recorded w).rangeReads base pos count)
    (hagrees : (s.recorded w).rangeAgrees base pos count key expect) :
    let written := writeAccesses s.windows (s.recorded w).mem
      (ringAccesses winBase winSize winPos count ((s.recorded w).opened base pos count key gen seq))
    let v := { s.recorded w with flight := none, mem := written.1 }
    exec (.deliverBatch w) s = .next (if orphan then v
      else if written.2 then v.delivered n count else v.faultFrameSlot n .window) := by
  have hr := State.readRange_agrees hread hagrees
  have hr' : (s.recorded w).freeCipher.readRange base pos count key expect =
    .agrees ((s.recorded w).rangeBytes base pos count) := hr
  show execDeliverBatch w s = _
  unfold execDeliverBatch
  rw [withWrites_of hw, show (s.recorded w).flight = _ from h]
  simp only [State.runWork, State.workAccesses, hr, hr']
  rfl

end

/-! ## A delivered range is counted (R114, R120) -/

section
variable {s : State} {n : Fin 8} {e : Fin 64} {f : Machine.Frame} {tag : TagRead} {left count : Nat}

/-- A frame of which a range has been delivered. -/
def Frame.rangeDelivered (f : Machine.Frame) (count : Nat) : Machine.Frame :=
  { f with worked := f.worked + 1, packets := f.packets + count }

/-- A slot that has delivered a range of its frame `f`. -/
def Slot.rangeDelivered (x : Slot) (f : Machine.Frame) (count : Nat) : Slot :=
  { x.advanceA count with
    streamPos := (x.streamPos + count) % x.geo.streamSize, frame := some (f.rangeDelivered count) }

theorem State.countDelivered_slot (hf : (s.slot n).frame = some f) (count : Nat) :
    (s.countDelivered n count).slot n = (s.slot n).rangeDelivered f count := by
  unfold State.countDelivered
  rw [State.advance_slot_self, State.slot_modSlot_self, hf]
  rfl

theorem State.countDelivered_own (hr : s.part ≠ .stopped) (count : Nat) :
    s.Own (s.countDelivered n count) n [] ∧ (s.countDelivered n count).flags = s.flags := by
  have h1 := State.modSlot_own n hr fun x =>
    { x with
      streamPos := (x.streamPos + count) % x.geo.streamSize
      frame := x.frame.map fun f => { f with worked := f.worked + 1, packets := f.packets + count } }
  exact ⟨h1.trans (State.advance_own n h1.running' (·.advanceA count)) (by simp), State.advance_flags ..⟩

theorem State.delivered_of (hf : (s.slot n).frame = some f) (ht : f.tag = some tag) (hl : f.permit = some left) :
    s.delivered n count =
      if f.worked + 1 < rangeCount tag.count then (s.countDelivered n count).playNext n
      else (s.countDelivered n count).endFrame n .delivered tag.count left := by
  have hframe : ((s.countDelivered n count).slot n).frame = some (f.rangeDelivered count) := by
    rw [State.countDelivered_slot hf]
    rfl
  cases f
  cases ht
  cases hl
  unfold State.delivered
  simp only [hframe, Frame.rangeDelivered]

/-- After a delivered range the frame is finished, or its next range is judged for room. -/
theorem State.delivered_all (hb : s.bindsTo n e) (hm : (s.slot n).mode = .play) (hf : (s.slot n).frame = some f)
    (hp : f.pos < 16) (ht : f.tag = some tag) (hl : f.permit = some left) (count : Nat) :
    let t := s.delivered n count
    let g := f.rangeDelivered count
    let x := (s.slot n).rangeDelivered f count
    s.Settled t n ∧ (rangeCount tag.count ≤ g.worked → s.frameEnds t n e (x.finished g .delivered tag.count left)) ∧
      (g.worked < rangeCount tag.count →
        let next := rangeSize tag.count g.worked
        (next ≤ x.packetRoom → s.slotStands t n { x with eng := { x.eng with state := .delivering } }) ∧
        (x.packetRoom < next → x.closeAsked = false →
          s.slotStands t n { x with eng := { x.eng with state := .waiting } }) ∧
        (x.packetRoom < next → x.closeAsked = true → s.frameEnds t n e (x.finished g .abandoned g.packets 0))) := by
  obtain ⟨hown, hflags⟩ := State.countDelivered_own (n := n) hb.1 count
  have hslot := State.countDelivered_slot hf count
  dsimp only
  rw [State.delivered_of hf ht hl]
  split
  next hmore =>
    obtain ⟨h1, h2⟩ := hown.playsOn hflags hb hm hslot hb.2.1 hm rfl hp (f := f.rangeDelivered count) ht hl
    exact ⟨h1, fun h => absurd hmore (Nat.not_lt.2 h), fun _ => h2⟩
  next hlast =>
    have hfin := hown.endFrame (f := f.rangeDelivered count) hb (by rw [hm]; exact nofun) (by rw [hslot]; exact hb.2.1)
      (by rw [hslot]; rfl) (by rw [hslot]; rfl) hp .delivered tag.count left
    rw [hslot] at hfin
    exact ⟨hfin.settled, fun _ => hfin.frameEnds (by show (s.slot n).mode ≠ .move; rw [hm]; exact nofun),
      fun h => absurd h hlast⟩

/-- A batch check that differs finishes the frame BAD_CHECK (R40, R115). -/
theorem State.badRange_finishing (hb : s.bindsTo n e) (hm : (s.slot n).mode ≠ .record) (hf : (s.slot n).frame = some f)
    (hp : f.pos < 16) : s.Finishing (s.badRange n) n e ((s.slot n).finished f .badCheck f.packets 0) := by
  have h := (State.Own.refl (s := s) (n := n) (fs := []) hb.1).endFrame hb hm hb.2.1 rfl hf hp .badCheck f.packets 0
  unfold State.badRange
  rw [hf]
  exact h

end

section
variable {s : State} {w : Writes} {n : Fin 8} {e : Fin 64} {base pos count : Nat} {key : Key} {gen seq : Nat}
  {expect : List Byte} {winBase winSize winPos : Nat}

/-- The batch of a released slot. -/
theorem deliver_orphan (h : s.deliverFlies n base pos count key gen seq expect winBase winSize winPos true)
    (hw : writesInSpace w = true) :
    let r := s.recorded w
    let packets := r.opened base pos count key gen seq
    let readable := r.rangeReads base pos count
    let agrees := r.rangeAgrees base pos count key expect
    let inHead := headIn s.windows winBase winSize winPos count
    let inTail := tailIn s.windows winBase winSize winPos count
    (readable → agrees → inHead → inTail → ∃ t, exec (.deliverBatch w) s = .next t ∧
      t = { r with flight := none, mem := t.mem } ∧
      ∀ b, t.mem.get b = (r.mem.writeRing winBase winSize winPos count packets).get b) ∧
    (¬ readable ∨ ¬ agrees ∨ ¬ inHead → exec (.deliverBatch w) s = .next { r with flight := none }) ∧
    (readable → agrees → inHead → ¬ inTail → exec (.deliverBatch w) s = .next
      { r with flight := none, mem := r.mem.writeHead winBase winSize winPos count packets }) := by
  dsimp only
  refine ⟨fun hread hagrees hhead htail => ?_, fun hnot => ?_, fun hread hagrees hhead htail => ?_⟩
  · obtain ⟨-, hget⟩ := writeRing_made (m := (s.recorded w).mem) State.length_opened hhead htail
    exact ⟨_, execDeliverBatch_agrees h hw hread hagrees, rfl, hget⟩
  · by_cases hread : (s.recorded w).rangeReads base pos count
    · by_cases hagrees : (s.recorded w).rangeAgrees base pos count key expect
      · have hexec := execDeliverBatch_agrees h hw hread hagrees
        rw [writeRing_noHead State.length_opened
          ((hnot.resolve_left (not_not.2 hread)).resolve_left (not_not.2 hagrees))] at hexec
        exact hexec
      · exact execDeliverBatch_differs h hw hread hagrees
    · exact execDeliverBatch_unread h hw hread
  · have hexec := execDeliverBatch_agrees h hw hread hagrees
    rw [writeRing_noTail State.length_opened hhead htail] at hexec
    exact hexec

/-- The batch of a slot of which a read or a write is refused. -/
theorem deliver_faults (h : s.deliverFlies n base pos count key gen seq expect winBase winSize winPos false)
    (hw : writesInSpace w = true) (hb : s.bindsTo n e) (hm : (s.slot n).mode ≠ .record) :
    let r := s.recorded w
    let headWritten := r.mem.writeHead winBase winSize winPos count (r.opened base pos count key gen seq)
    let readable := r.rangeReads base pos count
    let inHead := headIn s.windows winBase winSize winPos count
    ¬ readable ∨ (r.rangeAgrees base pos count key expect ∧
        (¬ inHead ∨ ¬ tailIn s.windows winBase winSize winPos count)) →
      ∃ t, exec (.deliverBatch w) s = .next t ∧ s.faultsTo t n e (s.slot n) .window ∧ t.flight = none ∧
        t.sweep = s.sweep ∧ (readable → inHead → ∀ b, ¬ s.inRecord n b → t.mem.get b = headWritten.get b) ∧
        (¬ readable ∨ ¬ inHead → r.sameMemoryBut t (s.inRecord n)) := by
  dsimp only
  intro hnot
  have faults := fun m => batch_faults (s := s) m hb hm
  by_cases hread : (s.recorded w).rangeReads base pos count
  · obtain ⟨hagrees, hrefused⟩ := hnot.resolve_left (not_not.2 hread)
    have hexec := execDeliverBatch_agrees h hw hread hagrees
    by_cases hhead : headIn s.windows winBase winSize winPos count
    · rw [writeRing_noTail State.length_opened hhead (hrefused.resolve_left (not_not.2 hhead))] at hexec
      obtain ⟨f1, f2, f3, f4⟩ := faults _
      exact ⟨_, hexec, f1, f2, f3, fun _ _ => f4, fun h => absurd ⟨hread, hhead⟩ (not_and_or.2 h)⟩
    · rw [writeRing_noHead State.length_opened hhead] at hexec
      obtain ⟨f1, f2, f3, f4⟩ := faults _
      exact ⟨_, hexec, f1, f2, f3, fun _ h => absurd h hhead, fun _ => f4⟩
  · obtain ⟨f1, f2, f3, f4⟩ := faults (s.recorded w).mem
    exact ⟨_, execDeliverBatch_unread h hw hread, f1, f2, f3, fun h => absurd h hread, fun _ => f4⟩

end

/-- Settles O42: the permitted frame of a PLAY slot by the room, and the deliver batch by its read, its batch check and its
accesses. -/
theorem deliverBatchOpens : Obligations.DeliverBatchOpens := by
  refine ⟨fun s w n e g tag segment left hj => ?_,
    fun s w n base pos count key gen seq expect winBase winSize winPos orphan => ?_⟩
  · dsimp only
    intro hm hpermit
    obtain ⟨hexec, hsettled, hroom⟩ := deliver_permitted hj hm hpermit
    obtain ⟨t, h1, h2, h3, h4, h5⟩ := verify_settled hexec hsettled
    exact ⟨_, t, h1, h2, h3, h4, h5, hroom⟩
  dsimp only
  intro hfl hw
  refine ⟨fun horphan => ?_, fun horphan => ?_, fun horphan => ?_, fun e horphan hm hb => ?_⟩
  all_goals rw [horphan] at hfl
  · exact (deliver_orphan hfl hw).1
  · exact (deliver_orphan hfl hw).2.1
  · exact (deliver_orphan hfl hw).2.2
  have hmode : (s.slot n).mode ≠ .record ∧ (s.slot n).mode ≠ .move := by rw [hm]; exact ⟨nofun, nofun⟩
  refine ⟨deliver_faults hfl hw hb hmode.1, fun f tag left hf hp ht hl hread =>
    ⟨fun hdiffers => ?_, fun hagrees hhead htail => ?_⟩⟩
  · have hfin := State.badRange_finishing (s := { s.recorded w with flight := none }) hb hmode.1 hf hp
    exact ⟨_, execDeliverBatch_differs hfl hw hread hdiffers, hfin.settled.batchFrame rfl, hfin.frame.clock,
      hfin.frame.mem, hfin.frameEnds hmode.2⟩
  · have hexec := execDeliverBatch_agrees hfl hw hread hagrees
    obtain ⟨hok, hget⟩ := writeRing_made (m := (s.recorded w).mem) State.length_opened hhead htail
    dsimp only at hexec
    rw [hok, if_neg nofun, if_pos rfl] at hexec
    generalize (writeAccesses _ _ _).1 = m at hexec hget
    obtain ⟨h1, h2⟩ :=
      State.delivered_all (s := { s.recorded w with flight := none, mem := m }) hb hm hf hp ht hl count
    exact ⟨_, hexec, h1.batchFrame rfl, h1.frame.clock, fun b hb => (h1.frame.mem b hb).trans (hget b), h2⟩

end Sys2Proof.Machine
end

