-- ==== Sys2Proof/Proofs/ResealBatch.lean ====
section
/-! Proofs: a MOVE slot with a permitted frame, its output reservation, and the re-seal batch that completes (R41, R156 to
R158, R160, R163). -/

namespace Sys2Proof.Machine

/-! ## A permitted frame is decided (R156, R157, R160) -/

section
variable {s u : State} {n : Fin 8} {e : Fin 64} {f g : Machine.Frame} {tag : TagRead} {left : Nat} {x : Slot}
  {segment : Segment}

/-- What becomes of a frame to be re-sealed by the room for its output frame. -/
theorem State.moveNext_of (hf : (s.slot n).frame = some f) (hl : f.permit = some left) (hr : f.reserved = none) :
    s.moveNext n = if 0 < (s.slot n).outputRoom then s
      else if (s.slot n).closeAsked then s.endFrame n .abandoned 0 0 else s.setSlotState n .waiting := by
  cases f
  cases hl
  cases hr
  unfold State.moveNext
  simp only [hf]

/-- The frame to be re-sealed of a MOVE slot that stands as `x`. -/
theorem State.Own.movesOn (ho : s.Own u n []) (hu : u.flags = s.flags) (hb : s.bindsTo n e) (hm : (s.slot n).mode = .move)
    (hx : u.slot n = x) (hxb : x.boundEntry = some e) (hxm : x.mode = .move) (hf : x.frame = some f) (hp : f.pos < 16)
    (hl : f.permit = some left) (hr : f.reserved = none) :
    let t := u.moveNext n
    s.Settled t n ∧ (0 < x.outputRoom → s.slotStands t n x) ∧
      (x.outputRoom = 0 → x.closeAsked = false → s.slotStands t n { x with eng := { x.eng with state := .waiting } }) ∧
      (x.outputRoom = 0 → x.closeAsked = true → s.finishes t n e (x.finished f .abandoned 0 0)) := by
  subst hx
  dsimp only
  rw [State.moveNext_of hf hl hr]
  split
  next hroom =>
    have hfull : (u.slot n).outputRoom ≠ 0 := Nat.pos_iff_ne_zero.1 hroom
    exact ⟨ho.settled, fun _ => ho.slotStands hu, fun h => absurd h hfull, fun h => absurd h hfull⟩
  next hroom =>
    split
    next ha =>
      have hfin := ho.endFrame hb (by rw [hm]; exact nofun) hxb (hxm.trans hm.symm) hf hp .abandoned 0 0
      exact ⟨hfin.settled, fun h => absurd h hroom, fun _ h => absurd (ha.symm.trans h) nofun, fun _ _ => hfin.finishes⟩
    next ha =>
      obtain ⟨h1, h2⟩ := ho.comesTo hu .waiting
      exact ⟨h1, fun h => absurd h hroom, fun _ _ => h2, fun _ h => absurd h ha⟩

/-- A permitted frame of a MOVE slot, by the class of its segment. -/
theorem State.permitAnswered_move (hm : (s.slot n).mode = .move)
    (h : permit s.clock (s.entry e) segment .move tag.seq tag.stamp = .permitted left) :
    let u := s.modSlot n fun x => { x with frame := some g }
    u.permitAnswered n e segment tag =
      if segment.cls = .once ∨ segment.cls = .openCopy then (s.allowed n g left).moveNext n
      else (u.advanceMoveMark e).endFrame n .skippedClass 0 left := by
  have hslot : ((s.modSlot n fun x => { x with frame := some g }).slot n).mode = .move := by
    rw [State.slot_modSlot_self]
    exact hm
  rw [← State.allowed_eq]
  dsimp only
  generalize hu : (s.modSlot n fun x => { x with frame := some g }) = u at hslot
  have hpermit : permit u.clock (u.entry e) segment (u.slot n).mode tag.seq tag.stamp = .permitted left := by
    rw [hslot, ← hu]
    exact h
  unfold State.permitAnswered State.permitFrame
  rw [hpermit]
  dsimp only
  rw [hslot]

/-- A frame whose segment may not move is passed over: the move mark advances. -/
theorem State.skipped_finishing (hb : s.bindsTo n e) (hm : (s.slot n).mode = .move) (hp : g.pos < 16) (left : Nat) :
    (s.advanceMoveMark e).Finishing
      (((s.modSlot n fun x => { x with frame := some g }).advanceMoveMark e).endFrame n .skippedClass 0 left) n e
      ((s.slot n).finished g .skippedClass 0 left) := by
  have hmode : ((s.advanceMoveMark e).slot n).mode ≠ .record := by
    show (s.slot n).mode ≠ .record
    rw [hm]
    exact nofun
  exact State.Finishing.of_endFrame (b := s.advanceMoveMark e) (hb.setEntry rfl rfl) hmode hp .skippedClass 0 left

end

/-- A frame that a MOVE slot is permitted. -/
theorem reseal_permitted {s : State} {w : Writes} {n : Fin 8} {e : Fin 64} {g : Machine.Frame} {tag : TagRead}
    {segment : Segment} {left : Nat} (hj : s.judges w n e g tag segment) (hm : (s.slot n).mode = .move)
    (hr : g.reserved = none)
    (hpermit : permit (max s.clock tag.stamp) (((s.recorded w).judging e g tag).entry e) segment .move tag.seq tag.stamp =
      .permitted left) :
    let c := s.permitting w e g tag
    let x := { s.slot n with frame := some { g with permit := some left } }
    let copies := segment.cls = .once ∨ segment.cls = .openCopy
    ∃ v, exec (.verifyBatch w) s = .next (if s.clock < tag.stamp then v.judgeAll else v) ∧ c.Settled v n ∧
      (¬ copies → (c.advanceMoveMark e).finishes v n e (x.finished g .skippedClass 0 left)) ∧
      (copies → 0 < x.outputRoom → c.slotStands v n x) ∧
      (copies → x.outputRoom = 0 → x.closeAsked = false →
        c.slotStands v n { x with eng := { x.eng with state := .waiting } }) ∧
      (copies → x.outputRoom = 0 → x.closeAsked = true →
        c.finishes v n e (x.finished { g with permit := some left } .abandoned 0 0)) := by
  obtain ⟨hb, hp, hexec⟩ := verify_answers hj
  change (s.permitting w e g tag).bindsTo n e at hb
  have hv := State.permitAnswered_move (s := s.permitting w e g tag) (g := g) hm hpermit
  change exec (.verifyBatch w) s = .next (if s.clock < tag.stamp then
    (((s.permitting w e g tag).modSlot n fun x => { x with frame := some g }).permitAnswered n e segment tag).judgeAll
    else ((s.permitting w e g tag).modSlot n fun x => { x with frame := some g }).permitAnswered n e segment tag) at hexec
  dsimp only at hv ⊢
  rw [hv] at hexec
  by_cases hcopies : segment.cls = .once ∨ segment.cls = .openCopy
  · rw [if_pos hcopies] at hexec
    have hown : (s.permitting w e g tag).Own ((s.permitting w e g tag).allowed n g left) n [] := State.modSlot_own n hb.1 _
    obtain ⟨h1, h2, h3, h4⟩ := hown.movesOn (f := { g with permit := some left }) rfl hb hm
      ((s.permitting w e g tag).allowed_slot n g left) hb.2.1 hm rfl hp rfl hr
    exact ⟨_, hexec, h1, fun h => absurd hcopies h, fun _ => h2, fun _ => h3, fun _ => h4⟩
  · rw [if_neg hcopies] at hexec
    have hfin := State.skipped_finishing (g := g) hb hm hp left
    exact ⟨_, hexec, hfin.settled.of_setEntry, fun _ => hfin.finishes, fun h => absurd h hcopies,
      fun h => absurd h hcopies, fun h => absurd h hcopies⟩

/-! ## The output reservation (R157) -/

section
variable {s : State} {n : Fin 8} {e : Fin 64} {f : Machine.Frame} {left : Nat}

theorem execOutputReservation_due (hm : (s.slot n).mode = .move) (hb : (s.slot n).boundEntry = some e)
    (hs : (s.entry e).state = .moving) (hf : (s.slot n).frame = some f) (hl : f.permit = some left)
    (hr : f.reserved = none) (hroom : 0 < (s.slot n).outputRoom) :
    exec (.outputReservation n) s = .next (s.reserveOutput n) := by
  have hdue : s.reserveDue n = true := by simp [State.reserveDue, hm, hb, hs, hf, hl, hr, hroom]
  show execOutputReservation n s = _
  rw [execOutputReservation, if_pos hdue]

/-- What the reservation comes to, in any part state. -/
theorem State.reserveOutput_all (hf : (s.slot n).frame = some f) :
    let t := s.reserveOutput n
    s.slotStands t n
        { s.slot n with
          frame := some { f with reserved := some (s.slot n).outPos, outChain := Chain.start }
          eng := { (s.slot n).eng with state := .delivering } } ∧
      t.flight = s.flight ∧ t.keysClock = s.keysClock ∧ s.Shows t n := by
  unfold State.reserveOutput
  have h1 := s.modSlot_shows n (g := fun x =>
    { x with frame := x.frame.map fun f => { f with reserved := some x.outPos, outChain := Chain.start } }) rfl
  have h2 := h1.trans (State.setSlotState_shows _ n .delivering)
  refine ⟨⟨?_, fun m hm => ?_, State.setSlotState_entries .., h2.flags⟩, State.setSlotState_flight .., by simp, h2⟩
  · rw [State.setSlotState_slot, if_pos rfl, State.slot_modSlot_self, hf]
    rfl
  · rw [State.setSlotState_slot, if_neg hm, State.slot_modSlot, if_neg hm]

end

/-! ## The batch (R41) -/

/-- A re-seal batch of slot `n` is in flight. -/
def State.resealFlies (s : State) (n : Fin 8) (base pos count : Nat) (key : Key) (gen seq : Nat) (expect : List Byte)
    (token : Key) (out : Nat) (orphan : Bool) : Prop :=
  s.flight = some ⟨.slot n, .reseal base pos count key gen seq expect token out, orphan⟩

section
variable {s : State} {w : Writes} {n : Fin 8} {e : Fin 64} {base pos count : Nat} {key : Key} {gen seq : Nat}
  {expect : List Byte} {token : Key} {out : Nat} {orphan : Bool}

/-- The packets of the range, converted. -/
def State.converted (s : State) (base pos count : Nat) (key token : Key) (gen seq : Nat) : List Byte :=
  overPackets (convertPacket key token gen seq) pos (packetsOf (s.rangeBytes base pos count) count)

theorem State.length_converted : (s.converted base pos count key token gen seq).length = 188 * count :=
  length_overPackets_read (fun _ _ => length_convertPacket) ..

/-- The windows allow the access of the converted packets (R54). -/
def outIn (windows : List Window) (out pos count : Nat) : Prop := inWindow windows true (out + 64 + 188 * pos) (188 * count)

/-- A range that cannot be read writes nothing. -/
theorem execResealBatch_unread (h : s.resealFlies n base pos count key gen seq expect token out orphan)
    (hw : writesInSpace w = true) (hread : ¬ (s.recorded w).rangeReads base pos count) :
    exec (.resealBatch w) s = .next (if orphan then { s.recorded w with flight := none }
      else ({ s.recorded w with flight := none } : State).faultFrameSlot n .window) := by
  have hr : (s.recorded w).readRange base pos count key expect = .refused := State.readRange_refused hread
  have hr' : (s.recorded w).freeCipher.readRange base pos count key expect = .refused := hr
  show execResealBatch w s = _
  unfold execResealBatch
  rw [withWrites_of hw, show (s.recorded w).flight = _ from h]
  simp only [State.runWork, State.workAccesses, hr, hr']
  rfl

/-- Nor does one whose check differs. -/
theorem execResealBatch_differs (h : s.resealFlies n base pos count key gen seq expect token out orphan)
    (hw : writesInSpace w = true) (hread : (s.recorded w).rangeReads base pos count)
    (hdiffers : ¬ (s.recorded w).rangeAgrees base pos count key expect) :
    exec (.resealBatch w) s = .next (if orphan then { s.recorded w with flight := none }
      else ({ s.recorded w with flight := none } : State).badRange n) := by
  have hr : (s.recorded w).readRange base pos count key expect = .differs := State.readRange_differs hread hdiffers
  have hr' : (s.recorded w).freeCipher.readRange base pos count key expect = .differs := hr
  show execResealBatch w s = _
  unfold execResealBatch
  rw [withWrites_of hw, show (s.recorded w).flight = _ from h]
  simp only [State.runWork, State.workAccesses, hr, hr']
  rfl

/-- A range whose check agrees is written in one access, and counted where it could be. -/
theorem execResealBatch_agrees (h : s.resealFlies n base pos count key gen seq expect token out orphan)
    (hw : writesInSpace w = true) (hread : (s.recorded w).rangeReads base pos count)
    (hagrees : (s.recorded w).rangeAgrees base pos count key expect) :
    let stored := (s.recorded w).converted base pos count key token gen seq
    let written := writeAccesses s.windows (s.recorded w).mem [(out + 64 + 188 * pos, stored)]
    let v := { s.recorded w with flight := none, mem := written.1 }
    exec (.resealBatch w) s = .next (if orphan then v
      else if written.2 then v.resealed n token stored else v.faultFrameSlot n .window) := by
  have hr := State.readRange_agrees hread hagrees
  have hr' : (s.recorded w).freeCipher.readRange base pos count key expect =
    .agrees ((s.recorded w).rangeBytes base pos count) := hr
  show execResealBatch w s = _
  unfold execResealBatch
  rw [withWrites_of hw, show (s.recorded w).flight = _ from h]
  simp only [State.runWork, State.workAccesses, hr, hr']
  rfl

/-- With the access allowed. -/
theorem execResealBatch_made (h : s.resealFlies n base pos count key gen seq expect token out orphan)
    (hw : writesInSpace w = true) (hread : (s.recorded w).rangeReads base pos count)
    (hagrees : (s.recorded w).rangeAgrees base pos count key expect) (hout : outIn s.windows out pos count) :
    let stored := (s.recorded w).converted base pos count key token gen seq
    let v := { s.recorded w with flight := none, mem := (s.recorded w).mem.write (out + 64 + 188 * pos) stored }
    exec (.resealBatch w) s = .next (if orphan then v else v.resealed n token stored) := by
  have hcovers := (covers_iff ..).2 hout
  have hexec := execResealBatch_agrees h hw hread hagrees
  dsimp only at hexec
  rw [writeAccesses_one, State.length_converted, if_pos hcovers] at hexec
  exact hexec

/-- With the access refused. -/
theorem execResealBatch_refused (h : s.resealFlies n base pos count key gen seq expect token out orphan)
    (hw : writesInSpace w = true) (hread : (s.recorded w).rangeReads base pos count)
    (hagrees : (s.recorded w).rangeAgrees base pos count key expect) (hout : ¬ outIn s.windows out pos count) :
    exec (.resealBatch w) s = .next (if orphan then { s.recorded w with flight := none }
      else ({ s.recorded w with flight := none } : State).faultFrameSlot n .window) := by
  have hcovers := mt (covers_iff ..).1 hout
  have hexec := execResealBatch_agrees h hw hread hagrees
  dsimp only at hexec
  rw [writeAccesses_one, State.length_converted, if_neg hcovers] at hexec
  exact hexec

/-- The batch of a released slot that does not write. -/
theorem reseal_orphan (h : s.resealFlies n base pos count key gen seq expect token out true) (hw : writesInSpace w = true)
    (hnot : ¬ (s.recorded w).rangeReads base pos count ∨ ¬ (s.recorded w).rangeAgrees base pos count key expect ∨
      ¬ outIn s.windows out pos count) : exec (.resealBatch w) s = .next { s.recorded w with flight := none } := by
  by_cases hread : (s.recorded w).rangeReads base pos count
  · by_cases hagrees : (s.recorded w).rangeAgrees base pos count key expect
    · exact execResealBatch_refused h hw hread hagrees
        ((hnot.resolve_left (not_not.2 hread)).resolve_left (not_not.2 hagrees))
    · exact execResealBatch_differs h hw hread hagrees
  · exact execResealBatch_unread h hw hread

/-- The batch of a slot of which the read or the write is refused. -/
theorem reseal_faults (h : s.resealFlies n base pos count key gen seq expect token out false)
    (hw : writesInSpace w = true) (hb : s.bindsTo n e) (hm : (s.slot n).mode ≠ .record)
    (hnot : ¬ (s.recorded w).rangeReads base pos count ∨
      ((s.recorded w).rangeAgrees base pos count key expect ∧ ¬ outIn s.windows out pos count)) :
    ∃ t, exec (.resealBatch w) s = .next t ∧ s.faultsTo t n e (s.slot n) .window ∧ t.flight = none ∧
      t.sweep = s.sweep ∧ (s.recorded w).sameMemoryBut t (s.inRecord n) := by
  have hexec : exec (.resealBatch w) s =
      .next (({ s.recorded w with flight := none } : State).faultFrameSlot n .window) := by
    by_cases hread : (s.recorded w).rangeReads base pos count
    · obtain ⟨hagrees, hout⟩ := hnot.resolve_left (not_not.2 hread)
      exact execResealBatch_refused h hw hread hagrees hout
    · exact execResealBatch_unread h hw hread
  exact ⟨_, hexec, batch_faults (s := s) (s.recorded w).mem hb hm⟩

/-- A range re-sealed on the frame in hand. -/
theorem State.resealed_of {f : Machine.Frame} (hf : (s.slot n).frame = some f) (token : Key) (bytes : List Byte) :
    s.resealed n token bytes = s.setSlot n
      { s.slot n with
        frame := some { f with worked := f.worked + 1, outChain := f.outChain.feed (frameCheckKey token) bytes } } := by
  unfold State.resealed State.modSlot
  dsimp only
  rw [hf, Option.map_some]

end

/-- Settles O43: the permitted frame of a MOVE slot by class and room, its output reservation, and the re-seal batch by its
read, its check and its access. -/
theorem resealWorks : Obligations.ResealWorks := by
  refine ⟨fun s w n e g tag segment left hj => ?_, fun s n e f left => ?_,
    fun s w n base pos count key gen seq expect token out orphan => ?_⟩
  · dsimp only
    intro hm hr hpermit
    obtain ⟨v, hexec, hsettled, hgoes⟩ := reseal_permitted hj hm hr hpermit
    obtain ⟨t, h1, h2, h3, h4, h5⟩ := verify_settled hexec hsettled
    exact ⟨v, t, h1, h2, h3, h4, h5, hgoes⟩
  · dsimp only
    intro hm hb hs hf hl hr hroom
    obtain ⟨h1, h2, h3, h4⟩ := State.reserveOutput_all hf
    exact ⟨_, execOutputReservation_due hm hb hs hf hl hr hroom, h1, h2, h4.kept, (State.sameKeysAndClock_iff _ _).2 h3,
      h4.causes, h4.mem, h4.held, h4.marks⟩
  · dsimp only
    intro hfl hw
    refine ⟨fun horphan => ?_, fun horphan => ?_, fun e horphan hm hb => ?_⟩
    all_goals rw [horphan] at hfl
    · exact execResealBatch_made hfl hw
    · exact reseal_orphan hfl hw
    have hmode : (s.slot n).mode ≠ .record := by rw [hm]; exact nofun
    refine ⟨reseal_faults hfl hw hb hmode, fun f hf hp hread =>
      ⟨fun hdiffers hpackets => ?_, fun hagrees hout => ?_⟩⟩
    · have hfin := State.badRange_finishing (s := { s.recorded w with flight := none }) hb hmode hf hp
      rw [hpackets] at hfin
      exact ⟨_, execResealBatch_differs hfl hw hread hdiffers, hfin.settled.batchFrame rfl, hfin.frame.clock,
        hfin.frame.mem, hfin.finishes⟩
    · have hexec := execResealBatch_made hfl hw hread hagrees hout
      dsimp only at hexec
      rw [if_neg nofun] at hexec
      exact hexec.trans (congrArg _ (State.resealed_of (s := { s.recorded w with flight := none, mem := _ }) hf token _))

end Sys2Proof.Machine
end

