-- ==== Sys2Proof/Proofs/Registers.lean ====
section
/-! Proofs: the register writes and what a command answers (R48 to R50, R52, logs 7 and 8). -/

namespace Sys2Proof.Machine

/-! ## What a command answers -/

/-- A command with neither recorder writes nor a value for CONTROL has nothing to be refused for. -/
theorem exec_plain {c : Instr} (s : State) (hw : c.writes = none) (hc : c.controlWrite = none) :
    ∃ t, exec c s = .next t := by
  cases c <;> cases hw <;> cases hc <;> exact ⟨_, rfl⟩

/-- Every command with recorder writes but START answers through `withWrites`. -/
theorem exec_withWrites {c : Instr} {w : Writes} (s : State) (hw : c.writes = some w) (hc : c.controlWrite = none) :
    ∃ effect, exec c s = withWrites w s effect := by
  cases c <;> cases hw <;> cases hc <;> simp only [exec] <;> exact ⟨_, rfl⟩

/-- A write to CONTROL is judged by its request first; only START then looks at recorder writes. -/
theorem exec_controlWrite {c : Instr} {v : BitVec 32} {q : ControlRequest} (s : State) (hc : c.controlWrite = some (v, q)) :
    ∃ o, exec c s = (if controlRequest v = q then o else .refused .requestMismatch) ∧
      ((∀ w, c.writes = some w → writesInSpace w = true) → ∃ t, o = .next t) := by
  cases c <;> cases hc
  case start w => exact ⟨_, rfl, fun hw => ⟨_, withWrites_next.2 ⟨hw w rfl, rfl⟩⟩⟩
  all_goals exact ⟨_, rfl, fun _ => ⟨_, rfl⟩⟩

theorem Instr.wellFormed_writes {c : Instr} {w : Writes} (h : c.wellFormed = true) (hw : c.writes = some w) :
    writesInSpace w = true := by
  simp only [Instr.wellFormed, hw, Bool.and_eq_true] at h
  exact h.1

theorem Instr.wellFormed_controlWrite {c : Instr} {v : BitVec 32} {q : ControlRequest} (h : c.wellFormed = true)
    (hc : c.controlWrite = some (v, q)) : controlRequest v = q := by
  simp only [Instr.wellFormed, hc, Bool.and_eq_true, decide_eq_true_eq] at h
  exact h.2

theorem exec_wellFormed {c : Instr} (s : State) (h : c.wellFormed = true) : ∃ t, exec c s = .next t := by
  cases hc : c.controlWrite with
  | some p =>
    obtain ⟨o, ho, hnext⟩ := exec_controlWrite s hc
    obtain ⟨t, ht⟩ := hnext fun w hw => Instr.wellFormed_writes h hw
    exact ⟨t, by rw [ho, if_pos (Instr.wellFormed_controlWrite h hc), ht]⟩
  | none =>
    cases hw : c.writes with
    | none => exact exec_plain s hw hc
    | some w =>
      obtain ⟨effect, he⟩ := exec_withWrites s hw hc
      exact ⟨_, he.trans (withWrites_next.2 ⟨Instr.wellFormed_writes h hw, rfl⟩)⟩

/-- Settles O2: a command is judged by the value it writes to CONTROL, then by its recorder writes, and by nothing else. -/
theorem wellFormedCommandsComplete : Obligations.WellFormedCommandsComplete := by
  refine ⟨fun c s h => exec_wellFormed s h, fun c s v q hc hne => ?_, fun c s w hw hspace hc => ?_⟩
  · obtain ⟨o, ho, -⟩ := exec_controlWrite s hc
    rw [ho, if_neg hne]
  · obtain ⟨effect, he⟩ := exec_withWrites s hw hc
    rw [he, withWrites, hspace]
    rfl

/-! ## The register writes -/

theorem drained_iff (s : State) :
    s.drained = true ↔ s.flight = none ∧ s.query = none ∧ s.sweep = none ∧ ∀ n, (s.slot n).take = none := by
  have slots : (s.slots.toList.all fun x => x.take.isNone) = true ↔ ∀ n, (s.slot n).take = none := by
    simp only [List.all_eq_true, Option.isNone_iff_eq_none, State.slot, Vector.mem_toList_iff]
    refine ⟨fun h n => h _ (Vector.getElem_mem n.isLt), fun h x hx => ?_⟩
    obtain ⟨i, hi, rfl⟩ := Vector.getElem_of_mem hx
    exact h ⟨i, hi⟩
  simp only [State.drained, Bool.and_eq_true, Option.isNone_iff_eq_none, slots, and_assoc]

/-- The low twelve bits of the base are never taken (R48). -/
theorem base_mask_bit (v : BitVec 32) (i : Nat) :
    (v &&& 0xFFFFF000).getLsbD i = (decide (12 ≤ i) && v.getLsbD i) := by
  by_cases hi : i < 32
  · have mask : (0xFFFFF000 : BitVec 32).getLsbD i = decide (12 ≤ i) := by
      have all : ∀ j : Fin 32, (0xFFFFF000 : BitVec 32).getLsbD j.val = decide (12 ≤ j.val) := by decide
      exact all ⟨i, hi⟩
    rw [BitVec.getLsbD_and, mask, Bool.and_comm]
  · simp [BitVec.getLsbD_of_ge _ _ (Nat.le_of_not_lt hi)]

theorem base_mask_aligned (v : BitVec 32) : (v &&& 0xFFFFF000).toNat % 4096 = 0 := by
  have low : (v &&& 0xFFFFF000) &&& 0xFFF = 0 := by rw [BitVec.and_assoc]; simp
  have := congrArg BitVec.toNat low
  simpa [BitVec.toNat_and, Nat.and_two_pow_sub_one_eq_mod _ 12] using this

theorem boardBase_aligned (high v : BitVec 32) : (high.toNat * 2 ^ 32 + (v &&& 0xFFFFF000).toNat) % 4096 = 0 := by
  have := base_mask_aligned v
  omega

theorem stopPart_running {s : State} (h : s.part = .running) :
    s.stopPart = { s with part := .stopping, sweepTimer := none, sweepPending := false, sweep := stoppedSweep s.sweep } :=
  if_pos h

theorem stopPart_other {s : State} (h : s.part ≠ .running) : s.stopPart = s := if_neg h

theorem execStop_of {v : BitVec 32} (s : State) (h : controlRequest v = .stop) :
    exec (.stop v) s = .next (s.loadControl v).stopPart := if_pos h

/-- Settles O7: each register write by the state of the part it meets. -/
theorem stopDrainAndRegisterWrites : Obligations.StopDrainAndRegisterWrites := by
  refine ⟨fun v s hv => ⟨_, execStop_of s hv, fun hrun => ?_, fun hrun => stopPart_other hrun⟩, fun s => ⟨?_, ?_⟩,
    fun v s hv => if_pos hv, fun v s => ⟨_, rfl, ?_, fun h => if_neg h⟩,
    fun v s => ⟨_, rfl, fun h => if_pos h, fun h => if_neg h⟩, fun q v s => rfl⟩
  · rw [stopPart_running (s := s.loadControl v) hrun]
    cases hsweep : s.sweep with
    | none => simp [State.loadControl, stoppedSweep, hsweep]
    | some at' => cases at' <;> simp [State.loadControl, stoppedSweep, hsweep]
  · exact fun hpart hd => congrArg _ (if_pos ⟨hpart, (drained_iff s).2 hd⟩)
  · exact fun h => congrArg _ (if_neg fun ⟨hpart, hd⟩ => h.elim (· hpart) (· ((drained_iff s).1 hd)))
  · intro h
    rw [if_pos h]
    exact ⟨rfl, boardBase_aligned s.baseHigh v, base_mask_bit v⟩

end Sys2Proof.Machine
end

