-- ==== Sys2Proof/Proofs/ImageOrders.lean ====
section
/-! Proofs: SAVE and LOAD at their takes (R167, R169). -/

namespace Sys2Proof.Machine

section
variable (s : State) (addr : Nat)

theorem covers_image (ws : List Window) (write : Bool) :
    covers ws write addr imageSize = true ↔
      ∃ x ∈ ws, (write = true → x.writable = true) ∧ x.lo ≤ addr ∧ addr + 66047 ≤ x.hi := by
  rw [covers_iff]
  exact exists_congr fun x => and_congr_right fun _ => and_congr_right fun _ => and_congr_right fun _ =>
    Nat.succ_le_succ_iff

/-- The answer to SAVE by the first check that fails. -/
theorem State.saveRefusal_by :
    (s.ready = false → s.saveRefusal addr = some .notReady) ∧
    (s.ready = true → s.image.isSome = true → s.saveRefusal addr = some .busy) ∧
    (s.ready = true → s.image = none → top32 ≤ s.cell → s.saveRefusal addr = some .wrongState) ∧
    (s.ready = true → s.image = none → s.cell < top32 →
      s.saveRefusal addr = if covers s.windows true addr imageSize then none else some .window) := by
  unfold State.saveRefusal
  refine ⟨fun h => by rw [h]; rfl, fun h hi => by rw [h, hi]; rfl, fun h hi hc => ?_, fun h hi hc => ?_⟩
  · rw [h, hi]
    exact if_pos hc
  · rw [h, hi]
    exact if_neg (Nat.not_le_of_lt hc)

theorem State.anySlotOpen_iff :
    (s.slots.toList.any fun x => x.eng.state != .idle) = true ↔ ∃ n, (s.slot n).eng.state ≠ .idle := by
  simp only [List.any_eq_true, Vector.mem_toList_iff, bne_iff_ne, State.slot]
  refine ⟨fun ⟨x, hx, h⟩ => ?_, fun ⟨n, h⟩ => ⟨_, Vector.getElem_mem n.isLt, h⟩⟩
  obtain ⟨i, hi, rfl⟩ := Vector.getElem_of_mem hx
  exact ⟨⟨i, hi⟩, h⟩

/-- The answer to LOAD by the first check that fails. -/
theorem State.loadRefusal_by :
    (s.image.isSome = true ∨ (∃ n, (s.slot n).eng.state ≠ .idle) → s.loadRefusal addr = some .busy) ∧
    (s.image = none → ¬ (∃ n, (s.slot n).eng.state ≠ .idle) →
      s.loadRefusal addr = if covers s.windows false addr imageSize then none else some .window) := by
  rw [← s.anySlotOpen_iff]
  unfold State.loadRefusal
  refine ⟨fun h => ?_, fun hi hopen => by rw [hi, if_neg nofun, if_neg hopen]⟩
  by_cases hi : s.image.isSome = true
  · exact if_pos hi
  · rw [if_neg hi, if_pos (h.resolve_left hi)]

end

/-- The result of a part order that is refused, or accepted with its completion to come. -/
def imageResult : Option Result → Result
  | some r => r
  | none => .none

/-- What is answered to SAVE or LOAD, with the end-of-sweep writes next. -/
def State.imageAnswered (s t : State) (number : Mark) (refusal : Option Result) (op : ImageOp) : Prop :=
  let res := imageResult refusal
  t.header = s.partAnswered number res 0 ∧ t.partLatch = number ∧ t.sweep = some .ending ∧ s.partFrame t res ∧
    t.ready = s.ready ∧ t.cell = s.cell ∧ t.query = s.query.map Query.overtaken ∧
    (refusal = none → t.image = some op) ∧ (res ≠ .none → t.image = s.image.map ImageOp.overtaken)

section
variable {s : State} {w : Writes}

theorem State.imageAnswered_refused {u : State} (hr : s.part ≠ .stopped) {number : Mark} {r : Result} (op : ImageOp)
    (hu : u = s.answerPart number r 0) : s.imageAnswered { u with sweep := some .ending } number (some r) op := by
  obtain ⟨m, hm, h⟩ := State.answerPart_running hr number r 0
  rw [hu, h]
  exact ⟨rfl, rfl, rfl, ⟨rfl, rfl, rfl, rfl, rfl, ⟨rfl, rfl, rfl⟩, rfl, rfl, hm, rfl⟩, rfl, rfl, rfl, nofun, fun _ => rfl⟩

theorem State.imageAnswered_accepted {u : State} (hr : s.part ≠ .stopped) {number : Mark} {op : ImageOp}
    (hu : u = { s.answerPart number .none 0 with image := some op }) :
    s.imageAnswered { u with sweep := some .ending } number none op := by
  obtain ⟨m, hm, h⟩ := State.answerPart_running hr number .none 0
  rw [hu, h]
  exact ⟨rfl, rfl, rfl, ⟨rfl, rfl, rfl, rfl, rfl, ⟨rfl, rfl, rfl⟩, rfl, rfl, hm, rfl⟩, rfl, rfl, rfl, fun _ => rfl,
    fun hres => absurd rfl hres⟩

theorem execSave_answers (h : s.atPartOrder w .save) :
    let r := s.recorded w
    let addr := r.headerField 112 8
    ∃ t, exec (.save w) s = .next t ∧ r.imageAnswered t r.partOrderNumber (r.saveRefusal addr)
      (.save (some r.partOrderNumber) addr s.entries s.clock (s.cell + 1) 0 Chain.start) := by
  refine h.answers fun u hu => ?_
  dsimp only at hu
  generalize (s.recorded w).saveRefusal _ = refusal at hu ⊢
  cases refusal with
  | some r => exact State.imageAnswered_refused h.running _ hu
  | none => exact State.imageAnswered_accepted h.running hu

theorem execLoad_answers (h : s.atPartOrder w .load) :
    let r := s.recorded w
    let addr := r.headerField 112 8
    ∃ t, exec (.load w) s = .next t ∧ r.imageAnswered t r.partOrderNumber (r.loadRefusal addr)
      (.load (some r.partOrderNumber) addr none [] 0 Chain.start) := by
  refine h.answers fun u hu => ?_
  dsimp only at hu
  generalize (s.recorded w).loadRefusal _ = refusal at hu ⊢
  cases refusal with
  | some r => exact State.imageAnswered_refused h.running _ hu
  | none => exact State.imageAnswered_accepted h.running hu

end

/-- Settles O27: each order by the first check that fails, and the operation in flight where none does. -/
theorem imageOrdersTaken : Obligations.ImageOrdersTaken := by
  intro s w
  dsimp only
  set addr := (s.recorded w).headerField 112 8
  refine ⟨fun h => ?_, fun h => ?_⟩
  · obtain ⟨t, ht, hhead, hlatch, hsweep, hframe, hready, hcell, hquery, hop, hstays⟩ := execSave_answers h
    obtain ⟨notReady, busy, top, window⟩ := (s.recorded w).saveRefusal_by addr
    refine ⟨t, _, ht, hhead, hlatch, hsweep, hframe, hready, hcell, hquery,
      fun hn => congrArg imageResult (notReady hn), fun hn hi => congrArg imageResult (busy hn hi),
      fun hn hi hc => congrArg imageResult (top hn hi hc), fun hn hi hc => ⟨fun hno => ?_, fun hyes => ?_⟩, hstays⟩
    · refine congrArg imageResult ((window hn hi hc).trans (if_neg fun hcov => hno ?_))
      obtain ⟨x, hx, hw, hin⟩ := (covers_image addr _ true).1 hcov
      exact ⟨x, hx, hw rfl, hin⟩
    · obtain ⟨x, hx, hw, hin⟩ := hyes
      have hnone := (window hn hi hc).trans (if_pos ((covers_image addr _ true).2 ⟨x, hx, fun _ => hw, hin⟩))
      exact ⟨congrArg imageResult hnone, hop hnone⟩
  · obtain ⟨t, ht, hhead, hlatch, hsweep, hframe, hready, hcell, hquery, hop, hstays⟩ := execLoad_answers h
    obtain ⟨busy, window⟩ := (s.recorded w).loadRefusal_by addr
    refine ⟨t, _, ht, hhead, hlatch, hsweep, hframe, hready, hcell, hquery,
      fun hb => congrArg imageResult (busy hb), fun hi hopen => ⟨fun hno => ?_, fun hyes => ?_⟩, hstays⟩
    · refine congrArg imageResult ((window hi hopen).trans (if_neg fun hcov => hno ?_))
      obtain ⟨x, hx, -, hin⟩ := (covers_image addr _ false).1 hcov
      exact ⟨x, hx, hin⟩
    · obtain ⟨x, hx, hin⟩ := hyes
      have hnone := (window hi hopen).trans (if_pos ((covers_image addr _ false).2 ⟨x, hx, nofun, hin⟩))
      exact ⟨congrArg imageResult hnone, hop hnone⟩

end Sys2Proof.Machine
end

