-- ==== Sys2Proof/Proofs/BoardBlocks.lean ====
section
/-! Proofs: blocks of memory. What memory holds after a list of writes of which no two overlap, and where the fields of the
engine parts lie (R48, 3.10). -/

namespace Sys2Proof.Machine

/-! ## Blocks of memory -/

/-- Memory holds the bytes from address `a` onward. -/
def Memory.holds (m : Memory) (a : Nat) (bs : List Byte) : Prop := m.read a bs.length = bs

/-- Two blocks have no address in common. -/
def blocksApart (b c : Nat × List Byte) : Prop := b.1 + b.2.length ≤ c.1 ∨ c.1 + c.2.length ≤ b.1

theorem blocksApart.symm {b c : Nat × List Byte} (h : blocksApart b c) : blocksApart c b := Or.symm h

theorem Memory.read_add (m : Memory) (a k len : Nat) : m.read a (k + len) = m.read a k ++ m.read (a + k) len := by
  simp only [Memory.read, List.range_add, List.map_append, List.map_map, Function.comp_def, Nat.add_assoc]

theorem Memory.holds_append {m : Memory} {a : Nat} {x y : List Byte} :
    m.holds a (x ++ y) ↔ m.holds a x ∧ m.holds (a + x.length) y := by
  unfold Memory.holds
  rw [List.length_append, Memory.read_add]
  exact ⟨fun h => List.append_inj h (Memory.length_read ..), fun ⟨hx, hy⟩ => by rw [hx, hy]⟩

theorem Memory.holds_zeros {m : Memory} {a k : Nat} : m.holds a (zeros k) ↔ m.read a k = zeros k := by
  unfold Memory.holds
  rw [length_zeros]

theorem Memory.holds_le {m : Memory} {a k v : Nat} : m.holds a (le k v) ↔ m.read a k = le k v := by
  unfold Memory.holds
  rw [length_le]

/-- Memory that holds a row of parts holds each of them. -/
theorem Memory.holds_flatten {m : Memory} {parts : List (List Byte)} {a : Nat} (h : m.holds a parts.flatten) {i : Nat}
    {part : List Byte} (hi : parts[i]? = some part) : m.holds (a + ((parts.map List.length).take i).sum) part := by
  induction parts generalizing a i with
  | nil => cases hi
  | cons p parts ih =>
    obtain ⟨hp, hrest⟩ := Memory.holds_append.1 h
    cases i with
    | zero => cases hi; exact hp
    | succ i =>
      have := ih hrest hi
      rwa [Nat.add_assoc] at this

/-- A write leaves what stands apart from it. -/
theorem Memory.read_write_apart {m : Memory} {b c : Nat × List Byte} (h : blocksApart b c) :
    (m.write b.1 b.2).read c.1 c.2.length = m.read c.1 c.2.length :=
  Memory.read_congr fun _ _ _ => Memory.get_write_outside (by unfold blocksApart at h; omega)

theorem Memory.recorder_append (m : Memory) (w w' : Writes) : m.recorder (w ++ w') = (m.recorder w).recorder w' :=
  List.foldl_append

/-- Writes leave what stands apart from all of them. -/
theorem Memory.read_recorder_apart {m : Memory} {w : Writes} {c : Nat × List Byte} (h : ∀ b ∈ w, blocksApart b c) :
    (m.recorder w).read c.1 c.2.length = m.read c.1 c.2.length :=
  Memory.read_congr fun i hlo hhi => Memory.get_recorder_outside (fun b hb => by
    have := h b hb
    unfold blocksApart at this
    omega) m

/-- Memory holds a block that is among the writes and stands apart from the others. -/
theorem Memory.holds_recorder {m : Memory} {w : Writes} {c : Nat × List Byte} (h : ∀ b ∈ w, b = c ∨ blocksApart b c)
    (hc : c ∈ w ∨ m.holds c.1 c.2) : (m.recorder w).holds c.1 c.2 := by
  induction w generalizing m with
  | nil => exact hc.resolve_left nofun
  | cons b w ih =>
    refine ih (fun d hd => h d (List.mem_cons_of_mem _ hd)) ?_
    rcases h b List.mem_cons_self with rfl | hb
    · exact .inr (Memory.read_write ..)
    · rcases hc with hc | hc
      · rcases List.mem_cons.1 hc with rfl | hc
        · exact .inr (Memory.read_write ..)
        · exact .inl hc
      · exact .inr ((Memory.read_write_apart hb).trans hc)

/-! ## Where the fields lie (3.10) -/

/-- A field of a slot record: an outcome field is one of a frame position. -/
def SlotField.placed (f : SlotField) : Prop := ∀ p, f = .outcome p → p < 16

/-- Offset and size of a field in the slot record. -/
def SlotField.span : SlotField → Nat × Nat
  | .orderTaken => (256, 4)
  | .result => (260, 1)
  | .state => (261, 1)
  | .fault => (262, 1)
  | .bound => (263, 1)
  | .overtaken => (264, 4)
  | .inStep => (268, 1)
  | .absent => (269, 1)
  | .markA => (272, 4)
  | .markB => (276, 4)
  | .markC => (280, 4)
  | .chunksDone => (284, 4)
  | .packetsLost => (288, 4)
  | .badPackets => (292, 4)
  | .scrambled => (296, 4)
  | .lastRemaining => (300, 2)
  | .outcome p => (320 + 12 * p, 12)

/-- Offset and size of a field in the header. -/
def HeaderField.span : HeaderField → Nat × Nat
  | .orderTaken => (128, 4)
  | .result => (132, 1)
  | .detail => (136, 4)
  | .overtaken => (140, 4)
  | .voteAction => (157, 1)
  | .voteClock => (160, 4)

theorem Engine.fieldAt_span (g : Engine) (f : SlotField) : ((g.fieldAt f).1, (g.fieldAt f).2.length) = f.span := by
  cases f <;> simp [Engine.fieldAt, SlotField.span]

theorem Header.fieldAt_span (g : Header) (f : HeaderField) : ((g.fieldAt f).1, (g.fieldAt f).2.length) = f.span := by
  cases f <;> simp [Header.fieldAt, HeaderField.span]

/-- Two spans have no offset in common. -/
def spansApart (x y : Nat × Nat) : Prop := x.1 + x.2 ≤ y.1 ∨ y.1 + y.2 ≤ x.1

/-- The fields of a slot record in the order they stand there. -/
def slotFields : List SlotField :=
  [.orderTaken, .result, .state, .fault, .bound, .overtaken, .inStep, .absent, .markA, .markB, .markC, .chunksDone,
    .packetsLost, .badPackets, .scrambled, .lastRemaining] ++ (List.range 16).map .outcome

/-- The header's fields in the order they stand there. -/
def headerFields : List HeaderField := [.orderTaken, .result, .detail, .overtaken, .voteAction, .voteClock]

theorem SlotField.mem_slotFields {f : SlotField} (h : f.placed) : f ∈ slotFields := by
  cases f with
  | outcome p => exact List.mem_append_right _ (List.mem_map_of_mem (List.mem_range.2 (h p rfl)))
  | _ => exact List.mem_append_left _ (by decide)

theorem HeaderField.mem_headerFields (f : HeaderField) : f ∈ headerFields := by cases f <;> decide

/-- Elements that stand apart in a list are equal or stand apart. -/
theorem eq_or_apart {α : Type} {span : α → Nat × Nat} {l : List α}
    (hl : l.Pairwise fun x y => (span x).1 + (span x).2 ≤ (span y).1) {x y : α} (hx : x ∈ l) (hy : y ∈ l) :
    x = y ∨ spansApart (span x) (span y) := by
  induction hl with
  | nil => cases hx
  | cons hle _ ih =>
    rcases List.mem_cons.1 hx with rfl | hx' <;> rcases List.mem_cons.1 hy with rfl | hy'
    · exact .inl rfl
    · exact .inr (.inl (hle _ hy'))
    · exact .inr (.inr (hle _ hx'))
    · exact ih hx' hy'

theorem SlotField.eq_or_apart {f g : SlotField} (hf : f.placed) (hg : g.placed) : f = g ∨ spansApart f.span g.span :=
  Machine.eq_or_apart (l := slotFields) (by decide) (mem_slotFields hf) (mem_slotFields hg)

theorem HeaderField.eq_or_apart (f g : HeaderField) : f = g ∨ spansApart f.span g.span :=
  Machine.eq_or_apart (l := headerFields) (by decide) f.mem_headerFields g.mem_headerFields

/-! ## The engine parts of the board (R48) -/

/-- A field of the board whose place the board has. -/
def BoardField.placed : BoardField → Prop
  | .slot _ f => f.placed
  | .header _ => True

/-- Offset and size of a field on the board. -/
def BoardField.span : BoardField → Nat × Nat
  | .slot n f => (2048 + 512 * n.val + f.span.1, f.span.2)
  | .header f => f.span

theorem State.boardAccess_span (s : State) (F : BoardField) :
    ((s.boardAccess F).1, (s.boardAccess F).2.length) = (s.boardBase + F.span.1, F.span.2) := by
  cases F with
  | slot n f =>
    have := (s.slot n).eng.fieldAt_span f
    simp only [Prod.ext_iff] at this ⊢
    simp only [State.boardAccess, BoardField.span, State.slotAddr]
    omega
  | header f =>
    have := s.header.fieldAt_span f
    simp only [Prod.ext_iff] at this ⊢
    simp only [State.boardAccess, BoardField.span]
    omega

theorem SlotField.span_range {f : SlotField} (h : f.placed) : 256 ≤ f.span.1 ∧ f.span.1 + f.span.2 ≤ 512 := by
  have := Engine.fieldAt_range Engine.idle f h
  rwa [← Engine.fieldAt_span Engine.idle f]

theorem HeaderField.span_range (f : HeaderField) : 128 ≤ f.span.1 ∧ f.span.1 + f.span.2 ≤ 164 := by
  have := Header.fieldAt_range Header.reset f
  rwa [← Header.fieldAt_span Header.reset f]

theorem BoardField.eq_or_apart {F G : BoardField} (hF : F.placed) (hG : G.placed) : F = G ∨ spansApart F.span G.span := by
  unfold spansApart
  cases F with
  | slot n f =>
    have hf := SlotField.span_range hF
    cases G with
    | slot m g =>
      have hg := SlotField.span_range hG
      rcases lt_trichotomy n m with hnm | rfl | hnm
      · exact .inr (.inl (by simp only [BoardField.span]; omega))
      · rcases SlotField.eq_or_apart hF hG with rfl | hfg
        · exact .inl rfl
        · exact .inr (by simp only [BoardField.span]; unfold spansApart at hfg; omega)
      · exact .inr (.inr (by simp only [BoardField.span]; omega))
    | header g =>
      have hg := g.span_range
      exact .inr (.inr (by simp only [BoardField.span]; omega))
  | header f =>
    have hf := f.span_range
    cases G with
    | slot m g =>
      have hg := SlotField.span_range hG
      exact .inr (.inl (by simp only [BoardField.span]; omega))
    | header g =>
      rcases HeaderField.eq_or_apart f g with rfl | hfg
      · exact .inl rfl
      · exact .inr hfg

/-- Two fields as they stand are one block, or stand apart. -/
theorem State.boardAccess_apart (s t : State) (hb : t.boardBase = s.boardBase) {F G : BoardField} (hF : F.placed)
    (hG : G.placed) : F = G ∨ blocksApart (s.boardAccess F) (t.boardAccess G) := by
  refine (BoardField.eq_or_apart hF hG).imp_right fun h => ?_
  have h1 := Prod.ext_iff.1 (s.boardAccess_span F)
  have h2 := Prod.ext_iff.1 (t.boardAccess_span G)
  unfold spansApart at h
  simp only [hb] at h1 h2
  unfold blocksApart
  omega

/-- Address `a` is in the engine parts of the board. -/
def State.inBoard (s : State) (a : Nat) : Prop := (∃ n, s.inRecord n a) ∨ s.inHeader a

/-- A block lies in the engine parts of the board. -/
theorem State.boardAccess_inBoard (s : State) {F : BoardField} (hF : F.placed) {a : Nat} (ha : ¬ s.inBoard a) :
    a < (s.boardAccess F).1 ∨ (s.boardAccess F).1 + (s.boardAccess F).2.length ≤ a := by
  have h := Prod.ext_iff.1 (s.boardAccess_span F)
  simp only at h
  cases F with
  | slot n f =>
    have hf := SlotField.span_range hF
    have hn : ¬ s.inRecord n a := fun h => ha (.inl ⟨n, h⟩)
    simp only [BoardField.span, State.inRecord, State.slotAddr] at h hn
    omega
  | header f =>
    have hf := f.span_range
    have hn : ¬ s.inHeader a := fun h => ha (.inr h)
    simp only [BoardField.span, State.inHeader] at h hn
    omega

/-! ## The engine part of a record as one block (R64) -/

/-- The engine part of a record cut into its fields and the places that are always zero. -/
def Engine.parts (g : Engine) : List (List Byte) :=
  [le 4 g.orderTaken.toNat, le 1 g.result.code, le 1 g.state.code, le 1 g.fault.code, le 1 (boundByte g.bound),
    le 4 g.overtaken.toNat, le 1 (flagBit g.inStep 0), le 1 (flagsByte g.absent), zeros 2, le 4 g.markA.toNat,
    le 4 g.markB.toNat, le 4 g.markC.toNat, le 4 g.chunksDone.toNat, le 4 g.packetsLost, le 4 g.badPackets.toNat,
    le 4 g.scrambled.toNat, le 2 g.lastRemaining, zeros 18] ++ g.outcomes.map OutcomeEntry.image

theorem Engine.image_eq (g : Engine) : g.image = g.parts.flatten := by
  simp [Engine.image, Engine.parts, List.flatMap]

/-- The sizes of the parts of an engine part with its 16 outcome entries. -/
def partSizes : List Nat := [4, 1, 1, 1, 1, 4, 1, 1, 2, 4, 4, 4, 4, 4, 4, 4, 2, 18] ++ List.replicate 16 12

theorem Engine.parts_sizes {g : Engine} (h : g.outcomes.length = 16) : g.parts.map List.length = partSizes := by
  simp [Engine.parts, partSizes, h, Function.comp_def]

theorem Engine.length_image {g : Engine} (h : g.outcomes.length = 16) : g.image.length = 256 := by
  rw [Engine.image_eq, List.length_flatten, Engine.parts_sizes h]
  decide

/-- The place of a field among the parts. -/
def SlotField.place : SlotField → Nat
  | .orderTaken => 0
  | .result => 1
  | .state => 2
  | .fault => 3
  | .bound => 4
  | .overtaken => 5
  | .inStep => 6
  | .absent => 7
  | .markA => 9
  | .markB => 10
  | .markC => 11
  | .chunksDone => 12
  | .packetsLost => 13
  | .badPackets => 14
  | .scrambled => 15
  | .lastRemaining => 16
  | .outcome p => 18 + p

theorem Engine.parts_place {g : Engine} (h : g.outcomes.length = 16) {f : SlotField} (hf : f.placed) :
    g.parts[f.place]? = some (g.fieldAt f).2 := by
  cases f with
  | outcome p =>
    have hp : p < g.outcomes.length := h ▸ hf p rfl
    simp only [Engine.parts, SlotField.place]
    rw [List.getElem?_append_right (by simp)]
    simp [Engine.fieldAt, hp]
  | _ => rfl

theorem SlotField.place_span {f : SlotField} (hf : f.placed) : 256 + (partSizes.take f.place).sum = f.span.1 := by
  have all : ∀ f ∈ slotFields, 256 + (partSizes.take f.place).sum = f.span.1 := by decide
  exact all f (mem_slotFields hf)

/-- Memory that holds an engine part holds each part of it. -/
theorem Engine.holds_part {g : Engine} (h : g.outcomes.length = 16) {m : Memory} {a : Nat} (hm : m.holds a g.image) {i : Nat}
    {part : List Byte} (hi : g.parts[i]? = some part) : m.holds (a + (partSizes.take i).sum) part := by
  rw [Engine.image_eq] at hm
  have := Memory.holds_flatten hm hi
  rwa [Engine.parts_sizes h] at this

theorem Engine.holds_field {g : Engine} (h : g.outcomes.length = 16) {m : Memory} {a : Nat}
    (hm : m.holds (a + 256) g.image) {f : SlotField} (hf : f.placed) : m.holds (a + (g.fieldAt f).1) (g.fieldAt f).2 := by
  have := Engine.holds_part h hm (Engine.parts_place h hf)
  rwa [Nat.add_assoc, SlotField.place_span hf, ← (Prod.ext_iff.1 (g.fieldAt_span f)).1] at this

end Sys2Proof.Machine
end

