-- ==== Sys2Proof/Proofs/SweepStart.lean ====
section
/-! Proofs: how a sweep starts and how the part starts. The writes held while STOPPED as one list of blocks, and what memory
holds after them (R51, R53, R55 to R57, R64, R68, R173). -/

namespace Sys2Proof.Machine

/-! ## The blocks of the first sweep after a reset (R64, R68, log 43) -/

/-- What is written whole after a reset. -/
inductive BoardPiece where
  | record (n : Fin 8)
  | header (f : HeaderField)
  | zeros (at' : Nat × Nat)
  deriving DecidableEq

def BoardPiece.span : BoardPiece → Nat × Nat
  | .record n => (2304 + 512 * n.val, 256)
  | .header f => f.span
  | .zeros z => z

/-- The pieces in the order they stand on the board. -/
def boardPieces : List BoardPiece :=
  [.header .orderTaken, .header .result, .zeros (133, 3), .header .detail, .header .overtaken, .header .voteAction,
    .zeros (158, 2), .header .voteClock, .zeros (164, 860)] ++ allSlots.map .record

theorem BoardPiece.eq_or_apart {p q : BoardPiece} (hp : p ∈ boardPieces) (hq : q ∈ boardPieces) :
    p = q ∨ spansApart p.span q.span :=
  Machine.eq_or_apart (l := boardPieces) (by decide) hp hq

theorem mem_allSlots (n : Fin 8) : n ∈ allSlots := by revert n; decide

theorem BoardPiece.record_mem (n : Fin 8) : .record n ∈ boardPieces :=
  List.mem_append_right _ (List.mem_map_of_mem (mem_allSlots n))

theorem BoardPiece.header_mem (f : HeaderField) : .header f ∈ boardPieces := by cases f <;> decide

/-- A piece as it stands. -/
def State.pieceBlock (s : State) : BoardPiece → Nat × List Byte
  | .record n => (s.slotAddr n + 256, (s.slot n).eng.image)
  | .header f => s.boardAccess (.header f)
  | .zeros z => (s.boardBase + z.1, Machine.zeros z.2)

/-- Every outcome list has its 16 entries. -/
def State.outcomesOk (s : State) : Prop := ∀ n, (s.slot n).eng.outcomes.length = 16

theorem State.pieceBlock_span {s : State} (h : s.outcomesOk) (p : BoardPiece) :
    ((s.pieceBlock p).1, (s.pieceBlock p).2.length) = (s.boardBase + p.span.1, p.span.2) := by
  cases p with
  | record n =>
    simp only [State.pieceBlock, State.slotAddr, BoardPiece.span, Engine.length_image (h n), Prod.mk.injEq, and_true]
    omega
  | header f => exact s.boardAccess_span (.header f)
  | zeros z => simp [State.pieceBlock, BoardPiece.span]

theorem State.pieceBlock_apart {s : State} (h : s.outcomesOk) {p q : BoardPiece} (hp : p ∈ boardPieces)
    (hq : q ∈ boardPieces) : s.pieceBlock p = s.pieceBlock q ∨ blocksApart (s.pieceBlock p) (s.pieceBlock q) := by
  refine (BoardPiece.eq_or_apart hp hq).imp (congrArg _) fun hs => ?_
  have h1 := Prod.ext_iff.1 (State.pieceBlock_span h p)
  have h2 := Prod.ext_iff.1 (State.pieceBlock_span h q)
  unfold spansApart at hs
  simp only at h1 h2
  unfold blocksApart
  omega

theorem State.pieceBlock_inBoard {s : State} (h : s.outcomesOk) {p : BoardPiece} (hp : p ∈ boardPieces) {a : Nat}
    (ha : ¬ s.inBoard a) : a < (s.pieceBlock p).1 ∨ (s.pieceBlock p).1 + (s.pieceBlock p).2.length ≤ a := by
  have hs := Prod.ext_iff.1 (State.pieceBlock_span h p)
  simp only at hs
  cases p with
  | record n =>
    have hn : ¬ s.inRecord n a := fun h => ha (.inl ⟨n, h⟩)
    simp only [BoardPiece.span, State.inRecord, State.slotAddr] at hs hn
    omega
  | header f => exact s.boardAccess_inBoard (F := .header f) trivial ha
  | zeros z =>
    have hn : ¬ s.inHeader a := fun h => ha (.inr h)
    have range : ∀ q ∈ boardPieces, ∀ z, q = .zeros z → 128 ≤ z.1 ∧ z.1 + z.2 ≤ 2048 := by
      have all : boardPieces.all (fun q => match q with
        | .zeros z => decide (128 ≤ z.1 ∧ z.1 + z.2 ≤ 2048) | _ => true) = true := by decide
      rintro q hq z rfl
      simpa using List.all_eq_true.1 all _ hq
    have := range _ hp z rfl
    simp only [BoardPiece.span, State.inHeader] at hs hn
    omega

/-! ## The held writes as one list (R64) -/

theorem State.recorded_recorded (s : State) (w w' : Writes) : (s.recorded w).recorded w' = s.recorded (w ++ w') := by
  simp [State.recorded, Memory.recorder_append]

/-- Writes of blocks that do not depend on memory, one after the other, are one list of writes. -/
theorem State.foldl_recorded {α : Type} {op : State → α → State} {blocks : State → α → Writes}
    (hop : ∀ s a, op s a = s.recorded (blocks s a)) (hmem : ∀ s w a, blocks (s.recorded w) a = blocks s a) (l : List α)
    (s : State) : l.foldl op s = s.recorded (l.flatMap (blocks s)) := by
  induction l generalizing s with
  | nil => rfl
  | cons a l ih =>
    have hl : l.flatMap (blocks (s.recorded (blocks s a))) = l.flatMap (blocks s) :=
      congrArg (l.flatMap ·) (funext fun b => hmem s _ b)
    rw [List.foldl_cons, hop, ih, State.recorded_recorded, hl, List.flatMap_cons]

/-- Writes of one block each. -/
theorem State.foldl_recorded_one {α : Type} {op : State → α → State} {block : State → α → Nat × List Byte}
    (hop : ∀ s a, op s a = s.recorded [block s a]) (hmem : ∀ s w a, block (s.recorded w) a = block s a) (l : List α)
    (s : State) : l.foldl op s = s.recorded (l.map (block s)) := by
  rw [List.map_eq_flatMap, State.foldl_recorded hop (fun s w a => by rw [hmem]) l s]

theorem State.writeFields_eq (s : State) (fs : List BoardField) :
    fs.foldl State.writeField s = s.recorded (fs.map s.boardAccess) :=
  State.foldl_recorded_one (fun _ _ => rfl) (fun _ _ F => by cases F <;> rfl) fs s

theorem State.writeHeld_eq (s : State) (own : BoardField → Bool) :
    s.writeHeld own = s.recorded ((s.held.filter own).map s.boardAccess) := s.writeFields_eq _

theorem State.writeHeaderFields_eq (s : State) (fs : List HeaderField) :
    fs.foldl (fun s f => s.writeField (.header f)) s = s.recorded (fs.map fun f => s.boardAccess (.header f)) :=
  State.foldl_recorded_one (fun _ _ => rfl) (fun _ _ _ => rfl) fs s

/-- What the first sweep after a reset writes, the time-vote result apart. -/
def resetPieces : List BoardPiece :=
  allSlots.map .record ++ [.header .orderTaken, .header .result, .header .detail, .header .overtaken] ++
    headerZeros.map .zeros

/-- The held fields, slot records first. -/
def State.heldInOrder (s : State) : List BoardField :=
  allSlots.flatMap (fun n => s.held.filter (Machine.inRecord n)) ++ s.held.filter Machine.inHeader

theorem State.mem_heldInOrder (s : State) (F : BoardField) : F ∈ s.heldInOrder ↔ F ∈ s.held := by
  cases F with
  | slot n f => simp [State.heldInOrder, Machine.inRecord, Machine.inHeader, mem_allSlots]
  | header f => simp [State.heldInOrder, Machine.inRecord, Machine.inHeader]

/-- The writes at the start of a sweep but for the time-vote result after a full reset. -/
def State.heldWrites (s : State) : Writes :=
  if s.writeAll then resetPieces.map s.pieceBlock else s.heldInOrder.map s.boardAccess

/-- The writes at the start of a sweep. -/
def State.flushWrites (s : State) : Writes :=
  s.heldWrites ++ if s.writeVote then [s.boardAccess (.header .voteAction), s.boardAccess (.header .voteClock)] else []

theorem State.writeRecords_eq (s : State) :
    allSlots.foldl State.writeRecord s = s.recorded ((allSlots.map .record).map s.pieceBlock) := by
  rw [List.map_map]
  exact State.foldl_recorded_one (block := fun s n => s.pieceBlock (.record n)) (fun _ _ => rfl) (fun _ _ _ => rfl) _ s

theorem State.writeHeaderZeros_eq (s : State) :
    s.writeHeaderZeros = s.recorded ((headerZeros.map .zeros).map s.pieceBlock) := by
  rw [List.map_map]
  exact State.foldl_recorded_one (block := fun s z => s.pieceBlock (.zeros z)) (fun _ _ => rfl) (fun _ _ _ => rfl) _ s

theorem State.writeHeldRecords_eq (s : State) :
    allSlots.foldl (fun s n => s.writeHeld (Machine.inRecord n)) s =
      s.recorded ((allSlots.flatMap fun n => s.held.filter (Machine.inRecord n)).map s.boardAccess) := by
  rw [List.map_flatMap]
  exact State.foldl_recorded (blocks := fun s n => (s.held.filter (Machine.inRecord n)).map s.boardAccess)
    (fun s n => s.writeHeld_eq _) (fun s w n => List.map_congr_left fun F _ => by cases F <;> rfl) allSlots s

theorem State.boardAccess_recorded (s : State) (w : Writes) : (s.recorded w).boardAccess = s.boardAccess := by
  funext F
  cases F <;> rfl

theorem State.pieceBlock_recorded (s : State) (w : Writes) : (s.recorded w).pieceBlock = s.pieceBlock := by
  funext p
  cases p <;> rfl

theorem State.raises_eq (s : State) (fs : List Flag) :
    fs.foldl State.raise s = { s with flags := fs.foldl (fun l f => raiseFlag f l) s.flags } := by
  induction fs generalizing s with
  | nil => rfl
  | cons f fs ih => exact ih _

/-- What the start of a sweep does: the held writes, the held causes, and nothing is held any longer. -/
theorem State.flushHeld_eq (s : State) :
    s.flushHeld =
      { s.recorded s.flushWrites with
        flags := s.heldCauses.foldl (fun l f => raiseFlag f l) s.flags
        held := []
        heldCauses := []
        writeAll := false
        writeVote := false } := by
  unfold State.flushHeld
  extract_lets s1 s2 s3 s4
  have h2 : s2 = s.recorded s.heldWrites := by
    unfold s2 s1 State.heldWrites
    cases hall : s.writeAll with
    | true =>
      simp only [if_true]
      rw [s.writeRecords_eq, if_pos (by exact hall), State.writeHeaderFields_eq, State.recorded_recorded,
        State.writeHeaderZeros_eq, State.recorded_recorded, State.boardAccess_recorded, State.pieceBlock_recorded]
      simp [resetPieces, State.pieceBlock]
    | false =>
      simp only [Bool.false_eq_true, if_false]
      rw [s.writeHeldRecords_eq, if_neg (by simp [hall]), State.writeHeld_eq, State.recorded_recorded,
        State.boardAccess_recorded, State.heldInOrder, List.map_append]
      rfl
  have h3 : s3 = s.recorded s.flushWrites := by
    unfold s3 State.flushWrites
    rw [h2]
    cases hvote : s.writeVote with
    | true =>
      rw [if_pos (by exact hvote), State.writeHeaderFields_eq, State.recorded_recorded, State.boardAccess_recorded]
      rfl
    | false =>
      rw [if_neg (by simp [hvote])]
      simp
  have h4 : s4 = { s.recorded s.flushWrites with flags := s.heldCauses.foldl (fun l f => raiseFlag f l) s.flags } := by
    unfold s4
    rw [h3, State.raises_eq]
    rfl
  rw [h4]

theorem mem_raises (fs l : List Flag) (f : Flag) : f ∈ fs.foldl (fun l f => raiseFlag f l) l ↔ f ∈ l ∨ f ∈ fs := by
  induction fs generalizing l with
  | nil => simp
  | cons g fs ih => rw [List.foldl_cons, ih, mem_raiseFlag, List.mem_cons]; tauto

/-! ## Memory after the held writes -/

/-- Every held field has a place on the board. -/
def State.heldOk (s : State) : Prop := ∀ F ∈ s.held, F.placed

theorem State.positionsOk.outcomesOk {s : State} (h : s.positionsOk) : s.outcomesOk := h.1

theorem State.positionsOk.heldOk {s : State} (h : s.positionsOk) : s.heldOk := by
  obtain ⟨-, -, -, hheld⟩ := h
  intro F hF
  cases F with
  | slot n f =>
    rintro p rfl
    exact hheld n p hF
  | header f => trivial

section
variable {s : State}

/-- After a reset every block written is a piece. -/
theorem State.flushWrites_pieces (hall : s.writeAll = true) {b : Nat × List Byte} (hb : b ∈ s.flushWrites) :
    ∃ p ∈ boardPieces, b = s.pieceBlock p := by
  have reset : ∀ p ∈ resetPieces, p ∈ boardPieces := by decide
  unfold State.flushWrites State.heldWrites at hb
  rw [hall, if_pos rfl] at hb
  rcases List.mem_append.1 hb with hb | hb
  · obtain ⟨p, hp, rfl⟩ := List.mem_map.1 hb
    exact ⟨p, reset p hp, rfl⟩
  · split at hb
    · rcases List.mem_pair.1 hb with rfl | rfl
      · exact ⟨_, BoardPiece.header_mem .voteAction, rfl⟩
      · exact ⟨_, BoardPiece.header_mem .voteClock, rfl⟩
    · cases hb

/-- Without one every block written is a field. -/
theorem State.flushWrites_fields (hall : s.writeAll = false) {b : Nat × List Byte} (hb : b ∈ s.flushWrites) :
    ∃ F, (F ∈ s.held ∨ (s.writeVote = true ∧ (F = .header .voteAction ∨ F = .header .voteClock))) ∧ b = s.boardAccess F := by
  unfold State.flushWrites State.heldWrites at hb
  rw [hall, if_neg nofun] at hb
  rcases List.mem_append.1 hb with hb | hb
  · obtain ⟨F, hF, rfl⟩ := List.mem_map.1 hb
    exact ⟨F, .inl ((s.mem_heldInOrder F).1 hF), rfl⟩
  · split at hb
    next hv =>
      rcases List.mem_pair.1 hb with rfl | rfl
      · exact ⟨_, .inr ⟨hv, .inl rfl⟩, rfl⟩
      · exact ⟨_, .inr ⟨hv, .inr rfl⟩, rfl⟩
    · cases hb

theorem State.heldOk.field_placed (h : s.heldOk) {F : BoardField}
    (hF : F ∈ s.held ∨ (s.writeVote = true ∧ (F = .header .voteAction ∨ F = .header .voteClock))) : F.placed := by
  rcases hF with hF | ⟨-, rfl | rfl⟩
  · exact h F hF
  · trivial
  · trivial

theorem State.mem_flushWrites_reset (hall : s.writeAll = true) {p : BoardPiece} (hp : p ∈ resetPieces) :
    s.pieceBlock p ∈ s.flushWrites := by
  refine List.mem_append_left _ ?_
  unfold State.heldWrites
  rw [hall, if_pos rfl]
  exact List.mem_map_of_mem hp

theorem State.mem_flushWrites_held (hall : s.writeAll = false) {F : BoardField} (hF : F ∈ s.held) :
    s.boardAccess F ∈ s.flushWrites := by
  refine List.mem_append_left _ ?_
  unfold State.heldWrites
  rw [hall, if_neg nofun]
  exact List.mem_map_of_mem ((s.mem_heldInOrder F).2 hF)

theorem State.mem_flushWrites_vote (hv : s.writeVote = true) {f : HeaderField} (hf : f = .voteAction ∨ f = .voteClock) :
    s.boardAccess (.header f) ∈ s.flushWrites := by
  refine List.mem_append_right _ ?_
  rw [if_pos hv, List.mem_pair]
  exact hf.imp (congrArg fun f => s.boardAccess (.header f)) (congrArg fun f => s.boardAccess (.header f))

/-- The held writes lie in the engine parts of the board. -/
theorem State.flushWrites_inBoard (ho : s.outcomesOk) (hh : s.heldOk) {a : Nat} (ha : ¬ s.inBoard a) :
    ∀ b ∈ s.flushWrites, a < b.1 ∨ b.1 + b.2.length ≤ a := by
  intro b hb
  cases hall : s.writeAll with
  | true =>
    obtain ⟨p, hp, rfl⟩ := State.flushWrites_pieces hall hb
    exact State.pieceBlock_inBoard ho hp ha
  | false =>
    obtain ⟨F, hF, rfl⟩ := State.flushWrites_fields hall hb
    exact s.boardAccess_inBoard (hh.field_placed hF) ha

theorem State.flush_outside (ho : s.outcomesOk) (hh : s.heldOk) (m : Memory) {a : Nat} (ha : ¬ s.inBoard a) :
    (m.recorder s.flushWrites).get a = m.get a :=
  Memory.get_recorder_outside (State.flushWrites_inBoard ho hh ha) m

/-- A piece that is written stands in memory afterwards. -/
theorem State.flush_piece (ho : s.outcomesOk) (hall : s.writeAll = true) (m : Memory) {p : BoardPiece} (hp : p ∈ boardPieces)
    (hw : s.pieceBlock p ∈ s.flushWrites) : (m.recorder s.flushWrites).holds (s.pieceBlock p).1 (s.pieceBlock p).2 := by
  refine Memory.holds_recorder (fun b hb => ?_) (.inl hw)
  obtain ⟨q, hq, rfl⟩ := State.flushWrites_pieces hall hb
  exact State.pieceBlock_apart ho hq hp

theorem record_mem_resetPieces (n : Fin 8) : .record n ∈ resetPieces :=
  List.mem_append_left _ (List.mem_append_left _ (List.mem_map_of_mem (mem_allSlots n)))

/-- After a reset each record's engine part stands in memory. -/
theorem State.flush_record (ho : s.outcomesOk) (hall : s.writeAll = true) (m : Memory) (n : Fin 8) :
    (m.recorder s.flushWrites).holds (s.slotAddr n + 256) (s.slot n).eng.image := by
  have hw := State.mem_flushWrites_reset hall (record_mem_resetPieces n)
  have hm := State.flush_piece ho hall m (BoardPiece.record_mem n) hw
  simp only [State.pieceBlock] at hm
  exact hm

/-- Each field of the board either stands as it is in memory afterwards, or is left as memory had it; the first where it
was to be written. -/
theorem State.flush_field (ho : s.outcomesOk) (hh : s.heldOk) (m : Memory) {F : BoardField} (hF : F.placed) :
    (m.recorder s.flushWrites).holds (s.boardAccess F).1 (s.boardAccess F).2 ∨
      (s.boardAccess F ∉ s.flushWrites ∧ (s.writeAll = true → ∃ f, F = .header f) ∧
        (m.recorder s.flushWrites).read (s.boardAccess F).1 (s.boardAccess F).2.length =
          m.read (s.boardAccess F).1 (s.boardAccess F).2.length) := by
  have blocks : (s.writeAll = true → ∃ f, F = .header f) →
      ∀ b ∈ s.flushWrites, b = s.boardAccess F ∨ blocksApart b (s.boardAccess F) := by
    intro hslot b hb
    cases hall : s.writeAll with
    | true =>
      obtain ⟨f, rfl⟩ := hslot hall
      obtain ⟨p, hp, rfl⟩ := State.flushWrites_pieces hall hb
      exact State.pieceBlock_apart ho hp (BoardPiece.header_mem f)
    | false =>
      obtain ⟨G, hG, rfl⟩ := State.flushWrites_fields hall hb
      exact (State.boardAccess_apart s s rfl (hh.field_placed hG) hF).imp_left (congrArg _)
  by_cases hslot : s.writeAll = true → ∃ f, F = .header f
  · by_cases hw : s.boardAccess F ∈ s.flushWrites
    · exact .inl (Memory.holds_recorder (blocks hslot) (.inl hw))
    · refine .inr ⟨hw, hslot, Memory.read_recorder_apart fun b hb => (blocks hslot b hb).resolve_left ?_⟩
      rintro rfl
      exact hw hb
  · obtain ⟨hall, hno⟩ := Classical.not_imp.1 hslot
    cases F with
    | header f => exact absurd ⟨f, rfl⟩ hno
    | slot n f => exact .inl (Engine.holds_field (ho n) (State.flush_record ho hall m n) hF)

/-- A slot field that is held, or any after a reset, stands in memory afterwards. -/
theorem State.flush_slotField (ho : s.outcomesOk) (hh : s.heldOk) (m : Memory) {n : Fin 8} {f : SlotField} (hf : f.placed)
    (h : s.writeAll = true ∨ .slot n f ∈ s.held) :
    (m.recorder s.flushWrites).holds (s.boardAccess (.slot n f)).1 (s.boardAccess (.slot n f)).2 := by
  refine (State.flush_field ho hh m (F := .slot n f) hf).resolve_right fun ⟨hw, hslot, _⟩ => ?_
  cases hall : s.writeAll with
  | true =>
    obtain ⟨g, hg⟩ := hslot hall
    cases hg
  | false => exact hw (State.mem_flushWrites_held hall (h.resolve_left (by simp [hall])))

/-- A header field that is to be written stands in memory afterwards. -/
theorem State.flush_headerField (ho : s.outcomesOk) (hh : s.heldOk) (m : Memory) {f : HeaderField}
    (h : (f ≠ .voteAction ∧ f ≠ .voteClock ∧ s.writeAll = true) ∨ ((f = .voteAction ∨ f = .voteClock) ∧ s.writeVote = true) ∨
      s.writeAll = false ∧ .header f ∈ s.held) :
    (m.recorder s.flushWrites).holds (s.boardAccess (.header f)).1 (s.boardAccess (.header f)).2 := by
  refine (State.flush_field ho hh m (F := .header f) trivial).resolve_right fun ⟨hw, _⟩ => hw ?_
  rcases h with ⟨h1, h2, hall⟩ | ⟨hf, hv⟩ | ⟨hall, hf⟩
  · have reset : ∀ f : HeaderField, f ≠ .voteAction → f ≠ .voteClock → BoardPiece.header f ∈ resetPieces := by
      intro f h1 h2
      cases f
      case voteAction => exact absurd rfl h1
      case voteClock => exact absurd rfl h2
      all_goals decide
    exact State.mem_flushWrites_reset hall (reset f h1 h2)
  · exact State.mem_flushWrites_vote hv hf
  · exact State.mem_flushWrites_held hall hf

/-- The zero fields stand in memory after a reset. -/
theorem State.flush_zeros (ho : s.outcomesOk) (hall : s.writeAll = true) (m : Memory) :
    (∀ n, (m.recorder s.flushWrites).holds (s.slotAddr n + 270) (zeros 2) ∧
      (m.recorder s.flushWrites).holds (s.slotAddr n + 302) (zeros 18)) ∧
    ∀ z ∈ headerZeros, (m.recorder s.flushWrites).holds (s.boardBase + z.1) (zeros z.2) := by
  refine ⟨fun n => ?_, fun z hz => ?_⟩
  · have hrec := State.flush_record ho hall m n
    have before : (partSizes.take 8).sum = 14 ∧ (partSizes.take 17).sum = 46 := by decide
    have h8 := Engine.holds_part (ho n) hrec (i := 8) rfl
    have h17 := Engine.holds_part (ho n) hrec (i := 17) rfl
    rw [before.1] at h8
    rw [before.2] at h17
    exact ⟨h8, h17⟩
  · have reset : ∀ z ∈ headerZeros, BoardPiece.zeros z ∈ resetPieces ∧ BoardPiece.zeros z ∈ boardPieces := by decide
    obtain ⟨h1, h2⟩ := reset z hz
    exact State.flush_piece ho hall m h2 (State.mem_flushWrites_reset hall h1)

end

/-! ## START (R51, R53, R55) -/

theorem windowsApart_iff (ws : List Window) :
    windowsApart ws = true ↔ ws.Pairwise fun x y => x.hi < y.lo ∨ y.hi < x.lo := by
  induction ws with
  | nil => simp [windowsApart]
  | cons x xs ih => simp [windowsApart, ih]

theorem covers_board (ws : List Window) (base : Nat) :
    covers ws true base 6144 = true ↔ ∃ x ∈ ws, x.writable = true ∧ x.lo ≤ base ∧ base + 6143 ≤ x.hi := by
  rw [covers_iff]
  exact exists_congr fun x => and_congr_right fun _ => and_congr ⟨fun h => h rfl, fun h _ => h⟩
    (and_congr_right fun _ => Nat.succ_le_succ_iff)

section
variable {ws : List Window} {base : Nat}

/-- The window list is bad: a window ends before it starts, or two windows cover a common byte. -/
def badWindows (ws : List Window) : Prop :=
  (∃ x ∈ ws, x.hi < x.lo) ∨ ¬ ws.Pairwise fun x y => x.hi < y.lo ∨ y.hi < x.lo

theorem badWindows_iff : (ws.any (fun x => decide (x.hi < x.lo)) || !windowsApart ws) = true ↔ badWindows ws := by
  rw [Bool.or_eq_true, Bool.not_eq_true', ← Bool.not_eq_true, windowsApart_iff, List.any_eq_true]
  simp only [decide_eq_true_eq, badWindows]

theorem judgeWindows_bad (h : badWindows ws) : judgeWindows ws base = .windowsBad := if_pos (badWindows_iff.2 h)

theorem judgeWindows_good (h : ¬ badWindows ws) :
    judgeWindows ws base = if covers ws true base 6144 then .none else .boardOutside :=
  if_neg fun hb => h (badWindows_iff.1 hb)

end

/-- The state that START leaves before the sweep starts. -/
def State.started (s : State) : State :=
  { s with windows := s.windowList, refusal := .none, part := .running, sweepTimer := some s.sweepInterval, sweepPending := false }

theorem State.startPart_other {s : State} (h : s.part ≠ .stopped) : s.startPart = s := if_neg h

theorem State.startPart_refused {s : State} (h : s.part = .stopped) {r : StartRefusal}
    (hj : judgeWindows s.windowList s.boardBase = r) (hr : r ≠ .none) :
    s.startPart = { s with windows := [], refusal := r } := by
  unfold State.startPart
  rw [if_pos h, hj]
  cases r
  · exact absurd rfl hr
  · rfl
  · rfl

theorem State.startPart_accepted {s : State} (h : s.part = .stopped)
    (hj : judgeWindows s.windowList s.boardBase = .none) : s.startPart = s.started.beginSweep := by
  unfold State.startPart
  rw [if_pos h, hj]
  rfl

/-- A sweep that starts. -/
theorem State.beginSweep_eq (s : State) :
    s.beginSweep =
      { s.recorded s.flushWrites with
        flags := s.heldCauses.foldl (fun l f => raiseFlag f l) s.flags
        held := []
        heldCauses := []
        writeAll := false
        writeVote := false
        sweep := some (.slot 0) } := by
  unfold State.beginSweep
  rw [s.flushHeld_eq]

theorem execStart_of {v : BitVec 32} {w : Writes} (s : State) (hv : controlRequest v = .start) (hw : writesInSpace w = true) :
    exec (.start v w) s = .next ((s.recorded w).loadControl v).startPart :=
  (if_pos hv).trans (withWrites_of hw)

/-- Settles O6: the judgement of the window list, and what the sweep that starts with the part writes. -/
theorem startJudgesWindowList : Obligations.StartJudgesWindowList := by
  intro v w s hv hw
  dsimp only
  rw [execStart_of s hv hw]
  generalize hr : (s.recorded w).loadControl v = r
  have hpart : r.part = s.part := by rw [← hr]; rfl
  have hbase : r.boardBase = s.boardBase := by rw [← hr]; rfl
  refine ⟨fun h => congrArg _ (State.startPart_other (hpart ▸ h)), fun h hbad => congrArg _ ?_, fun h hgood hout => congrArg _ ?_,
    fun h hgood hin => ?_⟩
  · exact State.startPart_refused (hpart ▸ h) (judgeWindows_bad hbad) nofun
  · have hcov : ¬ covers r.windowList true r.boardBase 6144 = true := by
      rw [hbase, covers_board]
      exact hout
    exact State.startPart_refused (hpart ▸ h) ((judgeWindows_good hgood).trans (if_neg hcov)) nofun
  · have hcov : covers r.windowList true r.boardBase 6144 = true := by
      rw [hbase, covers_board]
      exact hin
    refine ⟨_, congrArg _ (State.startPart_accepted (hpart ▸ h) ((judgeWindows_good hgood).trans (if_pos hcov))), ?_⟩
    rw [State.beginSweep_eq]
    subst hr
    refine ⟨rfl, rfl, rfl, rfl, rfl, rfl, rfl, rfl, rfl, rfl, rfl, rfl, rfl, ⟨rfl, rfl, rfl⟩, rfl, rfl, rfl,
      fun f => mem_raises _ _ f, fun hpos => ?_⟩
    generalize hu : ((s.recorded w).loadControl v).started = u
    have ho : u.outcomesOk := hu ▸ hpos.outcomesOk
    have hh : u.heldOk := hu ▸ hpos.heldOk
    have hm : u.mem = s.mem.recorder w := by rw [← hu]; rfl
    have hboard : u.inBoard = s.inBoard := by rw [← hu]; rfl
    have hall : u.writeAll = s.writeAll := by rw [← hu]; rfl
    have hvote : u.writeVote = s.writeVote := by rw [← hu]; rfl
    have hheld : u.held = s.held := by rw [← hu]; rfl
    have haccess : u.boardAccess = s.boardAccess := by rw [← hu]; funext F; cases F <;> rfl
    rw [← hall, ← hvote, ← hheld, ← haccess]
    refine ⟨fun a ha => ?_, fun hall hvote a ha => ?_, fun n f hf h => ?_, fun f h => ?_, fun hall => ?_⟩
    · have hout : ¬ u.inBoard a := by
        rw [hboard]
        exact ha
      exact (State.flush_outside ho hh u.mem hout).trans (congrArg (Memory.get · a) hm)
    · refine (Memory.get_recorder_outside (fun b hb => ?_) u.mem).trans (congrArg (Memory.get · a) hm)
      obtain ⟨F, hF, rfl⟩ := State.flushWrites_fields hall hb
      exact ha _ (List.mem_map_of_mem (hF.resolve_right fun ⟨hv, _⟩ => nomatch hvote.symm.trans hv))
    · have hfield := State.flush_slotField ho hh u.mem hf h
      rw [haccess] at hfield
      exact hfield
    · have hfield := State.flush_headerField ho hh u.mem h
      rw [haccess] at hfield
      exact hfield
    · obtain ⟨hrec, hz⟩ := State.flush_zeros ho hall u.mem
      have haddr : u.slotAddr = s.slotAddr := by rw [← hu]; rfl
      have hbase' : u.boardBase = s.boardBase := by rw [← hu]; rfl
      rw [haddr] at hrec
      rw [hbase'] at hz
      exact ⟨fun n => (hrec n).imp Memory.holds_zeros.1 Memory.holds_zeros.1,
        Memory.holds_zeros.1 (hz (133, 3) (by decide)), Memory.holds_zeros.1 (hz (158, 2) (by decide)),
        Memory.holds_zeros.1 (hz (164, 860) (by decide))⟩

/-! ## Sweep requests (R55, R56) -/

section
variable {s : State}

theorem State.requestSweep_none (h : s.sweep = none) : s.requestSweep = s.beginSweep := by
  unfold State.requestSweep
  rw [h]

theorem State.requestSweep_some (h : s.sweep.isSome = true) : s.requestSweep = { s with sweepPending := true } := by
  obtain ⟨p, hp⟩ := Option.isSome_iff_exists.1 h
  unfold State.requestSweep
  rw [hp]

theorem State.beginSweep_unheld (h1 : s.held = []) (h2 : s.heldCauses = []) (h3 : s.writeAll = false)
    (h4 : s.writeVote = false) : s.beginSweep = { s with sweep := some (.slot 0) } := by
  have hw : s.flushWrites = [] := by
    simp [State.flushWrites, State.heldWrites, State.heldInOrder, h1, h3, h4]
  rw [State.beginSweep_eq, hw, h2]
  cases s
  simp_all [State.recorded, Memory.recorder]

theorem execSweepTimerExpiry_some {k : Nat} (h : s.sweepTimer = some k) :
    exec .sweepTimerExpiry s = .next { s with sweepTimer := some s.sweepInterval }.requestSweep := by
  simp only [exec, execSweepTimerExpiry, h]

theorem execSweepTimerExpiry_none (h : s.sweepTimer = none) : exec .sweepTimerExpiry s = .next s := by
  simp only [exec, execSweepTimerExpiry, h]

end

/-- Settles O8: a request starts a sweep where none is in progress, and waits where one is. -/
theorem sweepRequests : Obligations.SweepRequests := by
  intro v s
  refine ⟨fun h => congrArg _ (if_neg h), fun h hs => congrArg _ ((if_pos h).trans (State.requestSweep_some hs)),
    fun h hs => ⟨s.beginSweep, congrArg Host.Outcome.next ((if_pos h).trans (State.requestSweep_none hs)), ?_⟩,
    fun k hk hs => ?_, fun k hk hs => ?_, fun h => execSweepTimerExpiry_none h⟩
  · have unheld := State.beginSweep_unheld (s := s)
    rw [State.beginSweep_eq] at unheld ⊢
    exact ⟨rfl, rfl, rfl, rfl, rfl, ⟨rfl, rfl, rfl⟩, unheld⟩
  · rw [execSweepTimerExpiry_some hk]
    exact congrArg _ (State.requestSweep_some (s := { s with sweepTimer := _ }) hs)
  · refine ⟨_, (execSweepTimerExpiry_some hk).trans
      (congrArg _ (State.requestSweep_none (s := { s with sweepTimer := some s.sweepInterval }) hs)), ?_⟩
    rw [State.beginSweep_eq]
    exact ⟨rfl, rfl, rfl, rfl, rfl, ⟨rfl, rfl, rfl⟩⟩

end Sys2Proof.Machine
end

