-- ==== Sys2Proof/Proofs/SweepEnd.lean ====
section
/-! Proofs: the end-of-sweep writes: the directory, the header mirrors and the sweep count (R56, R57, R68, R69). -/

namespace Sys2Proof.Machine

/-! ## The directory (R69) -/

/-- A directory entry once its five values have been looked at. -/
def DirEntry.shows (d : DirEntry) (v : DirValues) : DirEntry := if d.shown = some v then d else ⟨some v, d.revision + 1⟩

/-- A directory entry as it is written whole. -/
def State.dirBlock (s : State) (e : Fin 64) : Nat × List Byte :=
  (s.boardBase + 1024 + 16 * e.val, (s.entry e).directoryValues.image (s.directory[e].revision + 1))

/-- The values of the entry are not those last written. -/
def State.dirChanged (s : State) (e : Fin 64) : Bool := s.directory[e].shown != some (s.entry e).directoryValues

@[simp] theorem DirValues.length_image (v : DirValues) (k : BitVec 8) : (v.image k).length = 16 := by simp [DirValues.image]

theorem State.writeDirectory_eq (s : State) (e : Fin 64) :
    s.writeDirectory e =
      { s.recorded (if s.dirChanged e then [s.dirBlock e] else []) with
        directory := s.directory.set e (s.directory[e].shows (s.entry e).directoryValues) } := by
  unfold State.writeDirectory State.dirChanged DirEntry.shows
  dsimp only
  by_cases h : s.directory[e].shown = some (s.entry e).directoryValues
  · rw [if_pos h, if_pos h, if_neg (by simp only [bne_iff_ne]; exact not_not.2 h)]
    simp [State.recorded, Memory.recorder]
  · rw [if_neg h, if_neg h, if_pos (bne_iff_ne.2 h)]
    rfl

theorem State.writeDirectory_entry (s : State) (d e : Fin 64) : (s.writeDirectory d).entry e = s.entry e := by
  rw [State.writeDirectory_eq]
  rfl

/-- The directory looked at in order, each entry once. -/
theorem State.writeDirectories_eq {l : List (Fin 64)} (hl : l.Nodup) (s : State) :
    ∃ d : Vector DirEntry 64,
      l.foldl State.writeDirectory s = { s.recorded ((l.filter s.dirChanged).map s.dirBlock) with directory := d } ∧
      ∀ e, d[e] = if e ∈ l then s.directory[e].shows (s.entry e).directoryValues else s.directory[e] := by
  induction hl generalizing s with
  | nil => exact ⟨s.directory, rfl, fun e => rfl⟩
  | @cons e l he _ ih =>
    obtain ⟨d, hd, hall⟩ := ih (s.writeDirectory e)
    have other : ∀ b ∈ l, (s.writeDirectory e).directory[b] = s.directory[b] := by
      intro b hb
      rw [State.writeDirectory_eq]
      exact Vector.getElem_set_ne e.isLt b.isLt fun h => he b hb (Fin.ext h)
    have changed : ∀ b ∈ l, (s.writeDirectory e).dirChanged b = s.dirChanged b := by
      intro b hb
      unfold State.dirChanged
      rw [other b hb, State.writeDirectory_eq]
      rfl
    have block : ∀ b ∈ l, (s.writeDirectory e).dirBlock b = s.dirBlock b := by
      intro b hb
      unfold State.dirBlock
      rw [other b hb, State.writeDirectory_eq]
      rfl
    refine ⟨d, ?_, fun b => ?_⟩
    · rw [List.foldl_cons, hd, List.filter_congr changed, List.map_congr_left fun b hb => block b (List.mem_of_mem_filter hb),
        State.writeDirectory_eq]
      cases hc : s.dirChanged e with
      | true =>
        rw [List.filter_cons_of_pos hc]
        rfl
      | false =>
        rw [List.filter_cons_of_neg (by simp [hc])]
        rfl
    · rw [hall b, State.writeDirectory_entry]
      by_cases hb : b ∈ l
      · rw [if_pos hb, if_pos (List.mem_cons_of_mem _ hb), other b hb]
      · rw [if_neg hb]
        by_cases hbe : b = e
        · subst hbe
          rw [if_pos List.mem_cons_self, State.writeDirectory_eq]
          exact Vector.getElem_set_self b.isLt
        · rw [if_neg (by simp [hbe, hb]), State.writeDirectory_eq]
          exact Vector.getElem_set_ne e.isLt b.isLt fun h => hbe (Fin.ext h.symm)

/-! ## The end of a sweep (R56, R57, R68) -/

/-- The header mirrors and the sweep count as they are written. -/
def State.mirrorBlocks (s : State) : Writes :=
  [(s.boardBase + 148, le 4 s.clock), (s.boardBase + 152, le 4 s.cell),
    (s.boardBase + 156, le 1 (if s.ready then 1 else 0)), (s.boardBase + 144, le 4 (s.sweepCount + 1).toNat)]

/-- The writes at the end of a sweep. -/
def State.endWrites (s : State) : Writes := (allEntries.filter s.dirChanged).map s.dirBlock ++ s.mirrorBlocks

/-- The state after the writes at the end of a sweep, with the sweep ended. -/
theorem State.ended_eq (s : State) :
    ∃ d : Vector DirEntry 64,
      { (allEntries.foldl State.writeDirectory s).writeMirrors with sweep := none } =
        { s.recorded s.endWrites with directory := d, sweepCount := s.sweepCount + 1, sweep := none } ∧
      ∀ e : Fin 64, d[e] = s.directory[e].shows (s.entry e).directoryValues := by
  obtain ⟨d, hd, hall⟩ := State.writeDirectories_eq allEntries_nodup s
  refine ⟨d, ?_, fun e => (hall e).trans (if_pos (mem_allEntries e))⟩
  rw [hd]
  unfold State.endWrites State.recorded
  rw [Memory.recorder_append]
  rfl

section
variable {s : State}

theorem State.endWrites_cases {b : Nat × List Byte} (hb : b ∈ s.endWrites) :
    (∃ e, s.dirChanged e = true ∧ b = s.dirBlock e) ∨ b ∈ s.mirrorBlocks := by
  refine (List.mem_append.1 hb).imp_left fun hb => ?_
  obtain ⟨e, he, rfl⟩ := List.mem_map.1 hb
  exact ⟨e, (List.mem_filter.1 he).2, rfl⟩

theorem State.dirBlock_mem {e : Fin 64} (h : s.dirChanged e = true) : s.dirBlock e ∈ s.endWrites :=
  List.mem_append_left _ (List.mem_map_of_mem (List.mem_filter.2 ⟨mem_allEntries e, h⟩))

theorem State.dirBlock_apart (d e : Fin 64) : d = e ∨ blocksApart (s.dirBlock d) (s.dirBlock e) := by
  unfold blocksApart State.dirBlock
  rw [Fin.ext_iff]
  simp only [DirValues.length_image]
  omega

theorem State.mirror_range {b : Nat × List Byte} (hb : b ∈ s.mirrorBlocks) :
    s.boardBase + 144 ≤ b.1 ∧ b.1 + b.2.length ≤ s.boardBase + 157 := by
  simp only [State.mirrorBlocks, List.mem_cons, List.not_mem_nil, or_false] at hb
  rcases hb with rfl | rfl | rfl | rfl <;> simp

/-- The directory and the mirrors have no byte in common. -/
theorem State.dirBlock_mirror_apart (e : Fin 64) {b : Nat × List Byte} (hb : b ∈ s.mirrorBlocks) :
    blocksApart b (s.dirBlock e) := by
  have := State.mirror_range hb
  refine .inl ?_
  simp only [State.dirBlock]
  omega

theorem State.mirrors_apart {b c : Nat × List Byte} (hb : b ∈ s.mirrorBlocks) (hc : c ∈ s.mirrorBlocks) :
    b = c ∨ blocksApart b c := by
  have apart : s.mirrorBlocks.Pairwise blocksApart := by
    simp only [State.mirrorBlocks, blocksApart, List.pairwise_cons, List.mem_cons, List.not_mem_nil, or_false]
    simp
  refine Classical.or_iff_not_imp_left.2 fun hne => ?_
  have : Std.Symm blocksApart := ⟨fun _ _ => blocksApart.symm⟩
  exact apart.forall hb hc hne

/-- A directory entry of which a value has changed stands in memory; any other is left as memory had it. -/
theorem State.endWrites_directory (m : Memory) (e : Fin 64) :
    (s.dirChanged e = true → (m.recorder s.endWrites).holds (s.dirBlock e).1 (s.dirBlock e).2) ∧
    (s.dirChanged e = false → (m.recorder s.endWrites).read (s.dirBlock e).1 16 = m.read (s.dirBlock e).1 16) := by
  have blocks : ∀ b ∈ s.endWrites, (∃ d, s.dirChanged d = true ∧ d = e) ∧ b = s.dirBlock e ∨ blocksApart b (s.dirBlock e) := by
    intro b hb
    rcases State.endWrites_cases hb with ⟨d, hd, rfl⟩ | hb
    · refine (s.dirBlock_apart d e).imp_left fun h => ⟨⟨d, hd, h⟩, by rw [h]⟩
    · exact .inr (State.dirBlock_mirror_apart e hb)
  refine ⟨fun h => Memory.holds_recorder (fun b hb => (blocks b hb).imp_left And.right) (.inl (State.dirBlock_mem h)),
    fun h => ?_⟩
  have := Memory.read_recorder_apart (m := m) (c := s.dirBlock e) fun b hb => (blocks b hb).resolve_left ?_
  · rwa [State.dirBlock, DirValues.length_image] at this
  · rintro ⟨⟨d, hd, rfl⟩, -⟩
    exact nomatch hd.symm.trans h

theorem State.endWrites_mirrors (m : Memory) {c : Nat × List Byte} (hc : c ∈ s.mirrorBlocks) :
    (m.recorder s.endWrites).holds c.1 c.2 := by
  refine Memory.holds_recorder (fun b hb => ?_) (.inl (List.mem_append_right _ hc))
  rcases State.endWrites_cases hb with ⟨d, -, rfl⟩ | hb
  · exact .inr (State.dirBlock_mirror_apart d hc).symm
  · exact State.mirrors_apart hb hc

theorem State.endWrites_header (m : Memory) :
    let m' := m.recorder s.endWrites
    m'.read (s.boardBase + 144) 4 = le 4 (s.sweepCount + 1).toNat ∧ m'.read (s.boardBase + 148) 4 = le 4 s.clock ∧
      m'.read (s.boardBase + 152) 4 = le 4 s.cell ∧ m'.read (s.boardBase + 156) 1 = [if s.ready then 1 else 0] := by
  have hm : ∀ c ∈ s.mirrorBlocks, (m.recorder s.endWrites).holds c.1 c.2 := fun c => State.endWrites_mirrors m
  simp only [State.mirrorBlocks, List.forall_mem_cons, Memory.holds_le] at hm
  obtain ⟨hclock, hcell, hready, hcount, -⟩ := hm
  refine ⟨hcount, hclock, hcell, hready.trans ?_⟩
  cases s.ready <;> rfl

theorem State.endWrites_inHeader {a : Nat} (ha : ¬ s.inHeader a) : ∀ b ∈ s.endWrites, a < b.1 ∨ b.1 + b.2.length ≤ a := by
  intro b hb
  unfold State.inHeader at ha
  rcases State.endWrites_cases hb with ⟨d, -, rfl⟩ | hb
  · have := d.isLt
    simp only [State.dirBlock, DirValues.length_image]
    omega
  · have := State.mirror_range hb
    omega

/-- The fields of a directory entry that stands in memory. -/
theorem DirValues.holds_image {m : Memory} {a : Nat} {v : DirValues} {k : BitVec 8} (h : m.holds a (v.image k)) :
    m.read a 1 = le 1 v.state.code ∧ m.read (a + 1) 1 = le 1 (v.views.getD 255) ∧ m.read (a + 2) 2 = le 2 v.generation ∧
      m.read (a + 4) 4 = le 4 v.chunkCount ∧ m.read (a + 8) 4 = le 4 (v.lapseTime.getD top32) ∧
      m.read (a + 12) 1 = le 1 k.toNat ∧ m.read (a + 13) 3 = zeros 3 := by
  simpa only [DirValues.image, Memory.holds_append, List.length_append, length_le, Nat.add_assoc, and_assoc, Nat.reduceAdd,
    Memory.holds_le, Memory.holds_zeros] using h

end

/-- The end-of-sweep writes once no part order is to be taken. -/
theorem execEndOfSweepWrites_of {s : State} {w : Writes} (hw : writesInSpace w = true)
    (h : s.sweep = some .ending ∨ (s.sweep = some .part ∧ (s.recorded w).partOrderNumber = s.partLatch)) :
    exec (.endOfSweepWrites w) s = .next (s.recorded w).endSweep :=
  (withWrites_of hw).trans (congrArg _ (if_pos h))

/-- What the end of a sweep leaves, whether or not the next one starts at once. -/
theorem State.endSweep_cases (s : State) :
    ∃ d : Vector DirEntry 64,
      (∀ e : Fin 64, d[e] = s.directory[e].shows (s.entry e).directoryValues) ∧
      let ended : State := { s.recorded s.endWrites with directory := d, sweepCount := s.sweepCount + 1, sweep := none }
      (s.sweepPending = false → s.endSweep = ended) ∧
      (s.sweepPending = true → s.endSweep = { ended with sweepPending := false }.beginSweep) := by
  obtain ⟨d, hd, hall⟩ := s.ended_eq
  refine ⟨d, hall, ?_⟩
  dsimp only
  unfold State.endSweep
  rw [hd]
  exact ⟨fun h => if_neg (by simp [State.recorded, h]), fun h => if_pos h⟩

theorem DirEntry.shows_shown (d : DirEntry) (v : DirValues) : (d.shows v).shown = some v := by
  unfold DirEntry.shows
  split
  · assumption
  · rfl

theorem DirEntry.shows_revision (d : DirEntry) (v : DirValues) :
    (d.shows v).revision = if d.shown = some v then d.revision else d.revision + 1 := by
  unfold DirEntry.shows
  split <;> rfl

/-- Settles O13: the directory and the mirrors as one list of writes, and the sweep that ends or starts anew. -/
theorem endOfSweepWrites : Obligations.EndOfSweepWrites := by
  intro s w hw
  dsimp only
  intro h
  rw [execEndOfSweepWrites_of hw h]
  obtain ⟨d, hall, hend, hnext⟩ := (s.recorded w).endSweep_cases
  have dir : ∀ e : Fin 64, d[e].shown = some (s.entry e).directoryValues ∧ d[e].revision =
      if s.directory[e].shown = some (s.entry e).directoryValues then s.directory[e].revision
      else s.directory[e].revision + 1 := fun e => by
    rw [hall e]
    exact ⟨DirEntry.shows_shown .., DirEntry.shows_revision ..⟩
  cases hp : s.sweepPending with
  | true =>
    refine ⟨_, rfl, ?_⟩
    rw [hnext hp, State.beginSweep_eq]
    exact ⟨rfl, rfl, rfl, dir, rfl, rfl, ⟨rfl, rfl, rfl⟩, rfl, rfl, nofun⟩
  | false =>
    refine ⟨_, rfl, ?_⟩
    rw [hend hp]
    obtain ⟨hcount, hclock, hcell, hready⟩ := State.endWrites_header (s := s.recorded w) (s.recorded w).mem
    refine ⟨rfl, rfl, hp, dir, rfl, rfl, ⟨rfl, rfl, rfl⟩, rfl, rfl, fun _ => ⟨rfl, hcount, hclock, hcell, hready,
      fun e => ?_, fun a ha => Memory.get_recorder_outside (State.endWrites_inHeader ha) _⟩⟩
    obtain ⟨hwrites, hleaves⟩ := State.endWrites_directory (s := s.recorded w) (s.recorded w).mem e
    refine ⟨fun hsame => hleaves (bne_eq_false_iff_eq.2 hsame), fun hne => ?_⟩
    obtain ⟨hstate, hviews, hgen, hcount, hlapse, hrev, hzero⟩ := DirValues.holds_image (hwrites (bne_iff_ne.2 hne))
    refine ⟨hstate, hviews.trans ?_, hgen, hcount, hlapse.trans ?_, hrev.trans ?_, hzero⟩
    · show le 1 ((s.entry e).views.getD 255) = _
      cases (s.entry e).views <;> rfl
    · show le 4 ((s.entry e).lapseTime.getD top32) = _
      cases (s.entry e).lapseTime <;> rfl
    · exact congrArg (fun b => [b]) (BitVec.ofNat_toNat ..)

end Sys2Proof.Machine
end

