-- ==== Sys2Proof/Proofs/Marks.lean ====
section
/-! Proofs: the limits of the engine marks (R63, log 42), and that an advance keeps them. -/

namespace Sys2Proof.Machine

/-! ## Differences of marks -/

section
variable {m v : Mark} {k b : Nat}

/-- A put mark that advances by no more than the room left stays within it. -/
theorem ahead_add_le (h : ahead m v + k ≤ b) : ahead (m + BitVec.ofNat 32 k) v ≤ b := by
  unfold ahead at *
  have hle : (m + BitVec.ofNat 32 k - v).toNat ≤ (m - v).toNat + k := by
    rw [show m + BitVec.ofNat 32 k - v = (m - v) + BitVec.ofNat 32 k by ring, BitVec.toNat_add, BitVec.toNat_ofNat]
    exact (Nat.mod_le _ _).trans (Nat.add_le_add_left (Nat.mod_le _ _) _)
  omega

/-- A take mark that advances by no more than what is available stays at or behind the fill mark. -/
theorem ahead_sub_lt (h : ahead v m < b) (hk : k ≤ ahead v m) : ahead v (m + BitVec.ofNat 32 k) < b := by
  unfold ahead at *
  have hsub : (v - (m + BitVec.ofNat 32 k)).toNat = (v - m).toNat - k := by
    have hlt := (v - m).isLt
    rw [show v - (m + BitVec.ofNat 32 k) = (v - m) - BitVec.ofNat 32 k by ring,
      BitVec.toNat_sub_of_le (by rw [BitVec.le_def, BitVec.toNat_ofNat, Nat.mod_eq_of_lt (by omega)]; exact hk),
      BitVec.toNat_ofNat, Nat.mod_eq_of_lt (by omega)]
  omega

theorem ahead_add_room (hpos : 0 < k) (h : k ≤ b - ahead m v) : ahead (m + BitVec.ofNat 32 k) v ≤ b :=
  ahead_add_le (by omega)

theorem amount_of_lt (h : ahead v m < 2 ^ 31) : amount v m = ahead v m :=
  if_neg (by simpa [backward] using h)

theorem amount_pos (h : 0 < amount v m) : ahead v m < 2 ^ 31 ∧ amount v m = ahead v m := by
  by_cases hb : ahead v m < 2 ^ 31
  · exact ⟨hb, amount_of_lt hb⟩
  · have hzero : amount v m = 0 := if_pos (by simpa [backward] using hb)
    omega

end

/-! ## The limits (R63) -/

/-- T is at or behind the fill mark of the view, Pp no further than the packet window size ahead of Tp. -/
def Slot.limitA (x : Slot) : Prop :=
  match x.mode with
  | .record => ahead x.viewA x.eng.markA < 2 ^ 31
  | .play => ahead x.eng.markA x.viewA ≤ x.geo.streamSize
  | _ => True

/-- P is no further than the frame count ahead of D, Tc at or behind Fc. -/
def Slot.limitB (x : Slot) : Prop :=
  match x.mode with
  | .record => ahead x.eng.markB x.viewB ≤ x.geo.frames
  | .off => True
  | _ => ahead x.viewB x.eng.markB < 2 ^ 31

/-- Po is no further than the frame count of the output window ahead of Do. -/
def Slot.limitC (x : Slot) : Prop :=
  match x.mode with
  | .move => ahead x.eng.markC x.viewC ≤ x.geo.outFrames
  | _ => True

/-- What the limits read of a slot. -/
def Slot.marking (x : Slot) : Mode × Geometry × (Mark × Mark × Mark) × Mark × Mark × Mark :=
  (x.mode, x.geo, (x.viewA, x.viewB, x.viewC), x.eng.markA, x.eng.markB, x.eng.markC)

/-- A mark that a change of the slot moves stands within its limit, and one that stood there still does. -/
structure Slot.MarkMoves (mark : Slot → Mark) (limit : Slot → Prop) (x y : Slot) : Prop where
  keeps : limit x → limit y
  moved : mark y ≠ mark x → limit y

/-- Every mark that a change of the slot moves stands within its limit. -/
structure Slot.Marked (x y : Slot) : Prop where
  markA : Slot.MarkMoves (·.eng.markA) Slot.limitA x y
  markB : Slot.MarkMoves (·.eng.markB) Slot.limitB x y
  markC : Slot.MarkMoves (·.eng.markC) Slot.limitC x y

section
variable {x y z : Slot}

theorem Slot.MarkMoves.trans {mark : Slot → Mark} {limit : Slot → Prop} (h : Slot.MarkMoves mark limit x y)
    (h' : Slot.MarkMoves mark limit y z) : Slot.MarkMoves mark limit x z where
  keeps := h'.keeps ∘ h.keeps
  moved hne := by
    by_cases hy : mark y = mark x
    · exact h'.moved (hy ▸ hne)
    · exact h'.keeps (h.moved hy)

theorem Slot.MarkMoves.of_limit {mark : Slot → Mark} {limit : Slot → Prop} (h : limit y) : Slot.MarkMoves mark limit x y :=
  ⟨fun _ => h, fun _ => h⟩

theorem Slot.Marked.trans (h : x.Marked y) (h' : y.Marked z) : x.Marked z :=
  ⟨h.markA.trans h'.markA, h.markB.trans h'.markB, h.markC.trans h'.markC⟩

theorem Slot.marking_fields (h : y.marking = x.marking) :
    (y.eng.markA = x.eng.markA ∧ y.eng.markB = x.eng.markB ∧ y.eng.markC = x.eng.markC) ∧
      (y.limitA = x.limitA ∧ y.limitB = x.limitB ∧ y.limitC = x.limitC) := by
  simp only [Slot.marking, Prod.mk.injEq] at h
  obtain ⟨hm, hg, ⟨hA, hB, hC⟩, ha, hb, hc⟩ := h
  simp only [Slot.limitA, Slot.limitB, Slot.limitC, hm, hg, hA, hB, hC, ha, hb, hc, and_self]

/-- A change that the limits do not see. -/
theorem Slot.Marked.of_marking (h : y.marking = x.marking) : x.Marked y := by
  obtain ⟨⟨ha, hb, hc⟩, hA, hB, hC⟩ := Slot.marking_fields h
  exact ⟨⟨fun h => hA ▸ h, fun hne => absurd ha hne⟩, ⟨fun h => hB ▸ h, fun hne => absurd hb hne⟩,
    ⟨fun h => hC ▸ h, fun hne => absurd hc hne⟩⟩

theorem Slot.Marked.refl (x : Slot) : x.Marked x := .of_marking rfl

/-- A slot without a mode has no limits. -/
theorem Slot.Marked.of_off (h : y.mode = .off) : x.Marked y := by
  refine ⟨.of_limit ?_, .of_limit ?_, .of_limit ?_⟩ <;> simp [Slot.limitA, Slot.limitB, Slot.limitC, h]

/-! ## Advances (R63, log 42) -/

/-- The advance of T or Pp stays within its limit. -/
theorem Slot.Marked.advanceA (x : Slot) (k : Nat) : x.Marked (x.advanceA k) := by
  generalize hmade : min (x.owedA + k) x.reachA = made
  have hadv : x.advanceA k =
      { x with owedA := x.owedA + k - made, eng := { x.eng with markA := x.eng.markA + BitVec.ofNat 32 made } } := by
    rw [← hmade]
    rfl
  have hreach : made ≤ x.reachA := hmade ▸ Nat.min_le_right ..
  rw [hadv]
  rcases Nat.eq_zero_or_pos made with rfl | hpos
  · exact .of_marking (by simp [Slot.marking])
  · refine ⟨.of_limit ?_, ⟨id, fun hne => absurd rfl hne⟩, ⟨id, fun hne => absurd rfl hne⟩⟩
    unfold Slot.limitA
    unfold Slot.reachA at hreach
    cases hm : x.mode with
    | record =>
      rw [if_neg (by simp [hm])] at hreach
      obtain ⟨hlt, hamount⟩ := amount_pos (hpos.trans_le hreach)
      exact ahead_sub_lt hlt (hamount ▸ hreach)
    | play =>
      rw [if_pos hm] at hreach
      exact ahead_add_room hpos hreach
    | off => trivial
    | check => trivial
    | move => trivial

/-- The advance of P or Tc stays within its limit. -/
theorem Slot.Marked.advanceB (x : Slot) (k : Nat) : x.Marked (x.advanceB k) := by
  generalize hmade : min (x.owedB + k) x.reachB = made
  have hadv : x.advanceB k =
      { x with owedB := x.owedB + k - made, eng := { x.eng with markB := x.eng.markB + BitVec.ofNat 32 made } } := by
    rw [← hmade]
    rfl
  have hreach : made ≤ x.reachB := hmade ▸ Nat.min_le_right ..
  rw [hadv]
  rcases Nat.eq_zero_or_pos made with rfl | hpos
  · exact .of_marking (by simp [Slot.marking])
  · refine ⟨⟨id, fun hne => absurd rfl hne⟩, .of_limit ?_, ⟨id, fun hne => absurd rfl hne⟩⟩
    have taken (hm : x.mode ≠ .record) : ahead x.viewB (x.eng.markB + BitVec.ofNat 32 made) < 2 ^ 31 := by
      unfold Slot.reachB at hreach
      rw [if_neg hm] at hreach
      obtain ⟨hlt, hamount⟩ := amount_pos (hpos.trans_le hreach)
      exact ahead_sub_lt hlt (hamount ▸ hreach)
    unfold Slot.limitB
    cases hm : x.mode with
    | record =>
      unfold Slot.reachB at hreach
      rw [if_pos hm] at hreach
      exact ahead_add_room hpos hreach
    | off => trivial
    | play => exact taken (by simp [hm])
    | check => exact taken (by simp [hm])
    | move => exact taken (by simp [hm])

/-- The advance of Po stays within its limit. -/
theorem Slot.Marked.advanceC (x : Slot) (k : Nat) : x.Marked (x.advanceC k) := by
  generalize hmade : min (x.owedC + k) x.reachC = made
  have hadv : x.advanceC k =
      { x with owedC := x.owedC + k - made, eng := { x.eng with markC := x.eng.markC + BitVec.ofNat 32 made } } := by
    rw [← hmade]
    rfl
  have hreach : made ≤ x.reachC := hmade ▸ Nat.min_le_right ..
  rw [hadv]
  rcases Nat.eq_zero_or_pos made with rfl | hpos
  · exact .of_marking (by simp [Slot.marking])
  · refine ⟨⟨id, fun hne => absurd rfl hne⟩, ⟨id, fun hne => absurd rfl hne⟩, .of_limit ?_⟩
    unfold Slot.limitC
    unfold Slot.reachC at hreach
    cases hm : x.mode with
    | move => exact ahead_add_room hpos hreach
    | off => trivial
    | record => trivial
    | play => trivial
    | check => trivial

theorem Slot.Marked.caughtUp (x : Slot) : x.Marked x.caughtUp :=
  ((advanceA x 0).trans (advanceB _ 0)).trans (advanceC _ 0)

/-! ## Advances made whole, and what is held back (log 42) -/

theorem Slot.advanceA_whole {k : Nat} (ho : x.owedA = 0) (hk : k ≤ x.reachA) :
    x.advanceA k = { x with eng := { x.eng with markA := x.eng.markA + BitVec.ofNat 32 k } } := by
  have hmade : min (x.owedA + k) x.reachA = k := by omega
  unfold Slot.advanceA
  dsimp only
  rw [hmade, Nat.add_sub_cancel]

theorem Slot.advanceB_whole {k : Nat} (ho : x.owedB = 0) (hk : k ≤ x.reachB) :
    x.advanceB k = { x with eng := { x.eng with markB := x.eng.markB + BitVec.ofNat 32 k } } := by
  have hmade : min (x.owedB + k) x.reachB = k := by omega
  unfold Slot.advanceB
  dsimp only
  rw [hmade, Nat.add_sub_cancel]

theorem Slot.advanceC_whole {k : Nat} (ho : x.owedC = 0) (hk : k ≤ x.reachC) :
    x.advanceC k = { x with eng := { x.eng with markC := x.eng.markC + BitVec.ofNat 32 k } } := by
  have hmade : min (x.owedC + k) x.reachC = k := by omega
  unfold Slot.advanceC
  dsimp only
  rw [hmade, Nat.add_sub_cancel]

/-- The part of an advance that is made and the part held back make the whole. -/
theorem made_add_owed (m : Mark) {owed k made : Nat} (h : made ≤ owed + k) :
    m + BitVec.ofNat 32 made + BitVec.ofNat 32 (owed + k - made) = m + BitVec.ofNat 32 owed + BitVec.ofNat 32 k := by
  have hsum := congrArg (BitVec.ofNat 32) (show made + (owed + k - made) = owed + k by omega)
  rw [BitVec.ofNat_add, BitVec.ofNat_add (x := owed)] at hsum
  rw [BitVec.add_assoc, hsum, BitVec.add_assoc]

theorem Slot.advanceA_placeA (x : Slot) (k : Nat) : (x.advanceA k).placeA = x.placeA + BitVec.ofNat 32 k :=
  made_add_owed _ (Nat.min_le_left ..)

theorem Slot.advanceB_placeB (x : Slot) (k : Nat) : (x.advanceB k).placeB = x.placeB + BitVec.ofNat 32 k :=
  made_add_owed _ (Nat.min_le_left ..)

theorem Slot.advanceC_placeC (x : Slot) (k : Nat) : (x.advanceC k).placeC = x.placeC + BitVec.ofNat 32 k :=
  made_add_owed _ (Nat.min_le_left ..)

end

end Sys2Proof.Machine
end

