-- ==== Sys2Proof/Proofs/Course.lean ====
section
/-! Proofs: the course of a command. What every operation on slots, entries and the board keeps together: engine marks
within their limits, outcome lists and positions, writes confined to the board and the held windows, and each field of the
board either written with its value or left as it was (R48, R54, R63, R64). -/

namespace Sys2Proof.Machine

/-! ## Positions of a slot -/

/-- The slot stands at a position of a chunk window of 1 to 16 frames. -/
def Slot.inUse (x : Slot) : Prop := 1 ≤ x.geo.frames ∧ x.geo.frames ≤ 16 ∧ x.chunkPos < x.geo.frames

/-- The slot is IDLE or FAULTED, with neither frame nor chunk. -/
def Slot.atRest (x : Slot) : Prop := (x.eng.state = .idle ∨ x.eng.state = .faulted) ∧ x.frame = none ∧ x.chunk = none

/-- What the position invariant says of one slot. -/
structure Slot.Placed (x : Slot) : Prop where
  outcomes : x.eng.outcomes.length = 16
  position : x.atRest ∨ x.inUse
  frame : ∀ f, x.frame = some f → f.pos < 16

theorem State.positionsOk_iff (s : State) : s.positionsOk ↔ (∀ n, (s.slot n).Placed) ∧ s.heldOk := by
  constructor
  · intro h
    have hheld := h.heldOk
    obtain ⟨ho, hp, hf, -⟩ := h
    exact ⟨fun n => ⟨ho n, hp n, hf n⟩, hheld⟩
  · rintro ⟨h, hheld⟩
    exact ⟨fun n => (h n).outcomes, fun n => (h n).position, fun n => (h n).frame, fun n p hp => hheld _ hp p rfl⟩

namespace Slot.Placed

variable {x y : Slot}

theorem of_state (h : x.Placed) (h1 : x.eng.state ≠ .idle) (h2 : x.eng.state ≠ .faulted) : x.inUse :=
  h.position.resolve_left fun ⟨hs, _⟩ => hs.elim h1 h2

theorem of_frame {f : Frame} (h : x.Placed) (hf : x.frame = some f) : x.inUse :=
  h.position.resolve_left fun ⟨_, hn, _⟩ => nomatch hn.symm.trans hf

theorem of_chunk {c : OpenChunk} (h : x.Placed) (hc : x.chunk = some c) : x.inUse :=
  h.position.resolve_left fun ⟨_, _, hn⟩ => nomatch hn.symm.trans hc

theorem of_bound {e : Fin 64} (h : x.Placed) (he : x.boundEntry = some e) : x.inUse := by
  unfold Slot.boundEntry at he
  split at he
  · cases he
  next hs => exact h.of_state (fun h => hs (.inl h)) fun h => hs (.inr h)

/-- A slot in use, whatever its state, frame and chunk. -/
theorem used (ho : y.eng.outcomes.length = 16) (hu : y.inUse) (hf : ∀ f, y.frame = some f → f.pos < 16) : y.Placed :=
  ⟨ho, .inr hu, hf⟩

end Slot.Placed

/-- A change of the slot that neither its limits nor its positions see. -/
structure Slot.Alike (x y : Slot) : Prop where
  eng : y.eng = x.eng
  marking : y.marking = x.marking
  frame : y.frame = x.frame
  chunk : y.chunk = x.chunk
  chunkPos : y.chunkPos = x.chunkPos

theorem Slot.geo_of_marking {x y : Slot} (h : y.marking = x.marking) : y.geo = x.geo := congrArg (·.2.1) h

theorem Slot.inUse_congr {x y : Slot} (hg : y.geo = x.geo) (hp : y.chunkPos = x.chunkPos) : y.inUse ↔ x.inUse := by
  simp [Slot.inUse, hg, hp]

theorem Slot.Alike.placed {x y : Slot} (h : x.Alike y) (hx : x.Placed) : y.Placed := by
  refine ⟨h.eng ▸ hx.outcomes, hx.position.imp (fun hr => ?_) fun hu => ?_, fun f hf => hx.frame f (h.frame ▸ hf)⟩
  · unfold Slot.atRest
    rw [h.eng, h.frame, h.chunk]
    exact hr
  · exact (Slot.inUse_congr (Slot.geo_of_marking h.marking) h.chunkPos).2 hu

/-! ## Fields of the board -/

/-- Memory holds a field of the board as it stands. -/
def State.shows (s : State) (F : BoardField) : Prop := s.mem.holds (s.boardAccess F).1 (s.boardAccess F).2

/-- Field and memory are as they were. -/
def State.leaves (s t : State) (F : BoardField) : Prop :=
  t.boardAccess F = s.boardAccess F ∧
    t.mem.read (s.boardAccess F).1 (s.boardAccess F).2.length = s.mem.read (s.boardAccess F).1 (s.boardAccess F).2.length

theorem State.leaves.trans {s t u : State} {F : BoardField} (h : s.leaves t F) (h' : t.leaves u F) : s.leaves u F := by
  obtain ⟨ha, hm⟩ := h
  obtain ⟨ha', hm'⟩ := h'
  rw [ha] at ha' hm'
  exact ⟨ha', hm'.trans hm⟩

theorem State.leaves.shows {s t : State} {F : BoardField} (h : s.leaves t F) (hs : s.shows F) : t.shows F := by
  obtain ⟨ha, hm⟩ := h
  unfold State.shows Memory.holds at hs ⊢
  rw [ha, hm, hs]

/-- Fields written with their values: each of them is shown, and what stands apart is left. -/
theorem State.shown_fields {v w : State} {Fs : List BoardField} (hFs : ∀ G ∈ Fs, G.placed)
    (hmem : w.mem = v.mem.recorder (Fs.map v.boardAccess)) (haccess : w.boardAccess = v.boardAccess) {F : BoardField}
    (hF : F.placed) :
    w.shows F ∨ F ∉ Fs ∧
      w.mem.read (v.boardAccess F).1 (v.boardAccess F).2.length = v.mem.read (v.boardAccess F).1 (v.boardAccess F).2.length := by
  have blocks : ∀ b ∈ Fs.map v.boardAccess, (b = v.boardAccess F ∧ F ∈ Fs) ∨ blocksApart b (v.boardAccess F) := by
    intro b hb
    obtain ⟨G, hG, rfl⟩ := List.mem_map.1 hb
    exact (State.boardAccess_apart v v rfl (hFs G hG) hF).imp_left fun (heq : G = F) => ⟨heq ▸ rfl, heq ▸ hG⟩
  by_cases hin : F ∈ Fs
  · refine .inl ?_
    unfold State.shows
    rw [haccess, hmem]
    exact Memory.holds_recorder (fun b hb => (blocks b hb).imp_left And.left) (.inl (List.mem_map_of_mem hin))
  · refine .inr ⟨hin, ?_⟩
    rw [hmem]
    exact Memory.read_recorder_apart fun b hb => (blocks b hb).resolve_left fun ⟨_, hf⟩ => hin hf

/-! ## The batch in flight -/

/-- The batch in flight writes no byte of the board's engine parts, whatever it reads. -/
def State.workApart (s : State) : Prop :=
  ∀ f m a, s.flight = some f → s.inBoard a → outsideBlocks a (({ s with mem := m } : State).workAccesses f.work)

theorem State.workAccesses_congr {s t : State} (hw : t.windows = s.windows) (hm : t.mem = s.mem) (work : Work) :
    t.workAccesses work = s.workAccesses work := by
  cases work <;> simp only [State.workAccesses, State.readRange, hw, hm]

theorem State.flightAccesses_work (s : State) (work : Work) :
    s.workAccesses work = s.flightAccesses work ∨ s.workAccesses work = [] := by
  cases work with
  | saveEntries => exact .inr rfl
  | saveHeader => exact .inr rfl
  | _ => exact .inl rfl

/-! ## The course of a command -/

/-- What an operation keeps, from state `s` to state `t`. -/
structure State.Course (s t : State) : Prop where
  part : t.part = s.part
  base : t.boardBase = s.boardBase
  windows : t.windows = s.windows
  flight : ∀ f, t.flight = some f → ∃ g, s.flight = some g ∧ g.work = f.work
  marks : ∀ n, (s.slot n).Marked (t.slot n)
  positions : s.positionsOk → t.positionsOk
  memory : s.positionsOk → ∀ a, ¬ s.mayWrite a → t.mem.get a = s.mem.get a
  fields : s.positionsOk → s.part ≠ .stopped → s.workApart → ∀ F : BoardField, F.placed → t.shows F ∨ s.leaves t F

theorem State.inBoard_congr {s t : State} (h : t.boardBase = s.boardBase) : t.inBoard = s.inBoard := by
  unfold State.inBoard State.inRecord State.inHeader State.slotAddr
  rw [h]

theorem State.mayWrite_congr {s t : State} (hb : t.boardBase = s.boardBase) (hw : t.windows = s.windows) :
    t.mayWrite = s.mayWrite := by
  unfold State.mayWrite State.inRecord State.inHeader State.slotAddr
  rw [hb, hw]

theorem State.inBoard_mayWrite {s : State} {a : Nat} (h : s.inBoard a) : s.mayWrite a := h.imp_right .inl

namespace State.Course

variable {s t u : State}

theorem refl (s : State) : s.Course s where
  part := rfl
  base := rfl
  windows := rfl
  flight f hf := ⟨f, hf, rfl⟩
  marks _ := .refl _
  positions := id
  memory _ _ _ := rfl
  fields _ _ _ _ _ := .inr ⟨rfl, rfl⟩

theorem workApart (h : s.Course t) (ha : s.workApart) : t.workApart := by
  intro f m a hf hb
  obtain ⟨g, hg, hwork⟩ := h.flight f hf
  have := ha g m a hg (State.inBoard_congr h.base ▸ hb)
  rwa [State.workAccesses_congr (s := { s with mem := m }) (t := { t with mem := m }) h.windows rfl, ← hwork]

theorem trans (h : s.Course t) (h' : t.Course u) : s.Course u where
  part := h'.part.trans h.part
  base := h'.base.trans h.base
  windows := h'.windows.trans h.windows
  flight f hf := by
    obtain ⟨g, hg, hgf⟩ := h'.flight f hf
    obtain ⟨k, hk, hkg⟩ := h.flight g hg
    exact ⟨k, hk, hkg.trans hgf⟩
  marks n := (h.marks n).trans (h'.marks n)
  positions hs := h'.positions (h.positions hs)
  memory hs a ha := by
    have ha' : ¬ t.mayWrite a := by rwa [State.mayWrite_congr h.base h.windows]
    exact (h'.memory (h.positions hs) a ha').trans (h.memory hs a ha)
  fields hs hr hw F hF := by
    have hr' : t.part ≠ .stopped := by rwa [h.part]
    rcases h'.fields (h.positions hs) hr' (h.workApart hw) F hF with hu | hu
    · exact .inl hu
    · exact (h.fields hs hr hw F hF).imp hu.shows (State.leaves.trans · hu)

/-- What leaves the board, the slots and memory alone. -/
theorem of_same (h : s.Course t) (hslots : u.slots = t.slots) (hheader : u.header = t.header)
    (hheld : ∀ F ∈ u.held, F ∈ t.held)
    (hmem : u.mem = t.mem) (hpart : u.part = t.part) (hlow : u.baseLow = t.baseLow) (hhigh : u.baseHigh = t.baseHigh)
    (hwin : u.windows = t.windows) (hflight : ∀ f, u.flight = some f → ∃ g, t.flight = some g ∧ g.work = f.work) :
    s.Course u := by
  have hbase : u.boardBase = t.boardBase := by simp [State.boardBase, hlow, hhigh]
  have hslot (n : Fin 8) : u.slot n = t.slot n := by simp [State.slot, hslots]
  have haccess (F : BoardField) : u.boardAccess F = t.boardAccess F := by
    cases F <;> simp [State.boardAccess, State.slotAddr, hbase, hslot, hheader]
  refine h.trans ⟨hpart, hbase, hwin, hflight, fun n => hslot n ▸ .refl _, fun ht => ?_, fun _ a _ => by rw [hmem],
    fun _ _ _ F _ => .inr ⟨haccess F, by rw [hmem]⟩⟩
  rw [State.positionsOk_iff] at ht ⊢
  exact ⟨fun n => hslot n ▸ ht.1 n, fun F hF => ht.2 F (hheld F hF)⟩

theorem ite {c : Prop} [Decidable c] (h : s.Course t) (h' : s.Course u) : s.Course (if c then t else u) := by
  split
  · exact h
  · exact h'

theorem foldl {α : Type} {op : State → α → State} (hop : ∀ {t} a, s.Course t → s.Course (op t a)) (l : List α)
    (h : s.Course t) : s.Course (l.foldl op t) := by
  induction l generalizing t with
  | nil => exact h
  | cons a l ih => exact ih (hop a h)

/-! ## Slots and their fields -/

/-- The held fields after fields of a slot have been shown. -/
theorem mem_showSlot_held {n : Fin 8} {fs : List SlotField} {F : BoardField} (h : F ∈ (t.showSlot n fs).held) :
    F ∈ t.held ∨ ∃ f ∈ fs, F = .slot n f := by
  unfold State.showSlot at h
  induction fs generalizing t with
  | nil => exact .inl h
  | cons f fs ih =>
    rw [List.foldl_cons] at h
    rcases ih h with h | ⟨g, hg, rfl⟩
    · unfold State.showField at h
      split at h
      · split at h
        · exact .inl h
        · rcases List.mem_append.1 h with h | h
          · exact .inl h
          · exact .inr ⟨f, List.mem_cons_self, List.mem_singleton.1 h⟩
      · exact .inl h
    · exact .inr ⟨g, List.mem_cons_of_mem _ hg, rfl⟩

/-- A slot changed and its changed fields shown. -/
theorem slotTo (h : s.Course t) {n : Fin 8} {y : Slot} {fs : List SlotField}
    (hfs : s.positionsOk → ∀ f ∈ fs, f.placed)
    (heng : s.positionsOk → ∀ f, f.placed → f ∉ fs → y.eng.fieldAt f = (t.slot n).eng.fieldAt f)
    (hmark : (t.slot n).Marked y) (hplaced : s.positionsOk → (t.slot n).Placed → y.Placed) :
    s.Course ((t.setSlot n y).showSlot n fs) := by
  have hkept : ((t.setSlot n y).showSlot n fs).kept = t.kept := by simp
  have hslot (m : Fin 8) : ((t.setSlot n y).showSlot n fs).slot m = if m = n then y else t.slot m := by
    rw [State.showSlot_slot, State.slot_setSlot]
  have outside : s.positionsOk → ∀ a, ¬ t.inRecord n a → ((t.setSlot n y).showSlot n fs).mem.get a = t.mem.get a :=
    fun hs a ha => State.showSlot_outside (t.setSlot n y) n fs (fun p hp => hfs hs _ hp p rfl) ha
  refine ⟨(congrArg Kept.part hkept).trans h.part, (State.boardBase_eq_of hkept).trans h.base,
    (congrArg Kept.windows hkept).trans h.windows, by simpa using h.flight, fun m => ?_, fun hs => ?_, fun hs a ha => ?_,
    fun hs hr hw F hF => ?_⟩
  · rw [hslot]
    split
    next hm => exact hm ▸ (h.marks m).trans (hm ▸ hmark)
    · exact h.marks m
  · have ht := (State.positionsOk_iff _).1 (h.positions hs)
    rw [State.positionsOk_iff]
    refine ⟨fun m => ?_, fun F hF => ?_⟩
    · rw [hslot]
      split
      · exact hplaced hs (ht.1 n)
      · exact ht.1 m
    · rcases mem_showSlot_held hF with hF | ⟨f, hf, rfl⟩
      · exact ht.2 F hF
      · exact hfs hs f hf
  · refine (outside hs a fun hrec => ha ?_).trans (h.memory hs a ha)
    rw [← State.mayWrite_congr h.base h.windows]
    exact .inl ⟨n, hrec⟩
  · have hr' : (t.setSlot n y).part ≠ .stopped := by rw [State.setSlot_part, h.part]; exact hr
    have haccess : ((t.setSlot n y).showSlot n fs).boardAccess = (t.setSlot n y).boardAccess := by
      rw [State.showSlot_running hr']
      funext F
      cases F <;> rfl
    have hFs : ∀ G ∈ fs.map (BoardField.slot n), G.placed := fun G hG => by
      obtain ⟨f, hf, rfl⟩ := List.mem_map.1 hG
      exact hfs hs f hf
    have hmem : ((t.setSlot n y).showSlot n fs).mem =
        (t.setSlot n y).mem.recorder ((fs.map (BoardField.slot n)).map (t.setSlot n y).boardAccess) := by
      rw [State.showSlot_running hr', List.map_map]
      rfl
    rcases State.shown_fields hFs hmem haccess hF with hshows | ⟨hin, hread⟩
    · exact .inl hshows
    · have hsame : (t.setSlot n y).boardAccess F = t.boardAccess F := by
        cases F with
        | header f => rfl
        | slot m f =>
          by_cases hm : m = n
          · subst hm
            have hfeq := heng hs f hF fun hf => hin (List.mem_map_of_mem hf)
            simp only [State.boardAccess, State.slot_setSlot_self, hfeq]
            rfl
          · simp only [State.boardAccess, State.slot_setSlot_ne t y hm]
            rfl
      have hleaves : t.leaves ((t.setSlot n y).showSlot n fs) F :=
        ⟨(congrFun haccess F).trans hsame, by rw [← hsame]; exact hread⟩
      exact (h.fields hs hr hw F hF).imp hleaves.shows (State.leaves.trans · hleaves)

/-- A slot changed in its working state alone. -/
theorem modSlot (h : s.Course t) (n : Fin 8) {g : Slot → Slot} (heng : (g (t.slot n)).eng = (t.slot n).eng)
    (hmark : (g (t.slot n)).marking = (t.slot n).marking)
    (hplaced : s.positionsOk → (t.slot n).Placed → (g (t.slot n)).Placed) :
    s.Course (t.modSlot n g) :=
  h.slotTo (fs := []) (fun _ => nofun) (fun _ _ _ _ => by rw [heng]) (.of_marking hmark) hplaced

/-- A slot changed where neither limits nor positions see it. -/
theorem modAlike (h : s.Course t) (n : Fin 8) {g : Slot → Slot} (hg : (t.slot n).Alike (g (t.slot n))) :
    s.Course (t.modSlot n g) := h.modSlot n hg.eng hg.marking fun _ => hg.placed

/-- Fields of a slot's engine part changed and shown. -/
theorem setEngine (h : s.Course t) (n : Fin 8) {g : Engine → Engine} {fs : List SlotField}
    (hfs : s.positionsOk → ∀ f ∈ fs, f.placed)
    (heng : ∀ f, f ∉ fs → (g (t.slot n).eng).fieldAt f = (t.slot n).eng.fieldAt f)
    (hmark : (t.slot n).Marked { t.slot n with eng := g (t.slot n).eng })
    (hplaced : s.positionsOk → (t.slot n).Placed → Slot.Placed { t.slot n with eng := g (t.slot n).eng }) :
    s.Course (t.setEngine n g fs) := h.slotTo hfs (fun _ f _ hf => heng f hf) hmark hplaced

end State.Course

/-- A change of the engine part that neither limits nor positions see. -/
structure Engine.Alike (g g' : Engine) : Prop where
  state : g'.state = g.state
  outcomes : g'.outcomes = g.outcomes
  marks : (g'.markA, g'.markB, g'.markC) = (g.markA, g.markB, g.markC)

theorem Engine.Alike.marked {x : Slot} {g : Engine} (h : x.eng.Alike g) : x.Marked { x with eng := g } := by
  refine .of_marking ?_
  have hm := h.marks
  simp only [Prod.mk.injEq] at hm
  simp [Slot.marking, hm]

theorem Engine.Alike.placed {x : Slot} {g : Engine} (h : x.eng.Alike g) (hx : x.Placed) : Slot.Placed { x with eng := g } := by
  refine ⟨h.outcomes ▸ hx.outcomes, hx.position.imp_left fun hr => ?_, hx.frame⟩
  unfold Slot.atRest
  rw [show ({ x with eng := g } : Slot).eng.state = x.eng.state from h.state]
  exact hr

/-- Fields of one engine part that are not among the given ones are as in the other. -/
def Engine.agrees (g g' : Engine) (fs : List SlotField) : Prop := ∀ f, f ∉ fs → g'.fieldAt f = g.fieldAt f

section
variable (g : Engine)

theorem Engine.agrees_orderTaken (v : Mark) : g.agrees { g with orderTaken := v } [.orderTaken] :=
  fun f hf => by cases f <;> simp_all [Engine.fieldAt]

theorem Engine.agrees_result (v : Result) : g.agrees { g with result := v } [.result] :=
  fun f hf => by cases f <;> simp_all [Engine.fieldAt]

theorem Engine.agrees_overtaken (v : Mark) : g.agrees { g with overtaken := v } [.overtaken] :=
  fun f hf => by cases f <;> simp_all [Engine.fieldAt]

theorem Engine.agrees_released (v : SlotState) : g.agrees { g with state := v, bound := none } [.state, .bound] :=
  fun f hf => by cases f <;> simp_all [Engine.fieldAt]

theorem Engine.agrees_fault (v : SlotState) (c : SlotFault) : g.agrees { g with state := v, fault := c } [.fault, .state] :=
  fun f hf => by cases f <;> simp_all [Engine.fieldAt]

theorem Engine.agrees_absent (v : List Bool) : g.agrees { g with absent := v } [.absent] :=
  fun f hf => by cases f <;> simp_all [Engine.fieldAt]

theorem Engine.agrees_markA (v : Mark) : g.agrees { g with markA := v } [.markA] :=
  fun f hf => by cases f <;> simp_all [Engine.fieldAt]

theorem Engine.agrees_marks (a b c : Mark) : g.agrees { g with markA := a, markB := b, markC := c } [.markA, .markB, .markC] :=
  fun f hf => by cases f <;> simp_all [Engine.fieldAt]

theorem Engine.agrees_chunksDone (v : Mark) : g.agrees { g with chunksDone := v } [.chunksDone] :=
  fun f hf => by cases f <;> simp_all [Engine.fieldAt]

theorem Engine.agrees_packetsLost (v : Nat) : g.agrees { g with packetsLost := v } [.packetsLost] :=
  fun f hf => by cases f <;> simp_all [Engine.fieldAt]

theorem Engine.agrees_lastRemaining (v : Nat) : g.agrees { g with lastRemaining := v } [.lastRemaining] :=
  fun f hf => by cases f <;> simp_all [Engine.fieldAt]

/-- One outcome entry set. -/
theorem Engine.agrees_outcome (p : Nat) (o : OutcomeEntry) :
    g.agrees { g with outcomes := g.outcomes.set p o } [.outcome p] := by
  intro f hf
  cases f with
  | outcome q =>
    have hne : p ≠ q := fun h => hf (by simp [h])
    simp [Engine.fieldAt, List.getElem?_set_ne hne]
  | _ => rfl

/-- What the sorter changes of the engine part: the fields that it names. -/
theorem Engine.agrees_sorted {z : Sorting} (hz : z.stepMoved = false → z.inStep = g.inStep) :
    g.agrees (g.sorted z) (g.sortedFields z) := by
  intro f hf
  unfold Engine.sortedFields at hf
  have counted : f ∈ [SlotField.badPackets, .scrambled] → (g.sorted z).fieldAt f = g.fieldAt f := fun hin => by
    by_contra hne
    exact hf (List.mem_append_right _ (List.mem_filter.2 ⟨hin, bne_iff_ne.2 hne⟩))
  cases f with
  | badPackets => exact counted (by simp)
  | scrambled => exact counted (by simp)
  | inStep =>
    cases hm : z.stepMoved with
    | true => exact absurd (by simp [hm]) hf
    | false => simp [Engine.fieldAt, Engine.sorted, hz hm]
  | _ => rfl

end

theorem SlotField.placed_of_plain {fs : List SlotField} (h : ∀ p, SlotField.outcome p ∉ fs) : ∀ f ∈ fs, f.placed :=
  fun _ hf p hp => absurd (hp ▸ hf) (h p)

namespace State.Course

variable {s t u : State}

/-- Fields of a slot's engine part changed and shown, where neither limits nor positions see it. -/
theorem setAlike (h : s.Course t) (n : Fin 8) {g : Engine → Engine} {fs : List SlotField}
    (hg : (t.slot n).eng.Alike (g (t.slot n).eng)) (heng : (t.slot n).eng.agrees (g (t.slot n).eng) fs)
    (hfs : ∀ p, SlotField.outcome p ∉ fs) : s.Course (t.setEngine n g fs) :=
  h.setEngine n (fun _ => SlotField.placed_of_plain hfs) heng hg.marked fun _ => hg.placed

/-- The slot state changed and shown; a slot that is to run stands at a position. -/
theorem setSlotState (h : s.Course t) (n : Fin 8) (st : SlotState)
    (hx : s.positionsOk → (t.slot n).Placed → (t.slot n).inUse) : s.Course (t.setSlotState n st) := by
  unfold State.setSlotState
  split
  · exact h
  · refine h.setEngine n (fun _ => SlotField.placed_of_plain (by simp)) (fun f hf => ?_) (.of_marking rfl)
      fun hs hp => ⟨hp.outcomes, .inr (hx hs hp), hp.frame⟩
    cases f <;> simp_all [Engine.fieldAt]

/-- Marks advanced and shown where they change. -/
theorem advance (h : s.Course t) (n : Fin 8) {f : Slot → Slot}
    (heng : (t.slot n).eng.agrees (f (t.slot n)).eng [.markA, .markB, .markC]) (hmark : (t.slot n).Marked (f (t.slot n)))
    (hplaced : (t.slot n).Placed → (f (t.slot n)).Placed) : s.Course (t.advance n f) := by
  refine h.slotTo (fun _ => SlotField.placed_of_plain (by simp)) (fun _ m _ hm => ?_) hmark fun _ => hplaced
  by_cases hin : m ∈ [SlotField.markA, .markB, .markC]
  · by_contra hne
    exact hm (List.mem_filter.2 ⟨hin, bne_iff_ne.2 hne⟩)
  · exact heng m hin

/-- A slot whose marks alone have moved stands where it stood. -/
theorem placed_of_marks {x y : Slot} (hst : y.eng.state = x.eng.state) (ho : y.eng.outcomes = x.eng.outcomes)
    (hg : y.geo = x.geo) (hc : y.chunkPos = x.chunkPos) (hf : y.frame = x.frame) (hch : y.chunk = x.chunk) (hx : x.Placed) :
    y.Placed := by
  refine ⟨ho ▸ hx.outcomes, hx.position.imp (fun hr => ?_) (Slot.inUse_congr hg hc).2, fun f hf' => hx.frame f (hf ▸ hf')⟩
  unfold Slot.atRest
  rw [hst, hf, hch]
  exact hr

theorem advanceA (h : s.Course t) (n : Fin 8) (k : Nat) : s.Course (t.advance n (·.advanceA k)) :=
  h.advance n (Engine.agrees_marks _ _ _ _) (.advanceA _ k) (placed_of_marks rfl rfl rfl rfl rfl rfl)

theorem advanceB (h : s.Course t) (n : Fin 8) (k : Nat) : s.Course (t.advance n (·.advanceB k)) :=
  h.advance n (Engine.agrees_marks _ _ _ _) (.advanceB _ k) (placed_of_marks rfl rfl rfl rfl rfl rfl)

theorem advanceC (h : s.Course t) (n : Fin 8) (k : Nat) : s.Course (t.advance n (·.advanceC k)) :=
  h.advance n (Engine.agrees_marks _ _ _ _) (.advanceC _ k) (placed_of_marks rfl rfl rfl rfl rfl rfl)

theorem caughtUp (h : s.Course t) (n : Fin 8) : s.Course (t.advance n Slot.caughtUp) :=
  h.advance n (Engine.agrees_marks _ _ _ _) (.caughtUp _) (placed_of_marks rfl rfl rfl rfl rfl rfl)

/-! ## Entries, flags and the batch in flight -/

/-- What leaves the board, the slots, the batch in flight and memory alone. -/
theorem of_rfl (h : s.Course t)
    (hu : (u.slots, u.header, u.held, u.mem, u.part, u.baseLow, u.baseHigh, u.windows, u.flight) =
      (t.slots, t.header, t.held, t.mem, t.part, t.baseLow, t.baseHigh, t.windows, t.flight)) : s.Course u := by
  simp only [Prod.mk.injEq] at hu
  obtain ⟨h1, h2, h3, h4, h5, h6, h7, h8, h9⟩ := hu
  exact h.of_same h1 h2 (fun _ hF => h3 ▸ hF) h4 h5 h6 h7 h8 fun f hf => ⟨f, h9 ▸ hf, rfl⟩

theorem setEntry (h : s.Course t) (e : Fin 64) (x : Entry) : s.Course (t.setEntry e x) := h.of_rfl rfl

theorem modEntry (h : s.Course t) (e : Fin 64) (g : Entry → Entry) : s.Course (t.modEntry e g) := h.of_rfl rfl

theorem raise (h : s.Course t) (f : Flag) : s.Course (t.raise f) := h.of_rfl rfl

theorem notify (h : s.Course t) (f : Flag) : s.Course (t.notify f) := by
  unfold State.notify
  exact ite (h.of_rfl rfl) (h.raise f)

theorem noFlight (h : s.Course t) : s.Course { t with flight := none } := h.of_same rfl rfl (fun _ => id) rfl rfl rfl rfl rfl nofun

theorem orphan (h : s.Course t) (n : Fin 8) : s.Course (t.orphan n) := by
  refine h.of_same rfl rfl (fun _ => id) rfl rfl rfl rfl rfl fun f hf => ?_
  obtain ⟨g, hg, rfl⟩ := Option.map_eq_some_iff.1 hf
  exact ⟨g, hg, by split <;> rfl⟩

/-! ## Results (R58, R61) -/

theorem writeResult (h : s.Course t) (n : Fin 8) (r : Result) : s.Course (t.writeResult n r) := by
  have h1 : s.Course (t.setEngine n (fun g => { g with result := r }) [.result]) :=
    h.setAlike n ⟨rfl, rfl, rfl⟩ (Engine.agrees_result _ r) (by simp)
  unfold State.writeResult
  exact ite h1 (h1.notify _)

theorem answer (h : s.Course t) (n : Fin 8) (number : Mark) (r : Result) : s.Course (t.answer n number r) := by
  have h1 := h.modAlike n (g := fun x => { x with latch := number, openServed := none, closeServed := none })
    ⟨rfl, rfl, rfl, rfl, rfl⟩
  unfold State.answer
  exact ((h1.setAlike n ⟨rfl, rfl, rfl⟩ (Engine.agrees_overtaken _ _) (by simp)).writeResult n r).setAlike n ⟨rfl, rfl, rfl⟩
    (Engine.agrees_orderTaken _ _) (by simp)

theorem completeOrder (h : s.Course t) (n : Fin 8) (number : Option Mark) : s.Course (t.completeOrder n number) := by
  unfold State.completeOrder
  exact ite (h.writeResult n _) h

end State.Course

end Sys2Proof.Machine
end

