-- ==== Sys2Proof/Proofs/CourseSlots.lean ====
section
/-! Proofs: the course of what happens to entries and slots: lapses, ends of recordings and moves, releases and faults. -/

namespace Sys2Proof.Machine

theorem State.setSlot_setSlot (s : State) (n : Fin 8) (x y : Slot) : (s.setSlot n x).setSlot n y = s.setSlot n y := by
  simp [State.setSlot]

/-- A slot changed, then its engine part: one change of the slot, with fields shown. -/
theorem State.modSlot_setEngine (s : State) (n : Fin 8) (g : Slot → Slot) (g' : Engine → Engine) (fs : List SlotField) :
    (s.modSlot n g).setEngine n g' fs =
      (s.setSlot n { g (s.slot n) with eng := g' (g (s.slot n)).eng }).showSlot n fs := by
  unfold State.setEngine State.modSlot
  rw [State.setSlot_setSlot, State.slot_setSlot_self]

/-- A slot at rest, whatever its position. -/
theorem Slot.Placed.rest {y : Slot} (ho : y.eng.outcomes.length = 16) (hr : y.atRest) : y.Placed :=
  ⟨ho, .inl hr, fun _ hf => by rw [hr.2.1] at hf; cases hf⟩

/-! ## Checked writes -/

/-- Bytes that the part may not write lie outside every held writable window. -/
theorem State.mayWrite_windows {s : State} {a : Nat} (ha : ¬ s.mayWrite a) :
    ∀ x ∈ s.windows, x.writable = true → a < x.lo ∨ x.hi < a := by
  intro x hx hw
  by_contra hin
  exact ha (.inr (.inr ⟨x, hx, hw, by omega⟩))

/-- Checked writes leave what none of them reaches. -/
theorem writeAccesses_outside {windows : List Window} {a : Nat} {m : Memory} {blocks : List (Nat × List Byte)}
    (h : outsideBlocks a blocks) : (writeAccesses windows m blocks).1.get a = m.get a := by
  induction blocks generalizing m with
  | nil => rfl
  | cons b blocks ih =>
    unfold writeAccesses
    split
    · rw [ih fun c hc => h c (List.mem_cons_of_mem _ hc), Memory.get_write_outside (h b List.mem_cons_self)]
    · rfl

/-- What is changed outside the board's engine parts alone leaves every field as it was. -/
theorem State.read_field_congr {s : State} {m m' : Memory} (h : ∀ a, s.inBoard a → m'.get a = m.get a) {F : BoardField}
    (hF : F.placed) :
    m'.read (s.boardAccess F).1 (s.boardAccess F).2.length = m.read (s.boardAccess F).1 (s.boardAccess F).2.length := by
  refine Memory.read_congr fun a h1 h2 => h a ?_
  by_contra hin
  have := s.boardAccess_inBoard hF hin
  omega

namespace State.Course

variable {s t u : State}

/-! ## Entries -/

theorem markLapse (h : s.Course t) (ns : List (Fin 8)) : s.Course (t.markLapse ns) :=
  h.foldl (fun n h => h.modAlike n ⟨rfl, rfl, rfl, rfl, rfl⟩) ns

theorem lapse (h : s.Course t) (e : Fin 64) : s.Course (t.lapse e) := ((h.setEntry e _).markLapse _).raise _

theorem judge (h : s.Course t) (e : Fin 64) : s.Course (t.judge e) := by
  unfold State.judge
  exact ite (h.lapse e) h

theorem derive (h : s.Course t) (e : Fin 64) : s.Course (t.derive e) := (h.modEntry e _).judge e

theorem judgeAll (h : s.Course t) : s.Course t.judgeAll := h.foldl (fun e h => h.judge e) allEntries

theorem advanceClock (h : s.Course t) (c : Nat) : s.Course (t.advanceClock c) :=
  (h.of_rfl rfl : s.Course { t with clock := c }).judgeAll

theorem judgeLastView (h : s.Course t) (e : Fin 64) : s.Course (t.judgeLastView e) := by
  unfold State.judgeLastView
  exact ite (h.lapse e) h

theorem becameHeld (h : s.Course t) (e : Fin 64) : s.Course (t.becameHeld e) := (h.derive e).judgeLastView e

theorem deriveAll (h : s.Course t) : s.Course t.deriveAll := h.foldl (fun e h => h.becameHeld e) allEntries

theorem freeEntry (h : s.Course t) (e : Fin 64) : s.Course (t.freeEntry e) := (h.setEntry e _).markLapse _

theorem endRecording (h : s.Course t) (e : Fin 64) (cutOff : Bool) : s.Course (t.endRecording e cutOff) := by
  unfold State.endRecording
  exact ite (ite (h.freeEntry e) ((h.modEntry e _).becameHeld e)) h

theorem endMove (h : s.Course t) (e : Fin 64) : s.Course (t.endMove e) := by
  unfold State.endMove
  exact ite ((h.modEntry e _).becameHeld e) h

/-- Where a slot is bound, its entry ends as given; else nothing does. -/
theorem onBound (h : s.Course t) {o : Option (Fin 64)} {f : Fin 64 → State} (hf : ∀ e, s.Course (f e)) :
    s.Course (match o with | none => t | some e => f e) := by
  cases o with
  | none => exact h
  | some e => exact hf e

/-! ## Releases and faults -/

/-- A slot changed together with its engine part, with fields shown. -/
theorem rework (h : s.Course t) (n : Fin 8) {g : Slot → Slot} {g' : Engine → Engine} {fs : List SlotField}
    (hfs : s.positionsOk → ∀ f ∈ fs, f.placed)
    (heng : s.positionsOk → ∀ f, f.placed → f ∉ fs → (g' (g (t.slot n)).eng).fieldAt f = (t.slot n).eng.fieldAt f)
    (hmark : (t.slot n).Marked { g (t.slot n) with eng := g' (g (t.slot n)).eng })
    (hplaced : s.positionsOk → (t.slot n).Placed → Slot.Placed { g (t.slot n) with eng := g' (g (t.slot n)).eng }) :
    s.Course ((t.modSlot n g).setEngine n g' fs) := by
  rw [State.modSlot_setEngine]
  exact h.slotTo hfs heng hmark hplaced

theorem release (h : s.Course t) (n : Fin 8) : s.Course (t.release n) := by
  have freed {u : State} (h : s.Course u) : s.Course { u.orphan n with waiting := u.waiting.filter (· ≠ n) } :=
    (h.orphan n).of_rfl rfl
  exact freed (h.onBound fun e => h.modEntry e _)

theorem toIdle (h : s.Course t) (n : Fin 8) : s.Course (t.toIdle n) :=
  (h.release n).rework n (fun _ => SlotField.placed_of_plain (by simp)) (fun _ f _ hf => Engine.agrees_released _ _ f hf)
    (.of_off rfl) fun _ hx => .rest hx.outcomes ⟨.inl rfl, rfl, rfl⟩

theorem toFaulted (h : s.Course t) (n : Fin 8) (f : SlotFault) : s.Course (t.toFaulted n f) :=
  ((h.release n).rework n (fun _ => SlotField.placed_of_plain (by simp)) (fun _ f _ hf => Engine.agrees_fault _ _ _ f hf)
    (.of_marking rfl) fun _ hx => .rest hx.outcomes ⟨.inr rfl, rfl, rfl⟩).notify _

/-! ## The batch in flight -/

/-- What changes memory in held writable windows outside the board's engine parts. -/
theorem memTo (h : s.Course t) {m : Memory} (hwin : ∀ a, ¬ t.mayWrite a → m.get a = t.mem.get a)
    (hboard : s.workApart → ∀ a, t.inBoard a → m.get a = t.mem.get a) : s.Course { t with mem := m } := by
  refine ⟨h.part, h.base, h.windows, h.flight, h.marks, h.positions, fun hs a ha => ?_, fun hs hr hw F hF => ?_⟩
  · rw [← h.memory hs a ha]
    refine hwin a ?_
    rwa [State.mayWrite_congr h.base h.windows]
  · have hleaves : t.leaves { t with mem := m } F := ⟨rfl, State.read_field_congr (hboard hw) hF⟩
    exact (h.fields hs hr hw F hF).imp hleaves.shows (State.leaves.trans · hleaves)

/-- The batch in flight leaves the cipher and makes its writes. -/
theorem flightWork (h : s.Course t) {r : Requester} {work : Work} {o : Bool} (hf : t.flight = some ⟨r, work, o⟩) :
    s.Course (t.freeCipher.runWork work).1 := by
  refine h.noFlight.memTo (fun a ha => writeAccesses_confined (State.mayWrite_windows ha) _ _) fun hw a ha => ?_
  refine writeAccesses_outside ?_
  exact h.workApart hw _ t.mem a hf ha

theorem freeCipher (h : s.Course t) : s.Course t.freeCipher := h.noFlight

/-! ## The header -/

end State.Course

/-- Fields of one header that are not among the given ones are as in the other. -/
def Header.agrees (g g' : Header) (fs : List HeaderField) : Prop := ∀ f, f ∉ fs → g'.fieldAt f = g.fieldAt f

theorem Header.agrees_orderTaken (g : Header) (v : Mark) : g.agrees { g with orderTaken := v } [.orderTaken] :=
  fun f hf => by cases f <;> simp_all [Header.fieldAt]

theorem Header.agrees_overtaken (g : Header) (v : Mark) : g.agrees { g with overtaken := v } [.overtaken] :=
  fun f hf => by cases f <;> simp_all [Header.fieldAt]

theorem Header.agrees_result (g : Header) (r : Result) (d : Nat) : g.agrees { g with result := r, detail := d } [.result, .detail] :=
  fun f hf => by cases f <;> simp_all [Header.fieldAt]

theorem Header.agrees_vote (g : Header) (a : VoteAction) (c : Nat) :
    g.agrees { g with voteAction := a, voteClock := c } [.voteAction, .voteClock] :=
  fun f hf => by cases f <;> simp_all [Header.fieldAt]

namespace State.Course

variable {s t u : State}

theorem mem_showHeader_held {fs : List HeaderField} {F : BoardField} (h : F ∈ (t.showHeader fs).held) :
    F ∈ t.held ∨ ∃ f, F = .header f := by
  unfold State.showHeader at h
  induction fs generalizing t with
  | nil => exact .inl h
  | cons f fs ih =>
    rw [List.foldl_cons] at h
    rcases ih h with h | ⟨g, rfl⟩
    · unfold State.showField at h
      split at h
      · split at h
        · exact .inl h
        · exact (List.mem_append.1 h).imp_right fun h => ⟨f, List.mem_singleton.1 h⟩
      · exact .inl h
    · exact .inr ⟨g, rfl⟩

/-- The header changed and its changed fields shown. -/
theorem headerTo (h : s.Course t) {v : State} {fs : List HeaderField}
    (hsame : (v.slots, v.part, v.baseLow, v.baseHigh, v.windows, v.flight, v.mem, v.held) =
      (t.slots, t.part, t.baseLow, t.baseHigh, t.windows, t.flight, t.mem, t.held))
    (heq : t.header.agrees v.header fs) : s.Course (v.showHeader fs) := by
  have hshown : ∀ {w : State}, w = v.showHeader fs →
      (w.slots, w.part, w.baseLow, w.baseHigh, w.windows, w.flight, w.header) =
        (v.slots, v.part, v.baseLow, v.baseHigh, v.windows, v.flight, v.header) := fun hw => by rw [hw, State.showHeader_eq]
  generalize hu : v.showHeader fs = u
  have hkept := hshown hu.symm
  simp only [Prod.mk.injEq] at hsame hkept
  obtain ⟨hslots, hpart, hlow, hhigh, hwin, hflight, hm, hheld⟩ := hsame
  obtain ⟨uslots, upart, ulow, uhigh, uwin, uflight, uheader⟩ := hkept
  have hslot (n : Fin 8) : u.slot n = t.slot n := by simp [State.slot, uslots, hslots]
  have hbase : v.boardBase = t.boardBase := by simp [State.boardBase, hlow, hhigh]
  have ubase : u.boardBase = v.boardBase := by simp [State.boardBase, ulow, uhigh]
  refine ⟨upart.trans (hpart.trans h.part), ubase.trans (hbase.trans h.base), uwin.trans (hwin.trans h.windows),
    fun f hf => h.flight f (hflight ▸ uflight ▸ hf), fun n => hslot n ▸ h.marks n, fun hs => ?_, fun hs a ha => ?_,
    fun hs hr hw F hF => ?_⟩
  · have ht := (State.positionsOk_iff _).1 (h.positions hs)
    refine (State.positionsOk_iff _).2 ⟨fun n => hslot n ▸ ht.1 n, fun F hF => ?_⟩
    rcases mem_showHeader_held (hu.symm ▸ hF) with hF | ⟨f, rfl⟩
    · exact ht.2 F (hheld ▸ hF)
    · exact trivial
  · rw [← h.memory hs a ha, ← hm, ← hu]
    refine State.showHeader_outside v fs fun hin => ha ?_
    refine .inr (.inl ?_)
    unfold State.inHeader at hin ⊢
    rwa [hbase, h.base] at hin
  · have hrun : v.part ≠ .stopped := by rwa [hpart, h.part]
    have haccess : u.boardAccess = v.boardAccess := by
      rw [← hu, State.showHeader_running hrun]
      funext F
      cases F <;> rfl
    have hmem : u.mem = v.mem.recorder ((fs.map BoardField.header).map v.boardAccess) := by
      rw [← hu, State.showHeader_running hrun, List.map_map]
      rfl
    have hFs : ∀ G ∈ fs.map BoardField.header, G.placed := fun G hG => by
      obtain ⟨f, -, rfl⟩ := List.mem_map.1 hG
      exact trivial
    rcases State.shown_fields hFs hmem haccess hF with hshows | ⟨hin, hread⟩
    · exact .inl hshows
    · have hfield : v.boardAccess F = t.boardAccess F := by
        cases F with
        | slot m f => simp [State.boardAccess, State.slotAddr, State.slot, hbase, hslots]
        | header f =>
          have hfeq := heq f fun hf => hin (List.mem_map_of_mem hf)
          simp [State.boardAccess, hbase, hfeq]
      have hleaves : t.leaves u F := ⟨(congrFun haccess F).trans hfield, by rw [← hfield, ← hm]; exact hread⟩
      exact (h.fields hs hr hw F hF).imp hleaves.shows (State.leaves.trans · hleaves)

/-! ## Part results (R61) -/

theorem writePartResult (h : s.Course t) (r : Result) (detail : Nat) : s.Course (t.writePartResult r detail) := by
  have h1 : s.Course (({ t with header := { t.header with result := r, detail := detail } } : State).showHeader
      [.result, .detail]) := h.headerTo rfl (Header.agrees_result _ _ _)
  unfold State.writePartResult
  exact ite h1 (h1.notify _)

theorem answerPart (h : s.Course t) (number : Mark) (r : Result) (detail : Nat) : s.Course (t.answerPart number r detail) := by
  unfold State.answerPart
  extract_lets skipped header s1 s2
  have h1 : s.Course (s1.showHeader [.overtaken]) :=
    h.headerTo rfl (Header.agrees_overtaken _ _)
  have h2 : s.Course s2 := h1.writePartResult r detail
  exact h2.headerTo rfl (Header.agrees_orderTaken _ _)

theorem completePart (h : s.Course t) (number : Option Mark) (r : Result) (detail : Nat) :
    s.Course (t.completePart number r detail) := by
  unfold State.completePart
  exact ite (h.writePartResult r detail) h

theorem showVote (h : s.Course t) (a : VoteAction) : s.Course (t.showVote a) :=
  h.headerTo rfl (Header.agrees_vote _ _ _)

end State.Course

end Sys2Proof.Machine
end

