-- ==== Sys2Proof/Proofs/CourseRecords.lean ====
section
/-! Proofs: the course of a recording: takes, chunks, closes, overruns and faults of a RECORD slot. -/

namespace Sys2Proof.Machine

theorem State.refillNextKey_slot (s : State) (e : Fin 64) (m : Fin 8) : (s.refillNextKey e).slot m = s.slot m := by
  unfold State.refillNextKey
  split <;> rfl

/-! ## Mode and state of a slot -/

/-- The mode and the state of a slot. -/
def Slot.stance (x : Slot) : Mode × SlotState := (x.mode, x.eng.state)

section
variable (s : State) (n : Fin 8)

theorem State.countAbsence_stance (seen : List Nat) : ((s.countAbsence n seen).slot n).stance = (s.slot n).stance := by
  unfold State.countAbsence
  dsimp only
  split <;> simp [Slot.stance]

theorem State.closeTakesEffect_stance : ((s.closeTakesEffect n).slot n).stance = (s.slot n).stance := by
  unfold State.closeTakesEffect
  split
  · rfl
  · dsimp only
    rw [State.countAbsence_stance]
    split <;> simp [Slot.stance]

theorem State.askClose_stance : ((s.askClose n).slot n).stance = (s.slot n).stance := by
  unfold State.askClose
  split
  · rfl
  · split
    · rfl
    · split
      · exact s.closeTakesEffect_stance n
      · simp [Slot.stance]

theorem State.recordLoss_stance (loss : Nat) : ((s.recordLoss n loss).slot n).stance = (s.slot n).stance := by
  simp [State.recordLoss, Slot.stance]

theorem State.completeTake_stance : ((s.completeTake n).1.slot n).stance = (s.slot n).stance := by
  unfold State.completeTake
  split
  · rfl
  · dsimp only
    split <;> simp [State.takeSorting, Slot.stance, Slot.advanceA, Engine.sorted]

end

namespace State.Course

variable {s t u : State}

/-- The open chunk of a slot changed, or closed by it. -/
theorem modChunk (h : s.Course t) (n : Fin 8) {g : Slot → Slot} {c : OpenChunk} (hc : (t.slot n).chunk = some c)
    (heng : (g (t.slot n)).eng = (t.slot n).eng) (hmark : (g (t.slot n)).marking = (t.slot n).marking)
    (hframe : (g (t.slot n)).frame = (t.slot n).frame) (hpos : (g (t.slot n)).chunkPos = (t.slot n).chunkPos) :
    s.Course (t.modSlot n g) :=
  h.modSlot n heng hmark fun _ hx =>
    .used (heng ▸ hx.outcomes) ((Slot.inUse_congr (Slot.geo_of_marking hmark) hpos).2 (hx.of_chunk hc)) (hframe ▸ hx.frame)

theorem takeSorting (h : s.Course t) (n : Fin 8) {z : Sorting}
    (hz : z.stepMoved = false → z.inStep = (t.slot n).eng.inStep) : s.Course (t.takeSorting n z) := by
  have h1 := h.modAlike n (g := fun x => { x with history := z.history, carry := x.carry ++ z.kept }) ⟨rfl, rfl, rfl, rfl, rfl⟩
  unfold State.takeSorting
  refine h1.setAlike n ⟨rfl, rfl, rfl⟩ (Engine.agrees_sorted _ ?_) (by simp [Engine.sortedFields])
  simpa using hz

theorem countAbsence (h : s.Course t) (n : Fin 8) (seen : List Nat) : s.Course (t.countAbsence n seen) := by
  unfold State.countAbsence
  extract_lets x counted s1
  have h1 : s.Course s1 := h.modAlike n ⟨rfl, rfl, rfl, rfl, rfl⟩
  exact ite ((h1.setAlike n ⟨rfl, rfl, rfl⟩ (Engine.agrees_absent _ _) (by simp)).notify _) h1

theorem closeTakesEffect (h : s.Course t) (n : Fin 8) : s.Course (t.closeTakesEffect n) := by
  unfold State.closeTakesEffect
  split
  · exact h
  next c hc =>
    extract_lets due s1 s2
    have h1 : s.Course s1 := h.modChunk n hc rfl rfl rfl rfl
    exact (ite h1 (h1.setAlike n ⟨rfl, rfl, rfl⟩ (Engine.agrees_packetsLost _ _) (by simp)) : s.Course s2).countAbsence n _

theorem askClose (h : s.Course t) (n : Fin 8) : s.Course (t.askClose n) := by
  unfold State.askClose
  split
  · exact h
  next c hc => exact ite h (ite (h.closeTakesEffect n) (h.modChunk n hc rfl rfl rfl rfl))

theorem formBatch (h : s.Course t) (n : Fin 8) : s.Course (t.formBatch n) := by
  unfold State.formBatch
  split
  · exact h
  next c hc =>
    dsimp only
    split
    · exact h
    · split
      · exact h.modChunk n hc rfl rfl rfl rfl
      · exact (h.modChunk n hc rfl rfl rfl rfl).setAlike n ⟨rfl, rfl, rfl⟩ (Engine.agrees_absent _ _) (by simp)

theorem finishRecording (h : s.Course t) (n : Fin 8) : s.Course (t.finishRecording n) :=
  (((h.toIdle n).onBound fun e => (h.toIdle n).endRecording e false).completeOrder n _).notify _

theorem settleClosing (h : s.Course t) (n : Fin 8) : s.Course (t.settleClosing n) := by
  unfold State.settleClosing
  dsimp only
  split
  · split
    · exact h.finishRecording n
    · exact ite (h.askClose n) h
  · exact h

theorem completeTake (h : s.Course t) (n : Fin 8) : s.Course (t.completeTake n).1 := by
  unfold State.completeTake
  split
  · exact h
  next tk _ =>
    dsimp only
    split
    · refine ((h.modAlike n ⟨rfl, rfl, rfl, rfl, rfl⟩).advanceA n tk.count).takeSorting n fun hz => ?_
      exact classifyAll_unmoved hz
    · exact (h.modAlike n ⟨rfl, rfl, rfl, rfl, rfl⟩ : s.Course (t.modSlot n fun x => { x with take := none }))

theorem faultRecord (h : s.Course t) (n : Fin 8) (f : SlotFault) : s.Course (t.faultRecord n f) :=
  ((h.completeTake n).toFaulted n f).onBound fun e => ((h.completeTake n).toFaulted n f).endRecording e false

theorem recordLoss (h : s.Course t) (n : Fin 8) (loss : Nat) : s.Course (t.recordLoss n loss) :=
  (h.modAlike n ⟨rfl, rfl, rfl, rfl, rfl⟩).setAlike n ⟨rfl, rfl, rfl⟩ (Engine.agrees_packetsLost _ _) (by simp)

/-- T brought to the fill mark of the view. -/
theorem markToFill (h : s.Course t) (n : Fin 8) {v : Mark} (hv : v = (t.slot n).viewA) (hm : (t.slot n).mode = .record) :
    s.Course (t.setEngine n (fun g => { g with markA := v }) [.markA]) := by
  refine h.setEngine n (fun _ => SlotField.placed_of_plain (by simp)) (Engine.agrees_markA _ _) ?_
    fun _ hx => ⟨hx.outcomes, hx.position, hx.frame⟩
  refine ⟨.of_limit ?_, ⟨id, fun hne => absurd rfl hne⟩, ⟨id, fun hne => absurd rfl hne⟩⟩
  simp [Slot.limitA, hm, hv, ahead]

/-- A slot that does not stand IDLE or FAULTED stands at a position. -/
theorem setStateUsed (h : s.Course t) (n : Fin 8) (st : SlotState) (h1 : (t.slot n).eng.state ≠ .idle)
    (h2 : (t.slot n).eng.state ≠ .faulted) : s.Course (t.setSlotState n st) :=
  h.setSlotState n st fun _ hx => hx.of_state h1 h2

theorem overrun (h : s.Course t) (n : Fin 8) (hm : (t.slot n).mode = .record) :
    s.Course (t.overrun n) := by
  unfold State.overrun
  extract_lets x loss s1 s2 waits s3
  have h1 : s.Course s1 := h.modAlike n ⟨rfl, rfl, rfl, rfl, rfl⟩
  have h2 : s.Course s2 := h1.markToFill n (by simp [s1, x]) (by simpa [s1] using hm)
  have h3 : s.Course s3 := ite ((h2.modAlike n ⟨rfl, rfl, rfl, rfl, rfl⟩).askClose n) (h2.recordLoss n loss)
  have hstate : (s3.slot n).eng.state = x.eng.state := by
    have hs2 : (s2.slot n).stance = x.stance := by simp [s2, s1, x, Slot.stance]
    refine congrArg Prod.snd (?_ : (s3.slot n).stance = x.stance)
    unfold s3
    split
    · rw [State.askClose_stance, State.slot_modSlot_self]
      exact hs2
    · rw [State.recordLoss_stance]
      exact hs2
  split
  next hst => exact h3.setStateUsed n _ (by simp [hstate, hst]) (by simp [hstate, hst])
  · exact h3

theorem refreshRecord (h : s.Course t) (n : Fin 8) (hm : (t.slot n).mode = .record) : s.Course (t.refreshRecord n) := by
  have hc := h.completeTake n
  have hstance := t.completeTake_stance n
  unfold State.refreshRecord
  dsimp only
  split
  · exact h
  · split
    · split
      next u hu =>
        rw [hu] at hc hstance
        exact hc.overrun n (congrArg Prod.fst hstance |>.trans hm)
      next u hu =>
        rw [hu] at hc
        exact hc.faultRecord n _
    · split
      next hst => exact h.setStateUsed n _ (by simp [hst.1]) (by simp [hst.1])
      · exact h

theorem refillNextKey (h : s.Course t) (e : Fin 64) : s.Course (t.refillNextKey e) := by
  unfold State.refillNextKey
  split
  · exact h.of_rfl rfl
  · exact h

theorem openChunk (h : s.Course t) (n : Fin 8) : s.Course (t.openChunk n) := by
  unfold State.openChunk
  dsimp only
  split
  · exact h
  next e he =>
    split
    · exact (h.modAlike n ⟨rfl, rfl, rfl, rfl, rfl⟩).finishRecording n
    · split
      · split
        next hst => exact h.setStateUsed n _ (by simp [hst]) (by simp [hst])
        · exact h
      · split
        · exact h
        · split
          · exact h
          · refine (((h.setEntry e _).refillNextKey e).modSlot n rfl rfl fun hs hx => ?_).formBatch n
            rw [State.refillNextKey_slot] at hx ⊢
            exact .used hx.outcomes (hx.of_bound he) hx.frame

theorem putChunk (h : s.Course t) {n : Fin 8} {c : OpenChunk} (hc : (t.slot n).chunk = some c) (e : Fin 64) :
    s.Course (t.putChunk n c e) := by
  unfold State.putChunk
  extract_lets s1 s2 s3 s4 x
  have h1 : s.Course s1 := h.modSlot n rfl rfl fun _ hx => by
    obtain ⟨hlo, hhi, -⟩ := hx.of_chunk hc
    exact .used hx.outcomes ⟨hlo, hhi, Nat.mod_lt _ hlo⟩ hx.frame
  have h3 : s.Course s3 := (h1.advanceB n 1).modEntry e _
  have h4 : s.Course s4 := h3.setAlike n ⟨rfl, rfl, rfl⟩ (Engine.agrees_chunksDone _ _) (by simp)
  exact ite (h4.notify _) h4

theorem closedChunk (h : s.Course t) (n : Fin 8) : s.Course (t.closedChunk n) := by
  unfold State.closedChunk
  split
  next c e hc _ =>
    split
    · exact (h.putChunk hc e).settleClosing n
    · exact h.modChunk n hc rfl rfl rfl rfl
  · exact h

theorem sealedBatch (h : s.Course t) (n : Fin 8) (bytes : List Byte) : s.Course (t.sealedBatch n bytes) := by
  unfold State.sealedBatch
  split
  · exact h
  next c hc =>
    dsimp only
    split
    · exact ((h.modChunk n hc rfl rfl rfl rfl).closeTakesEffect n).settleClosing n
    · exact ((h.modChunk n hc rfl rfl rfl rfl).formBatch n).settleClosing n

theorem startTake (h : s.Course t) (n : Fin 8) : s.Course (t.startTake n) := by
  unfold State.startTake
  dsimp only
  split
  · exact h.modAlike n ⟨rfl, rfl, rfl, rfl, rfl⟩
  · exact h.faultRecord n _

theorem endTake (h : s.Course t) (n : Fin 8) : s.Course (t.endTake n) := by
  have hc := h.completeTake n
  unfold State.endTake
  split
  next u hu =>
    rw [hu] at hc
    exact (hc.formBatch n).settleClosing n
  next u hu =>
    rw [hu] at hc
    exact hc.faultRecord n _

end State.Course
end Sys2Proof.Machine
end

