-- ==== Sys2Proof/Proofs/CourseFrames.lean ====
section
/-! Proofs: the course of a frame: verify, deliver and re-seal passes, finishes, and faults of PLAY, CHECK and MOVE slots. -/

namespace Sys2Proof.Machine

theorem State.finishFrame_slot {s : State} {n : Fin 8} {f : Machine.Frame} (hf : (s.slot n).frame = some f) (o : FrameOutcome)
    (packets remaining : Nat) :
    (s.finishFrame n o packets remaining true).slot n = (s.slot n).finished f o packets remaining := by
  rw [State.finishFrame_eq hf, ← State.finishDown_slot]
  split
  · rw [State.notify_slot]
  · rfl

namespace State.Course

variable {s t u : State}

/-- The frame in hand of a slot changed, or dropped by it; one in hand keeps its position. -/
theorem modFrame (h : s.Course t) (n : Fin 8) {g : Slot → Slot} {f : Machine.Frame} (hf : (t.slot n).frame = some f)
    (heng : (g (t.slot n)).eng = (t.slot n).eng) (hmark : (g (t.slot n)).marking = (t.slot n).marking)
    (hpos : (g (t.slot n)).chunkPos = (t.slot n).chunkPos)
    (hframe : ∀ f', (g (t.slot n)).frame = some f' → f'.pos = f.pos) : s.Course (t.modSlot n g) :=
  h.modSlot n heng hmark fun _ hx =>
    .used (heng ▸ hx.outcomes) ((Slot.inUse_congr (Slot.geo_of_marking hmark) hpos).2 (hx.of_frame hf))
      fun f' hf' => hframe f' hf' ▸ hx.frame f hf

/-- The frame in hand, if any, changed but for its position. -/
theorem mapFrame (h : s.Course t) (n : Fin 8) {g : Slot → Slot} {k : Machine.Frame → Machine.Frame}
    (hk : ∀ f, (k f).pos = f.pos) (heng : (g (t.slot n)).eng = (t.slot n).eng) (hmark : (g (t.slot n)).marking = (t.slot n).marking)
    (hchunk : (g (t.slot n)).chunk = (t.slot n).chunk)
    (hpos : (g (t.slot n)).chunkPos = (t.slot n).chunkPos) (hframe : (g (t.slot n)).frame = (t.slot n).frame.map k) :
    s.Course (t.modSlot n g) := by
  cases hf : (t.slot n).frame with
  | none => exact h.modAlike n ⟨heng, hmark, by rw [hframe, hf]; rfl, hchunk, hpos⟩
  | some f =>
    refine h.modFrame n hf heng hmark hpos fun f' hf' => ?_
    rw [hframe, hf] at hf'
    cases hf'
    exact hk f

theorem recoveryRaise (h : s.Course t) (e : Fin 64) (seq stamp : Nat) : s.Course (t.recoveryRaise e seq stamp) := by
  unfold State.recoveryRaise
  exact ite ((h.modEntry e _).derive e) h

theorem advanceMoveMark (h : s.Course t) (e : Fin 64) : s.Course (t.advanceMoveMark e) := h.modEntry e _

theorem countDelivered (h : s.Course t) (n : Fin 8) (count : Nat) : s.Course (t.countDelivered n count) := by
  unfold State.countDelivered
  exact (h.mapFrame n (k := fun f => { f with worked := f.worked + 1, packets := f.packets + count }) (fun _ => rfl) rfl rfl
    rfl rfl rfl).advanceA n count

theorem drainDeliver (h : s.Course t) (n : Fin 8) : s.Course (t.drainDeliver n) := by
  unfold State.drainDeliver
  split
  next m base pos count key gen seq expect winBase winSize winPos hf =>
    split
    · dsimp only
      split
      · have hw : s.Course (({ t with flight := none } : State).runWork _).1 := h.flightWork hf
        split
        next u hu =>
          rw [hu] at hw
          exact hw.countDelivered n count
        next u hu =>
          rw [hu] at hw
          exact hw
      · exact h.noFlight
    · exact h
  · exact h

theorem readFrameTag (h : s.Course t) (n : Fin 8) : s.Course (t.readFrameTag n) := by
  unfold State.readFrameTag
  split
  next f hf =>
    refine ite (h.modFrame n hf rfl rfl rfl ?_) h
    rintro f' ⟨⟩
    rfl
  · exact h

theorem drainVerify (h : s.Course t) (n : Fin 8) : s.Course (t.drainVerify n) := by
  unfold State.drainVerify
  exact ite (h.noFlight.readFrameTag n) h

theorem finishFrame (h : s.Course t) (n : Fin 8) (o : FrameOutcome) (packets remaining : Nat) (notice : Bool) :
    s.Course (t.finishFrame n o packets remaining notice) := by
  unfold State.finishFrame
  split
  · exact h
  next f hf =>
    extract_lets x entry s1 s2 s3 s4 s5 y
    have h1 : s.Course s2 := h.rework n (fun hs g hg => ?_) (fun _ g _ hg => Engine.agrees_outcome _ _ _ g hg) (.of_marking rfl)
      fun _ hx => ?_
    · have h3 : s.Course s3 := h1.advanceB n 1
      have h4 : s.Course s4 := ite (h3.setAlike n ⟨rfl, rfl, rfl⟩ (Engine.agrees_chunksDone _ _) (by simp)) h3
      have h5 : s.Course s5 := ite (h4.setAlike n ⟨rfl, rfl, rfl⟩ (Engine.agrees_lastRemaining _ _) (by simp)) h4
      exact ite (h5.notify _) h5
    · have hx := ((State.positionsOk_iff _).1 (h.positions hs)).1 n
      rw [List.mem_singleton.1 hg]
      rintro p ⟨⟩
      exact hx.frame f hf
    · obtain ⟨hlo, hhi, -⟩ := hx.of_frame hf
      exact .used ((List.length_set ..).trans hx.outcomes) ⟨hlo, hhi, Nat.mod_lt _ hlo⟩ nofun

theorem endPlay (h : s.Course t) (n : Fin 8) : s.Course (t.endPlay n) := by
  have hi := h.toIdle n
  exact ((hi.onBound fun e => ite (hi.judgeLastView e) hi).completeOrder n _).notify _

theorem completeMove (h : s.Course t) (n : Fin 8) (e : Fin 64) : s.Course (t.completeMove n e) := by
  unfold State.completeMove
  exact (((ite (h.modEntry e _) (h.endMove e)).toIdle n |>.completeOrder n _).completeOrder n _).notify _

theorem quitMove (h : s.Course t) (n : Fin 8) : s.Course (t.quitMove n) :=
  (h.toIdle n).onBound fun e => (h.toIdle n).endMove e

/-- What follows a finish, on a slot that stands at a position. -/
theorem afterFinish (h : s.Course t) (n : Fin 8) (hx : s.positionsOk → (t.slot n).inUse) : s.Course (t.afterFinish n) := by
  unfold State.afterFinish
  dsimp only
  split
  · split
    · exact h.completeMove n _
    · split
      · exact ((h.quitMove n).completeOrder n _).notify _
      · exact h.setSlotState n _ fun hs _ => hx hs
  · split
    · exact h.endPlay n
    · exact h.setSlotState n _ fun hs _ => hx hs

theorem endFrame (h : s.Course t) (n : Fin 8) (o : FrameOutcome) (packets remaining : Nat) :
    s.Course (t.endFrame n o packets remaining) := by
  unfold State.endFrame
  split
  · exact h
  next hf =>
    obtain ⟨f, hf⟩ := Option.ne_none_iff_exists'.1 hf
    refine (h.finishFrame n o packets remaining true).afterFinish n fun hs => ?_
    obtain ⟨hlo, hhi, -⟩ := (((State.positionsOk_iff _).1 (h.positions hs)).1 n).of_frame hf
    rw [State.finishFrame_slot hf]
    exact ⟨hlo, hhi, Nat.mod_lt _ hlo⟩

theorem playNext (h : s.Course t) (n : Fin 8) : s.Course (t.playNext n) := by
  unfold State.playNext
  dsimp only
  split
  next hf =>
    have stands (st : SlotState) : s.Course (t.setSlotState n st) := h.setSlotState n st fun _ hx => hx.of_frame hf
    exact ite (stands _) (ite (h.endFrame n _ _ _) (stands _))
  · exact h

theorem moveNext (h : s.Course t) (n : Fin 8) : s.Course (t.moveNext n) := by
  unfold State.moveNext
  dsimp only
  split
  next hf => exact ite h (ite (h.endFrame n _ _ _) (h.setSlotState n _ fun _ hx => hx.of_frame hf))
  · exact h

theorem permitFrame (h : s.Course t) (n : Fin 8) (e : Fin 64) (g : Segment) (tag : TagRead) (remaining : Nat) :
    s.Course (t.permitFrame n e g tag remaining) := by
  have hallow : s.Course (t.modSlot n fun y => { y with frame := y.frame.map fun f => { f with permit := some remaining } }) :=
    h.mapFrame n (k := fun f => { f with permit := some remaining }) (fun _ => rfl) rfl rfl rfl rfl rfl
  unfold State.permitFrame
  dsimp only
  split
  · exact hallow.playNext n
  · exact ite (hallow.moveNext n) ((h.advanceMoveMark e).endFrame n _ _ _)
  · exact h.endFrame n _ _ _

theorem frameVerified (h : s.Course t) (n : Fin 8) (e : Fin 64) (tag : TagRead) (raiseDue : Bool) :
    s.Course (t.frameVerified n e tag raiseDue) := by
  unfold State.frameVerified
  extract_lets s1 x
  have h1 : s.Course s1 := ite (h.recoveryRaise e _ _) h
  split
  next s2 _ _ g _ _ =>
    extract_lets s3
    have h2 : s.Course s2 := h1.of_rfl rfl
    have h3 : s.Course s3 := by
      unfold s3
      split
      · exact h2.endFrame n _ _ _
      · exact h2.permitFrame n e g tag _
    exact ite h3.judgeAll h3
  · exact h1.endFrame n _ _ _

theorem faultFrameSlot (h : s.Course t) (n : Fin 8) (f : SlotFault) : s.Course (t.faultFrameSlot n f) := by
  have hf := (h.drainDeliver n).toFaulted n f
  exact hf.onBound fun e => ite (hf.judgeLastView e) (ite (hf.endMove e) hf)

theorem faultSlot (h : s.Course t) (n : Fin 8) (f : SlotFault) : s.Course (t.faultSlot n f) := by
  unfold State.faultSlot
  exact ite (h.faultRecord n f) (h.faultFrameSlot n f)

/-- The frame at the slot's position becomes the frame in hand. -/
theorem takeFrame (h : s.Course t) (n : Fin 8) (hst : (t.slot n).eng.state = .waiting) : s.Course (t.takeFrame n) := by
  refine (h.modSlot n rfl rfl fun _ hx => ?_).setStateUsed n _ (by simp [hst]) (by simp [hst])
  have hu := hx.of_state (by simp [hst]) (by simp [hst])
  refine .used hx.outcomes hu ?_
  rintro f ⟨⟩
  exact hu.2.2.trans_le hu.2.1

theorem verifyRange (h : s.Course t) (n : Fin 8) (e : Fin 64) {f₀ : Machine.Frame} (hf₀ : (t.slot n).frame = some f₀)
    (f : Machine.Frame) (hpos : f.pos = f₀.pos) (tag : TagRead) : s.Course (t.verifyRange n e f tag) := by
  have fed (bytes : List Byte) : s.Course (t.modSlot n fun x => { x with frame := some (f.feedRange bytes) }) := by
    refine h.modFrame n hf₀ rfl rfl rfl ?_
    rintro f' ⟨⟩
    exact hpos
  unfold State.verifyRange
  dsimp only
  split
  · exact ite (fed _) (ite ((fed _).frameVerified n e tag _) ((fed _).endFrame n _ _ _))
  · exact h.faultFrameSlot n _

theorem verifyFrame (h : s.Course t) (n : Fin 8) (e : Fin 64) {f : Machine.Frame} (hf : (t.slot n).frame = some f) :
    s.Course (t.verifyFrame n e f) := by
  unfold State.verifyFrame
  dsimp only
  split
  · exact h.verifyRange n e hf f rfl _
  · split
    · split
      · refine (h.modFrame n hf rfl rfl rfl ?_).endFrame n _ _ _
        rintro f' ⟨⟩
        rfl
      · refine h.verifyRange n e hf _ ?_ _
        rfl
    · exact h.faultFrameSlot n _

theorem delivered (h : s.Course t) (n : Fin 8) (count : Nat) : s.Course (t.delivered n count) := by
  have hc := h.countDelivered n count
  unfold State.delivered
  dsimp only
  split
  · exact ite (hc.playNext n) (hc.endFrame n _ _ _)
  · exact hc

theorem badRange (h : s.Course t) (n : Fin 8) : s.Course (t.badRange n) := h.endFrame n _ _ _

theorem resealed (h : s.Course t) (n : Fin 8) (token : Key) (bytes : List Byte) : s.Course (t.resealed n token bytes) :=
  h.mapFrame n (k := fun f => { f with worked := f.worked + 1, outChain := f.outChain.feed (frameCheckKey token) bytes })
    (fun _ => rfl) rfl rfl rfl rfl rfl

theorem reserveOutput (h : s.Course t) (n : Fin 8) {f : Machine.Frame} (hf : (t.slot n).frame = some f) :
    s.Course (t.reserveOutput n) := by
  have h1 := h.mapFrame n (g := fun x =>
      { x with frame := x.frame.map fun f => { f with reserved := some x.outPos, outChain := Chain.start } })
    (k := fun f => { f with reserved := some (t.slot n).outPos, outChain := Chain.start }) (fun _ => rfl) rfl rfl rfl rfl rfl
  refine h1.setSlotState n _ fun _ hx => ?_
  rw [State.slot_modSlot_self] at hx ⊢
  exact hx.of_frame (congrArg (Option.map _) hf)

theorem putOutput (h : s.Course t) (n : Fin 8) (e : Fin 64) (count remaining : Nat) :
    s.Course (t.putOutput n e count remaining) := by
  have h1 : s.Course (t.modSlot n fun x => { x with outPos := (x.outPos + 1) % x.geo.outFrames }) :=
    h.modAlike n ⟨rfl, rfl, rfl, rfl, rfl⟩
  exact ((h1.advanceC n 1).advanceMoveMark e).endFrame n _ _ _

theorem finalResealed (h : s.Course t) (n : Fin 8) : s.Course (t.finalResealed n) := by
  unfold State.finalResealed
  split
  · exact ite (h.putOutput n _ _ _) h
  · exact h

end State.Course
end Sys2Proof.Machine
end

