-- ==== Sys2Proof/Proofs/CourseOrders.lean ====
section
/-! Proofs: the course of orders, sweeps and images. -/

namespace Sys2Proof.Machine

/-! ## Accepted OPENs -/

theorem SlotField.placed_of_open : ∀ f ∈ openFields, f.placed := fun _ hf p hp => openFields_outcome p (hp ▸ hf)

/-- An accepted OPEN sets every field but those of the order. -/
theorem Engine.agrees_opened (g : Engine) (st : SlotState) (e : Fin 64) (b : Bool) (mA mB mC : Mark) {f : SlotField}
    (hf : f.placed) (hn : f ∉ openFields) : (g.opened st e b mA mB mC).fieldAt f = g.fieldAt f := by
  cases f with
  | outcome p => exact absurd (List.mem_append_right _ (List.mem_map_of_mem (List.mem_range.2 (hf p rfl)))) hn
  | _ => first | rfl | exact absurd (by simp [openFields]) hn

theorem ahead_self (m : Mark) : ahead m m = 0 := by simp [ahead]

/-- Where the marks are those of the view, they stand within their limits. -/
theorem Slot.Marked.of_views {x y : Slot} (hA : y.eng.markA = y.viewA) (hB : y.eng.markB = y.viewB)
    (hC : y.mode = .move → y.eng.markC = y.viewC) : x.Marked y := by
  refine ⟨.of_limit ?_, .of_limit ?_, .of_limit ?_⟩
  · unfold Slot.limitA
    cases hm : y.mode <;> simp [hA, ahead_self]
  · unfold Slot.limitB
    cases hm : y.mode <;> simp [hB, ahead_self]
  · unfold Slot.limitC
    cases hm : y.mode <;> simp
    simp [hC hm, ahead_self]

theorem geometryOk_frames {mode : Mode} {g : Geometry} {watch : List Watch} (h : geometryOk mode g watch = true) :
    frameCountOk g.frames = true := by
  unfold geometryOk at h
  cases mode with
  | off => cases h
  | check => exact h
  | _ =>
    simp only [Bool.and_eq_true] at h
    tauto

/-- The frame count of a slot record is as it was before an order was answered. -/
theorem State.answer_frames (s : State) (n : Fin 8) (number : Mark) (r : Result) :
    (s.answer n number r).slotField n 64 1 = s.slotField n 64 1 := by
  have hb : (s.answer n number r).slotAddr n = s.slotAddr n := by
    rw [State.slotAddr, State.slotAddr, State.boardBase_eq_of (s.answer_kept n number r)]
  unfold State.slotField
  rw [hb]
  refine congrArg ofLe (Memory.read_congr fun a h1 h2 => s.answer_outside n r number fun hin => ?_)
  have := hin.1
  omega

theorem State.checkRecordOpen_frames {s : State} {n : Fin 8} {e : Fin 64} (h : s.checkRecordOpen n = .ok e) :
    frameCountOk (s.slotField n 64 1) = true := by
  unfold State.checkRecordOpen at h
  dsimp only at h
  by_contra hg
  have hbad : geometryOk .record (s.readGeometry n .record (clampLength (s.slotField n 7 1))) (s.watchList n) = false :=
    Bool.eq_false_iff.2 fun hok => hg (geometryOk_frames hok)
  rw [hbad] at h
  split at h <;> [cases h; skip]
  split at h <;> cases h

theorem State.checkPlayOpen_frames {s : State} {n : Fin 8} {mode : Mode} {e : Fin 64} (h : s.checkPlayOpen n mode = .ok e) :
    frameCountOk (s.slotField n 64 1) = true := by
  unfold State.checkPlayOpen at h
  by_contra hg
  have hbad : geometryOk mode (s.readGeometry n mode 0) [] = false :=
    Bool.eq_false_iff.2 fun hok => hg (geometryOk_frames hok)
  rw [hbad] at h
  split at h <;> [cases h; skip]
  split at h <;> cases h

theorem State.checkMoveOpen_frames {s : State} {n : Fin 8} {x : Fin 64 × Key} (h : s.checkMoveOpen n = .ok x) :
    frameCountOk (s.slotField n 64 1) = true := by
  unfold State.checkMoveOpen at h
  by_contra hg
  have hbad : geometryOk .move (s.readGeometry n .move 0) [] = false :=
    Bool.eq_false_iff.2 fun hok => hg (geometryOk_frames hok)
  rw [hbad] at h
  split at h <;> [cases h; skip]
  split at h <;> cases h

namespace State.Course

variable {s t u : State}

/-- A slot set up by an accepted OPEN. -/
theorem opened (h : s.Course t) (n : Fin 8) {y : Slot} {st : SlotState} {e : Fin 64} {b : Bool} {mA mB mC : Mark}
    (heng : y.eng = (t.slot n).eng) (hframes : frameCountOk y.geo.frames = true) (hpos : y.chunkPos = 0) (hframe : y.frame = none)
    (hA : mA = y.viewA) (hB : mB = y.viewB) (hC : y.mode = .move → mC = y.viewC) :
    s.Course ((t.setSlot n y).setEngine n (fun g => g.opened st e b mA mB mC) openFields) := by
  refine h.rework n (g := fun _ => y) (fun _ => SlotField.placed_of_open) (fun _ f hf hn => ?_) (.of_views hA hB hC) fun _ _ => ?_
  · rw [heng]
    exact Engine.agrees_opened _ _ _ _ _ _ _ hf hn
  · have hcount := of_decide_eq_true hframes
    refine .used rfl ⟨by dsimp only; omega, hcount.2, ?_⟩ (fun f hf => ?_)
    · show y.chunkPos < y.geo.frames
      omega
    · have : y.frame = some f := hf
      rw [hframe] at this
      cases this

theorem acceptRecord (h : s.Course t) (n : Fin 8) (e : Fin 64) (hframes : frameCountOk (t.slotField n 64 1) = true) :
    s.Course (t.acceptRecord n e) := by
  unfold State.acceptRecord
  extract_lets chunkLength g x y s1 s2 s3
  have h1 : s.Course s1 := h.modEntry e _
  have h3 : s.Course s3 := h1.opened n rfl hframes rfl rfl rfl rfl nofun
  clear_value s3
  exact (h3.of_rfl rfl : s.Course { s3 with waiting := s3.waiting ++ [n] }).derive e

theorem setUpFrameSlot (h : s.Course t) (n : Fin 8) (e : Fin 64) (mode : Mode) (token : Option Key) (served : Option Mark)
    (hframes : frameCountOk (t.slotField n 64 1) = true) : s.Course (t.setUpFrameSlot n e mode token served) := by
  unfold State.setUpFrameSlot
  extract_lets x g y s1
  exact h.opened n rfl hframes rfl rfl rfl rfl fun _ => rfl

theorem acceptPlay (h : s.Course t) (n : Fin 8) (e : Fin 64) (mode : Mode)
    (hframes : frameCountOk (t.slotField n 64 1) = true) : s.Course (t.acceptPlay n e mode) := by
  unfold State.acceptPlay
  have h1 := (h.setUpFrameSlot n e mode none none hframes).modEntry e fun x => { x with players := x.players ++ [n] }
  exact ite (h1.modEntry e _) h1

theorem openPlay (h : s.Course t) (n : Fin 8) (number : Mark) (mode : Mode) : s.Course (t.openPlay n number mode) := by
  unfold State.openPlay
  split
  · exact h.answer n number _
  next e hc =>
    refine (h.answer n number _).acceptPlay n e mode ?_
    rw [State.answer_frames]
    exact State.checkPlayOpen_frames hc

theorem acceptMove (h : s.Course t) (n : Fin 8) (e : Fin 64) (key : Key) (number : Mark)
    (hframes : frameCountOk (t.slotField n 64 1) = true) : s.Course (t.acceptMove n e key number) :=
  ((h.setUpFrameSlot n e .move (some key) (some number) hframes).modEntry e _).derive e

/-! ## CLOSE, ABORT and the other orders -/

theorem closeRecord (h : s.Course t) (n : Fin 8) (number : Mark) (hst : (t.slot n).eng.state ≠ .faulted) :
    s.Course (t.closeRecord n number) := by
  unfold State.closeRecord
  dsimp only
  split
  · exact h.answer n number _
  · exact h.answer n number _
  next hidle _ =>
    split
    · exact (h.answer n number _).finishRecording n
    · have h1 := (h.answer n number .none).modAlike n (g := fun y => { y with closeServed := some number, holdTimer := none })
        ⟨rfl, rfl, rfl, rfl, rfl⟩
      have hstate : (((t.answer n number .none).modSlot n fun y =>
          { y with closeServed := some number, holdTimer := none }).slot n).eng.state = (t.slot n).eng.state := by
        simp [Slot.answered]
      exact (h1.setStateUsed n _ (by rw [hstate]; exact hidle) (by rw [hstate]; exact hst)).settleClosing n

theorem abortRecord (h : s.Course t) (n : Fin 8) (number : Mark) : s.Course (t.abortRecord n number) := by
  unfold State.abortRecord
  have h1 := ((h.answer n number .done).completeTake n).toIdle n
  exact ite (h.answer n number _) (h1.onBound fun e => h1.endRecording e false)

theorem askFrameClose (h : s.Course t) (n : Fin 8) (number : Mark) : s.Course (t.askFrameClose n number) := by
  unfold State.askFrameClose
  exact (h.answer n number _).modAlike n ⟨rfl, rfl, rfl, rfl, rfl⟩

theorem closePlay (h : s.Course t) (n : Fin 8) (number : Mark) : s.Course (t.closePlay n number) := by
  unfold State.closePlay
  exact ite (h.answer n number _) (ite (h.answer n number _) (ite ((h.answer n number _).endPlay n)
    (ite (h.askFrameClose n number) ((h.askFrameClose n number).playNext n))))

theorem closeMove (h : s.Course t) (n : Fin 8) (number : Mark) : s.Course (t.closeMove n number) := by
  unfold State.closeMove
  exact ite (h.answer n number _) (ite (h.answer n number _) (ite (((h.answer n number _).quitMove n).notify _)
    ((h.askFrameClose n number).moveNext n)))

theorem abortPlay (h : s.Course t) (n : Fin 8) (number : Mark) : s.Course (t.abortPlay n number) := by
  unfold State.abortPlay
  have h1 := ((h.answer n number .done).drainVerify n).drainDeliver n
  refine ite (h.answer n number _) (onBound ((h1.finishFrame n _ _ _ _).toIdle n) fun e => ?_)
  exact ite (((h1.finishFrame n _ _ _ _).toIdle n).judgeLastView e) ((h1.finishFrame n _ _ _ _).toIdle n)

theorem abortMove (h : s.Course t) (n : Fin 8) (number : Mark) : s.Course (t.abortMove n number) := by
  unfold State.abortMove
  exact ite (h.answer n number _) ((((h.answer n number _).drainVerify n).finishFrame n _ _ _ _).quitMove n)

theorem answerRule (h : s.Course t) (n : Fin 8) (number : Mark) {effect : State → State}
    (hx : ∀ {u : State}, s.Course u → s.Course (effect u)) : s.Course (t.answerRule n number effect) := by
  unfold State.answerRule
  exact ite (hx (h.answer n number _)) (h.answer n number _)

theorem applyRule (h : s.Course t) (n : Fin 8) : s.Course (t.applyRule n) := by
  unfold State.applyRule
  extract_lets rule s1
  have h1 : s.Course s1 := h.askClose n
  split
  · exact h1
  next e _ => exact ite (ite (h1.modEntry e _) ((h1.modEntry e _).derive e)) h1

theorem applyRotate (h : s.Course t) (n : Fin 8) : s.Course (t.applyRotate n) := by
  unfold State.applyRotate
  split
  · exact h
  · exact ite (h.modEntry _ _) h

/-! ## Part orders -/

theorem timeReport (h : s.Course t) (report : Nat) : s.Course (t.timeReport report).1 := by
  have h1 : s.Course { t with votes := [] } := h.of_rfl rfl
  unfold State.timeReport
  split
  · exact h1
  · split
    · dsimp only
      exact h1.advanceClock _
    · unfold State.voteReport
      dsimp only
      split <;> dsimp only
      · exact h.of_rfl rfl
      · exact (h1.raise _).advanceClock _

theorem eraseEntry (h : s.Course t) (number : Mark) (recording : Nat) : s.Course (t.eraseEntry number recording) := by
  unfold State.eraseEntry
  refine ite (h.answerPart _ _ _) (ite (h.answerPart _ _ _) ?_)
  split
  · exact h.answerPart _ _ _
  next e _ => exact ite ((h.freeEntry e).answerPart _ _ _) (h.answerPart _ _ _)

theorem handOver (h : s.Course t) {n : Fin 8} {e : Fin 64} (hb : (t.slot n).boundEntry = some e) (k₁ k₂ : Key)
    (rest : List Key) : s.Course (t.handOver n e k₁ k₂ rest) := by
  unfold State.handOver
  extract_lets s1
  have h1 : s.Course s1 := h.of_rfl rfl
  exact (h1.modEntry e _).setSlotState n _ fun _ hx => hx.of_bound hb

theorem endImage (h : s.Course t) (number : Option Mark) (r : Result) (detail : Nat) :
    s.Course (t.endImage number r detail) := by
  unfold State.endImage
  exact (h.of_rfl rfl : s.Course { t with image := none }).completePart _ _ _

theorem judgeImage (h : s.Course t) (number : Option Mark) (header : List Byte) (staging : List (List Byte)) (chain : Chain) :
    s.Course (t.judgeImage number header staging chain) := by
  unfold State.judgeImage
  refine ite (h.endImage _ _ _) (ite (h.endImage _ _ _) ?_)
  unfold State.completeLoad
  extract_lets gen s1
  have h1 : s.Course s1 := h.of_rfl rfl
  have loaded {v : State} (hv : s.Course v) : s.Course (({ v with ready := true } : State).endImage number .done gen) :=
    (hv.of_rfl rfl : s.Course { v with ready := true }).endImage _ _ _
  exact loaded h1.deriveAll

/-! ## Sweeps (R57) -/

/-- Writes into the engine parts of the board that show a field or leave it. -/
theorem recordTo (h : s.Course t) {w : Writes}
    (hin : s.positionsOk → ∀ a, ¬ t.inBoard a → ∀ b ∈ w, a < b.1 ∨ b.1 + b.2.length ≤ a)
    (hfields : s.positionsOk → ∀ F : BoardField, F.placed → (t.recorded w).shows F ∨ t.leaves (t.recorded w) F) :
    s.Course (t.recorded w) := by
  refine ⟨h.part, h.base, h.windows, h.flight, h.marks, h.positions, fun hs a ha => ?_, fun hs hr hw F hF => ?_⟩
  · rw [← h.memory hs a ha]
    refine Memory.get_recorder_outside (hin hs a fun hb => ha ?_) t.mem
    rw [State.inBoard_congr h.base] at hb
    exact State.inBoard_mayWrite hb
  · rcases hfields hs F hF with hshows | hleaves
    · exact .inl hshows
    · exact (h.fields hs hr hw F hF).imp hleaves.shows (State.leaves.trans · hleaves)

/-- The held writes made at the start of a sweep. -/
theorem flushHeld (h : s.Course t) : s.Course t.flushHeld := by
  rw [State.flushHeld_eq]
  have ok (hs : s.positionsOk) : t.outcomesOk ∧ t.heldOk := ⟨(h.positions hs).outcomesOk, (h.positions hs).heldOk⟩
  have h1 : s.Course (t.recorded t.flushWrites) := by
    refine h.recordTo (fun hs a ha => State.flushWrites_inBoard (ok hs).1 (ok hs).2 ha) fun hs F hF => ?_
    have haccess := congrFun (t.boardAccess_recorded t.flushWrites) F
    refine (State.flush_field (ok hs).1 (ok hs).2 t.mem hF).imp (fun hh => ?_) fun ⟨_, _, hread⟩ => ⟨haccess, hread⟩
    unfold State.shows
    rw [haccess]
    exact hh
  generalize t.recorded t.flushWrites = v at h1
  exact h1.of_same rfl rfl nofun rfl rfl rfl rfl rfl fun f hf => ⟨f, hf, rfl⟩

theorem beginSweep (h : s.Course t) : s.Course t.beginSweep := by
  unfold State.beginSweep
  have h1 := h.flushHeld
  generalize t.flushHeld = v at h1 ⊢
  exact h1.of_rfl rfl

theorem requestSweep (h : s.Course t) : s.Course t.requestSweep := by
  unfold State.requestSweep
  split
  · exact h.beginSweep
  · exact h.of_rfl rfl

theorem compareOrder (h : s.Course t) (n : Fin 8) : s.Course (t.compareOrder n) := by
  unfold State.compareOrder
  exact ite (h.of_rfl rfl) (h.of_rfl rfl)

/-- The refresh of a slot whose recorder marks have been read. -/
theorem refreshRead (h : s.Course t) (n : Fin 8) :
    s.Course (if (t.slot n).marksBad then t.faultSlot n .mark
      else
        let u := t.advance n Slot.caughtUp
        match (u.slot n).mode with
        | .record => u.refreshRecord n
        | .play => if u.inFlightFor n then u else u.playNext n
        | .move => u.moveNext n
        | _ => u) := by
  have h2 := h.caughtUp n
  refine ite (h.faultSlot n _) ?_
  dsimp only
  split
  next hm => exact h2.refreshRecord n hm
  · exact ite h2 (h2.playNext n)
  · exact h2.moveNext n
  · exact h2

/-- The directory and the mirrors reach no field of the board. -/
theorem endWrites_apart {b : Nat × List Byte} (hb : b ∈ t.endWrites) {F : BoardField} (hF : F.placed) :
    blocksApart b (t.boardAccess F) := by
  have hspan := Prod.ext_iff.1 (t.boardAccess_span F)
  simp only at hspan
  have range : (128 ≤ F.span.1 ∧ F.span.1 + F.span.2 ≤ 144) ∨ (157 ≤ F.span.1 ∧ F.span.1 + F.span.2 ≤ 164) ∨
      2048 ≤ F.span.1 := by
    cases F with
    | slot n f =>
      have := f.span_range hF
      exact .inr (.inr (by simp only [BoardField.span]; omega))
    | header f => cases f <;> decide
  unfold blocksApart
  rw [hspan.1, hspan.2]
  rcases State.endWrites_cases hb with ⟨d, -, rfl⟩ | hb
  · have := d.isLt
    simp only [State.dirBlock, DirValues.length_image]
    omega
  · have := State.mirror_range hb
    omega

theorem endSweep (h : s.Course t) : s.Course t.endSweep := by
  have h1 : s.Course (t.recorded t.endWrites) := by
    refine h.recordTo (fun _ a ha => State.endWrites_inHeader fun hh => ha (.inr hh)) fun _ F hF => .inr ⟨?_, ?_⟩
    · exact congrFun (t.boardAccess_recorded t.endWrites) F
    · exact Memory.read_recorder_apart fun b hb => endWrites_apart hb hF
  obtain ⟨d, heq, -⟩ := t.ended_eq
  unfold State.endSweep
  rw [heq]
  generalize t.recorded t.endWrites = v at h1
  have h2 : s.Course { v with directory := d, sweepCount := t.sweepCount + 1, sweep := none } := h1.of_rfl rfl
  generalize ({ v with directory := d, sweepCount := t.sweepCount + 1, sweep := none } : State) = x at h2
  exact ite (h2.of_rfl rfl : s.Course { x with sweepPending := false }).beginSweep h2

end State.Course

end Sys2Proof.Machine
end

