-- ==== Sys2Proof/Proofs/StepCourse.lean ====
section
/-! Proofs: a step moves engine marks within their limits, writes within the board and the held windows, and shows the
fields that it changes, command by command (R48, R54, R63, R64). -/

namespace Sys2Proof.Machine

/-- Every mark that a change of the slot moves stands within its limit afterwards. -/
structure Slot.Moved (x y : Slot) : Prop where
  markA : y.eng.markA ≠ x.eng.markA → y.limitA
  markB : y.eng.markB ≠ x.eng.markB → y.limitB
  markC : y.eng.markC ≠ x.eng.markC → y.limitC

/-- What a step keeps, with the recorder's writes that came with it. -/
structure State.Stepped (s t : State) (w : Writes) : Prop where
  marks : ∀ n, (s.slot n).Moved (t.slot n)
  positions : s.positionsOk → t.positionsOk
  memory : s.positionsOk → ∀ a, ¬ s.mayWrite a → t.mem.get a = (s.mem.recorder w).get a
  fields : s.positionsOk → s.part ≠ .stopped → t.part ≠ .stopped → s.workApart → ∀ F : BoardField, F.placed →
    t.boardAccess F ≠ s.boardAccess F → t.shows F

/-- The state from which the course of a command runs: recorder memory is as the recorder wrote it, recorder marks may have
been read, and writes of a SAVE or a QUERY may have been made. -/
structure State.Begins (s u : State) (w : Writes) : Prop where
  eng : ∀ n, (u.slot n).eng = (s.slot n).eng
  header : u.header = s.header
  part : u.part = s.part
  base : u.boardBase = s.boardBase
  windows : u.windows = s.windows
  flight : ∀ f, u.flight = some f → ∃ g, s.flight = some g ∧ g.work = f.work
  positions : s.positionsOk → u.positionsOk
  memory : ∀ a, ¬ s.mayWrite a → u.mem.get a = (s.mem.recorder w).get a

theorem Slot.Marked.of_eng {x y z : Slot} (h : y.Marked z) (he : y.eng = x.eng) : x.Moved z :=
  ⟨fun hne => h.markA.moved (he ▸ hne), fun hne => h.markB.moved (he ▸ hne), fun hne => h.markC.moved (he ▸ hne)⟩

/-- A slot without a mode has no limits to keep. -/
theorem Slot.Marked.of_unlimited {x y z : Slot} (h : y.Marked z) (hm : y.mode = .off) : x.Moved z := by
  refine ⟨fun _ => h.markA.keeps ?_, fun _ => h.markB.keeps ?_, fun _ => h.markC.keeps ?_⟩ <;>
    simp [Slot.limitA, Slot.limitB, Slot.limitC, hm]

namespace State.Stepped

variable {s t u : State} {w : Writes}

/-- A course from where a command begins. -/
theorem of_course (hb : s.Begins u w) (h : u.Course t) : s.Stepped t w where
  marks n := (h.marks n).of_eng (hb.eng n)
  positions hs := h.positions (hb.positions hs)
  memory hs a ha := by
    rw [← hb.memory a ha]
    refine h.memory (hb.positions hs) a ?_
    rwa [State.mayWrite_congr hb.base hb.windows]
  fields hs hr _ hw F hF hne := by
    have hu : u.workApart := by
      intro f m a hf ha
      obtain ⟨g, hg, hgf⟩ := hb.flight f hf
      have := hw g m a hg (State.inBoard_congr hb.base ▸ ha)
      rwa [State.workAccesses_congr (s := { s with mem := m }) (t := { u with mem := m }) hb.windows rfl, ← hgf]
    refine (h.fields (hb.positions hs) (by rwa [hb.part]) hu F hF).resolve_right fun ⟨haccess, _⟩ => hne ?_
    rw [haccess]
    cases F with
    | slot n f => simp only [State.boardAccess, State.slotAddr, hb.base, hb.eng]
    | header f => simp only [State.boardAccess, hb.base, hb.header]

/-- A step that leaves the slots and the board as they are. -/
theorem of_still (hslots : t.slots = s.slots) (hheader : t.header = s.header) (hheld : t.held = s.held)
    (hmem : t.mem = s.mem.recorder w) (hbase : t.part = .stopped ∨ t.boardBase = s.boardBase) : s.Stepped t w := by
  have hslot (n : Fin 8) : t.slot n = s.slot n := by simp [State.slot, hslots]
  refine ⟨fun n => ⟨fun h => absurd (by rw [hslot]) h, fun h => absurd (by rw [hslot]) h, fun h => absurd (by rw [hslot]) h⟩,
    fun hs => ?_, fun _ a _ => by rw [hmem], fun _ _ ht _ F _ hne => absurd ?_ hne⟩
  · rw [State.positionsOk_iff] at hs ⊢
    exact ⟨fun n => hslot n ▸ hs.1 n, fun F hF => hs.2 F (hheld ▸ hF)⟩
  · have hbase := hbase.resolve_left ht
    cases F <;> simp [State.boardAccess, State.slotAddr, hbase, hslot, hheader]

end State.Stepped

namespace State.Begins

variable {s u v : State} {w : Writes}

theorem refl (s : State) : s.Begins s [] :=
  ⟨fun _ => rfl, rfl, rfl, rfl, rfl, fun f hf => ⟨f, hf, rfl⟩, id, fun _ _ => rfl⟩

theorem recorded (s : State) (w : Writes) : s.Begins (s.recorded w) w :=
  ⟨fun _ => rfl, rfl, rfl, rfl, rfl, fun f hf => ⟨f, hf, rfl⟩, id, fun _ _ => rfl⟩

/-- Checked writes of a SAVE or a QUERY leave the cipher, the image operation or the query behind. -/
theorem checked (h : s.Begins u w) {accs : List (Nat × List Byte)}
    (hv : (v.slots, v.header, v.held, v.part, v.baseLow, v.baseHigh, v.windows, v.mem) =
      (u.slots, u.header, u.held, u.part, u.baseLow, u.baseHigh, u.windows, (writeAccesses u.windows u.mem accs).1))
    (hf : v.flight = none ∨ v.flight = u.flight) : s.Begins v w := by
  simp only [Prod.mk.injEq] at hv
  obtain ⟨hslots, hheader, hheld, hpart, hlow, hhigh, hwin, hmem⟩ := hv
  have hslot (n : Fin 8) : v.slot n = u.slot n := by simp [State.slot, hslots]
  have hbase : v.boardBase = u.boardBase := by simp [State.boardBase, hlow, hhigh]
  refine ⟨fun n => by rw [hslot, h.eng], hheader.trans h.header, hpart.trans h.part, hbase.trans h.base, hwin.trans h.windows,
    fun f hvf => ?_, fun hs => ?_, fun a ha => ?_⟩
  · rcases hf with hf | hf
    · rw [hf] at hvf
      cases hvf
    · exact h.flight f (hf ▸ hvf)
  · have hu := (State.positionsOk_iff _).1 (h.positions hs)
    exact (State.positionsOk_iff _).2 ⟨fun n => hslot n ▸ hu.1 n, fun F hF => hu.2 F (hheld ▸ hF)⟩
  · rw [hmem, ← h.memory a ha]
    refine writeAccesses_confined (State.mayWrite_windows ?_) _ _
    rwa [State.mayWrite_congr h.base h.windows]

/-- The recorder marks of a slot read into its view. -/
theorem read (h : s.Begins u w) (n : Fin 8) :
    s.Begins (u.setSlot n (u.readMarks n (u.slot n).mode (u.slot n))) w := by
  refine ⟨fun m => ?_, h.header, h.part, h.base, h.windows, h.flight, fun hs => ?_, h.memory⟩
  · rw [State.slot_setSlot]
    split
    next hm => subst hm; exact h.eng m
    · exact h.eng m
  · have hu := (State.positionsOk_iff _).1 (h.positions hs)
    refine (State.positionsOk_iff _).2 ⟨fun m => ?_, hu.2⟩
    rw [State.slot_setSlot]
    split
    · exact ⟨(hu.1 n).outcomes, (hu.1 n).position, (hu.1 n).frame⟩
    · exact hu.1 m

end State.Begins

namespace State.Course

variable {s t : State}

theorem takeOrder (h : s.Course t) {row : OrderKind → Mode → Slot → Bool} {effect : State → Fin 8 → Mark → State}
    (hx : ∀ n number kind mode, row kind mode (t.slot n) = true → s.Course (effect t n number)) :
    s.Course (t.takeOrder row effect) := by
  unfold State.takeOrder
  split
  next n number _ =>
    split
    next hrow =>
      have h1 := hx n number _ _ hrow
      generalize effect t n number = v at h1
      exact h1.of_rfl rfl
    · exact h
  · exact h

theorem takePartOrder (h : s.Course t) {kind : PartOrderKind} {effect : State → Mark → State}
    (hx : ∀ number, s.Course (effect t number)) : s.Course (t.takePartOrder kind effect) := by
  unfold State.takePartOrder
  have h1 := hx t.partOrderNumber
  generalize effect t t.partOrderNumber = v at h1
  exact ite (h1.of_rfl rfl) h

end State.Course

namespace State.Stepped

variable {s t : State}

theorem of_withWrites {w : Writes} {effect : State → State} (hx : ∀ r : State, r.Course (effect r))
    (h : withWrites w s effect = .next t) : s.Stepped t w := by
  obtain ⟨-, rfl⟩ := withWrites_next.1 h
  exact of_course (.recorded s w) (hx _)

theorem of_order {w : Writes} {row : OrderKind → Mode → Slot → Bool} {effect : State → Fin 8 → Mark → State}
    (hx : ∀ (r : State) n number, r.Course (effect r n number)) (h : withWrites w s (fun s => s.takeOrder row effect) = .next t) :
    s.Stepped t w := of_withWrites (fun r => (Course.refl r).takeOrder fun n number _ _ _ => hx r n number) h

theorem of_partOrder {w : Writes} {kind : PartOrderKind} {effect : State → Mark → State}
    (hx : ∀ (r : State) number, r.Course (effect r number))
    (h : withWrites w s (fun s => s.takePartOrder kind effect) = .next t) : s.Stepped t w :=
  of_withWrites (fun r => (Course.refl r).takePartOrder fun number => hx r number) h

theorem of_plain (h : s.Course t) : s.Stepped t [] := of_course (.refl s) h

/-! ## Resets, registers and sweeps -/

end State.Stepped

/-- A reset cuts writes off within held writable windows. -/
theorem State.cutMemory_confined {s : State} {a : Nat} (ha : ¬ s.mayWrite a) (made queryMade : Nat) :
    (s.cutMemory made queryMade).get a = s.mem.get a := by
  have hw := State.mayWrite_windows ha
  unfold State.cutMemory
  dsimp only
  split
  · split
    · rfl
    · exact cutAccesses_confined hw _ _ _
  · rw [cutAccesses_confined hw]
    split
    · rfl
    · exact cutAccesses_confined hw _ _ _

theorem Slot.placed_reset : Slot.reset.Placed := .rest rfl ⟨.inl rfl, rfl, rfl⟩

theorem State.engineCleared_slot (s : State) (mem : Memory) (n : Fin 8) : (s.engineCleared mem).slot n = Slot.reset := by
  simp [State.slot, State.engineCleared]

/-- A CLOSE or ABORT in a mode's row is on no FAULTED slot (R59). -/
theorem Slot.answeredBy_unfaulted {x : Slot} {modes : List Mode} (h : x.answeredBy modes = true) :
    x.eng.state ≠ .faulted := by
  intro hst
  simp [Slot.answeredBy, hst] at h

namespace State.Stepped

variable {s t : State}

theorem exec_fullReset {a b : Nat} (h : exec (.fullReset a b) s = .next t) : s.Stepped t [] := by
  cases h
  refine ⟨fun n => ?_, fun _ => ?_, fun _ c hc => s.cutMemory_confined hc a b, fun _ _ ht => absurd rfl ht⟩
  · show (s.slot n).Moved (State.reset.slot n)
    rw [State.slot_reset]
    exact Slot.Marked.of_unlimited (.refl _) rfl
  · refine (State.positionsOk_iff _).2 ⟨fun n => ?_, nofun⟩
    show (State.reset.slot n).Placed
    rw [State.slot_reset]
    exact Slot.placed_reset

theorem exec_engineReset {v : BitVec 32} {a b : Nat} (h : exec (.engineReset v a b) s = .next t) : s.Stepped t [] := by
  simp only [exec, execEngineReset] at h
  split at h
  · obtain rfl := Host.Outcome.next.inj h
    generalize hu : (s.loadControl v).engineCleared (s.cutMemory a b) = u
    have hslot (n : Fin 8) : u.slot n = Slot.reset := by rw [← hu, State.engineCleared_slot]
    have hmem : u.mem = s.cutMemory a b := by rw [← hu]; rfl
    have hpart : u.part = .stopped := by rw [← hu]; rfl
    have hheld : u.held = [] := by rw [← hu]; rfl
    have hwin : u.windows = [] := by rw [← hu]; rfl
    have hbase : u.boardBase = s.boardBase := by rw [← hu]; rfl
    have hok : u.positionsOk := (State.positionsOk_iff _).2
      ⟨fun n => hslot n ▸ Slot.placed_reset, fun F hF => by rw [hheld] at hF; cases hF⟩
    have hc : u.Course u.deriveAll := (Course.refl u).deriveAll
    refine ⟨fun n => (hc.marks n).of_unlimited (by rw [hslot]; rfl), fun _ => hc.positions hok, fun _ c hcw => ?_,
      fun _ _ ht => absurd (hc.part.trans hpart) ht⟩
    have hout : ¬ u.mayWrite c := by
      rintro (hrec | hhead | ⟨x, hx, -⟩)
      · exact hcw (State.inBoard_mayWrite (State.inBoard_congr hbase ▸ .inl hrec))
      · exact hcw (State.inBoard_mayWrite (State.inBoard_congr hbase ▸ .inr hhead))
      · rw [hwin] at hx
        cases hx
    rw [hc.memory hok c hout, hmem]
    exact s.cutMemory_confined hcw a b
  · cases h

theorem exec_start {v : BitVec 32} {w : Writes} (h : exec (.start v w) s = .next t) : s.Stepped t w := by
  simp only [exec, execStart] at h
  split at h
  · obtain ⟨-, rfl⟩ := withWrites_next.1 h
    generalize hr : (s.recorded w).loadControl v = r
    have hsame : (r.slots, r.header, r.held, r.mem, r.part, r.baseLow, r.baseHigh) =
        (s.slots, s.header, s.held, s.mem.recorder w, s.part, s.baseLow, s.baseHigh) := by rw [← hr]; rfl
    simp only [Prod.mk.injEq] at hsame
    obtain ⟨hslots, hheader, hheld, hmem, hpart, hlow, hhigh⟩ := hsame
    have hbase : r.boardBase = s.boardBase := by simp [State.boardBase, hlow, hhigh]
    by_cases hst : r.part = .stopped
    · cases hj : judgeWindows r.windowList r.boardBase with
      | none =>
        rw [State.startPart_accepted hst hj]
        generalize hu : r.started = u
        have husame : (u.slots, u.held, u.mem) = (r.slots, r.held, r.mem) := by rw [← hu]; rfl
        simp only [Prod.mk.injEq] at husame
        obtain ⟨uslots, uheld, umem⟩ := husame
        have ubase : u.boardBase = r.boardBase := by rw [← hu]; rfl
        have hslot (n : Fin 8) : u.slot n = s.slot n := by simp [State.slot, uslots, hslots]
        have hok (hs : s.positionsOk) : u.positionsOk := by
          rw [State.positionsOk_iff] at hs ⊢
          exact ⟨fun n => hslot n ▸ hs.1 n, fun F hF => hs.2 F (hheld ▸ uheld ▸ hF)⟩
        have hc : u.Course u.beginSweep := (Course.refl u).beginSweep
        refine ⟨fun n => (hc.marks n).of_eng (by rw [hslot]), fun hs => hc.positions (hok hs), fun hs a ha => ?_,
          fun _ hns => absurd (hpart ▸ hst) hns⟩
        rw [State.beginSweep_eq]
        refine (State.flush_outside (hok hs).outcomesOk (hok hs).heldOk u.mem fun hin => ha ?_).trans (by rw [umem, hmem])
        exact State.inBoard_mayWrite (State.inBoard_congr (ubase.trans hbase) ▸ hin)
      | windowsBad =>
        rw [State.startPart_refused hst hj nofun]
        exact of_still hslots hheader hheld hmem (.inr hbase)
      | boardOutside =>
        rw [State.startPart_refused hst hj nofun]
        exact of_still hslots hheader hheld hmem (.inr hbase)
    · rw [State.startPart_other hst]
      exact of_still hslots hheader hheld hmem (.inr hbase)
  · cases h

theorem exec_stop {v : BitVec 32} (h : exec (.stop v) s = .next t) : s.Stepped t [] := by
  simp only [exec, execStop] at h
  split at h
  · cases h
    unfold State.stopPart
    split
    · exact of_still rfl rfl rfl rfl (.inr rfl)
    · exact of_still rfl rfl rfl rfl (.inr rfl)
  · cases h

theorem exec_loadDivisor {v : BitVec 32} (h : exec (.loadDivisorAndAttnEnable v) s = .next t) : s.Stepped t [] := by
  simp only [exec, execLoadDivisorAndAttnEnable] at h
  split at h <;> cases h
  exact of_still rfl rfl rfl rfl (.inr rfl)

theorem branch {c : Prop} [Decidable c] {u : State} {w : Writes} (h : s.Stepped t w) (h' : s.Stepped u w) :
    s.Stepped (if c then t else u) w := by
  split
  · exact h
  · exact h'

theorem same (s : State) : s.Stepped s [] := of_still rfl rfl rfl rfl (.inr rfl)

theorem exec_boardBaseLow {v : BitVec 32} (h : exec (.boardBaseLowWrite v) s = .next t) : s.Stepped t [] := by
  cases h
  split
  next hst => exact of_still rfl rfl rfl rfl (.inl hst)
  · exact same s

theorem exec_boardBaseHigh {v : BitVec 32} (h : exec (.boardBaseHighWrite v) s = .next t) : s.Stepped t [] := by
  cases h
  split
  next hst => exact of_still rfl rfl rfl rfl (.inl hst)
  · exact same s

theorem exec_sweepTimerExpiry (h : exec .sweepTimerExpiry s = .next t) : s.Stepped t [] := by
  cases h
  split
  · exact same s
  · refine of_plain (Course.requestSweep ?_)
    exact (Course.refl s).of_rfl rfl

theorem exec_slotStep {w : Writes} (h : exec (.slotStep w) s = .next t) : s.Stepped t w := by
  unfold exec execSlotStep at h
  obtain ⟨-, rfl⟩ := withWrites_next.1 h
  have hb := State.Begins.recorded s w
  generalize s.recorded w = r at hb
  split
  next n _ =>
    unfold State.stepSlot
    split
    · exact of_course (hb.read n) ((Course.refreshRead (.refl _) n).compareOrder n)
    · exact of_course hb ((Course.refl r).compareOrder n)
  · exact of_course hb (.refl r)

/-! ## Orders -/

open State.Course in
theorem exec_recordOpen {w : Writes} (h : exec (.recordOpen w) s = .next t) : s.Stepped t w := by
  refine of_withWrites (fun r => (refl r).takeOrder fun n number _ _ _ => ?_) h
  split
  · exact (refl r).answer n number _
  next e hc =>
    refine ((refl r).answer n number _).acceptRecord n e ?_
    rw [State.answer_frames]
    exact State.checkRecordOpen_frames hc

open State.Course in
theorem exec_moveOpen {w : Writes} (h : exec (.moveOpen w) s = .next t) : s.Stepped t w := by
  refine of_withWrites (fun r => (refl r).takeOrder fun n number _ _ _ => ?_) h
  split
  · exact (refl r).answer n number _
  next e key hc =>
    refine ((refl r).answer n number _).acceptMove n e key number ?_
    rw [State.answer_frames]
    exact State.checkMoveOpen_frames hc

open State.Course in
theorem exec_recordClose {w : Writes} (h : exec (.recordClose w) s = .next t) : s.Stepped t w := by
  refine of_withWrites (fun r => (refl r).takeOrder fun n number _ _ hrow => (refl r).closeRecord n number ?_) h
  simp only [Bool.and_eq_true] at hrow
  exact Slot.answeredBy_unfaulted hrow.2

/-! ## Part orders -/

open State.Course in
theorem exec_fresh {w : Writes} (h : exec (.fresh w) s = .next t) : s.Stepped t w := by
  refine of_withWrites (fun r => (refl r).takePartOrder fun number => ?_) h
  have h1 := (refl r).answerPart number r.freshResult 0
  dsimp only
  generalize r.answerPart number r.freshResult 0 = v at h1
  exact ite (h1.of_rfl rfl) h1

open State.Course in
theorem exec_save {w : Writes} (h : exec (.save w) s = .next t) : s.Stepped t w := by
  refine of_withWrites (fun r => (refl r).takePartOrder fun number => ?_) h
  have h1 := (refl r).answerPart number .none 0
  dsimp only
  split
  · exact (refl r).answerPart number _ 0
  · generalize r.answerPart number .none 0 = v at h1
    exact h1.of_rfl rfl

open State.Course in
theorem exec_load {w : Writes} (h : exec (.load w) s = .next t) : s.Stepped t w := by
  refine of_withWrites (fun r => (refl r).takePartOrder fun number => ?_) h
  have h1 := (refl r).answerPart number .none 0
  dsimp only
  split
  · exact (refl r).answerPart number _ 0
  · generalize r.answerPart number .none 0 = v at h1
    exact h1.of_rfl rfl

open State.Course in
theorem exec_query {w : Writes} (h : exec (.query w) s = .next t) : s.Stepped t w := by
  refine of_withWrites (fun r => (refl r).takePartOrder fun number => ?_) h
  have h1 := (refl r).answerPart number .none 0
  dsimp only
  split
  · exact (refl r).answerPart number _ 0
  · generalize r.answerPart number .none 0 = v at h1
    exact h1.of_rfl rfl

theorem exec_queryWriteComplete (h : exec .queryWriteComplete s = .next t) : s.Stepped t [] := by
  cases h
  split
  · exact same s
  next q _ =>
    have hb : s.Begins { s with mem := (writeAccesses s.windows s.mem [(q.addr, q.record)]).1, query := none } [] :=
      (Begins.refl s).checked rfl (.inr rfl)
    exact of_course hb ((Course.refl _).completePart _ _ _)

/-! ## Keys -/

theorem exec_keyDrawComplete {key : Key} (h : exec (.keyDrawComplete key) s = .next t) : s.Stepped t [] := by
  cases h
  split
  · exact of_still rfl rfl rfl rfl (.inr rfl)
  · exact same s

open State.Course in
theorem exec_keyHandover (h : exec .keyHandover s = .next t) : s.Stepped t [] := by
  cases h
  refine of_plain ?_
  split
  · split
    · exact refl s
    next hb => exact ite ((refl s).handOver hb _ _ _) (refl s)
  · exact refl s

/-! ## Batches -/

open State.Course in
theorem exec_sealingBatch (h : exec .sealingBatch s = .next t) : s.Stepped t [] := by
  cases h
  refine of_plain ?_
  split
  next n base pos pkts key gen seq orphan hf =>
    have hw := (refl s).flightWork hf
    exact ite hw (ite (ite hw (hw.sealedBatch n _)) (hw.faultRecord n _))
  · exact refl s

open State.Course in
theorem exec_closingBatch (h : exec .closingBatch s = .next t) : s.Stepped t [] := by
  cases h
  refine of_plain ?_
  split
  next n base len count tag key chain orphan hf =>
    have hw := (refl s).flightWork hf
    exact ite hw (ite (hw.closedChunk n) (hw.faultRecord n _))
  · exact refl s

open State.Course in
theorem exec_verifyBatch {w : Writes} (h : exec (.verifyBatch w) s = .next t) : s.Stepped t w := by
  unfold exec execVerifyBatch at h
  refine of_withWrites (fun r => ?_) h
  split
  · dsimp only
    split
    next hf _ => exact (Course.refl r).freeCipher.verifyFrame _ _ hf
    · exact (Course.refl r).freeCipher
  · exact Course.refl r

open State.Course in
theorem exec_deliverBatch {w : Writes} (h : exec (.deliverBatch w) s = .next t) : s.Stepped t w := by
  unfold exec execDeliverBatch at h
  refine of_withWrites (fun r => ?_) h
  split
  next n base pos count key gen seq expect winBase winSize winPos orphan hf =>
    have hw := (refl r).flightWork hf
    refine ite hw ?_
    split
    · exact hw.faultFrameSlot n _
    · exact hw.badRange n
    · exact ite (hw.delivered n count) (hw.faultFrameSlot n _)
  · exact refl r

open State.Course in
theorem exec_resealBatch {w : Writes} (h : exec (.resealBatch w) s = .next t) : s.Stepped t w := by
  unfold exec execResealBatch at h
  refine of_withWrites (fun r => ?_) h
  split
  next n base pos count key gen seq expect token out orphan hf =>
    have hw := (refl r).flightWork hf
    refine ite hw ?_
    split
    · exact hw.faultFrameSlot n _
    · exact hw.badRange n
    · exact ite (hw.resealed n token _) (hw.faultFrameSlot n _)
  · exact refl r

open State.Course in
theorem exec_finalResealBatch (h : exec .finalResealBatch s = .next t) : s.Stepped t [] := by
  cases h
  refine of_plain ?_
  split
  next n out len count tag token chain orphan hf =>
    have hw := (refl s).flightWork hf
    exact ite hw (ite (hw.finalResealed n) (hw.faultFrameSlot n _))
  · exact refl s

theorem exec_outputReservation {n : Fin 8} (h : exec (.outputReservation n) s = .next t) : s.Stepped t [] := by
  cases h
  split
  next hd =>
    cases hf : (s.slot n).frame with
    | none => simp [State.reserveDue, hf] at hd
    | some f => exact of_plain ((Course.refl s).reserveOutput n hf)
  · exact same s

theorem exec_frameTake {n : Fin 8} (h : exec (.frameTake n) s = .next t) : s.Stepped t [] := by
  cases h
  split
  next hd =>
    simp only [State.frameDue, Bool.and_eq_true, beq_iff_eq] at hd
    obtain ⟨⟨⟨⟨-, hst⟩, -⟩, -⟩, -⟩ := hd
    exact of_plain ((Course.refl s).takeFrame n hst)
  · exact same s

theorem exec_cipherGrant (h : exec .cipherGrant s = .next t) : s.Stepped t [] := by
  cases h
  unfold State.grant
  refine branch ?_ (same s)
  split
  · exact same s
  · exact of_still rfl rfl rfl rfl (.inr rfl)

/-! ## Images -/

theorem exec_saveEntryBatch (h : exec .saveEntryBatch s = .next t) : s.Stepped t [] := by
  cases h
  split
  next number addr table time gen k chain hf hi =>
    split
    next m hw =>
      refine of_course (((Begins.refl s).checked (accs := s.flightAccesses .saveEntries) ?_ (.inl rfl))) (.refl _)
      rw [hw]
      rfl
    next m hw =>
      have hb : s.Begins { s.freeCipher with mem := m } [] := by
        refine (Begins.refl s).checked (accs := s.flightAccesses .saveEntries) ?_ (.inl rfl)
        rw [hw]
        rfl
      exact of_course hb ((Course.refl _).endImage _ _ _)
  · exact same s

theorem exec_saveHeaderBatch (h : exec .saveHeaderBatch s = .next t) : s.Stepped t [] := by
  cases h
  split
  next number addr table time gen k chain hf hi =>
    split
    next m hw =>
      have hb : s.Begins { s.freeCipher with mem := m, cell := gen } [] := by
        refine (Begins.refl s).checked (accs := s.flightAccesses .saveHeader) ?_ (.inl rfl)
        rw [hw]
        rfl
      exact of_course hb ((Course.refl _).endImage _ _ _)
    next m hw =>
      have hb : s.Begins { s.freeCipher with mem := m } [] := by
        refine (Begins.refl s).checked (accs := s.flightAccesses .saveHeader) ?_ (.inl rfl)
        rw [hw]
        rfl
      exact of_course hb ((Course.refl _).endImage _ _ _)
  · exact same s

open State.Course in
theorem exec_loadHeaderBatch {w : Writes} (h : exec (.loadHeaderBatch w) s = .next t) : s.Stepped t w := by
  unfold exec execLoadHeaderBatch at h
  refine of_withWrites (fun r => ?_) h
  split
  · have h1 := (refl r).freeCipher
    dsimp only
    exact ite (ite (h1.of_rfl rfl) (h1.endImage _ _ _)) (h1.endImage _ _ _)
  · exact refl r

open State.Course in
theorem exec_loadEntryBatch {w : Writes} (h : exec (.loadEntryBatch w) s = .next t) : s.Stepped t w := by
  unfold exec execLoadEntryBatch at h
  refine of_withWrites (fun r => ?_) h
  split
  · have h1 := (refl r).freeCipher
    dsimp only
    exact ite (ite (h1.of_rfl rfl) (h1.judgeImage _ _ _ _)) (h1.endImage _ _ _)
  · exact refl r

end State.Stepped

open State State.Stepped in
/-- Every command, with the recorder's writes that it carries. -/
theorem exec_stepped {i : Instr} {s t : State} (h : exec i s = .next t) : s.Stepped t (i.writes.getD []) := by
  cases i with
  | fullReset => exact exec_fullReset h
  | engineReset => exact exec_engineReset h
  | start => exact exec_start h
  | stop => exact exec_stop h
  | stopDrainEnd =>
    cases h
    exact branch (of_still rfl rfl rfl rfl (.inr rfl)) (same s)
  | loadDivisorAndAttnEnable => exact exec_loadDivisor h
  | sweepRequest =>
    cases h
    exact of_plain (Course.ite (Course.refl s).requestSweep (.refl s))
  | attentionRead =>
    cases h
    exact of_still rfl rfl rfl rfl (.inr rfl)
  | boardBaseLowWrite => exact exec_boardBaseLow h
  | boardBaseHighWrite => exact exec_boardBaseHigh h
  | registerWriteIgnored =>
    cases h
    exact same s
  | sweepTimerExpiry => exact exec_sweepTimerExpiry h
  | slotStep => exact exec_slotStep h
  | endOfSweepWrites => exact of_withWrites (fun r => Course.ite (Course.refl r).endSweep (.refl r)) h
  | recordOpen => exact exec_recordOpen h
  | playOpen => exact of_order (fun r n number => (Course.refl r).openPlay n number _) h
  | checkOpen => exact of_order (fun r n number => (Course.refl r).openPlay n number _) h
  | moveOpen => exact exec_moveOpen h
  | recordClose => exact exec_recordClose h
  | recordAbort => exact of_order (fun r n number => (Course.refl r).abortRecord n number) h
  | playCheckClose => exact of_order (fun r n number => (Course.refl r).closePlay n number) h
  | playCheckAbort => exact of_order (fun r n number => (Course.refl r).abortPlay n number) h
  | moveClose => exact of_order (fun r n number => (Course.refl r).closeMove n number) h
  | moveAbort => exact of_order (fun r n number => (Course.refl r).abortMove n number) h
  | faultedSlotReturn =>
    exact of_order (fun r n number =>
      ((Course.refl r).answer n number _).toIdle n) h
  | rule =>
    exact of_order (fun r n number =>
      (Course.refl r).answerRule n number fun h => h.applyRule n) h
  | rotate =>
    exact of_order (fun r n number =>
      (Course.refl r).answerRule n number fun h => h.applyRotate n) h
  | flush =>
    exact of_order (fun r n number =>
      (Course.refl r).answerRule n number fun h => h.askClose n) h
  | unknownOrder =>
    exact of_order (fun r n number =>
      Course.ite ((Course.refl r).answer n number _) ((Course.refl r).answer n number _)) h
  | fresh => exact exec_fresh h
  | save => exact exec_save h
  | load => exact exec_load h
  | time =>
    exact of_partOrder (fun r number =>
      (((Course.refl r).timeReport _).showVote _).answerPart number _ _) h
  | erase => exact of_partOrder (fun r number => (Course.refl r).eraseEntry number _) h
  | query => exact exec_query h
  | queryWriteComplete => exact exec_queryWriteComplete h
  | unknownPartOrder =>
    exact of_partOrder (fun r number => (Course.refl r).answerPart number _ _) h
  | keyDrawComplete => exact exec_keyDrawComplete h
  | keyHandover => exact exec_keyHandover h
  | takeStart n => exact of_withWrites (fun r => Course.ite ((Course.refl r).startTake n) (.refl r)) h
  | takeComplete n => exact of_withWrites (fun r => Course.ite ((Course.refl r).endTake n) (.refl r)) h
  | chunkOpen n =>
    cases h
    exact of_plain (Course.ite ((Course.refl s).openChunk n) (.refl s))
  | holdTimerExpiry n =>
    cases h
    exact of_plain (Course.ite ((Course.refl s).askClose n) (.refl s))
  | cipherGrant => exact exec_cipherGrant h
  | sealingBatch => exact exec_sealingBatch h
  | closingBatch => exact exec_closingBatch h
  | frameTake => exact exec_frameTake h
  | verifyBatch => exact exec_verifyBatch h
  | deliverBatch => exact exec_deliverBatch h
  | outputReservation => exact exec_outputReservation h
  | resealBatch => exact exec_resealBatch h
  | finalResealBatch => exact exec_finalResealBatch h
  | saveEntryBatch => exact exec_saveEntryBatch h
  | saveHeaderBatch => exact exec_saveHeaderBatch h
  | loadHeaderBatch => exact exec_loadHeaderBatch h
  | loadEntryBatch => exact exec_loadEntryBatch h
  | clockTick =>
    obtain rfl := Host.Outcome.next.inj h
    exact of_plain (((Course.refl s).of_rfl rfl : s.Course { s with tickPhase := 0 }).advanceClock _)
  | slotFaultLapsed n => exact of_withWrites (fun r => Course.ite ((Course.refl r).faultSlot n _) (.refl r)) h

end Sys2Proof.Machine
end

