-- ==== Sys2Proof/Proofs/MarksAndWrites.lean ====
section
/-! Proofs: the marks keep their limits, writes stay in the board and the windows, and changed fields are written (R48,
R54, R63, R64). -/

namespace Sys2Proof.Machine

theorem step_stepped {s t : State} {c : Instr} {rest : List Instr} (hp : s.pending = c :: rest) (h : step s = .next t) :
    s.Stepped t (c.writes.getD []) := by
  have hexec : exec c { s with pending := rest } = .next t := by
    unfold step at h
    rwa [hp] at h
  obtain ⟨hmarks, hpositions, hmemory, hfields⟩ := exec_stepped hexec
  exact ⟨hmarks, hpositions, hmemory, hfields⟩

/-- A step either changes nothing or is a command. -/
theorem step_same_or_stepped {s t : State} (h : step s = .next t) : t = s ∨ ∃ w, s.Stepped t w := by
  refine (step_cases h).imp_right fun ⟨c, rest, hp, _⟩ => ⟨_, step_stepped hp h⟩

/-! ## Marks (R63) -/

/-- The marks that a step has moved stand within the limits of the slot's mode. -/
theorem Slot.Moved.by_mode {x y : Slot} (h : x.Moved y) :
    let took (fill before after : Mark) : Prop := after ≠ before → ahead fill after < 2 ^ 31
    let put (done before after : Mark) (size : Nat) : Prop := after ≠ before → ahead after done ≤ size
    (y.mode = .record → took y.viewA x.eng.markA y.eng.markA ∧ put y.viewB x.eng.markB y.eng.markB y.geo.frames) ∧
    (y.mode = .play → took y.viewB x.eng.markB y.eng.markB ∧ put y.viewA x.eng.markA y.eng.markA y.geo.streamSize) ∧
    (y.mode = .check → took y.viewB x.eng.markB y.eng.markB) ∧
    (y.mode = .move → took y.viewB x.eng.markB y.eng.markB ∧ put y.viewC x.eng.markC y.eng.markC y.geo.outFrames) := by
  obtain ⟨hA, hB, hC⟩ := h
  unfold Slot.limitA at hA
  unfold Slot.limitB at hB
  unfold Slot.limitC at hC
  refine ⟨fun hm => ?_, fun hm => ?_, fun hm => ?_, fun hm => ?_⟩ <;> simp only [hm] at hA hB hC
  · exact ⟨hA, hB⟩
  · exact ⟨hB, hA⟩
  · exact hB
  · exact ⟨hB, hC⟩

/-- Settles O56: the limits that a command moves marks within, and the advances made whole or held back in part. -/
theorem marksKeepLimits : Obligations.MarksKeepLimits := by
  refine ⟨fun s t n h => ?_, fun x k => ⟨fun ho hk => Slot.advanceA_whole ho ?_, fun ho hk => Slot.advanceB_whole ho ?_,
    fun ho hk => Slot.advanceC_whole ho ?_, x.advanceA_placeA k, x.advanceB_placeB k, x.advanceC_placeC k⟩⟩
  · rcases step_same_or_stepped h with rfl | ⟨w, hw⟩
    · exact Slot.Moved.by_mode ((Slot.Marked.refl _).of_eng rfl)
    · exact (hw.marks n).by_mode
  · unfold Slot.reachA
    split at hk
    next hm => rw [if_pos hm]; omega
    next hm => rw [if_neg hm, amount_of_lt hk.1]; exact hk.2
  · unfold Slot.reachB
    split at hk
    next hm => rw [if_pos hm]; omega
    next hm => rw [if_neg hm, amount_of_lt hk.1]; exact hk.2
  · unfold Slot.reachC
    omega

/-! ## Writes (R48, R54) -/

/-- Settles O60: every command writes within the board and the held writable windows. -/
theorem writesStayInWindows : Obligations.WritesStayInWindows := by
  intro s t c rest hp hs h
  have hstep := step_stepped hp h
  exact ⟨hstep.positions hs, hstep.memory hs⟩

/-! ## Changed fields (R64) -/

/-- A batch that writes no byte of the board's engine parts in any memory. -/
theorem State.workApart_of_flight {s : State}
    (h : ∀ f m a, s.flight = some f → (∃ n, s.inRecord n a) ∨ s.inHeader a →
      outsideBlocks a (({ s with mem := m } : State).flightAccesses f.work)) : s.workApart := by
  intro f m a hf ha
  rcases State.flightAccesses_work { s with mem := m } f.work with hw | hw
  · rw [hw]
    exact h f m a hf ha
  · rw [hw]
    exact nofun

/-- Settles O5: a field that a command changes is shown, as each of its operations shows what it changes. -/
theorem changedFieldsAreWritten : Obligations.ChangedFieldsAreWritten := by
  intro s t h hs ht hpos hflight
  have shown (F : BoardField) (hF : F.placed) (hne : t.boardAccess F ≠ s.boardAccess F) : t.shows F := by
    rcases step_same_or_stepped h with rfl | ⟨w, hw⟩
    · exact absurd rfl hne
    · exact hw.fields hpos hs ht (State.workApart_of_flight hflight) F hF hne
  refine ⟨fun n f hf hne => shown (.slot n f) hf fun heq => hne ?_, fun f hne => shown (.header f) trivial fun heq => hne ?_⟩
  · have hoff := (Prod.ext_iff.1 ((t.slot n).eng.fieldAt_span f)).1.trans (Prod.ext_iff.1 ((s.slot n).eng.fieldAt_span f)).1.symm
    exact Prod.ext hoff (Prod.ext_iff.1 heq).2
  · have hoff := (Prod.ext_iff.1 (t.header.fieldAt_span f)).1.trans (Prod.ext_iff.1 (s.header.fieldAt_span f)).1.symm
    exact Prod.ext hoff (Prod.ext_iff.1 heq).2

end Sys2Proof.Machine
end

