-- ==== Sys2Proof/Proofs/SlotStep.lean ====
section
/-! Proofs: the slot step: the refresh of a slot, and the comparison of its order number (R57, R58, R62, R63, R76, R114,
R157, R160). -/

namespace Sys2Proof.Machine

/-! ## The comparison of the order number (R58) -/

/-- Where the sweep stands after the comparison of slot `n`. -/
def State.compared (s : State) (n : Fin 8) : Option SweepAt :=
  if s.orderNumber n = (s.slot n).latch then s.afterSlot n else some (.order n (s.orderNumber n))

theorem State.compareOrder_eq (s : State) (n : Fin 8) : s.compareOrder n = { s with sweep := s.compared n } := by
  unfold State.compareOrder State.compared
  split <;> rfl

section
variable {s t : State} {w : Writes} {n : Fin 8} {fs : List Flag}

theorem execSlotStep_of (hs : s.sweep = some (.slot n)) (hw : writesInSpace w = true) :
    exec (.slotStep w) s = .next ((s.recorded w).stepSlot n) := by
  have hr : (s.recorded w).sweep = some (.slot n) := hs
  show execSlotStep w s = _
  unfold execSlotStep
  rw [withWrites_of hw]
  simp only [hr]

theorem Slot.refreshes_iff (x : Slot) : x.refreshes = true ↔
    x.eng.state ≠ .idle ∧ x.eng.state ≠ .faulted ∧ (x.mode = .record → x.lapseDue = false) := by
  unfold Slot.refreshes
  cases x.lapseDue <;> simp [and_assoc]

theorem State.stepSlot_refreshed (h : (s.slot n).refreshes = true) : s.stepSlot n = (s.refreshSlot n).compareOrder n := if_pos h

theorem State.stepSlot_passed (h : ¬ (s.slot n).refreshes = true) : s.stepSlot n = s.compareOrder n := if_neg h

/-- The order number stands in the recorder's part of the record, which a refresh leaves alone but for the latch. -/
theorem State.Frame.compared (h : s.Frame t n fs) (hl : (t.slot n).latch = (s.slot n).latch) : t.compared n = s.compared n := by
  have hnumber : t.orderNumber n = s.orderNumber n := congrArg (BitVec.ofNat 32) (h.slotField (by omega))
  have hafter : t.afterSlot n = s.afterSlot n := by
    unfold State.afterSlot
    rw [h.part]
  unfold State.compared
  rw [hnumber, hl, hafter]

end

/-! ## The refresh (R62, R63) -/

/-- The recorder marks read into the view of slot `n`. -/
def State.seen (s : State) (n : Fin 8) : Slot := s.readMarks n (s.slot n).mode (s.slot n)

/-- The slot with its marks read and the advances made that were held back. -/
def State.viewed (s : State) (n : Fin 8) : State := (s.setSlot n (s.seen n)).advance n Slot.caughtUp

section
variable {s : State} {n : Fin 8}

theorem State.viewed_slot (s : State) (n : Fin 8) : (s.viewed n).slot n = (s.seen n).caughtUp := by
  simp [State.viewed]

theorem State.viewed_own (hr : s.part ≠ .stopped) : s.Own (s.viewed n) n [] :=
  have h := State.setSlot_own n hr (s.seen n)
  h.trans (State.advance_own n h.running' _) (by simp)

theorem State.viewed_flags : (s.viewed n).flags = s.flags := State.advance_flags ..

/-- With nothing held back the view alone changes. -/
theorem State.viewed_none (hA : (s.slot n).owedA = 0) (hB : (s.slot n).owedB = 0) (hC : (s.slot n).owedC = 0) :
    s.viewed n = s.setSlot n (s.seen n) := by
  refine State.advance_same ?_
  rw [State.slot_setSlot_self]
  exact Slot.caughtUp_none (s.seen n) hA hB hC

theorem State.viewed_mode (s : State) (n : Fin 8) : ((s.viewed n).slot n).mode = (s.slot n).mode := by
  rw [State.viewed_slot]
  rfl

/-- The refresh of a slot whose marks stand as they should, by its mode. -/
theorem State.refreshSlot_good (h : (s.seen n).marksBad = false) :
    ((s.slot n).mode = .record → s.refreshSlot n = (s.viewed n).refreshRecord n) ∧
    ((s.slot n).mode = .check → s.refreshSlot n = s.viewed n) ∧
    ((s.slot n).mode = .play →
      s.refreshSlot n = if s.inFlightFor n then s.viewed n else (s.viewed n).playNext n) ∧
    ((s.slot n).mode = .move → s.refreshSlot n = (s.viewed n).moveNext n) := by
  have hgood : ¬ ((s.setSlot n (s.seen n)).slot n).marksBad = true := by
    rw [State.slot_setSlot_self, h]
    nofun
  have hflight : (s.viewed n).inFlightFor n = s.inFlightFor n := by
    unfold State.inFlightFor
    rw [show (s.viewed n).flight = s.flight by simp [State.viewed]]
  have hdef : s.refreshSlot n = match ((s.viewed n).slot n).mode with
      | .record => (s.viewed n).refreshRecord n
      | .play => if (s.viewed n).inFlightFor n then s.viewed n else (s.viewed n).playNext n
      | .move => (s.viewed n).moveNext n
      | _ => s.viewed n := if_neg hgood
  rw [hdef, State.viewed_mode, hflight]
  refine ⟨fun hm => ?_, fun hm => ?_, fun hm => ?_, fun hm => ?_⟩ <;> rw [hm]

/-- A RECORD slot without an overrun, or CLOSING. -/
theorem State.refreshRecord_of (h : (s.slot n).overrunDue = false ∨ (s.slot n).eng.state = .closing) :
    s.refreshRecord n =
      if (s.slot n).eng.state = .stalled ∧ 0 < (s.slot n).chunkRoom then s.setSlotState n .running else s := by
  unfold State.refreshRecord
  dsimp only
  split
  next hclosing => rw [if_neg (by simp [hclosing])]
  next hclosing => rw [if_neg (by rw [h.resolve_right hclosing]; nofun)]

end

/-- Catching up moves no mark but the engine's. -/
theorem Slot.caughtUp_places (x : Slot) :
    x.caughtUp.placeA = x.placeA ∧ x.caughtUp.placeB = x.placeB ∧ x.caughtUp.placeC = x.placeC := by
  have hA := x.advanceA_placeA 0
  have hB := (x.advanceA 0).advanceB_placeB 0
  have hC := ((x.advanceA 0).advanceB 0).advanceC_placeC 0
  simp only [BitVec.add_zero] at hA hB hC
  exact ⟨hA, hB, hC⟩

theorem Slot.caughtUp_overrunDue (x : Slot) : x.caughtUp.overrunDue = x.overrunDue := by
  obtain ⟨hA, -⟩ := x.caughtUp_places
  unfold Slot.overrunDue
  rw [hA]
  rfl

theorem Slot.caughtUp_rooms (x : Slot) :
    x.caughtUp.chunkRoom = x.chunkRoom ∧ x.caughtUp.packetRoom = x.packetRoom ∧ x.caughtUp.outputRoom = x.outputRoom := by
  obtain ⟨hA, hB, hC⟩ := x.caughtUp_places
  unfold Slot.chunkRoom Slot.packetRoom Slot.outputRoom
  rw [hA, hB, hC]
  exact ⟨rfl, rfl, rfl⟩

theorem State.inFlightFor_iff (s : State) (n : Fin 8) :
    s.inFlightFor n = true ↔ ∃ work, s.flight = some ⟨.slot n, work, false⟩ := by
  unfold State.inFlightFor
  cases hf : s.flight with
  | none => simp
  | some f =>
    obtain ⟨r, work, orphan⟩ := f
    simp

/-! ## What a slot step comes to -/

/-- The slot step leaves slot `n` as `x`, and nothing else changes but the sweep's place and memory in the slot's record. -/
def State.stepLeaves (s : State) (w : Writes) (n : Fin 8) (t : State) (x : Slot) : Prop :=
  t.slot n = x ∧ s.sameSlotsBut t n ∧ t.entries = s.entries ∧ t.flags = s.flags ∧ t.flight = s.flight ∧
    t.kept = { s.kept with sweep := (s.recorded w).compared n } ∧ s.sameKeysAndClock t ∧
    (s.recorded w).sameMemoryBut t (s.inRecord n)

section
variable {s u : State} {w : Writes} {n : Fin 8} {fs : List Flag} {e : Fin 64} {x : Slot}

/-- What a refresh leaves alone, once the order number has been compared. -/
theorem State.Frame.steps (h : (s.recorded w).Frame u n fs) (hl : (u.slot n).latch = (s.slot n).latch) :
    (u.compareOrder n).kept = { s.kept with sweep := (s.recorded w).compared n } ∧ s.sameKeysAndClock (u.compareOrder n) ∧
      (s.recorded w).sameMemoryBut (u.compareOrder n) (s.inRecord n) := by
  rw [State.compareOrder_eq, h.compared hl]
  exact ⟨congrArg (fun k : Kept => { k with sweep := (s.recorded w).compared n }) h.kept, h.sameKeysAndClock, h.mem⟩

/-- A refresh on the slot alone that raises nothing. -/
theorem State.Own.steps (h : (s.recorded w).Own u n []) (hf : u.flags = s.flags) (hx : u.slot n = x)
    (hl : x.latch = (s.slot n).latch) : s.stepLeaves w n (u.compareOrder n) x := by
  have hrest := h.toFrame.steps (hx ▸ hl)
  rw [State.compareOrder_eq] at hrest ⊢
  exact ⟨hx, h.slots, h.entries, hf, h.flight, hrest⟩

theorem Slot.finished_latch (x : Slot) (f : Machine.Frame) (o : FrameOutcome) (packets remaining : Nat) :
    (x.finished f o packets remaining).latch = x.latch := rfl

/-- The slot that a finish leaves keeps its latch. -/
theorem State.finishes.latch (h : s.finishes u n e x) : (u.slot n).latch = x.latch := by
  obtain ⟨hcomplete, hends⟩ := h
  by_cases hc : x.mode = .move ∧ (s.entry e).state = .moving ∧ (s.entry e).moveMark = (s.entry e).chunkCount
  · obtain ⟨hslot, -⟩ := hcomplete hc
    rw [hslot, Slot.served_latch, Slot.served_latch]
    rfl
  · obtain ⟨hwaits, hcloses⟩ := hends hc
    cases ha : x.closeAsked with
    | false =>
      rw [(hwaits ha).1]
      rfl
    | true =>
      rw [(hcloses ha).1, Slot.served_latch]
      rfl

/-- A refresh that finishes the frame in hand. -/
theorem State.Finishing.steps (h : (s.recorded w).Finishing u n e x) (hl : x.latch = (s.slot n).latch) :
    let t := u.compareOrder n
    s.finishes t n e x ∧ t.kept = { s.kept with sweep := (s.recorded w).compared n } ∧ s.sameKeysAndClock t ∧
      (s.recorded w).sameMemoryBut t (s.inRecord n) := by
  have hrest := h.frame.steps (h.finishes.latch.trans hl)
  dsimp only
  rw [State.compareOrder_eq] at hrest ⊢
  exact ⟨h.finishes, hrest⟩

end

/-! ## O10 -/

section
variable {s : State} {w : Writes} {n : Fin 8}

/-- A refreshed slot whose step comes next and whose marks stand as they should. -/
structure State.Refreshing (s : State) (w : Writes) (n : Fin 8) : Prop where
  turn : s.sweep = some (.slot n)
  space : writesInSpace w = true
  running : s.part ≠ .stopped
  refreshes : (s.slot n).refreshes = true
  good : ((s.recorded w).seen n).marksBad = false

namespace State.Refreshing

theorem exec (h : s.Refreshing w n) : exec (.slotStep w) s = .next (((s.recorded w).refreshSlot n).compareOrder n) := by
  rw [execSlotStep_of h.turn h.space, State.stepSlot_refreshed (s := s.recorded w) h.refreshes]

theorem own (h : s.Refreshing w n) : (s.recorded w).Own ((s.recorded w).viewed n) n [] := State.viewed_own h.running

/-- The refresh changes the view and the engine's marks alone. -/
theorem views (h : s.Refreshing w n) (hr : (s.recorded w).refreshSlot n = (s.recorded w).viewed n) :
    ∃ t, Machine.exec (.slotStep w) s = .next t ∧ t.slot n = ((s.recorded w).seen n).caughtUp ∧ s.sameSlotsBut t n ∧
      t.entries = s.entries ∧ t.flags = s.flags ∧ t.flight = s.flight ∧
      t.kept = { s.kept with sweep := (s.recorded w).compared n } ∧ s.sameKeysAndClock t ∧
      (s.recorded w).sameMemoryBut t (s.inRecord n) ∧
      ((s.slot n).owedA = 0 → (s.slot n).owedB = 0 → (s.slot n).owedC = 0 →
        t = { (s.recorded w).setSlot n ((s.recorded w).seen n) with sweep := (s.recorded w).compared n }) := by
  obtain ⟨h1, h2, h3, h4, h5, h6, h7, h8⟩ := h.own.steps State.viewed_flags (State.viewed_slot ..) rfl
  refine ⟨_, h.exec, ?_⟩
  rw [hr]
  refine ⟨h1, h2, h3, h4, h5, h6, h7, h8, fun hA hB hC => ?_⟩
  rw [State.compareOrder_eq, h.own.toFrame.compared (by rw [State.viewed_slot]; rfl),
    State.viewed_none (s := s.recorded w) hA hB hC]

/-- And the slot state. -/
theorem becomes (h : s.Refreshing w n) (st : SlotState)
    (hr : (s.recorded w).refreshSlot n = ((s.recorded w).viewed n).setSlotState n st) :
    let caught := ((s.recorded w).seen n).caughtUp
    ∃ t, Machine.exec (.slotStep w) s = .next t ∧
      s.stepLeaves w n t { caught with eng := { caught.eng with state := st } } := by
  have hown : (s.recorded w).Own (((s.recorded w).viewed n).setSlotState n st) n [] :=
    h.own.trans (State.setSlotState_own n h.own.running' st) (by simp)
  have hflags : (((s.recorded w).viewed n).setSlotState n st).flags = s.flags :=
    (State.setSlotState_flags ..).trans State.viewed_flags
  have hslot : (((s.recorded w).viewed n).setSlotState n st).slot n =
      { ((s.recorded w).seen n).caughtUp with eng := { ((s.recorded w).seen n).caughtUp.eng with state := st } } := by
    rw [State.setSlotState_slot, if_pos rfl, State.viewed_slot]
  refine ⟨_, h.exec, ?_⟩
  rw [hr]
  exact hown.steps hflags hslot rfl

/-- The frame in hand is finished ABANDONED. -/
theorem abandons (h : s.Refreshing w n) {f : Machine.Frame} {packets : Nat} {e : Fin 64} (hf : (s.slot n).frame = some f)
    (hr : (s.recorded w).refreshSlot n = ((s.recorded w).viewed n).endFrame n .abandoned packets 0)
    (hm : (s.slot n).mode ≠ .record) (hb : s.bindsTo n e) (hp : f.pos < 16) :
    ∃ t, Machine.exec (.slotStep w) s = .next t ∧
      s.finishes t n e (((s.recorded w).seen n).caughtUp.finished f .abandoned packets 0) ∧
      t.kept = { s.kept with sweep := (s.recorded w).compared n } ∧ s.sameKeysAndClock t ∧
      (s.recorded w).sameMemoryBut t (s.inRecord n) := by
  refine ⟨_, h.exec, ?_⟩
  rw [hr]
  have hslot := (s.recorded w).viewed_slot n
  have hfin := h.own.endFrame (e := e) hb hm (by rw [hslot]; exact hb.2.1) (by rw [hslot]; rfl) (by rw [hslot]; exact hf) hp
    .abandoned packets 0
  rw [hslot] at hfin
  exact hfin.steps (Slot.finished_latch ..)

end State.Refreshing
end

/-- A frame that the room is not judged for: a PLAY slot goes on as it stands. -/
theorem State.playNext_rests {s : State} {n : Fin 8} (h : ∀ f, (s.slot n).frame = some f → f.tag = none ∨ f.permit = none) :
    s.playNext n = s := by
  unfold State.playNext
  dsimp only
  split
  next hf => exact absurd (h _ hf) (by simp)
  · rfl

/-- With room, or no frame to be reserved, a MOVE slot goes on as it stands. -/
theorem State.moveNext_rests {s : State} {n : Fin 8}
    (h : 0 < (s.slot n).outputRoom ∨ ∀ f, (s.slot n).frame = some f → f.permit = none ∨ f.reserved ≠ none) :
    s.moveNext n = s := by
  unfold State.moveNext
  dsimp only
  split
  next hf => exact if_pos (h.resolve_right fun hrest => absurd (hrest _ hf) (by simp))
  · rfl

section
variable {s : State} {w : Writes} {n : Fin 8}

/-- The refresh of a RECORD slot without an overrun (R76). -/
theorem State.Refreshing.record (h : s.Refreshing w n) (hm : (s.slot n).mode = .record)
    (hov : ((s.recorded w).seen n).overrunDue = false ∨ (s.slot n).eng.state = .closing) :
    (s.recorded w).refreshSlot n =
      if (s.slot n).eng.state = .stalled ∧ 0 < ((s.recorded w).seen n).chunkRoom then
        ((s.recorded w).viewed n).setSlotState n .running
      else (s.recorded w).viewed n := by
  obtain ⟨hrecord, -⟩ := State.refreshSlot_good h.good
  have hslot := (s.recorded w).viewed_slot n
  obtain ⟨hroom, -⟩ := ((s.recorded w).seen n).caughtUp_rooms
  rw [hrecord hm, State.refreshRecord_of (by rw [hslot, Slot.caughtUp_overrunDue]; exact hov), hslot, hroom]
  rfl

/-- The refresh of a PLAY slot (R114, R120). -/
theorem State.Refreshing.play (h : s.Refreshing w n) (hm : (s.slot n).mode = .play) :
    ((∃ work, s.flight = some ⟨.slot n, work, false⟩) ∨
        (∀ f, (s.slot n).frame = some f → f.tag = none ∨ f.permit = none) →
      (s.recorded w).refreshSlot n = (s.recorded w).viewed n) ∧
    ∀ {f tag left}, ¬ (∃ work, s.flight = some ⟨.slot n, work, false⟩) → (s.slot n).frame = some f →
      f.tag = some tag → f.permit = some left → (s.recorded w).refreshSlot n =
        if rangeSize tag.count f.worked ≤ ((s.recorded w).seen n).packetRoom then
          ((s.recorded w).viewed n).setSlotState n .delivering
        else if (s.slot n).closeAsked then ((s.recorded w).viewed n).endFrame n .abandoned f.packets 0
        else ((s.recorded w).viewed n).setSlotState n .waiting := by
  obtain ⟨-, -, hplay, -⟩ := State.refreshSlot_good h.good
  have hslot := (s.recorded w).viewed_slot n
  obtain ⟨-, hroom, -⟩ := ((s.recorded w).seen n).caughtUp_rooms
  have hfly := State.inFlightFor_iff (s.recorded w) n
  rw [hplay hm]
  refine ⟨fun hstays => ?_, fun {f tag left} hidle hf ht hl => ?_⟩
  · split
    · rfl
    next hidle =>
      refine State.playNext_rests ?_
      rw [hslot]
      exact hstays.resolve_left fun hw => hidle (hfly.2 hw)
  · rw [if_neg fun hw => hidle (hfly.1 hw), State.playNext_of (f := f) (by rw [hslot]; exact hf) ht hl, hslot, hroom]
    rfl

/-- The refresh of a MOVE slot (R157, R160). -/
theorem State.Refreshing.move (h : s.Refreshing w n) (hm : (s.slot n).mode = .move) :
    (0 < ((s.recorded w).seen n).outputRoom ∨ (∀ f, (s.slot n).frame = some f → f.permit = none ∨ f.reserved ≠ none) →
      (s.recorded w).refreshSlot n = (s.recorded w).viewed n) ∧
    ∀ {f left}, (s.slot n).frame = some f → f.permit = some left → f.reserved = none →
      ((s.recorded w).seen n).outputRoom = 0 → (s.recorded w).refreshSlot n =
        if (s.slot n).closeAsked then ((s.recorded w).viewed n).endFrame n .abandoned 0 0
        else ((s.recorded w).viewed n).setSlotState n .waiting := by
  obtain ⟨-, -, -, hmove⟩ := State.refreshSlot_good h.good
  have hslot := (s.recorded w).viewed_slot n
  obtain ⟨-, -, hroom⟩ := ((s.recorded w).seen n).caughtUp_rooms
  rw [hmove hm]
  refine ⟨fun hstays => State.moveNext_rests ?_, fun {f left} hf hl hres hnone => ?_⟩
  · rw [hslot, hroom]
    exact hstays
  · rw [State.moveNext_of (f := f) (by rw [hslot]; exact hf) hl hres, hslot, hroom, if_neg (Nat.not_lt.2 hnone.le)]
    rfl

end

/-- Settles O10: the step of a slot is its refresh, by its mode, and the comparison of its order number. -/
theorem slotStepComparesOrders : Obligations.SlotStepComparesOrders := by
  intro s w n hs hw
  dsimp only
  refine ⟨fun hnot => ?_, fun href hrun hgood => ?_⟩
  · rw [execSlotStep_of hs hw, State.stepSlot_passed (s := s.recorded w) fun h => hnot ((Slot.refreshes_iff _).1 h),
      State.compareOrder_eq]
    rfl
  · have h : s.Refreshing w n := ⟨hs, hw, hrun, (Slot.refreshes_iff _).2 href, hgood⟩
    refine ⟨fun hm hov => ?_, fun hm => h.views ((State.refreshSlot_good h.good).2.1 hm), fun hm => ?_, fun hm => ?_⟩
    · have hr := h.record hm hov
      exact ⟨fun hres => h.becomes .running (hr.trans (if_pos hres)), fun hres => h.views (hr.trans (if_neg hres))⟩
    · obtain ⟨hstays, hjudged⟩ := h.play hm
      refine ⟨fun hrest => h.views (hstays hrest), fun f tag left hidle hf ht hl => ?_⟩
      have hr := hjudged hidle hf ht hl
      refine ⟨fun hroom => h.becomes .delivering (hr.trans (if_pos hroom)), fun hroom ha => ?_, fun hroom ha e hb hp => ?_⟩
      · exact h.becomes .waiting (hr.trans ((if_neg (Nat.not_le.2 hroom)).trans (if_neg (by simp [ha]))))
      · exact h.abandons hf (hr.trans ((if_neg (Nat.not_le.2 hroom)).trans (if_pos ha))) (by simp [hm]) hb hp
    · obtain ⟨hstays, hjudged⟩ := h.move hm
      refine ⟨fun hrest => h.views (hstays hrest), fun f left hf hl hres hroom => ?_⟩
      have hr := hjudged hf hl hres hroom
      refine ⟨fun ha => ?_, fun ha e hb hp => ?_⟩
      · rw [if_neg (by simp [ha])] at hr
        exact h.becomes .waiting hr
      · rw [if_pos ha] at hr
        exact h.abandons hf hr (by simp [hm]) hb hp

end Sys2Proof.Machine
end

