-- ==== Sys2Proof/Proofs/StrayDelivery.lean ====
section
/-! Proofs: a MARK fault whose deliver batch writes over the order number of its own slot record. The order number is compared
after the batch has completed (R57, R121), and nothing keeps a packet window off the board. -/

namespace Sys2Proof.Machine

/-- A PLAY slot in slot record 0 whose take mark stands past the fill mark of its view. -/
def strayPlayer : Slot :=
  { Slot.bare 0 { Engine.idle with state := .delivering, bound := some 0, markB := 1 } with
    mode := .play, geo := ⟨2048, 64, 0, 2, 0, 0, 16⟩ }

/-- Its slot step comes next, and its deliver batch is in flight with slot record 0 as packet window. -/
def strayDelivery : State :=
  { State.reset with
    windows := [⟨0, 6143, true⟩]
    part := .running
    sweep := some (.slot 0)
    slots := State.reset.slots.set 0 strayPlayer
    flight := some ⟨.slot 0,
      .deliver 0 0 1 0 0 0 (chainedCheck (frameCheckKey 0) (Memory.read [] 64 188)) 2048 64 0, false⟩ }

theorem strayDelivery_inWindow {write : Bool} {a len : Nat} (h : a + len ≤ 6144) :
    inWindow strayDelivery.windows write a len :=
  ⟨⟨0, 6143, true⟩, List.mem_singleton.2 rfl, fun _ => rfl, Nat.zero_le _, h⟩

/-- A number whose first byte is not zero is not zero. -/
theorem ofLe_ne_zero {b : Byte} {bs : List Byte} (hb : b ≠ 0) : BitVec.ofNat 32 (ofLe (b :: bs)) ≠ 0 := by
  intro h
  have h1 := congrArg BitVec.toNat h
  have h2 : b.toNat ≠ 0 := fun hz => hb (BitVec.eq_of_toNat_eq hz)
  have h3 := b.isLt
  simp only [BitVec.toNat_ofNat, ofLe, Nat.reducePow] at h1
  rw [show BitVec.toNat (0 : BitVec 32) = 0 from rfl] at h1
  omega

/-- Refutes O11: the deliver batch that completes first writes a new order number into the slot record, so that the sweep
stops at that order where the statement has it go on. -/
theorem not_slotStepMarkFault : ¬ Obligations.SlotStepMarkFault := by
  intro h
  have hbinds : strayDelivery.bindsTo 0 0 := ⟨nofun, rfl, nofun, nofun, nofun⟩
  obtain ⟨-, hdelivers⟩ := (h strayDelivery [] 0 0 rfl rfl hbinds rfl).2 nofun
  obtain ⟨-, -, hdone⟩ := hdelivers _ _ _ _ _ _ _ _ _ _ rfl
  obtain ⟨t, hexec, hfaults, -, hsweep, hmem⟩ :=
    hdone ⟨strayDelivery_inWindow (by decide), rfl, strayDelivery_inWindow (by decide)⟩ (.inl rfl)
  obtain ⟨hslot, -, -, -, -, -, -, hkept, -⟩ := hfaults
  have ht : t = ((strayDelivery.recorded []).refreshSlot 0).compareOrder 0 := by
    refine (Host.Outcome.next.inj ((execSlotStep_of rfl rfl).symm.trans hexec)).symm.trans ?_
    exact State.stepSlot_refreshed (s := strayDelivery.recorded []) rfl
  generalize (strayDelivery.recorded []).refreshSlot 0 = u at ht
  have hlatch : (t.slot 0).latch = 0 := congrArg Slot.latch hslot
  have haddr : t.slotAddr 0 = 2048 := by
    have hlow : t.baseLow = 0 := congrArg Kept.baseLow hkept
    have hhigh : t.baseHigh = 0 := congrArg Kept.baseHigh hkept
    simp [State.slotAddr, State.boardBase, hlow, hhigh]
  have hbyte : t.mem.get 2048 = 0x47 := by
    refine (hmem 2048 fun hin => absurd hin.1 (by decide)).trans ?_
    decide
  have hnew : t.orderNumber 0 ≠ (t.slot 0).latch := by
    rw [hlatch]
    unfold State.orderNumber State.slotField
    rw [haddr]
    exact ofLe_ne_zero (b := t.mem.get 2048) (by rw [hbyte]; decide)
  have hstops : t.sweep = some (.order 0 (t.orderNumber 0)) := by
    rw [ht, State.compareOrder_eq] at hnew ⊢
    exact if_neg hnew
  rw [hstops] at hsweep
  cases hsweep

end Sys2Proof.Machine
end
